-- ==== Sys2Proof/Word.lean ====
section
/-! DEFINITION. The word types of the 6240: bytes, station addresses and the identifiers that frames carry.
Numbers the part counts with (sheets, minutes, hundredths) are `Nat` or `Int`, not words. -/

namespace Sys2Proof

/-- One byte of a frame or of job data. -/
abbrev Byte := BitVec 8

/-- A 48-bit station address as on the wire, first byte most significant (spec/00 Stations, R178). -/
abbrev Station := BitVec 48

/-- A 16-bit tag chosen by a workstation, printer or console and echoed unchanged (R31, R41, R165). -/
abbrev Tag := BitVec 16

/-- A 32-bit badge code, cartridge serial or order reference (R10, R152). -/
abbrev Code32 := BitVec 32

end Sys2Proof
end

