-- ==== Sys2Proof/Syntax.lean ====
section
/-! DEFINITION. The commands of the 6240: one constructor per row of spec/opcode_table.json, with the operands
that come from outside the part. A row that takes a frame has no operand for it: the frame stands at the head of a
receive buffer, where FRAME_ARRIVAL put its bytes. -/

namespace Sys2Proof

/-- The two frame ports (spec/00 Position in the Network): the upstream port UP and the fleet port FP. -/
inductive Port where
  | up
  | fp
deriving DecidableEq, Repr

/-- An Ethernet frame at a port, without its preamble and check sequence; `body` is what follows the EtherType. -/
structure EthFrame where
  dst       : Station
  src       : Station
  etherType : BitVec 16
  body      : List Byte
deriving DecidableEq, Repr

/-- The worst error standing in a group of 64-bit words of the hold store (R27). -/
inductive WordErrors where
  /-- every word as it was written -/
  | clean
  /-- one or more words with a single bit in error, none worse -/
  | single
  /-- a word with an error the code cannot correct -/
  | uncorrectable
deriving DecidableEq, Repr, Inhabited

/-- An event at an account that may come between two requests of one RELEASE-ASK (R52, R82, R104): the step of that name, but for the
arbiter, which waits (R44). The first three are ACCOUNT-CREDIT, ACCOUNT-DEBIT and the TABLE-WRITE of an account or of a rate plan; in each
of the others a SETTLE or a RETURN may come about (R99). Which events these are: log entry 47. -/
inductive AccountEvent where
  | credit
  | debit
  | tableWrite
  | streamEnd
  | streamReject
  | fetchCompletion (header data : WordErrors)
  | headerCompletion (header : WordErrors)
  | stateChangeAtSe
  | recallJob
  | jobCancel
  | parkHoldExpiry (job : Nat)
deriving DecidableEq, Repr

/-- The steps of the part, one for each row of spec/opcode_table.json, in the table's order. -/
inductive Instr where
  /-- POWER_ON_RESET: `strap` is what the STRAP pins read as RESET_N rises (R175, R177). -/
  | powerOnReset (strap : BitVec 8)
  /-- FRAME_ARRIVAL: a frame reaches a port (R171). -/
  | frameArrival (port : Port) (frame : EthFrame)
  /-- FOREIGN_FRAME: the FC takes a foreign frame from the head of `port`'s receive buffer (R171). -/
  | foreignFrame (port : Port)
  /-- PORT_TRANSMIT: the transmitter of `port` sends its oldest frame (R171). -/
  | portTransmit (port : Port)
  | secondTick
  | minuteTick
  | dayRollover
  | jobOpen
  | jobData
  | jobClose
  | jobCancel
  /-- IDLE_TIMEOUT at upload slot `slot` (R36). -/
  | idleTimeout (slot : Fin 16)
  | dramGrant
  | writeCompletion
  /-- FETCH_COMPLETION: the errors that have come upon the header words and the data words of the slot since they were last
  written or read (R27). -/
  | fetchCompletion (header data : WordErrors)
  /-- HEADER_COMPLETION: the errors that have come upon the header words (R27). -/
  | headerCompletion (header : WordErrors)
  | releaseAsk
  | stateChangeAtRu
  | stateChangeAtSe
  | streamAccept
  | streamReject
  | credit
  | sheetDone
  | streamEnd
  /-- STALL_EXPIRY at context `ctx` (R75). -/
  | stallExpiry (ctx : Fin 8)
  /-- PARK_TIMER_EXPIRY at context `ctx` (R76). -/
  | parkTimerExpiry (ctx : Fin 8)
  /-- PARK_HOLD_EXPIRY of the job numbered `job` (R109). -/
  | parkHoldExpiry (job : Nat)
  /-- HOLD_EXPIRY of the job numbered `job` (R115). -/
  | holdExpiry (job : Nat)
  | status
  /-- STATUS_TIMEOUT of printer slot `printer` (R128). -/
  | statusTimeout (printer : Fin 64)
  /-- GRACE_EXPIRY of callout-table entry `entry` (R140). -/
  | graceExpiry (entry : Fin 48)
  /-- ESCALATION_EXPIRY of callout-table entry `entry` (R142). -/
  | escalationExpiry (entry : Fin 48)
  /-- MUTE_EXPIRY of zone `zone` (R147). -/
  | muteExpiry (zone : Fin 16)
  | reportTaken
  | unknownCommand
  | tableWrite
  | tableRead
  | accountCredit
  | accountDebit
  | recallJob
  | conditionRead
  | calloutAck
  | calloutClose
  | calloutRead
  | zoneMute
  | zoneUnmute
  | orderAck
  | slotFitted
  | slotRead
  | consoleSet
  | serviceOn
  | intakeClose
  | serviceOff
  | timeSet
  | checkLevel
  | checkRead
  | checkClear
  | jobRead
  | partRead
  | printerReset
  | restart
  /-- FRAME_DISCARDED_AT_FC: the FC takes a print-path frame from the head of `port`'s receive buffer and discards it (R177). -/
  | frameDiscardedAtFc (port : Port)
deriving DecidableEq, Repr

end Sys2Proof
end

