-- ==== Sys2Proof/Decode.lean ====
section
/-! DEFINITION. The decoder of opcode-table words. No row of spec/opcode_table.json gives bits, so no word spells a
command; the frames that the part itself reads are decoded in Machine/Frames.lean. -/

namespace Sys2Proof

/-- The command that a word of the table spells: none, because no row of the table has fixed bits or fields. -/
def decodeTableWord (_nbits _w : Nat) : Option Instr := none

end Sys2Proof
end

