-- ==== Sys2Proof/Machine/State.lean ====
section
/-! DEFINITION. The state of the 6240: every table, record, queue, counter and mode the manual gives the part, block by
block (spec/00 Functional Blocks), and the state after power-on reset. A table is held sparsely: an entry that is not
listed holds its power-on value (Machine/PowerOn.lean). Records use the manual's field names. -/

namespace Sys2Proof.Machine

/-! ### Shapes -/

/-- A table of `n` entries, held as the list of the entries that differ from their power-on value, indexes rising. -/
structure Table (n : Nat) (α : Type) where
  cells : List (Fin n × α)
deriving DecidableEq, Repr

/-- One value for each consumable slot K, C, M, Y, DRUM, FUSER. -/
structure PerSlot (α : Type) where
  k : α
  c : α
  m : α
  y : α
  drum : α
  fuser : α
deriving DecidableEq, Repr

/-- A wall-clock reading: day number and minute of day (spec/00 Time). -/
structure Stamp where
  day    : Nat
  minute : Nat
deriving DecidableEq, Repr

/-- A running countdown: the count, and whether it has reached 0 with its expiry event not taken yet (spec/00 Time). -/
structure Countdown where
  left : Nat
  due  : Bool
deriving DecidableEq, Repr

/-! ### Named values, in the order the manual lists them (R178) -/

/-- The six consumable slots (R3). -/
inductive Consumable where
  | k | c | m | y | drum | fuser
deriving DecidableEq, Repr

/-- The option codes of the ticket, 1 to 8 (R3, R178). -/
inductive OptCode where
  | copies | sides | colour | size | staple | tray | bin | collate
deriving DecidableEq, Repr

inductive EntryState where
  | empty | defined
deriving DecidableEq, Repr

inductive AccountState where
  | closed | opened | frozen
deriving DecidableEq, Repr

inductive CondClass where
  | ignore | notice | fault
deriving DecidableEq, Repr

inductive CondEffect where
  | none | degrade | block
deriving DecidableEq, Repr

inductive CalloutKind where
  | service | facilities
deriving DecidableEq, Repr

inductive JobState where
  | free | receiving | sealing | held | queued | seeking | opening | printing | parked
deriving DecidableEq, Repr

inductive ParkReason where
  | blocked | stall | degraded | reset
deriving DecidableEq, Repr

inductive UploadState where
  | free | opened | sealing | ending
deriving DecidableEq, Repr

inductive ContextState where
  | free | opening | running | halted | saved
deriving DecidableEq, Repr

inductive OpenStep where
  | seek | wait | sent
deriving DecidableEq, Repr

inductive PrinterState where
  | unknown | ready | degraded | blocked | silent
deriving DecidableEq, Repr

inductive PanelState where
  | online | offline | sleeping | serviceMenu
deriving DecidableEq, Repr

inductive CalloutState where
  | free | grace | owed | sent | escalated | acked | suppressed
deriving DecidableEq, Repr

inductive ReorderState where
  | quiet | due | ordered
deriving DecidableEq, Repr

inductive DueTrigger where
  | exhausted | floor | daysLeft | lowLevel
deriving DecidableEq, Repr

inductive Detection where
  | firstSighting | serial | levelRise | command
deriving DecidableEq, Repr

inductive ServiceState where
  | idle | serving | intakeClosed
deriving DecidableEq, Repr

/-- Check classes in the order of R169. -/
inductive CheckClass where
  | corrected | uncorrectable | overrun
deriving DecidableEq, Repr

inductive EndReason where
  | complete | completeBySeek | failed | recalled | expiredParked
deriving DecidableEq, Repr

inductive AbortKind where
  | ended | park
deriving DecidableEq, Repr

inductive ResolvedCause where
  | cleared | reset
deriving DecidableEq, Repr

/-- The one code space of REPLY, JOB-REFUSED and RELEASE-ANSWER (R183). -/
inductive Code where
  | done | busy | range | absent | state | refusedStation | tooLate | saturated | notServing
  | unknownUser | noAccount | userLimit | tableFull | intakeBusy | ticket | sequence | window | tooLarge | length
  | storeFull | timeout | cancelled | expired | recalled
  | accepted | printerUnavailable | queued | resuming | queueFull | colourUnavailable | sizeUnavailable | optionLost
  | accountFrozen | quota | jobGone | wrongZone | notReady
deriving DecidableEq, Repr

/-! ### Loaded tables (chapter 1) -/

/-- Capability set (R3). -/
structure CapSet where
  colour  : Bool
  duplex  : Bool
  large   : Bool
  stapler : Bool
deriving DecidableEq, Repr

/-- A set of option losses (R15, R47). -/
structure LossSet where
  colour : Bool
  duplex : Bool
  large  : Bool
  staple : Bool
deriving DecidableEq, Repr

/-- An option code with a value, the value numbered as R178 numbers it. -/
structure OptionEntry where
  code  : OptCode
  value : Nat
deriving DecidableEq, Repr

/-- One place of a printer's slot map (R3). -/
structure SlotSetting where
  fitted      : Bool
  defaultType : Fin 64
deriving DecidableEq, Repr

/-- A printer entry (R3). `options` is the expected option list, each code with its default value. -/
structure PrinterEntry where
  state         : EntryState
  station       : Station
  zone          : Fin 16
  caps          : CapSet
  options       : List OptionEntry
  slotMap       : PerSlot SlotSetting
  statusTimeout : Nat
deriving DecidableEq, Repr

/-- A zone entry (R9): times in minutes, the stall time in seconds. The zone is MUTED while `mute` is present. -/
structure ZoneEntry where
  holdTime     : Nat
  parkTime     : Nat
  parkHoldTime : Nat
  stallTime    : Nat
  mute         : Option Countdown
deriving DecidableEq, Repr

/-- A user entry (R10). -/
structure UserEntry where
  state           : EntryState
  badge           : Code32
  account         : Fin 1024
  homeZone        : Fin 16
  mayDowngrade    : Bool
  mayPartial      : Bool
  colourPermitted : Bool
  liveJobs        : Nat
deriving DecidableEq, Repr

/-- An account entry (R12, R93). Amounts are hundredths, signed as the arithmetic of R91. -/
structure AccountEntry where
  state            : AccountState
  overdraft        : Int
  plan             : Fin 16
  balance          : Int
  reserved         : Int
  charged          : Int
  unbilled         : Int
  liveReservations : Nat
deriving DecidableEq, Repr

/-- A rate plan (R14), amounts in hundredths. -/
structure RatePlan where
  rm : Nat
  rc : Nat
  rl : Nat
  rd : Nat
  discount : Nat
  minimum  : Nat
deriving DecidableEq, Repr

/-- A condition entry (R15). -/
structure ConditionEntry where
  cls        : CondClass
  effect     : CondEffect
  loss       : LossSet
  grace      : Nat
  escalation : Nat
  kind       : CalloutKind
deriving DecidableEq, Repr

/-- A supply entry (R17). -/
structure SupplyEntry where
  state      : EntryState
  kind       : Consumable
  ratedYield : Nat
  leadDays   : Nat
  floorCount : Nat
  lowLevel   : Nat
  colourStop : Nat
deriving DecidableEq, Repr

/-- The seven loaded tables, with the dynamic fields that live in their entries (chapter 1). -/
structure Tables where
  printers   : Table 64 PrinterEntry
  zones      : Table 16 ZoneEntry
  users      : Table 8192 UserEntry
  accounts   : Table 1024 AccountEntry
  plans      : Table 16 RatePlan
  conditions : Table 256 ConditionEntry
  supplies   : Table 64 SupplyEntry
deriving DecidableEq, Repr

/-! ### Intake and the hold store (chapter 2) -/

/-- An upload slot (R30). -/
structure UploadSlot where
  state     : UploadState
  job       : Nat
  nextSeq   : Nat
  written   : Nat
  lastSheet : Nat
  idle      : Option Countdown
  pending   : Option Code
deriving DecidableEq, Repr

/-- A segment position (2.2): an extent and a slot in it. -/
structure SegPos where
  extent : Fin 4096
  slot   : Fin 64
deriving DecidableEq, Repr

/-- A segment's header (R20). -/
structure Header where
  length     : Nat
  sheetStart : Bool
  sheet      : Nat
deriving DecidableEq, Repr, Inhabited

/-- A segment: header and data bytes (R20). -/
structure Segment where
  header : Header
  data   : List Byte
deriving DecidableEq, Repr, Inhabited

/-- What a segment slot of the DRAM holds: the segment last written, and the errors now standing in its words (R27). -/
structure StoredSegment where
  segment      : Segment
  headerErrors : WordErrors
  dataErrors   : WordErrors
deriving DecidableEq, Repr, Inhabited

/-- A write-queue entry (R24). -/
structure WriteEntry where
  job     : Nat
  seq     : Nat
  pos     : SegPos
  segment : Segment
deriving DecidableEq, Repr

inductive ReadKind where
  | fetch | header
deriving DecidableEq, Repr

/-- A read-queue entry (R25). `segment` is the number of the segment at `pos` in the job, which the position implies. -/
structure ReadEntry where
  context : Fin 8
  kind    : ReadKind
  job     : Nat
  pos     : SegPos
  segment : Nat
deriving DecidableEq, Repr

/-- A DRAM operation (2.3). -/
inductive DramRequest where
  | write (e : WriteEntry)
  | read (e : ReadEntry)
deriving DecidableEq, Repr

/-- The operation in progress; `ignored` when a RESTART was taken since its grant (R40). -/
structure DramOp where
  request : DramRequest
  ignored : Bool
deriving DecidableEq, Repr

inductive QueueMark where
  | writes | reads
deriving DecidableEq, Repr

/-- The Hold Store Controller and the DRAM (R20 to R27). -/
structure HoldStore where
  links      : Table 4096 (Option (Fin 4096))
  poolHead   : Option (Fin 4096)
  poolTail   : Option (Fin 4096)
  poolLength : Nat
  writes     : List WriteEntry
  reads      : List ReadEntry
  op         : Option DramOp
  lastServed : QueueMark
  store      : Table 262144 (Option StoredSegment)
  epoch      : Nat
deriving DecidableEq, Repr

/-! ### Job records (chapter 2) -/

/-- The actual tallies of a job (R73, R86). -/
structure Tallies where
  fm : Nat
  fc : Nat
  d  : Nat
  l  : Nat
deriving DecidableEq, Repr

inductive Sides where
  | one | two
deriving DecidableEq, Repr

inductive ColourMode where
  | mono | colour
deriving DecidableEq, Repr

inductive SheetSize where
  | standard | large
deriving DecidableEq, Repr

/-- The charge values of a resolved vector (3.2). -/
structure ChargeValues where
  sides  : Sides
  colour : ColourMode
  size   : SheetSize
deriving DecidableEq, Repr

/-- One printer value of a resolved vector, marked OMITTED when filled from a default (R45). -/
structure PrinterValue where
  code    : OptCode
  value   : Nat
  omitted : Bool
deriving DecidableEq, Repr

/-- A resolved option vector (3.2). -/
structure OptionVector where
  values : List PrinterValue
  charge : ChargeValues
deriving DecidableEq, Repr

/-- A job record (R28). -/
structure JobRecord where
  number        : Nat
  state         : JobState
  user          : Fin 8192
  account       : Fin 1024
  station       : Station
  zone          : Fin 16
  created       : Stamp
  ticket        : List OptionEntry
  pages         : Nat
  copies        : Nat
  segments      : Nat
  bytes         : Nat
  chainHead     : Option (Fin 4096)
  chainTail     : Option (Fin 4096)
  extents       : Nat
  countdown     : Option Countdown
  reservation   : Option Nat
  sheetCap      : Option Nat
  tallies       : Tallies
  confirmed     : Nat
  resumeSheet   : Option Nat
  parkedAt      : Option Stamp
  parkReason    : Option ParkReason
  vector        : Option OptionVector
  boundPrinter  : Option (Fin 64)
  boundContext  : Option (Fin 8)
  releases      : Nat
  recallPending : Bool
deriving DecidableEq, Repr

/-! ### Release and streaming (chapters 3 and 4) -/

/-- The state a queue entry's job came from (R55). -/
inductive Origin where
  | held
  | parked (reason : ParkReason) (parkedAt : Stamp)
deriving DecidableEq, Repr

/-- A release-queue entry (R55). -/
structure QueueEntry where
  job       : Nat
  printer   : Fin 64
  origin    : Origin
  countdown : Nat
deriving DecidableEq, Repr

/-- A change of view told by the CM (R130): the printer, its new state, and its loss set for DEGRADED. -/
structure ViewNotice where
  printer : Fin 64
  state   : PrinterState
  loss    : LossSet
deriving DecidableEq, Repr

/-- Whether the context arbiter waits while the RU takes the candidates of a RELEASE-ASK (R44, R60). The model's own; it is off before
and after every step. -/
inductive ArbiterHold where
  /-- no ask is being taken: the arbiter runs when it is called -/
  | off
  /-- the candidates of an ask are being taken -/
  | on
  /-- they are being taken, and an event between has called the arbiter, which runs when they have been taken -/
  | called
deriving DecidableEq, Repr

/-- The Release Unit: release queue and saved list (R55, R59), the CM's notices not yet taken (R58), and whether the arbiter waits
(R44). -/
structure ReleaseUnit where
  queue   : List QueueEntry
  saved   : List (Fin 8)
  notices : List ViewNotice
  hold    : ArbiterHold
deriving DecidableEq, Repr

/-- A segment buffer (R63). -/
inductive Buffer where
  | empty
  | fetching (segment : Nat)
  | full (segment : Nat) (contents : Segment)
deriving DecidableEq, Repr

inductive Mode where
  | start
  | continued
  | restartAt (sheet : Nat)
deriving DecidableEq, Repr

/-- The end kinds of R77. -/
inductive EndKind where
  | complete
  | stopped (sheet : Nat)
  | stall
  | parkTimer
  | degraded
  | recall
  | reset
deriving DecidableEq, Repr

/-- A stream context (R63). -/
structure Context where
  state      : ContextState
  owner      : Option (Fin 64)
  job        : Option Nat
  parkedJob  : Option Nat
  saveDone   : Bool
  mode       : Option Mode
  step       : Option OpenStep
  nextFetch  : Option Nat
  position   : Option SegPos
  sent       : Nat
  bufA       : Buffer
  bufB       : Buffer
  credit     : Nat
  stall      : Option Countdown
  park       : Option Countdown
  sheetCap   : Option Nat
  lastSheet  : Nat
  lastSent   : Bool
  pendingEnd : Option EndKind
deriving DecidableEq, Repr

/-- The Stream Engine: eight contexts, and the CM's notices not yet taken (R76). -/
structure StreamEngine where
  contexts : Table 8 Context
  notices  : List ViewNotice
deriving DecidableEq, Repr

/-! ### Conditions and callouts (chapters 8 and 9) -/

/-- A condition-list entry (R125). -/
structure CondItem where
  code          : Fin 256
  cls           : CondClass
  effect        : CondEffect
  loss          : LossSet
  firstSeen     : Stamp
  calloutWanted : Bool
deriving DecidableEq, Repr

/-- A history record (R133). -/
structure HistoryRecord where
  code      : Fin 256
  firstSeen : Stamp
  cleared   : Stamp
deriving DecidableEq, Repr

/-- A printer's condition record (R125). `state` is absent while the printer entry is EMPTY (R8, R136). -/
structure ConditionRecord where
  list      : List CondItem
  state     : Option PrinterState
  loss      : LossSet
  countdown : Option Countdown
  panel     : Option PanelState
  history   : List HistoryRecord
deriving DecidableEq, Repr

/-- A callout-table entry (R137). -/
structure CalloutEntry where
  state          : CalloutState
  printer        : Fin 64
  code           : Fin 256
  firstSeen      : Stamp
  kind           : CalloutKind
  level          : Nat
  countdown      : Option Countdown
  escalationOwed : Bool
  parkedJobs     : Nat
deriving DecidableEq, Repr

/-- A RESOLVED notice without its stamp (R146). -/
structure ResolvedNotice where
  printer   : Fin 64
  station   : Station
  zone      : Fin 16
  code      : Fin 256
  kind      : CalloutKind
  firstSeen : Stamp
  level     : Nat
  stateAt   : CalloutState
  cause     : ResolvedCause
  cleared   : Stamp
deriving DecidableEq, Repr

/-- The Callout Unit (chapter 9). -/
structure CalloutUnit where
  entries      : Table 48 CalloutEntry
  owedResolved : List ResolvedNotice
  dropped      : Nat
deriving DecidableEq, Repr

/-! ### Consumables (chapter 10) -/

/-- What is kept of an owed FITTED notice (R158). -/
structure OwedFitted where
  prior     : ReorderState
  orderRef  : Option Code32
  detection : Detection
  fittedAt  : Stamp
deriving DecidableEq, Repr

/-- A slot record (R152). -/
structure SlotRecord where
  supply      : Fin 64
  remaining   : Nat
  overrun     : Nat
  today       : Nat
  average     : Nat
  seeded      : Bool
  lastLevel   : Option Nat
  lastSerial  : Option Code32
  reorder     : ReorderState
  trigger     : Option DueTrigger
  orderRef    : Option Code32
  owedFitted  : Option OwedFitted
  owedReorder : Bool
  exhausted   : Bool
  commandFit  : Bool
deriving DecidableEq, Repr

/-! ### Reports (chapter 11) -/

/-- A CALLOUT notice (R141). -/
structure CalloutNotice where
  printer   : Fin 64
  station   : Station
  zone      : Fin 16
  code      : Fin 256
  kind      : CalloutKind
  firstSeen : Stamp
  level     : Nat
  state     : Option PrinterState
  parked    : Nat
  present   : Nat
deriving DecidableEq, Repr

/-- A REORDER notice (R159). -/
structure ReorderNotice where
  printer    : Fin 64
  station    : Station
  zone       : Fin 16
  slot       : Consumable
  supply     : Fin 64
  trigger    : Option DueTrigger
  remaining  : Nat
  overrun    : Nat
  average    : Nat
  daysLeft   : Nat
  lastLevel  : Option Nat
  lastSerial : Option Code32
  leadDays   : Nat
  floorCount : Nat
deriving DecidableEq, Repr

/-- A FITTED notice (R158). -/
structure FittedNotice where
  printer    : Fin 64
  station    : Station
  zone       : Fin 16
  slot       : Consumable
  fitted     : OwedFitted
  supply     : Fin 64
  ratedYield : Nat
  lastSerial : Option Code32
  lastLevel  : Option Nat
deriving DecidableEq, Repr

inductive Disposition where
  | settled | returned
deriving DecidableEq, Repr

/-- The marks of a JOB-AUDIT (R100). -/
structure AuditMarks where
  floored           : Bool
  minimum           : Bool
  clamped           : Bool
  unbilledSaturated : Bool
  ctdSaturated      : Bool
deriving DecidableEq, Repr

/-- A JOB-AUDIT (R100), its stamp apart. -/
structure JobAudit where
  job          : Nat
  user         : Fin 8192
  account      : Fin 1024
  reason       : EndReason
  disposition  : Disposition
  reservation  : Nat
  charge       : Nat
  charged      : Nat
  unbilledPart : Nat
  tallies      : Tallies
  confirmed    : Nat
  sheetCap     : Option Nat
  releases     : Nat
  marks        : AuditMarks
  balance      : Int
  available    : Int
deriving DecidableEq, Repr

/-- Where a check occurred (R169): a job and an extent for the store classes, a port for PORT-OVERRUN. -/
inductive CheckSite where
  | store (job : Nat) (extent : Fin 4096)
  | port (p : Port)
deriving DecidableEq, Repr

/-- A check record (R169). -/
structure CheckRecord where
  count : Nat
  first : Option (CheckSite × Stamp)
  last  : Option Stamp
deriving DecidableEq, Repr

/-- A CHECK report (R169), its stamp apart. -/
structure CheckReport where
  cls   : CheckClass
  site  : CheckSite
  count : Nat
  worst : Option CheckClass
deriving DecidableEq, Repr

/-- A RESTARTED report (R174), its stamp apart. -/
structure RestartedReport where
  dropped  : Nat
  settled  : Nat
  returned : Nat
deriving DecidableEq, Repr

/-- The seven kinds of report (R168). -/
inductive ReportBody where
  | callout (n : CalloutNotice)
  | resolved (n : ResolvedNotice)
  | reorder (n : ReorderNotice)
  | fitted (n : FittedNotice)
  | audit (n : JobAudit)
  | check (n : CheckReport)
  | restarted (n : RestartedReport)
deriving DecidableEq, Repr

/-- A report in the report queue (R168). -/
structure Report where
  stamp : Stamp
  body  : ReportBody
deriving DecidableEq, Repr

/-! ### The management unit (chapter 11) -/

/-- An entry of the console station list (R165). -/
structure ConsoleEntry where
  station       : Station
  reportStation : Bool
deriving DecidableEq, Repr

/-- A PRINTER-RESET whose reply waits for a read in flight (R80, R173). -/
structure ResetWait where
  station : Station
  tag     : Tag
deriving DecidableEq, Repr

/-- The Management Unit (R165 to R175). -/
structure ManagementUnit where
  consoles      : Table 4 (Option ConsoleEntry)
  service       : ServiceState
  clock         : Stamp
  rolloversDue  : Nat
  reports       : List Report
  droppedAudits : Nat
  corrected     : CheckRecord
  uncorrectable : CheckRecord
  overrun       : CheckRecord
  worst         : Option CheckClass
  checkLevel    : Fin 4
  resetWaits    : Table 64 (Option ResetWait)
deriving DecidableEq, Repr

/-! ### Frames the part makes (chapters 2, 3, 4, 11, 12) -/

/-- One slot of a SLOT-READ reply (R163). -/
structure SlotReading where
  fitted     : Bool
  record     : SlotRecord
  daysLeft   : Nat
  ratedYield : Nat
deriving DecidableEq, Repr

/-- The contents of a CHECK-READ or CHECK-CLEAR reply (R170). -/
structure CheckReading where
  corrected     : CheckRecord
  uncorrectable : CheckRecord
  overrun       : CheckRecord
  worst         : Option CheckClass
deriving DecidableEq, Repr

/-- The contents of a PART-READ reply (R172). -/
structure PartReading where
  service        : ServiceState
  clock          : Stamp
  checkLevel     : Fin 4
  poolLength     : Nat
  jobStates      : List Nat
  uploadStates   : List Nat
  contextStates  : List Nat
  savedLength    : Nat
  releaseDepth   : Nat
  writeDepth     : Nat
  readDepth      : Nat
  reportDepth    : Nat
  calloutStates  : List Nat
  owedResolved   : Nat
  droppedNotices : Nat
  droppedAudits  : Nat
  consoles       : List (Option ConsoleEntry)
deriving DecidableEq, Repr

/-- The contents of a REPLY (R182). -/
inductive Contents where
  | none
  | printer (e : PrinterEntry)
  | zone (e : ZoneEntry)
  | user (e : UserEntry)
  | account (e : AccountEntry)
  | plan (e : RatePlan)
  | condition (e : ConditionEntry)
  | supply (e : SupplyEntry)
  | balance (account : Fin 1024) (balance available : Int)
  | conditions (r : ConditionRecord)
  | callouts (es : List CalloutEntry) (free owed : Nat)
  | slots (r : PerSlot SlotReading)
  | checks (r : CheckReading) (level : Fin 4)
  | checksCleared (r : CheckReading)
  | job (r : JobRecord) (entry : Option (Nat × QueueEntry))
  | part (r : PartReading)
deriving DecidableEq, Repr

/-- The marks of a RELEASE-ANSWER entry (R48, R54). -/
structure AnswerMarks where
  colourToMono     : Bool
  duplexToSimplex  : Bool
  stapleDropped    : Bool
  partly           : Bool
deriving DecidableEq, Repr

/-- An entry of a RELEASE-ANSWER (R54). -/
structure AnswerEntry where
  job         : Nat
  outcome     : Code
  marks       : AnswerMarks
  sheetCap    : Option Nat
  reservation : Option Nat
  declared    : Option (Nat × Nat)
deriving DecidableEq, Repr

/-- The print-path frames the part sends (R180 to R182). -/
inductive OutFrame where
  | receiptOpen (tag : Tag) (job window : Nat)
  | receiptClosed (job segments bytes : Nat)
  | dataAck (job seq : Nat)
  | refusedOpen (tag : Tag) (code : Code)
  | refusedJob (job : Nat) (code : Code)
  | reply (tag : Tag) (kind : Byte) (code : Code) (contents : Contents)
  | report (r : Report)
  | releaseAnswer (tag : Tag) (badge : Code32) (result : Code) (entries : List AnswerEntry) (available : Option Int)
  | streamOpen (job : Nat) (mode : Mode) (sent lastSheet : Nat) (sheetCap : Option Nat) (pages copies : Nat)
      (options : List OptionEntry)
  | streamData (last : Bool) (job segment : Nat) (contents : Segment)
  | streamAbort (job : Nat) (kind : AbortKind) (sent lastSheet : Nat)
deriving DecidableEq, Repr

/-- A frame in a transmit queue: its age, its destination and what it carries (R171). -/
structure TxFrame where
  age   : Nat
  dst   : Station
  frame : OutFrame
deriving DecidableEq, Repr

/-- A foreign frame in a pass-through buffer, with its age (R171). -/
structure PassFrame where
  age   : Nat
  frame : EthFrame
deriving DecidableEq, Repr

/-- A port (R171): its receive buffer, the pass-through buffer its transmitter serves, and its transmit queue. -/
structure PortState where
  rx   : List EthFrame
  pass : List PassFrame
  tx   : List TxFrame
deriving DecidableEq, Repr

/-! ### The whole part -/

/-- The state of the 6240, by block, and the queue of commands that wait. `age` and `sent` are the model's own: the age stamp
of the next queued frame, and the frames that have left the ports since power-on. So is `between`, which like `pending` is the
environment's: the events that come before each of the requests that RELEASE-ASKs have yet to make of the CU and the AU, one list for
each request in turn; none come where the lists have run out (R82, R104, log entry 47). -/
structure State where
  up          : PortState
  fp          : PortState
  strap       : BitVec 8
  age         : Nat
  sent        : List (Port × EthFrame)
  tables      : Tables
  slots       : Table 16 UploadSlot
  hsc         : HoldStore
  jobs        : Table 512 JobRecord
  lastNumber  : Nat
  ru          : ReleaseUnit
  se          : StreamEngine
  cm          : Table 64 ConditionRecord
  co          : CalloutUnit
  slotRecords : Table 64 (PerSlot SlotRecord)
  mu          : ManagementUnit
  pending     : List Instr
  between     : List (List AccountEvent)
deriving DecidableEq, Repr

/-- No step of the 6240 stops the part with a fault: the manual answers, discards or takes every event. -/
inductive Fault where
deriving DecidableEq, Repr

/-- The refusals of a step. -/
inductive Refusal where
  /-- Raised by `exec`'s arm of a command that has no meaning yet; safe, since no effect is claimed. No arm raises it. -/
  | notModelled (mnemonic : String)
deriving DecidableEq, Repr

/-- The state after power-on reset with the STRAP pins reading `strap` (R175 and the power-on values of each chapter). -/
def State.powerOn (strap : BitVec 8) (epoch : Nat) : State where
  up := ⟨[], [], []⟩
  fp := ⟨[], [], []⟩
  strap := strap
  age := 0
  sent := []
  tables := ⟨⟨[]⟩, ⟨[]⟩, ⟨[]⟩, ⟨[]⟩, ⟨[]⟩, ⟨[]⟩, ⟨[]⟩⟩
  slots := ⟨[]⟩
  hsc :=
    { links := ⟨[]⟩, poolHead := some 0, poolTail := some 4095, poolLength := 4096, writes := [], reads := [],
      op := none, lastServed := .reads, store := ⟨[]⟩, epoch := epoch }
  jobs := ⟨[]⟩
  lastNumber := 0
  ru := ⟨[], [], [], .off⟩
  se := ⟨⟨[]⟩, []⟩
  cm := ⟨[]⟩
  co := ⟨⟨[]⟩, [], 0⟩
  slotRecords := ⟨[]⟩
  mu :=
    { consoles := ⟨[]⟩, service := .idle, clock := ⟨0, 0⟩, rolloversDue := 0, reports := [], droppedAudits := 0,
      corrected := ⟨0, none, none⟩, uncorrectable := ⟨0, none, none⟩, overrun := ⟨0, none, none⟩, worst := none,
      checkLevel := 3, resetWaits := ⟨[]⟩ }
  pending := []
  between := []

/-- The machine right after reset: power-on with the STRAP pins read as 0 (log entry 10), and no command waiting. -/
def State.reset : State := State.powerOn 0 0

end Sys2Proof.Machine
end

