-- ==== Sys2Proof/Config.lean ====
section
/-! DEFINITION. What the manual leaves open and an implementation fixes. Each is a FREE VALUE: it has no body, so nothing
proved of the model rests on what it is. -/

namespace Sys2Proof

open Sys2Proof.Machine in
/-- What a segment slot holds after the `epoch`-th power-on before anything is written to it: R40 leaves it undefined
(DESIGN CHOICE: a free value, log entry 7). -/
opaque Config.powerOnSegment (epoch : Nat) (extent : Fin 4096) (slot : Fin 64) : StoredSegment

/-- The resume sheet of a job that parks with 65535 sheets confirmed, less 1: R107 gives confirmed sheets + 1, which the field
does not hold (DESIGN CHOICE: a free value within the field's range 1 to 65535, log entry 23). -/
opaque Config.resumeSheetBeyond : Fin 65535

/-- The segments sent that the STREAM-ABORT of an unbound STREAM-ACCEPT carries: R64 gives none (DESIGN CHOICE: a free value,
log entry 24). -/
opaque Config.unboundAbortSent : Fin 4294967296

/-- The last sheet started that the STREAM-ABORT of an unbound STREAM-ACCEPT carries (DESIGN CHOICE: a free value, log
entry 24). -/
opaque Config.unboundAbortSheet : Fin 65536

/-- The fields of replies and reports that may be absent and that R178 gives no encoding for when they are. -/
inductive AbsentField where
  | chainHead | chainTail | countdown | reservation | parkedAt | parkReason | vectorCount | boundPrinter | boundContext
  | muteMinutes | statusCountdown | panelState | printerState | calloutCountdown | dueTrigger | orderRef | occurrence
  | consoleStation
deriving DecidableEq, Repr

/-- The `i`-th byte of an absent field in a reply or report (DESIGN CHOICE: a free value, log entry 12). -/
opaque Config.absentByte (field : AbsentField) (i : Nat) : Byte

end Sys2Proof
end

