-- ==== Sys2Proof/Machine/Table.lean ====
section
/-! DEFINITION. Sparse tables: reading, writing, mapping and searching, and the canonical form they keep. `d i` is the
power-on value of entry `i`. -/

namespace Sys2Proof.Machine

variable {n : Nat} {α : Type}

/-- Entry `i`: the listed value, or the power-on value where none is listed. -/
def Table.get (d : Fin n → α) (t : Table n α) (i : Fin n) : α :=
  match t.cells.find? (fun c => c.1 == i) with
  | some c => c.2
  | none => d i

/-- Puts the cell `(i, v)` in its place in a list of cells, replacing the one of index `i`. -/
def insertCell (i : Fin n) (v : α) : List (Fin n × α) → List (Fin n × α)
  | [] => [(i, v)]
  | (k, x) :: rest =>
    if i < k then (i, v) :: (k, x) :: rest
    else if i = k then (i, v) :: rest
    else (k, x) :: insertCell i v rest

/-- Writes entry `i`. Writing the power-on value takes the entry off the list. -/
def Table.set [DecidableEq α] (d : Fin n → α) (t : Table n α) (i : Fin n) (v : α) : Table n α :=
  ⟨if v = d i then t.cells.filter (fun c => c.1 != i) else insertCell i v t.cells⟩

/-- Applies `f` to every listed entry. It is used only with an `f` that leaves power-on values as they are, so it acts on
every entry of the table. -/
def Table.mapListed [DecidableEq α] (d : Fin n → α) (f : Fin n → α → α) (t : Table n α) : Table n α :=
  ⟨t.cells.filterMap (fun c => if f c.1 c.2 = d c.1 then none else some (c.1, f c.1 c.2))⟩

/-- The lowest-numbered listed entry with property `p`. It is used only with a `p` that no power-on value has. -/
def Table.findListed (p : α → Bool) (t : Table n α) : Option (Fin n × α) :=
  t.cells.find? (fun c => p c.2)

/-- The canonical form: indexes strictly rising, and no listed entry equal to the power-on value. -/
def Table.wf [DecidableEq α] (d : Fin n → α) (t : Table n α) : Bool :=
  decide (t.cells.Pairwise (fun a b => a.1 < b.1)) && t.cells.all (fun c => decide (c.2 ≠ d c.1))

/-- The lowest index with property `p`. -/
def firstIndex (n : Nat) (p : Fin n → Bool) : Option (Fin n) :=
  (List.finRange n).find? p

/-- The number of indexes with property `p`. -/
def countIndexes (n : Nat) (p : Fin n → Bool) : Nat :=
  (List.finRange n).countP p

/-- The value of one consumable slot. -/
def PerSlot.get (t : PerSlot α) : Consumable → α
  | .k => t.k
  | .c => t.c
  | .m => t.m
  | .y => t.y
  | .drum => t.drum
  | .fuser => t.fuser

/-- Sets the value of one consumable slot. -/
def PerSlot.set (t : PerSlot α) (i : Consumable) (v : α) : PerSlot α :=
  match i with
  | .k => { t with k := v }
  | .c => { t with c := v }
  | .m => { t with m := v }
  | .y => { t with y := v }
  | .drum => { t with drum := v }
  | .fuser => { t with fuser := v }

/-- The six consumable slots in the order K to FUSER. -/
def consumables : List Consumable := [.k, .c, .m, .y, .drum, .fuser]

/-- Puts `x` into a list sorted by the strict order `before`, ahead of the elements it is equal to. -/
def insertBy (before : α → α → Bool) (x : α) : List α → List α
  | [] => [x]
  | y :: rest => if before y x then y :: insertBy before x rest else x :: y :: rest

/-- The list sorted by the strict order `before`; equal elements keep their order. -/
def sortBy (before : α → α → Bool) : List α → List α
  | [] => []
  | x :: rest => insertBy before x (sortBy before rest)

end Sys2Proof.Machine
end

