-- ==== Sys2Proof/Machine/PowerOn.lean ====
section
/-! DEFINITION. The power-on value of every table entry and record (the power-on columns of chapters 1 to 11). -/

namespace Sys2Proof.Machine

def LossSet.none : LossSet := ⟨false, false, false, false⟩

def CapSet.none : CapSet := ⟨false, false, false, false⟩

/-- R3. -/
def PrinterEntry.powerOn : PrinterEntry where
  state := .empty
  station := 0
  zone := 0
  caps := CapSet.none
  options := []
  slotMap := ⟨⟨false, 0⟩, ⟨false, 0⟩, ⟨false, 0⟩, ⟨false, 0⟩, ⟨false, 0⟩, ⟨false, 0⟩⟩
  statusTimeout := 120

/-- R9: 24 hours, 5 minutes, 4 hours, 120 seconds, OPEN. -/
def ZoneEntry.powerOn : ZoneEntry := ⟨1440, 5, 240, 120, none⟩

/-- R10. -/
def UserEntry.powerOn : UserEntry := ⟨.empty, 0, 0, 0, false, false, false, 0⟩

/-- R12, R93. -/
def AccountEntry.powerOn : AccountEntry := ⟨.closed, 0, 0, 0, 0, 0, 0, 0⟩

/-- R14. -/
def RatePlan.powerOn : RatePlan := ⟨0, 0, 0, 0, 0, 0⟩

/-- R15: code 255 is NO CONTACT. -/
def ConditionEntry.powerOn (code : Fin 256) : ConditionEntry :=
  if code = 255 then ⟨.fault, .block, LossSet.none, 10, 60, .service⟩
  else ⟨.ignore, .none, LossSet.none, 0, 0, .service⟩

/-- R17. -/
def SupplyEntry.powerOn : SupplyEntry := ⟨.empty, .k, 1000, 1, 0, 0, 0⟩

/-- R30, R40. -/
def UploadSlot.powerOn : UploadSlot := ⟨.free, 0, 0, 0, 0, none, none⟩

/-- R21: entry i holds i + 1, and entry 4095 holds END. -/
def linkPowerOn (e : Fin 4096) : Option (Fin 4096) :=
  if h : e.val + 1 < 4096 then some ⟨e.val + 1, h⟩ else none

def Tallies.zero : Tallies := ⟨0, 0, 0, 0⟩

/-- R28: a FREE record. -/
def JobRecord.powerOn : JobRecord where
  number := 0
  state := .free
  user := 0
  account := 0
  station := 0
  zone := 0
  created := ⟨0, 0⟩
  ticket := []
  pages := 0
  copies := 0
  segments := 0
  bytes := 0
  chainHead := none
  chainTail := none
  extents := 0
  countdown := none
  reservation := none
  sheetCap := none
  tallies := Tallies.zero
  confirmed := 0
  resumeSheet := none
  parkedAt := none
  parkReason := none
  vector := none
  boundPrinter := none
  boundContext := none
  releases := 0
  recallPending := false

/-- R63: the FREE value of every field. -/
def Context.free : Context where
  state := .free
  owner := none
  job := none
  parkedJob := none
  saveDone := false
  mode := none
  step := none
  nextFetch := none
  position := none
  sent := 0
  bufA := .empty
  bufB := .empty
  credit := 0
  stall := none
  park := none
  sheetCap := none
  lastSheet := 0
  lastSent := false
  pendingEnd := none

/-- R136: the record of an EMPTY printer slot. -/
def ConditionRecord.powerOn : ConditionRecord := ⟨[], none, LossSet.none, none, none, []⟩

/-- R137, R150. -/
def CalloutEntry.free : CalloutEntry := ⟨.free, 0, 0, ⟨0, 0⟩, .service, 0, none, false, 0⟩

/-- R152: the reset values of a slot record whose slot's default supply type is `supply`. -/
def SlotRecord.resetTo (supply : Fin 64) : SlotRecord where
  supply := supply
  remaining := 0
  overrun := 0
  today := 0
  average := 0
  seeded := false
  lastLevel := none
  lastSerial := none
  reorder := .quiet
  trigger := none
  orderRef := none
  owedFitted := none
  owedReorder := false
  exhausted := false
  commandFit := false

/-- R164: at power-on all records hold reset values with supply type 0. -/
def slotRecordsPowerOn : PerSlot SlotRecord :=
  ⟨.resetTo 0, .resetTo 0, .resetTo 0, .resetTo 0, .resetTo 0, .resetTo 0⟩

/-- R169. -/
def CheckRecord.zero : CheckRecord := ⟨0, none, none⟩

end Sys2Proof.Machine
end

