-- ==== Sys2Proof/Machine/Ops.lean ====
section
/-! DEFINITION. The named operations that every block uses: reading and writing the entries of each table and record,
countdowns, saturating counts, outgoing frames, the report queue and the check records. -/

namespace Sys2Proof.Machine

/-! ### Counts, countdowns and stamps -/

/-- A count that stops at `limit`. -/
def satAdd (limit a b : Nat) : Nat := min (a + b) limit

/-- A countdown loaded with `n`. -/
def Countdown.load (n : Nat) : Countdown := ⟨n, false⟩

/-- One tick: the count falls by one; when it is then 0 the expiry is due. A restored count of 0 expires at the next tick
(R121). -/
def Countdown.tick (c : Countdown) : Countdown := ⟨c.left - 1, decide (c.left ≤ 1)⟩

/-- One tick of a countdown that may be absent. -/
def tickCountdown (c : Option Countdown) : Option Countdown := c.map Countdown.tick

/-- Whether an expiry event is at hand. -/
def expiryDue : Option Countdown → Bool
  | some c => c.due
  | none => false

/-- The count of a countdown that may be absent, 0 when it is. -/
def countLeft : Option Countdown → Nat
  | some c => c.left
  | none => 0

/-- Earlier by day, then by minute, as R43 and R139 compare stamps. -/
def Stamp.before (a b : Stamp) : Bool :=
  decide (a.day < b.day) || (decide (a.day = b.day) && decide (a.minute < b.minute))

/-- A group address: its first byte has its lowest bit set (R4). -/
def isGroupAddress (a : Station) : Bool := a.getLsbD 40

/-- The part's station address 02-4A-48-36-24-xx (R177). -/
def State.partStation (s : State) : Station := (0x024A483624 : BitVec 40) ++ s.strap

/-! ### Table entries -/

def State.printer (s : State) (p : Fin 64) : PrinterEntry := s.tables.printers.get (fun _ => PrinterEntry.powerOn) p

def State.setPrinter (s : State) (p : Fin 64) (e : PrinterEntry) : State :=
  { s with tables := { s.tables with printers := s.tables.printers.set (fun _ => PrinterEntry.powerOn) p e } }

def State.printerDefined (s : State) (p : Fin 64) : Bool := decide ((s.printer p).state = .defined)

def State.zone (s : State) (z : Fin 16) : ZoneEntry := s.tables.zones.get (fun _ => ZoneEntry.powerOn) z

def State.setZone (s : State) (z : Fin 16) (e : ZoneEntry) : State :=
  { s with tables := { s.tables with zones := s.tables.zones.set (fun _ => ZoneEntry.powerOn) z e } }

/-- A zone is MUTED while its remaining mute minutes are present (R9). -/
def State.zoneMuted (s : State) (z : Fin 16) : Bool := (s.zone z).mute.isSome

def State.user (s : State) (u : Fin 8192) : UserEntry := s.tables.users.get (fun _ => UserEntry.powerOn) u

def State.setUser (s : State) (u : Fin 8192) (e : UserEntry) : State :=
  { s with tables := { s.tables with users := s.tables.users.set (fun _ => UserEntry.powerOn) u e } }

/-- The DEFINED user that holds a badge code (R10). -/
def State.findUser (s : State) (badge : Code32) : Option (Fin 8192 × UserEntry) :=
  s.tables.users.findListed (fun e => decide (e.state = .defined) && decide (e.badge = badge))

def State.account (s : State) (a : Fin 1024) : AccountEntry := s.tables.accounts.get (fun _ => AccountEntry.powerOn) a

def State.setAccount (s : State) (a : Fin 1024) (e : AccountEntry) : State :=
  { s with tables := { s.tables with accounts := s.tables.accounts.set (fun _ => AccountEntry.powerOn) a e } }

def State.plan (s : State) (i : Fin 16) : RatePlan := s.tables.plans.get (fun _ => RatePlan.powerOn) i

def State.setPlan (s : State) (i : Fin 16) (e : RatePlan) : State :=
  { s with tables := { s.tables with plans := s.tables.plans.set (fun _ => RatePlan.powerOn) i e } }

def State.condition (s : State) (c : Fin 256) : ConditionEntry := s.tables.conditions.get ConditionEntry.powerOn c

def State.setCondition (s : State) (c : Fin 256) (e : ConditionEntry) : State :=
  { s with tables := { s.tables with conditions := s.tables.conditions.set ConditionEntry.powerOn c e } }

def State.supply (s : State) (i : Fin 64) : SupplyEntry := s.tables.supplies.get (fun _ => SupplyEntry.powerOn) i

def State.setSupply (s : State) (i : Fin 64) (e : SupplyEntry) : State :=
  { s with tables := { s.tables with supplies := s.tables.supplies.set (fun _ => SupplyEntry.powerOn) i e } }

def State.slot (s : State) (i : Fin 16) : UploadSlot := s.slots.get (fun _ => UploadSlot.powerOn) i

def State.setSlot (s : State) (i : Fin 16) (e : UploadSlot) : State :=
  { s with slots := s.slots.set (fun _ => UploadSlot.powerOn) i e }

def State.job (s : State) (i : Fin 512) : JobRecord := s.jobs.get (fun _ => JobRecord.powerOn) i

def State.setJob (s : State) (i : Fin 512) (r : JobRecord) : State :=
  { s with jobs := s.jobs.set (fun _ => JobRecord.powerOn) i r }

def State.context (s : State) (c : Fin 8) : Context := s.se.contexts.get (fun _ => Context.free) c

def State.setContext (s : State) (c : Fin 8) (x : Context) : State :=
  { s with se := { s.se with contexts := s.se.contexts.set (fun _ => Context.free) c x } }

def State.cond (s : State) (p : Fin 64) : ConditionRecord := s.cm.get (fun _ => ConditionRecord.powerOn) p

def State.setCond (s : State) (p : Fin 64) (r : ConditionRecord) : State :=
  { s with cm := s.cm.set (fun _ => ConditionRecord.powerOn) p r }

def State.callout (s : State) (i : Fin 48) : CalloutEntry := s.co.entries.get (fun _ => CalloutEntry.free) i

def State.setCallout (s : State) (i : Fin 48) (e : CalloutEntry) : State :=
  { s with co := { s.co with entries := s.co.entries.set (fun _ => CalloutEntry.free) i e } }

def State.slotRecord (s : State) (p : Fin 64) (q : Consumable) : SlotRecord :=
  (s.slotRecords.get (fun _ => slotRecordsPowerOn) p).get q

def State.setSlotRecord (s : State) (p : Fin 64) (q : Consumable) (r : SlotRecord) : State :=
  { s with
    slotRecords := s.slotRecords.set (fun _ => slotRecordsPowerOn) p
      ((s.slotRecords.get (fun _ => slotRecordsPowerOn) p).set q r) }

def State.console (s : State) (i : Fin 4) : Option ConsoleEntry := s.mu.consoles.get (fun _ => none) i

def State.setConsole (s : State) (i : Fin 4) (e : Option ConsoleEntry) : State :=
  { s with mu := { s.mu with consoles := s.mu.consoles.set (fun _ => none) i e } }

def State.resetWait (s : State) (p : Fin 64) : Option ResetWait := s.mu.resetWaits.get (fun _ => none) p

def State.setResetWait (s : State) (p : Fin 64) (w : Option ResetWait) : State :=
  { s with mu := { s.mu with resetWaits := s.mu.resetWaits.set (fun _ => none) p w } }

/-! ### Finding records -/

/-- The DEFINED printer whose entry holds a station address (R3, R41). -/
def State.printerOf (s : State) (a : Station) : Option (Fin 64) :=
  firstIndex 64 (fun p => s.printerDefined p && decide ((s.printer p).station = a))

/-- The live record that holds a job number (R28). -/
def State.findJob (s : State) (number : Nat) : Option (Fin 512 × JobRecord) :=
  s.jobs.findListed (fun r => decide (r.state ≠ .free) && decide (r.number = number))

/-- The upload slot bound to a job number (R19, R30). -/
def State.findSlot (s : State) (number : Nat) : Option (Fin 16) :=
  firstIndex 16 (fun i => decide ((s.slot i).state ≠ .free) && decide ((s.slot i).job = number))

/-- The context bound to a job number (R64). -/
def State.boundContextOf (s : State) (number : Nat) : Option (Fin 8) :=
  firstIndex 8 (fun c => decide ((s.context c).job = some number))

/-- The context bound at a printer: owned by it and bound to a job (R64). -/
def State.boundAt (s : State) (p : Fin 64) : Option (Fin 8) :=
  firstIndex 8 (fun c => decide ((s.context c).owner = some p) && (s.context c).job.isSome)

/-- The SAVED context that a printer owns (R59). -/
def State.savedAt (s : State) (p : Fin 64) : Option (Fin 8) :=
  firstIndex 8 (fun c => decide ((s.context c).owner = some p) && decide ((s.context c).state = .saved))

/-- The callout entry for a printer and code (R137). -/
def State.findCallout (s : State) (p : Fin 64) (code : Fin 256) : Option (Fin 48) :=
  firstIndex 48 fun i =>
    decide ((s.callout i).state ≠ .free) && decide ((s.callout i).printer = p) && decide ((s.callout i).code = code)

/-- Whether a slot record is live: its printer entry is DEFINED and its slot map marks the slot fitted (R152). -/
def State.slotLive (s : State) (p : Fin 64) (q : Consumable) : Bool :=
  s.printerDefined p && ((s.printer p).slotMap.get q).fitted

/-! ### Outgoing frames (R171) -/

def State.port (s : State) : Port → PortState
  | .up => s.up
  | .fp => s.fp

def State.setPort (s : State) (p : Port) (x : PortState) : State :=
  match p with
  | .up => { s with up := x }
  | .fp => { s with fp := x }

/-- Places a frame at the tail of a port's transmit queue, addressed to `dst`. -/
def State.send (s : State) (p : Port) (dst : Station) (f : OutFrame) : State :=
  let x := s.port p
  { s.setPort p { x with tx := x.tx ++ [⟨s.age, dst, f⟩] } with age := s.age + 1 }

/-- Sends a frame out of the FP to a printer's station. -/
def State.sendPrinter (s : State) (p : Fin 64) (f : OutFrame) : State := s.send .fp (s.printer p).station f

/-- Takes the frame at the head of a receive buffer out of it. -/
def State.popRx (s : State) (p : Port) : State :=
  let x := s.port p
  s.setPort p { x with rx := x.rx.tail }

/-! ### The report queue and the checks (R168, R169) -/

/-- The report queue holds fewer than 64 reports. -/
def State.reportRoom (s : State) : Bool := decide (s.mu.reports.length < 64)

/-- Places a report at the tail of the report queue, stamped with the wall clock. -/
def State.pushReport (s : State) (b : ReportBody) : State :=
  { s with mu := { s.mu with reports := s.mu.reports ++ [⟨s.mu.clock, b⟩] } }

/-- Offers a JOB-AUDIT: dropped and counted when the queue is full (R168). -/
def State.offerAudit (s : State) (a : JobAudit) : State :=
  if s.reportRoom then s.pushReport (.audit a)
  else { s with mu := { s.mu with droppedAudits := satAdd 65535 s.mu.droppedAudits 1 } }

/-- Offers a CHECK report: dropped when the queue is full (R168). -/
def State.offerCheck (s : State) (c : CheckReport) : State :=
  if s.reportRoom then s.pushReport (.check c) else s

/-- The severity of a check class: STORE-CORRECTED, PORT-OVERRUN, STORE-UNCORRECTABLE (R169). -/
def CheckClass.rank : CheckClass → Nat
  | .corrected => 1
  | .overrun => 2
  | .uncorrectable => 3

/-- The rank of the worst-class field, 0 for none. -/
def worstRank : Option CheckClass → Nat
  | some c => c.rank
  | none => 0

/-- Whether a check level reports a class (R169). -/
def checkReported (level : Fin 4) (c : CheckClass) : Bool :=
  match c with
  | .uncorrectable => decide (1 ≤ level.val)
  | .overrun => decide (2 ≤ level.val)
  | .corrected => decide (3 ≤ level.val)

def State.checkRecord (s : State) : CheckClass → CheckRecord
  | .corrected => s.mu.corrected
  | .uncorrectable => s.mu.uncorrectable
  | .overrun => s.mu.overrun

def State.setCheckRecord (s : State) (c : CheckClass) (r : CheckRecord) : State :=
  match c with
  | .corrected => { s with mu := { s.mu with corrected := r } }
  | .uncorrectable => { s with mu := { s.mu with uncorrectable := r } }
  | .overrun => { s with mu := { s.mu with overrun := r } }

/-- A check record after one more check at `site` (R169 steps 1 and 2). -/
def CheckRecord.note (r : CheckRecord) (site : CheckSite) (now : Stamp) : CheckRecord where
  count := satAdd 255 r.count 1
  first := if r.count = 0 then some (site, now) else r.first
  last := some now

/-- The worst-class field after a check of class `c` (R169 step 3). -/
def worseOf (worst : Option CheckClass) (c : CheckClass) : Option CheckClass :=
  if worstRank worst < c.rank then some c else worst

/-- A check arriving at the MU (R169). -/
def State.noteCheck (s : State) (c : CheckClass) (site : CheckSite) : State :=
  let r := (s.checkRecord c).note site s.mu.clock
  let worst := worseOf s.mu.worst c
  let s1 := s.setCheckRecord c r
  let s2 := { s1 with mu := { s1.mu with worst := worst } }
  if checkReported s.mu.checkLevel c then s2.offerCheck ⟨c, site, r.count, worst⟩ else s2

end Sys2Proof.Machine
end

