-- ==== Sys2Proof/Machine/Charge.lean ====
section
/-! DEFINITION. The Charge Unit (chapter 5): estimate tallies, the five stages of the charge and the cap search. Every
amount is a whole number of hundredths. -/

namespace Sys2Proof.Machine

/-- The sheets per copy S of a job of `pages` pages (R84). -/
def sheetsPerCopy (sides : Sides) (pages : Nat) : Nat :=
  match sides with
  | .one => pages
  | .two => if pages % 2 = 0 then pages / 2 else pages / 2 + 1

/-- The total sheets T (R84). -/
def totalSheets (sides : Sides) (pages copies : Nat) : Nat := sheetsPerCopy sides pages * copies

/-- Tallies of `faces` faces, all mono or all colour (R84, R85). -/
def talliesOf (v : ChargeValues) (faces d sheets : Nat) : Tallies where
  fm := match v.colour with | .mono => faces | .colour => 0
  fc := match v.colour with | .mono => 0 | .colour => faces
  d := d
  l := match v.size with | .standard => 0 | .large => sheets

/-- The tallies of a whole job (R84). -/
def wholeTallies (v : ChargeValues) (pages copies : Nat) : Tallies :=
  talliesOf v (pages * copies)
    (match v.sides with | .one => 0 | .two => pages / 2 * copies)
    (totalSheets v.sides pages copies)

/-- The faces of the first `n` sheets (R85). -/
def cappedFaces (sides : Sides) (pages n : Nat) : Nat :=
  match sides with
  | .one => n
  | .two => if pages % 2 = 0 then 2 * n else 2 * n - n / sheetsPerCopy .two pages

/-- The tallies of the first `n` sheets (R85). -/
def cappedTallies (v : ChargeValues) (pages n : Nat) : Tallies :=
  talliesOf v (cappedFaces v.sides pages n) (cappedFaces v.sides pages n - n) n

/-- Stage 1, gross (R87). -/
def grossOf (t : Tallies) (p : RatePlan) : Nat := t.fm * p.rm + t.fc * p.rc + t.l * p.rl

/-- Stage 2, net: the duplex credit subtracted, not below 0 (R87). -/
def netOf (t : Tallies) (p : RatePlan) : Nat := grossOf t p - t.d * p.rd

/-- Stage 3, discounted: rounded to the nearest hundredth, half up (R87). -/
def discountedOf (t : Tallies) (p : RatePlan) : Nat := (netOf t p * (100 - p.discount) + 50) / 100

/-- Stage 4, minimum (R88). -/
def minimumOf (t : Tallies) (p : RatePlan) : Nat :=
  if t.fm + t.fc = 0 then 0
  else if discountedOf t p < p.minimum then p.minimum
  else discountedOf t p

/-- The largest charge, 999,999.99 (R88). -/
def maxCharge : Nat := 99999999

/-- A charge with its marks (R82). -/
structure Charge where
  amount  : Nat
  floored : Bool
  minimum : Bool
  clamped : Bool
deriving DecidableEq, Repr

/-- The five stages (R87, R88). -/
def computeCharge (t : Tallies) (p : RatePlan) : Charge where
  amount := min (minimumOf t p) maxCharge
  floored := decide (grossOf t p < t.d * p.rd)
  minimum := decide (1 ≤ t.fm + t.fc) && decide (discountedOf t p < p.minimum)
  clamped := decide (maxCharge < minimumOf t p)

/-- ESTIMATE: the charge of the whole job (R82, R84). -/
def estimate (plan : RatePlan) (v : ChargeValues) (pages copies : Nat) : Nat :=
  (computeCharge (wholeTallies v pages copies) plan).amount

/-- CAPPED ESTIMATE: the charge of the first `n` sheets (R82, R85). -/
def cappedEstimate (plan : RatePlan) (v : ChargeValues) (pages n : Nat) : Nat :=
  (computeCharge (cappedTallies v pages n) plan).amount

/-- The largest count from 1 to `n` whose capped estimate does not exceed `limit`. -/
def capSearchTo (plan : RatePlan) (v : ChargeValues) (pages : Nat) (limit : Int) : Nat → Option Nat
  | 0 => none
  | n + 1 => if (cappedEstimate plan v pages (n + 1) : Int) ≤ limit then some (n + 1) else capSearchTo plan v pages limit n

/-- CAP SEARCH (R89). -/
def capSearch (plan : RatePlan) (v : ChargeValues) (pages copies : Nat) (limit : Int) : Option Nat :=
  capSearchTo plan v pages limit (totalSheets v.sides pages copies)

end Sys2Proof.Machine
end

