-- ==== Sys2Proof/Machine/Accounts.lean ====
section
/-! DEFINITION. The Account Unit (chapter 6): the available amount, RESERVE, SETTLE and RETURN, the JOB-AUDIT, and the
digit-by-digit decimal arithmetic of R91 that the integer arithmetic stands for. -/

namespace Sys2Proof.Machine

/-! ### Amounts -/

/-- Saturation value of balance and unbilled, 999,999.99 (R91). -/
def maxAmount : Int := 99999999

/-- Saturation value of charged-to-date, 99,999,999.99 (R91). -/
def maxCharged : Int := 9999999999

/-- The available amount: balance less reserved plus overdraft limit, exact (R92, R94). -/
def AccountEntry.available (a : AccountEntry) : Int := a.balance - a.reserved + a.overdraft

/-- The available amount as frames carry it (R92). -/
def shownAvailable (x : Int) : Int := if maxAmount < x then maxAmount else x

/-- Addition in a field that saturates at `limit` (R91). -/
def satAddInt (limit a b : Int) : Int := if limit < a + b then limit else a + b

/-! ### Decimal digits (R90, R91): amounts as digit lists, least significant first -/

/-- The value of a list of decimal digits, least significant first. -/
def digitsValue : List Nat → Nat
  | [] => 0
  | d :: rest => d + 10 * digitsValue rest

/-- The `w` decimal digits of a number, least significant first. -/
def toDigits : (w : Nat) → Nat → List Nat
  | 0, _ => []
  | w + 1, n => n % 10 :: toDigits w (n / 10)

/-- Addition digit by digit from the hundredths upward, with the carry out of the top digit (R91). -/
def addDigits : List Nat → List Nat → (carry : Nat) → List Nat × Nat
  | a :: as, b :: bs, carry =>
    let t := a + b + carry
    let rest := addDigits as bs (t / 10)
    (t % 10 :: rest.1, rest.2)
  | _, _, carry => ([], carry)

/-- Subtraction digit by digit with a borrow, the smaller from the larger (R91). -/
def subDigits : List Nat → List Nat → (borrow : Nat) → List Nat × Nat
  | a :: as, b :: bs, borrow =>
    let rest := subDigits as bs (if a < b + borrow then 1 else 0)
    ((if a < b + borrow then a + 10 - (b + borrow) else a - (b + borrow)) :: rest.1, rest.2)
  | _, _, borrow => ([], borrow)

/-- A packed decimal amount: its sign and its digits, least significant first (R90). -/
structure Packed where
  minus  : Bool
  digits : List Nat
deriving DecidableEq, Repr

/-- The value of a packed decimal amount in hundredths. -/
def Packed.value (a : Packed) : Int := if a.minus then -(digitsValue a.digits : Int) else (digitsValue a.digits : Int)

/-- The packed decimal amount of `w` digits for a value; zero carries PLUS (R90). -/
def Packed.ofInt (w : Nat) (x : Int) : Packed := ⟨decide (x < 0), toDigits w x.natAbs⟩

/-- The signed addition of R91 in a field of the operands' width that saturates at its largest magnitude. -/
def Packed.add (a b : Packed) : Packed :=
  if a.minus = b.minus then
    let r := addDigits a.digits b.digits 0
    if r.2 = 0 then ⟨a.minus && decide (digitsValue r.1 ≠ 0), r.1⟩ else ⟨a.minus, a.digits.map (fun _ => 9)⟩
  else if digitsValue b.digits ≤ digitsValue a.digits then
    let r := subDigits a.digits b.digits 0
    ⟨a.minus && decide (digitsValue r.1 ≠ 0), r.1⟩
  else
    ⟨b.minus, (subDigits b.digits a.digits 0).1⟩

/-! ### Requests -/

/-- The results of RESERVE (3.3, R95). -/
inductive ReserveResult where
  | reserved | quota | frozen | closed
deriving DecidableEq, Repr

/-- The tests of RESERVE, in order (R95). -/
def reserveResult (a : AccountEntry) (amount : Nat) : ReserveResult :=
  if a.state = .closed then .closed
  else if a.state = .frozen then .frozen
  else if a.available < (amount : Int) then .quota
  else if maxAmount < a.reserved + (amount : Int) then .quota
  else .reserved

/-- The account after RESERVE takes `amount` (R95). -/
def AccountEntry.reserve (a : AccountEntry) (amount : Nat) : AccountEntry :=
  { a with reserved := a.reserved + (amount : Int), liveReservations := a.liveReservations + 1 }

/-- A RESERVE request at account `i` (R95). -/
def State.reserve (s : State) (i : Fin 1024) (amount : Nat) : State × ReserveResult :=
  match reserveResult (s.account i) amount with
  | .reserved => (s.setAccount i ((s.account i).reserve amount), .reserved)
  | r => (s, r)

/-- The charge that settles a job: its actual tallies under the plan its account now names (R86, R96). -/
def State.settlementCharge (s : State) (r : JobRecord) : Charge :=
  computeCharge r.tallies (s.plan (s.account r.account).plan)

/-- The charged amount: the smaller of the charge and the reservation (R96 step 1). -/
def chargedAmount (c : Charge) (reservation : Nat) : Nat := min c.amount reservation

/-- The account after a settlement of charge `c` on `reservation` (R96 steps 2 to 6, R97). -/
def AccountEntry.settle (a : AccountEntry) (c : Charge) (reservation : Nat) : AccountEntry :=
  { a with
    unbilled := satAddInt maxAmount a.unbilled ((c.amount - chargedAmount c reservation : Nat) : Int)
    balance := a.balance - (chargedAmount c reservation : Int)
    reserved := a.reserved - (reservation : Int)
    charged := satAddInt maxCharged a.charged (chargedAmount c reservation : Int)
    liveReservations := a.liveReservations - 1 }

/-- The account after a return (R98). -/
def AccountEntry.giveBack (a : AccountEntry) (reservation : Nat) : AccountEntry :=
  { a with reserved := a.reserved - (reservation : Int), liveReservations := a.liveReservations - 1 }

/-- The marks of a settlement's JOB-AUDIT (R97, R100). -/
def settleMarks (a : AccountEntry) (c : Charge) (reservation : Nat) : AuditMarks where
  floored := c.floored
  minimum := c.minimum
  clamped := c.clamped
  unbilledSaturated := decide (maxAmount < a.unbilled + ((c.amount - chargedAmount c reservation : Nat) : Int))
  ctdSaturated := decide (maxCharged < a.charged + (chargedAmount c reservation : Int))

/-- SETTLE of the job in record `j` (R96). -/
def State.settleJob (s : State) (j : Fin 512) : State :=
  let r := s.job j
  match r.reservation with
  | some res =>
    (s.setAccount r.account ((s.account r.account).settle (s.settlementCharge r) res)).setJob j { r with reservation := none }
  | none => s

/-- RETURN of the job in record `j` (R98). -/
def State.returnJob (s : State) (j : Fin 512) : State :=
  let r := s.job j
  match r.reservation with
  | some res => (s.setAccount r.account ((s.account r.account).giveBack res)).setJob j { r with reservation := none }
  | none => s

/-- A job is tallied when at least one sheet has been reported for it (R99). -/
def JobRecord.tallied (r : JobRecord) : Bool := decide (1 ≤ r.tallies.fm + r.tallies.fc)

/-- The JOB-AUDIT of a settlement of the job in record `j`, built before the request, its last two fields read after it
(R100). -/
def State.settleAudit (s : State) (j : Fin 512) (reason : EndReason) : JobAudit :=
  let r := s.job j
  let a := s.account r.account
  let c := s.settlementCharge r
  let res := r.reservation.getD 0
  let after := a.settle c res
  { job := r.number, user := r.user, account := r.account, reason := reason, disposition := .settled, reservation := res,
    charge := c.amount, charged := chargedAmount c res, unbilledPart := c.amount - chargedAmount c res,
    tallies := r.tallies, confirmed := r.confirmed, sheetCap := r.sheetCap, releases := r.releases,
    marks := settleMarks a c res, balance := after.balance, available := shownAvailable after.available }

/-- The JOB-AUDIT of a return (R100). -/
def State.returnAudit (s : State) (j : Fin 512) (reason : EndReason) : JobAudit :=
  let r := s.job j
  let res := r.reservation.getD 0
  let after := (s.account r.account).giveBack res
  { job := r.number, user := r.user, account := r.account, reason := reason, disposition := .returned, reservation := res,
    charge := 0, charged := 0, unbilledPart := 0, tallies := r.tallies, confirmed := r.confirmed, sheetCap := r.sheetCap,
    releases := r.releases, marks := ⟨false, false, false, false, false⟩, balance := after.balance,
    available := shownAvailable after.available }

/-- SETTLE with its JOB-AUDIT (R99, R100). -/
def State.settleWithAudit (s : State) (j : Fin 512) (reason : EndReason) : State :=
  (s.settleJob j).offerAudit (s.settleAudit j reason)

/-- RETURN with its JOB-AUDIT (R99, R100). -/
def State.returnWithAudit (s : State) (j : Fin 512) (reason : EndReason) : State :=
  (s.returnJob j).offerAudit (s.returnAudit j reason)

/-- SETTLE if the job is tallied, RETURN if not, with the JOB-AUDIT (R99). -/
def State.settleOrReturn (s : State) (j : Fin 512) (reason : EndReason) : State :=
  if (s.job j).tallied then s.settleWithAudit j reason else s.returnWithAudit j reason

end Sys2Proof.Machine
end

