-- ==== Sys2Proof/Machine/Callouts.lean ====
section
/-! DEFINITION. The Callout Unit (chapter 9): creation and waiting, the sending step, escalation, resolution, zone opening
and the owed callouts and RESOLVED notices. -/

namespace Sys2Proof.Machine

/-! ### Notices -/

/-- The number of PARKED jobs of a zone (R141). -/
def State.parkedInZone (s : State) (z : Fin 16) : Nat :=
  s.jobs.cells.countP (fun c => decide (c.2.state = .parked) && decide (c.2.zone = z))

/-- The CALLOUT notice of a callout entry, built now (R141). -/
def State.calloutNotice (s : State) (e : CalloutEntry) : CalloutNotice where
  printer := e.printer
  station := (s.printer e.printer).station
  zone := (s.printer e.printer).zone
  code := e.code
  kind := e.kind
  firstSeen := e.firstSeen
  level := e.level
  state := (s.cond e.printer).state
  parked := s.parkedInZone (s.printer e.printer).zone
  present := (s.cond e.printer).list.length

/-- The escalation countdown of a code, absent when its escalation minutes are 0 (R140, R142). -/
def State.escalationCountdown (s : State) (code : Fin 256) : Option Countdown :=
  if (s.condition code).escalation = 0 then none else some (Countdown.load (s.condition code).escalation)

/-- Enqueues the CALLOUT of entry `i`, whose new contents are `e`, at the level it has reached (R140, R142): below level 3 its
escalation countdown is loaded, and at level 3 it is absent. -/
def State.sendCallout (s : State) (i : Fin 48) (e : CalloutEntry) : State :=
  let n := s.calloutNotice e
  (s.pushReport (.callout n)).setCallout i
    { e with
      parkedJobs := n.parked
      escalationOwed := false
      countdown := if e.level < 3 then s.escalationCountdown e.code else none }

/-- A notice for this printer is held: its zone is MUTED or the report queue is full (R140, R142). -/
def State.calloutHeld (s : State) (p : Fin 64) : Bool := s.zoneMuted (s.printer p).zone || !s.reportRoom

/-- The sending step of entry `i` (R140). -/
def State.sendingStep (s : State) (i : Fin 48) : State :=
  let e := s.callout i
  if s.calloutHeld e.printer then s.setCallout i { e with state := .owed, countdown := none }
  else s.sendCallout i { e with state := .sent }

/-- The escalation of entry `i` (R142). -/
def State.escalate (s : State) (i : Fin 48) : State :=
  let e := s.callout i
  let e' := { e with level := e.level + 1, state := .escalated }
  if s.calloutHeld e.printer then s.setCallout i { e' with escalationOwed := true, countdown := none }
  else s.sendCallout i e'

/-! ### Creation (R138, R139) -/

/-- Sets or clears the callout-wanted flag of a printer's condition-list entry for a code. -/
def State.setWanted (s : State) (p : Fin 64) (code : Fin 256) (wanted : Bool) : State :=
  let r := s.cond p
  s.setCond p { r with list := r.list.map (fun it => if it.code = code then { it with calloutWanted := wanted } else it) }

/-- Creates the callout of a condition in entry `i` (R138). -/
def State.createCallout (s : State) (i : Fin 48) (p : Fin 64) (code : Fin 256) (firstSeen : Stamp) : State :=
  let c := s.condition code
  let s1 := s.setCallout i
    { state := .grace, printer := p, code := code, firstSeen := firstSeen, kind := c.kind, level := 1,
      countdown := if c.grace = 0 then none else some (Countdown.load c.grace), escalationOwed := false, parkedJobs := 0 }
  if c.grace = 0 then s1.sendingStep i else s1

/-- The lowest-numbered FREE callout entry (R138). -/
def State.freeCalloutIndex (s : State) : Option (Fin 48) := firstIndex 48 (fun i => decide ((s.callout i).state = .free))

/-- An entry notice from the CM (R138). -/
def State.calloutEntered (s : State) (p : Fin 64) (code : Fin 256) (firstSeen : Stamp) : State :=
  match s.freeCalloutIndex with
  | some i => s.createCallout i p code firstSeen
  | none => s.setWanted p code true

/-- The waiting condition of a list with the oldest first-seen stamp, the earlier among equals (R139). -/
def oldestWanted : List CondItem → Option CondItem
  | [] => none
  | it :: rest =>
    match oldestWanted rest with
    | none => if it.calloutWanted then some it else none
    | some other => if it.calloutWanted && !other.firstSeen.before it.firstSeen then some it else some other

/-- The lowest DEFINED printer slot that has a waiting condition (R139). -/
def State.waitingPrinter (s : State) : Option (Fin 64) :=
  firstIndex 64 (fun p => s.printerDefined p && (s.cond p).list.any (fun it => it.calloutWanted))

/-- The freed entry `i` serves one waiting condition, if any (R139). -/
def State.serveWaiting (s : State) (i : Fin 48) : State :=
  match s.waitingPrinter with
  | none => s
  | some p =>
    match oldestWanted (s.cond p).list with
    | none => s
    | some it => (s.setWanted p it.code false).createCallout i p it.code it.firstSeen

/-! ### Resolution (R145, R146, R149) -/

/-- The RESOLVED notice of a callout entry (R146). -/
def State.resolvedNotice (s : State) (e : CalloutEntry) (cause : ResolvedCause) : ResolvedNotice where
  printer := e.printer
  station := (s.printer e.printer).station
  zone := (s.printer e.printer).zone
  code := e.code
  kind := e.kind
  firstSeen := e.firstSeen
  level := e.level
  stateAt := e.state
  cause := cause
  cleared := s.mu.clock

/-- A RESOLVED notice is enqueued, owed, or dropped and counted (R146). -/
def State.offerResolved (s : State) (n : ResolvedNotice) : State :=
  if s.reportRoom then s.pushReport (.resolved n)
  else if s.co.owedResolved.length < 48 then { s with co := { s.co with owedResolved := s.co.owedResolved ++ [n] } }
  else { s with co := { s.co with dropped := satAdd 65535 s.co.dropped 1 } }

/-- The desk has been told of a callout in this state (R145). -/
def CalloutState.told : CalloutState → Bool
  | .sent => true
  | .escalated => true
  | .acked => true
  | .free => false
  | .grace => false
  | .owed => false
  | .suppressed => false

/-- Frees entry `i`, with a RESOLVED notice when the desk was told (R145, R149). -/
def State.freeCallout (s : State) (i : Fin 48) (cause : ResolvedCause) : State :=
  let e := s.callout i
  (if e.state.told then s.offerResolved (s.resolvedNotice e cause) else s).setCallout i CalloutEntry.free

/-- A removal notice from the CM (R138, R145): the entry is freed and serves a waiting condition; without an entry, the
callout-wanted flag of a condition that stays in the list is cleared. The serving comes before the next removal notice of the same
STATUS (DESIGN CHOICE, log entry 51). -/
def State.calloutRemoved (s : State) (p : Fin 64) (code : Fin 256) : State :=
  match s.findCallout p code with
  | some i => (s.freeCallout i .cleared).serveWaiting i
  | none => s.setWanted p code false

/-- The callout entries of a printer, in table order. -/
def State.calloutsOf (s : State) (p : Fin 64) : List (Fin 48) :=
  (List.finRange 48).filter (fun i => decide ((s.callout i).state ≠ .free) && decide ((s.callout i).printer = p))

/-- Frees every callout entry of a printer whose condition list has been emptied; the entries freed then serve waiting
conditions of other printers, one for each (R149). -/
def State.resetCallouts (s : State) (p : Fin 64) : State :=
  let freed := s.calloutsOf p
  freed.foldl (fun t i => t.serveWaiting i) (freed.foldl (fun t i => t.freeCallout i .reset) s)

/-! ### Owed callouts (R147, R148) -/

/-- The callout waits to be enqueued: OWED, or with its escalation owed. -/
def CalloutEntry.waits (e : CalloutEntry) : Bool := decide (e.state = .owed) || e.escalationOwed

/-- The place of a code in a condition list. -/
def listPlace (l : List CondItem) (code : Fin 256) : Nat := l.findIdx (fun it => decide (it.code = code))

/-- Printer slot, then condition order: oldest first-seen, then the earlier in the condition list (R147). -/
def State.calloutBefore (s : State) (i j : Fin 48) : Bool :=
  let a := s.callout i
  let b := s.callout j
  decide (a.printer < b.printer) ||
    (decide (a.printer = b.printer) &&
      (a.firstSeen.before b.firstSeen ||
        (decide (a.firstSeen = b.firstSeen) &&
          decide (listPlace (s.cond a.printer).list a.code < listPlace (s.cond b.printer).list b.code))))

/-- The callout entries that wait and whose printers' entries name a zone with property `z`, in the order of sending. -/
def State.waitingCallouts (s : State) (z : Fin 16 → Bool) : List (Fin 48) :=
  sortBy s.calloutBefore
    ((List.finRange 48).filter (fun i => (s.callout i).waits && z (s.printer (s.callout i).printer).zone))

/-- Sends a callout that waited (R140, R142). -/
def State.sendOwed (s : State) (i : Fin 48) : State :=
  let e := s.callout i
  s.sendCallout i (if e.state = .owed then { e with state := .sent } else e)

/-- Opens a zone and sends its owed callouts while the report queue has room (R147). -/
def State.openZone (s : State) (z : Fin 16) : State :=
  let s1 := s.setZone z { s.zone z with mute := none }
  (s1.waitingCallouts (fun y => decide (y = z))).foldl (fun t i => if t.reportRoom then t.sendOwed i else t) s1

/-- The owed RESOLVED notice next in turn: the first made of the lowest printer slot (R148). -/
def nextResolved : List ResolvedNotice → Option (ResolvedNotice × List ResolvedNotice)
  | [] => none
  | n :: rest =>
    match nextResolved rest with
    | none => some (n, rest)
    | some (m, others) => if m.printer < n.printer then some (m, n :: others) else some (n, rest)

/-- The owed callout or RESOLVED notice that takes a freed place, if any waits (R148 groups 1 and 2). -/
def State.serveCalloutUnit (s : State) : Option State :=
  match s.waitingCallouts (fun z => !s.zoneMuted z) with
  | i :: _ => some (s.sendOwed i)
  | [] =>
    match nextResolved s.co.owedResolved with
    | some (n, rest) => some ({ s with co := { s.co with owedResolved := rest } }.pushReport (.resolved n))
    | none => none

end Sys2Proof.Machine
end

