-- ==== Sys2Proof/Machine/Supplies.lean ====
section
/-! DEFINITION. The Supply Unit (chapter 10): counting sheets, the day rollover, slot reports and fitting, reorders, and the
serving of owed notices into freed places of the report queue. -/

namespace Sys2Proof.Machine

/-- Days-left (R154): 999 when A is 0, otherwise the smaller of 999 and remaining div A. -/
def SlotRecord.daysLeft (r : SlotRecord) : Nat := if r.average = 0 then 999 else min 999 (r.remaining / r.average)

/-! ### Reorders (R159) -/

/-- The REORDER notice of a slot, built now (R159). -/
def State.reorderNotice (s : State) (p : Fin 64) (q : Consumable) : ReorderNotice :=
  let r := s.slotRecord p q
  let t := s.supply r.supply
  { printer := p, station := (s.printer p).station, zone := (s.printer p).zone, slot := q, supply := r.supply,
    trigger := r.trigger, remaining := r.remaining, overrun := r.overrun, average := r.average, daysLeft := r.daysLeft,
    lastLevel := r.lastLevel, lastSerial := r.lastSerial, leadDays := t.leadDays, floorCount := t.floorCount }

/-- A reorder becomes due when the record is QUIET (R159). -/
def State.reorderDue (s : State) (p : Fin 64) (q : Consumable) (t : DueTrigger) : State :=
  let r := s.slotRecord p q
  if r.reorder = .quiet then
    let r' := { r with reorder := .due, trigger := some t }
    if s.reportRoom then
      let s1 := s.setSlotRecord p q r'
      s1.pushReport (.reorder (s1.reorderNotice p q))
    else s.setSlotRecord p q { r' with owedReorder := true }
  else s

/-! ### Counting sheets (R153) -/

/-- The units of a sheet for a slot (R153). -/
def sheetUnits (q : Consumable) (faces colourFaces : Nat) (large : Bool) : Nat :=
  let w := if large then 2 else 1
  match q with
  | .k => faces * w
  | .c => colourFaces * w
  | .m => colourFaces * w
  | .y => colourFaces * w
  | .drum => faces * w
  | .fuser => 1

/-- Counts of a record after `u` units (R153 steps 1 and 2). -/
def SlotRecord.count (r : SlotRecord) (u : Nat) : SlotRecord :=
  { r with
    remaining := r.remaining - u
    overrun := satAdd 65535 r.overrun (u - r.remaining)
    today := satAdd 65535 r.today u }

/-- The exhausted test (R153 step 3). -/
def State.exhaustedTest (s : State) (p : Fin 64) (q : Consumable) : State :=
  let r := s.slotRecord p q
  if r.remaining = 0 ∧ r.exhausted = false then
    (s.setSlotRecord p q { r with exhausted := true }).reorderDue p q .exhausted
  else s

/-- The floor test (R153 step 4). -/
def State.floorTest (s : State) (p : Fin 64) (q : Consumable) : State :=
  let r := s.slotRecord p q
  if r.remaining ≤ (s.supply r.supply).floorCount then s.reorderDue p q .floor else s

/-- A sheet reaches one slot (R153). -/
def State.countSlot (s : State) (p : Fin 64) (q : Consumable) (u : Nat) : State :=
  if s.slotLive p q ∧ 1 ≤ u then
    ((s.setSlotRecord p q ((s.slotRecord p q).count u)).exhaustedTest p q).floorTest p q
  else s

/-- A sheet reaches the printer's slots in the order K to FUSER (R153). -/
def State.countSheet (s : State) (p : Fin 64) (faces colourFaces : Nat) (large : Bool) : State :=
  consumables.foldl (fun t q => t.countSlot p q (sheetUnits q faces colourFaces large)) s

/-! ### The day rollover (R154) -/

/-- The daily average after a day's count (R154 step 1). -/
def newAverage (r : SlotRecord) : Nat := if r.seeded then (7 * r.average + r.today) / 8 else r.today

/-- The rollover of one slot (R154). -/
def State.rolloverSlot (s : State) (p : Fin 64) (q : Consumable) : State :=
  if s.slotLive p q then
    let r := s.slotRecord p q
    let r' := { r with average := newAverage r, seeded := true, today := 0 }
    let s1 := s.setSlotRecord p q r'
    if r'.daysLeft ≤ (s.supply r.supply).leadDays then s1.reorderDue p q .daysLeft else s1
  else s

/-- The day-rollover processing: every live record, by printer slot and then K to FUSER (R154). -/
def State.rollover (s : State) : State :=
  (List.finRange 64).foldl (fun t p => consumables.foldl (fun t' q => t'.rolloverSlot p q) t) s

/-! ### Fitting (R156 to R158) -/

/-- A slot report (R124): level or unknown, serial or 0, reported supply type or none for 255. -/
structure SlotReport where
  level  : Option Nat
  serial : Code32
  supply : Option (Fin 64)
deriving DecidableEq, Repr

/-- The tests of a slot report for a fitting, the first that applies deciding (R156). -/
def detectFitting (r : SlotRecord) (rep : SlotReport) : Option Detection :=
  if r.lastLevel = none ∧ r.lastSerial = none then
    if rep.level.isSome ∨ rep.serial ≠ 0 then some .firstSighting else none
  else if rep.serial ≠ 0 ∧ r.lastSerial.isSome then
    if r.lastSerial ≠ some rep.serial then some .serial else none
  else
    match rep.level, r.lastLevel with
    | some new, some old => if old + 40 ≤ new then some .levelRise else none
    | _, _ => none

/-- The supply type is DEFINED with the slot's kind. -/
def State.supplyFits (s : State) (t : Fin 64) (q : Consumable) : Bool :=
  decide ((s.supply t).state = .defined) && decide ((s.supply t).kind = q)

/-- The supply type of a fitting detected in a slot report (R157). -/
def State.fittedType (s : State) (p : Fin 64) (q : Consumable) (rep : SlotReport) : Fin 64 :=
  match rep.supply with
  | some t => if s.supplyFits t q then t else ((s.printer p).slotMap.get q).defaultType
  | none => ((s.printer p).slotMap.get q).defaultType

/-- The FITTED notice of a slot, built now (R158). -/
def State.fittedNotice (s : State) (p : Fin 64) (q : Consumable) (f : OwedFitted) : FittedNotice :=
  let r := s.slotRecord p q
  { printer := p, station := (s.printer p).station, zone := (s.printer p).zone, slot := q, fitted := f, supply := r.supply,
    ratedYield := (s.supply r.supply).ratedYield, lastSerial := r.lastSerial, lastLevel := r.lastLevel }

/-- The record after a fitting of supply type `t` with rated yield `yield` (R158 steps 2 to 5). -/
def SlotRecord.fit (r : SlotRecord) (t : Fin 64) (yield : Nat) : SlotRecord :=
  { r with
    supply := t
    remaining := yield
    overrun := 0
    exhausted := false
    reorder := .quiet
    trigger := none
    orderRef := none
    owedReorder := false }

/-- A fitting (R158). The FITTED notice is enqueued, or owed, replacing an owed FITTED already held. One that finds room while an
earlier FITTED is still owed is enqueued, and the earlier stays owed (DESIGN CHOICE, log entry 44). -/
def State.fitting (s : State) (p : Fin 64) (q : Consumable) (t : Fin 64) (d : Detection) : State :=
  let r := s.slotRecord p q
  let r' := r.fit t (s.supply t).ratedYield
  let f : OwedFitted := ⟨r.reorder, r.orderRef, d, s.mu.clock⟩
  if r.reorder = .quiet ∨ r.owedReorder = true then s.setSlotRecord p q r'
  else if s.reportRoom then
    let s1 := s.setSlotRecord p q r'
    s1.pushReport (.fitted (s1.fittedNotice p q f))
  else s.setSlotRecord p q { r' with owedFitted := some f }

/-- Steps 1 and 2 of R155: the command-fit mark, or detection with the fitting it finds. -/
def State.reportFitting (s : State) (p : Fin 64) (q : Consumable) (rep : SlotReport) : State :=
  let r := s.slotRecord p q
  if r.commandFit then s.setSlotRecord p q { r with commandFit := false }
  else match detectFitting r rep with
    | some d => s.fitting p q (s.fittedType p q rep) d
    | none => s

/-- Step 3 of R155: the last level and serial take the values that are known. -/
def State.reportUpdate (s : State) (p : Fin 64) (q : Consumable) (rep : SlotReport) : State :=
  let r := s.slotRecord p q
  s.setSlotRecord p q
    { r with
      lastLevel := match rep.level with | some l => some l | none => r.lastLevel
      lastSerial := if rep.serial = 0 then r.lastSerial else some rep.serial }

/-- Step 4 of R155: the low-level test. -/
def State.lowLevelTest (s : State) (p : Fin 64) (q : Consumable) (rep : SlotReport) : State :=
  match rep.level with
  | some l => if l ≤ (s.supply (s.slotRecord p q).supply).lowLevel then s.reorderDue p q .lowLevel else s
  | none => s

/-- One slot report (R155); the reports of slots that are not live are passed over. -/
def State.takeSlotReport (s : State) (p : Fin 64) (q : Consumable) (rep : SlotReport) : State :=
  if s.slotLive p q then ((s.reportFitting p q rep).reportUpdate p q rep).lowLevelTest p q rep else s

/-- The six slot reports of a STATUS, in the order K to FUSER (R155). -/
def State.takeSlotReports (s : State) (p : Fin 64) (reps : PerSlot SlotReport) : State :=
  consumables.foldl (fun t q => t.takeSlotReport p q (reps.get q)) s

/-! ### Resets and colour availability -/

/-- One slot record takes its reset values (R152). -/
def State.resetSlot (s : State) (p : Fin 64) (q : Consumable) : State :=
  s.setSlotRecord p q (SlotRecord.resetTo ((s.printer p).slotMap.get q).defaultType)

/-- The six slot records of a printer take their reset values (R152, R164). -/
def State.resetSlots (s : State) (p : Fin 64) : State := consumables.foldl (fun t q => t.resetSlot p q) s

/-- A fitted C, M or Y slot last reported a level at or below its type's colour stop level (R47). -/
def State.colourStopped (s : State) (p : Fin 64) : Bool :=
  [Consumable.c, .m, .y].any fun q =>
    ((s.printer p).slotMap.get q).fitted &&
      match (s.slotRecord p q).lastLevel with
      | some l => decide (l ≤ (s.supply (s.slotRecord p q).supply).colourStop)
      | none => false

/-! ### Serving owed notices (R148, R160) -/

/-- The SU notice that takes a freed place, if any is owed: by printer slot, then K to FUSER, a record's FITTED before its
REORDER (R160). -/
def State.serveSupplyUnit (s : State) : Option State :=
  let owing := (List.finRange 64).flatMap fun p =>
    (consumables.filter (fun q => (s.slotRecord p q).owedFitted.isSome || (s.slotRecord p q).owedReorder)).map (fun q => (p, q))
  match owing with
  | [] => none
  | (p, q) :: _ =>
    let r := s.slotRecord p q
    match r.owedFitted with
    | some f => some ((s.setSlotRecord p q { r with owedFitted := none }).pushReport (.fitted (s.fittedNotice p q f)))
    | none => some ((s.setSlotRecord p q { r with owedReorder := false }).pushReport (.reorder (s.reorderNotice p q)))

/-- The next owed notice in the order of R148, if any. -/
def State.serveOne (s : State) : Option State :=
  match s.serveCalloutUnit with
  | some t => some t
  | none => s.serveSupplyUnit

/-- Serves owed notices, one for each free place of the report queue, `fuel` at most (R148). -/
def State.serveOwed : (fuel : Nat) → State → State
  | 0, s => s
  | fuel + 1, s =>
    if s.reportRoom then
      match s.serveOne with
      | some t => State.serveOwed fuel t
      | none => s
    else s

end Sys2Proof.Machine
end

