-- ==== Sys2Proof/Machine/Conditions.lean ====
section
/-! DEFINITION. The Condition Monitor (chapter 8): taking a STATUS, the status timeout, derivation of the printer state and
loss set, the change of view, and the resets of the printer side. -/

namespace Sys2Proof.Machine

/-- A STATUS frame's contents (R124). -/
structure StatusFrame where
  codes : List (Fin 256)
  slots : PerSlot SlotReport
  panel : PanelState
deriving DecidableEq, Repr

/-! ### Derivation (R129, R130) -/

def LossSet.union (a b : LossSet) : LossSet :=
  ⟨a.colour || b.colour, a.duplex || b.duplex, a.large || b.large, a.staple || b.staple⟩

/-- The loss set: the union of the option-loss sets of the entries of effect DEGRADE (R129). -/
def deriveLoss (l : List CondItem) : LossSet :=
  l.foldr (fun it acc => if it.effect = .degrade then it.loss.union acc else acc) LossSet.none

/-- The printer state derived at a STATUS (R129). -/
def deriveState (l : List CondItem) : PrinterState :=
  if l.any (fun it => decide (it.effect = .block)) then .blocked
  else if l.any (fun it => decide (it.effect = .degrade)) then .degraded
  else .ready

/-- There is a change of view: the state differs, or it stays DEGRADED with another loss set (R130). -/
def viewChanged (old new : ConditionRecord) : Bool :=
  decide (old.state ≠ new.state) ||
    (decide (old.state = some .degraded) && decide (new.state = some .degraded) && decide (old.loss ≠ new.loss))

/-- Replaces a printer's condition record and tells the SE and the RU a change of view (R130). -/
def State.setView (s : State) (p : Fin 64) (new : ConditionRecord) : State :=
  let s1 := s.setCond p new
  match new.state with
  | some st =>
    if viewChanged (s.cond p) new then
      let n : ViewNotice := ⟨p, st, if st = .degraded then new.loss else LossSet.none⟩
      { s1 with se := { s1.se with notices := s1.se.notices ++ [n] }, ru := { s1.ru with notices := s1.ru.notices ++ [n] } }
    else s1
  | none => s1

/-! ### Taking a STATUS (R126) -/

/-- An entry with the class, effect and loss set the table now holds for its code (R126 step 1). -/
def State.refreshed (s : State) (it : CondItem) : CondItem :=
  let c := s.condition it.code
  { it with cls := c.cls, effect := c.effect, loss := c.loss }

/-- An entry stays through step 2: its code is in the frame and its class after the refresh is not IGNORE (R126). -/
def State.staysIn (s : State) (codes : List (Fin 256)) (it : CondItem) : Bool :=
  codes.contains it.code && decide ((s.condition it.code).cls ≠ .ignore)

/-- Appends one code of the frame that is not in the list and is not IGNORE (R126 step 3). -/
def State.appendCode (s : State) (l : List CondItem) (code : Fin 256) : List CondItem :=
  let c := s.condition code
  if l.any (fun it => decide (it.code = code)) ∨ c.cls = .ignore then l
  else l ++ [⟨code, c.cls, c.effect, c.loss, s.mu.clock, false⟩]

/-- The entries that stay, refreshed (R126 steps 1 and 2). -/
def State.keptList (s : State) (codes : List (Fin 256)) (l : List CondItem) : List CondItem :=
  (l.filter (s.staysIn codes)).map s.refreshed

/-- The list after steps 1 to 3 (R126). -/
def State.rebuiltList (s : State) (codes : List (Fin 256)) (l : List CondItem) : List CondItem :=
  codes.foldl s.appendCode (s.keptList codes l)

/-- The ring keeps the 8 most recent records (R133). -/
def keepEight (l : List HistoryRecord) : List HistoryRecord := l.drop (l.length - 8)

/-- The history ring after the removals of a STATUS (R126 step 2, R133). -/
def State.newHistory (s : State) (codes : List (Fin 256)) (r : ConditionRecord) : List HistoryRecord :=
  keepEight (r.history ++
    ((r.list.filter (fun it => !s.staysIn codes it)).map (fun it => ⟨it.code, it.firstSeen, s.mu.clock⟩)))

/-- An entry gives the CO a removal notice: it was FAULT before the refresh, and it is removed or becomes NOTICE (R131). -/
def State.givesRemoval (s : State) (codes : List (Fin 256)) (it : CondItem) : Bool :=
  decide (it.cls = .fault) && (!s.staysIn codes it || decide ((s.condition it.code).cls = .notice))

/-- An entry that stays and changes from NOTICE to FAULT gives the CO an entry notice (R131). -/
def State.givesEntry (s : State) (codes : List (Fin 256)) (it : CondItem) : Bool :=
  decide (it.cls = .notice) && s.staysIn codes it && decide ((s.condition it.code).cls = .fault)

/-- The codes whose entries are handed to the CO as entries, in the order of R131. -/
def State.enteredItems (s : State) (codes : List (Fin 256)) (l : List CondItem) : List CondItem :=
  l.filter (s.givesEntry codes) ++
    ((s.rebuiltList codes l).drop (s.keptList codes l).length).filter (fun it => decide (it.cls = .fault))

/-- The record after a STATUS (R126 steps 1 to 6). -/
def State.recordAfterStatus (s : State) (p : Fin 64) (f : StatusFrame) : ConditionRecord :=
  let r := s.cond p
  let l := s.rebuiltList f.codes r.list
  { list := l, state := some (deriveState l), loss := deriveLoss l,
    countdown := some (Countdown.load (s.printer p).statusTimeout), panel := some f.panel,
    history := s.newHistory f.codes r }

/-- Hands the CO the removal notices and then the entry notices (R131), each notice with all it brings before the next (DESIGN CHOICE,
log entry 51). -/
def State.handCallouts (s : State) (p : Fin 64) (removals entries : List CondItem) : State :=
  entries.foldl (fun t it => t.calloutEntered p it.code it.firstSeen)
    (removals.foldl (fun t it => t.calloutRemoved p it.code) s)

/-- A STATUS taken for printer `p` (R126 to R132). The CO takes its notices before the SU takes the slot reports (DESIGN CHOICE, log
entry 43). -/
def State.takeStatus (s : State) (p : Fin 64) (f : StatusFrame) : State :=
  let l := (s.cond p).list
  let s1 := s.setView p (s.recordAfterStatus p f)
  (s1.handCallouts p (l.filter (s.givesRemoval f.codes)) (s.enteredItems f.codes l)).takeSlotReports p f.slots

/-! ### Status timeout (R128) -/

/-- Code 255, NO CONTACT. -/
def noContact : Fin 256 := 255

/-- The entry of NO CONTACT appended at a timeout: none when 255 is IGNORE or already in the list (R128). -/
def State.timeoutItem (s : State) (p : Fin 64) : Option CondItem :=
  let c := s.condition noContact
  if c.cls = .ignore ∨ (s.cond p).list.any (fun it => decide (it.code = noContact)) then none
  else some ⟨noContact, c.cls, c.effect, c.loss, s.mu.clock, false⟩

/-- The expiry of a printer's status countdown (R128). -/
def State.timeOut (s : State) (p : Fin 64) : State :=
  let r := s.cond p
  let l := r.list ++ (s.timeoutItem p).toList
  let s1 := s.setView p { r with list := l, state := some .silent, loss := deriveLoss l, countdown := none }
  match s.timeoutItem p with
  | some it => if it.cls = .fault then s1.calloutEntered p it.code it.firstSeen else s1
  | none => s1

/-! ### Resets (R5, R7, R8, R135, R136) -/

/-- The record of a printer that starts anew: empty list, UNKNOWN, countdown loaded from its status timeout (R129, R136). -/
def State.freshRecord (s : State) (p : Fin 64) (history : List HistoryRecord) : ConditionRecord where
  list := []
  state := some .unknown
  loss := LossSet.none
  countdown := some (Countdown.load (s.printer p).statusTimeout)
  panel := none
  history := history

/-- The conditions and callouts of a printer are reset, keeping its history ring (R135, R149). -/
def State.resetConditions (s : State) (p : Fin 64) : State :=
  (s.setView p (s.freshRecord p (s.cond p).history)).resetCallouts p

/-- The conditions and callouts of a printer whose station changes (R7, R149). -/
def State.renewConditions (s : State) (p : Fin 64) : State := (s.setView p (s.freshRecord p [])).resetCallouts p

/-- The conditions and callouts of a printer entry made EMPTY (R8, R149). -/
def State.stopConditions (s : State) (p : Fin 64) : State := (s.setCond p ConditionRecord.powerOn).resetCallouts p

end Sys2Proof.Machine
end

