-- ==== Sys2Proof/Machine/HoldStore.lean ====
section
/-! DEFINITION. The Hold Store Controller (2.2, 2.3): chains and the free pool, the write and read queues, the arbiter, and
the stored segments with their errors; and the life of a job record (2.4). -/

namespace Sys2Proof.Machine

/-! ### Extents (R21 to R23) -/

def State.link (s : State) (e : Fin 4096) : Option (Fin 4096) := s.hsc.links.get linkPowerOn e

def State.setLink (s : State) (e : Fin 4096) (next : Option (Fin 4096)) : State :=
  { s with hsc := { s.hsc with links := s.hsc.links.set linkPowerOn e next } }

/-- The extent at position `k`, counting from 0, of the list that begins at `head` (2.2). -/
def State.chainExtent (s : State) (head : Option (Fin 4096)) : Nat → Option (Fin 4096)
  | 0 => head
  | k + 1 => (s.chainExtent head k).bind s.link

/-- The position of segment `k` of a job, counting from 1 (2.2). -/
def State.segmentPos (s : State) (r : JobRecord) (k : Nat) : Option SegPos :=
  (s.chainExtent r.chainHead ((k - 1) / 64)).map (fun e => ⟨e, Fin.ofNat 64 ((k - 1) % 64)⟩)

/-- The position after `pos` in its chain: the next slot, or slot 0 of the extent the link table names (R69, R112). -/
def State.nextPos (s : State) (pos : SegPos) : Option SegPos :=
  if pos.slot.val < 63 then some ⟨pos.extent, pos.slot + 1⟩ else (s.link pos.extent).map (fun e => ⟨e, 0⟩)

/-- The free pool after its head `e` is taken (R22 step 1). -/
def State.popPool (s : State) (e : Fin 4096) : State :=
  { s with
    hsc := { s.hsc with
      poolHead := if s.hsc.poolLength ≤ 1 then none else s.link e
      poolTail := if s.hsc.poolLength ≤ 1 then none else s.hsc.poolTail
      poolLength := s.hsc.poolLength - 1 } }

/-- Joins extent `e` to the tail of the chain of the job in record `j` (R22 steps 2 to 4). -/
def State.joinChain (s : State) (j : Fin 512) (e : Fin 4096) : State :=
  let r := s.job j
  let s1 := s.setLink e none
  match r.chainTail with
  | none => s1.setJob j { r with chainHead := some e, chainTail := some e, extents := r.extents + 1 }
  | some t => (s1.setLink t (some e)).setJob j { r with chainTail := some e, extents := r.extents + 1 }

/-- Takes the extent at the head of the free pool for the job in record `j`; none when the pool is empty (R22). -/
def State.allocateExtent (s : State) (j : Fin 512) : Option State :=
  match s.hsc.poolHead with
  | none => none
  | some e => if s.hsc.poolLength = 0 then none else some ((s.popPool e).joinChain j e)

/-- Appends the list of `count` extents from `head` to `tail` at the tail of the free pool (R23). -/
def State.appendPool (s : State) (head tail : Fin 4096) (count : Nat) : State :=
  let s1 := match s.hsc.poolTail with
    | none => s
    | some t => s.setLink t (some head)
  { s1 with
    hsc := { s1.hsc with
      poolHead := if s.hsc.poolLength = 0 then some head else s.hsc.poolHead
      poolTail := some tail
      poolLength := s.hsc.poolLength + count } }

/-- Frees the chain of the job in record `j`; a job that holds no extent frees nothing (R23). -/
def State.freeChain (s : State) (j : Fin 512) : State :=
  let r := s.job j
  match r.chainHead, r.chainTail with
  | some h, some t =>
    (s.appendPool h t r.extents).setJob j { r with chainHead := none, chainTail := none, extents := 0 }
  | _, _ => s

/-! ### The job record (R28, R29) -/

/-- Frees the record `j`: every field returns to its power-on value, and the user's live job count falls by one (R10, R28). -/
def State.freeRecord (s : State) (j : Fin 512) : State :=
  let r := s.job j
  let u := s.user r.user
  (s.setUser r.user { u with liveJobs := u.liveJobs - 1 }).setJob j JobRecord.powerOn

/-- Frees the chain and the record of the job in record `j`. -/
def State.dropJob (s : State) (j : Fin 512) : State := (s.freeChain j).freeRecord j

/-- The number after `n` in the sequence 1 to 65535 with wrap, skipping 0 (R29). -/
def numberAfter (n : Nat) : Nat := if 65535 ≤ n then 1 else n + 1

/-- The first number after `n` that no live record holds, looking at `fuel` numbers at most (R29). -/
def State.nextNumberFrom (s : State) : (fuel : Nat) → Nat → Nat
  | 0, n => numberAfter n
  | fuel + 1, n =>
    if (s.findJob (numberAfter n)).isSome then s.nextNumberFrom fuel (numberAfter n) else numberAfter n

/-- The number an accepted JOB-OPEN is given: at most 512 numbers are live, so looking past 512 suffices (R29). -/
def State.nextNumber (s : State) : Nat := s.nextNumberFrom 512 s.lastNumber

/-! ### Queues (R24, R25) -/

/-- Discards every queued write of a job (R24). -/
def State.discardWrites (s : State) (job : Nat) : State :=
  { s with hsc := { s.hsc with writes := s.hsc.writes.filter (fun e => e.job != job) } }

def State.pushWrite (s : State) (e : WriteEntry) : State := { s with hsc := { s.hsc with writes := s.hsc.writes ++ [e] } }

def State.pushRead (s : State) (e : ReadEntry) : State := { s with hsc := { s.hsc with reads := s.hsc.reads ++ [e] } }

/-- Withdraws a context's queued requests (R25). -/
def State.removeReads (s : State) (c : Fin 8) : State :=
  { s with hsc := { s.hsc with reads := s.hsc.reads.filter (fun e => e.context != c) } }

/-- A write of the job has been granted and has not completed (R38). -/
def State.writeInProgress (s : State) (job : Nat) : Bool :=
  match s.hsc.op with
  | some ⟨.write e, ignored⟩ => !ignored && decide (e.job = job)
  | _ => false

/-- A read of the context is in flight: granted and not completed (R77). -/
def State.readInFlight (s : State) (c : Fin 8) : Bool :=
  match s.hsc.op with
  | some ⟨.read e, ignored⟩ => !ignored && decide (e.context = c)
  | _ => false

/-! ### The stored segments (R20, R27) -/

/-- The place of a segment position in the store. -/
def SegPos.key (p : SegPos) : Fin 262144 := ⟨p.extent.val * 64 + p.slot.val, by omega⟩

/-- What the slot at a position holds; a slot not written since power-on holds a free value (R40). -/
def State.stored (s : State) (p : SegPos) : StoredSegment :=
  match s.hsc.store.get (fun _ => none) p.key with
  | some x => x
  | none => Config.powerOnSegment s.hsc.epoch p.extent p.slot

def State.setStored (s : State) (p : SegPos) (x : StoredSegment) : State :=
  { s with hsc := { s.hsc with store := s.hsc.store.set (fun _ => none) p.key (some x) } }

/-- The worse of two error conditions (R27). -/
def worseErrors : WordErrors → WordErrors → WordErrors
  | .uncorrectable, _ => .uncorrectable
  | _, .uncorrectable => .uncorrectable
  | .single, _ => .single
  | _, .single => .single
  | .clean, .clean => .clean

/-- The check that a read with these errors counts, if any (R27). -/
def checkOf : WordErrors → Option CheckClass
  | .clean => none
  | .single => some .corrected
  | .uncorrectable => some .uncorrectable

/-- The part of a DRAM read that the HSC does: the errors that have come upon the words join those standing in the slot, where
they stay until the slot is written again, and the check of the worst word goes to the MU (R27). -/
def State.readErrors (s : State) (e : ReadEntry) (header data : WordErrors) : State × WordErrors :=
  let x := s.stored e.pos
  let h := worseErrors x.headerErrors header
  let d := worseErrors x.dataErrors data
  let worst := match e.kind with
    | .fetch => worseErrors h d
    | .header => h
  let s1 := s.setStored e.pos ⟨x.segment, h, d⟩
  match checkOf worst with
  | some c => (s1.noteCheck c (.store e.job e.pos.extent), worst)
  | none => (s1, worst)

/-- No operation is in progress any more. -/
def State.clearOp (s : State) : State := { s with hsc := { s.hsc with op := none } }

/-- The queue the arbiter grants from next: none when both are empty (R26). -/
def State.grantChoice (s : State) : Option QueueMark :=
  match s.hsc.writes, s.hsc.reads with
  | [], [] => none
  | _ :: _, [] => some .writes
  | [], _ :: _ => some .reads
  | _ :: _, _ :: _ => match s.hsc.lastServed with
    | .writes => some .reads
    | .reads => some .writes

/-- The arbiter's grant: the head of the chosen queue leaves it and begins (R26). -/
def State.grant (s : State) : State :=
  match s.hsc.op, s.grantChoice with
  | none, some .writes =>
    match s.hsc.writes with
    | e :: rest => { s with hsc := { s.hsc with writes := rest, op := some ⟨.write e, false⟩, lastServed := .writes } }
    | [] => s
  | none, some .reads =>
    match s.hsc.reads with
    | e :: rest => { s with hsc := { s.hsc with reads := rest, op := some ⟨.read e, false⟩, lastServed := .reads } }
    | [] => s
  | _, _ => s

end Sys2Proof.Machine
end

