-- ==== Sys2Proof/Machine/Streams.lean ====
section
/-! DEFINITION. The Stream Engine's operations on one context (chapter 4) that run no arbiter: losses and option filling,
parking, opening and withdrawing, fetching and sending, and the start of a resume seek (chapter 7). -/

namespace Sys2Proof.Machine

/-! ### Losses and option vectors (R47, R49) -/

/-- Every loss that holds at a printer for a user (R47). -/
def State.losses (s : State) (p : Fin 64) (u : Fin 8192) : LossSet :=
  let caps := (s.printer p).caps
  let view := (s.cond p).loss
  { colour := !caps.colour || view.colour || s.colourStopped p || !(s.user u).colourPermitted
    duplex := !caps.duplex || view.duplex
    large := !caps.large || view.large
    staple := !caps.stapler || view.staple }

/-- A set of losses touches a resolved option vector (R49). Among the printer values STAPLE 0 is NONE. -/
def LossSet.touches (l : LossSet) (v : OptionVector) : Bool :=
  (l.colour && decide (v.charge.colour = .colour)) || (l.duplex && decide (v.charge.sides = .two)) ||
    (l.large && decide (v.charge.size = .large)) ||
    (l.staple && v.values.any (fun pv => decide (pv.code = .staple) && decide (pv.value ≠ 0)))

/-- A loss set touches the vector of a job record. -/
def JobRecord.touchedBy (r : JobRecord) (l : LossSet) : Bool :=
  match r.vector with
  | some v => l.touches v
  | none => false

/-- The value of a code after a loss of the printer lowers it (R49): SIDES to 1, COLOUR to MONO, SIZE to STANDARD, STAPLE to
NONE. -/
def lowered (l : LossSet) (o : OptionEntry) : OptionEntry :=
  match o.code with
  | .sides => if l.duplex then { o with value := 1 } else o
  | .colour => if l.colour then { o with value := 0 } else o
  | .size => if l.large then { o with value := 0 } else o
  | .staple => if l.staple then { o with value := 0 } else o
  | .copies => o
  | .tray => o
  | .bin => o
  | .collate => o

/-- A TRAY, BIN or COLLATE value marked OMITTED takes the default of the printer it is sent to (R49). -/
def PrinterValue.followsPrinter (v : PrinterValue) : Bool :=
  v.omitted && (decide (v.code = .tray) || decide (v.code = .bin) || decide (v.code = .collate))

/-- One option of a STREAM-OPEN (R49). `o` is the printer's code with its default. -/
def fillOption (v : OptionVector) (l : LossSet) (o : OptionEntry) : OptionEntry :=
  match v.values.find? (fun pv => decide (pv.code = o.code)) with
  | some pv => if pv.followsPrinter then lowered l o else ⟨o.code, pv.value⟩
  | none => lowered l o

/-- The option values of a STREAM-OPEN, in the printer's expected order (R49, R66). -/
def State.fillOptions (s : State) (p : Fin 64) (u : Fin 8192) (v : OptionVector) : List OptionEntry :=
  (s.printer p).options.map (fillOption v (s.losses p u))

/-! ### The saved list and the states of a context (R59, R63) -/

def State.leaveSaved (s : State) (c : Fin 8) : State := { s with ru := { s.ru with saved := s.ru.saved.filter (fun x => x != c) } }

def State.joinSaved (s : State) (c : Fin 8) : State := { s with ru := { s.ru with saved := s.ru.saved ++ [c] } }

/-- Makes a context FREE: every field takes its FREE value, and it leaves the saved list (R59, R63). -/
def State.freeContext (s : State) (c : Fin 8) : State := (s.setContext c Context.free).leaveSaved c

/-- Makes a context SAVED: the fields that a SAVED context does not keep become absent, and it joins the tail of the saved
list (R59, R63). -/
def State.saveContext (s : State) (c : Fin 8) (x : Context) : State :=
  (s.setContext c
    { x with
      state := .saved, job := none, mode := none, step := none, credit := 0, stall := none, park := none,
      pendingEnd := none }).joinSaved c

/-- A SAVED context that names job `n` stops naming it and loses save-done. -/
def Context.unname (n : Nat) (x : Context) : Context :=
  if x.state = .saved ∧ x.parkedJob = some n then { x with parkedJob := none, saveDone := false } else x

/-- Every SAVED context that names job `n` stops naming it and loses save-done (R109, R110, R117). -/
def State.unnameJob (s : State) (n : Nat) : State :=
  { s with se := { s.se with contexts := s.se.contexts.mapListed (fun _ => Context.free) (fun _ x => x.unname n) } }

/-! ### The job's side of a park (R107) -/

/-- Confirmed sheets + 1; past 65535 a free value (R107). -/
def JobRecord.nextSheet (r : JobRecord) : Nat :=
  if r.confirmed < 65535 then r.confirmed + 1 else Config.resumeSheetBeyond.val + 1

/-- The job record after a park (R107). -/
def State.parkedRecord (s : State) (r : JobRecord) (reason : ParkReason) (sheet : Nat) : JobRecord :=
  { r with
    state := .parked
    parkReason := some reason
    resumeSheet := some sheet
    parkedAt := some s.mu.clock
    countdown := some (Countdown.load (s.zone r.zone).parkHoldTime)
    boundPrinter := none
    boundContext := none }

def State.parkJob (s : State) (j : Fin 512) (reason : ParkReason) (sheet : Nat) : State :=
  s.setJob j (s.parkedRecord (s.job j) reason sheet)

/-- The job of a rejected or withdrawn START open goes back to HELD with a fresh hold time (R68). -/
def State.backToHeld (s : State) (j : Fin 512) : State :=
  let s1 := s.returnJob j
  let r := s1.job j
  s1.setJob j
    { r with
      state := .held, reservation := none, sheetCap := none, vector := none,
      countdown := some (Countdown.load (s.zone r.zone).holdTime), boundPrinter := none, boundContext := none }

/-! ### Opening (R65, R66, R68) -/

/-- STREAM-ABORT for a context's stream, to its owner (R78, R79, R118). -/
def State.abort (s : State) (x : Context) (kind : AbortKind) : State :=
  match x.owner, x.job with
  | some p, some n => s.sendPrinter p (.streamAbort n kind x.sent x.lastSheet)
  | _, _ => s

/-- The end of an open without a stream: a reject, or a withdrawal (R68). `kept` when a CONTINUE open is withdrawn at step WAIT.
The arbiter is run by the caller. -/
def State.endOpen (s : State) (c : Fin 8) (reason : ParkReason) (kept : Bool) : State :=
  let x := s.context c
  match x.job with
  | none => s
  | some n =>
    match s.findJob n with
    | none => s
    | some (j, r) =>
      if x.mode = some .start then (s.backToHeld j).freeContext c
      else
        (s.parkJob j reason (r.resumeSheet.getD r.nextSheet)).saveContext c
          { x with saveDone := kept, parkedJob := if kept then some n else none }

/-- Withdrawal of an open under a touching degrade, at step WAIT or SENT (R66, R68). -/
def State.withdraw (s : State) (c : Fin 8) : State :=
  let x := s.context c
  if x.step = some .sent then (s.abort x .ended).endOpen c .degraded false
  else s.endOpen c .degraded (decide (x.mode = some .continued))

/-- The STREAM-OPEN of a context, to its printer (R66). -/
def State.sendOpen (s : State) (c : Fin 8) : State :=
  let x := s.context c
  match x.owner, x.job, x.mode with
  | some p, some n, some m =>
    match s.findJob n with
    | none => s
    | some (j, r) =>
      let options := match r.vector with
        | some v => s.fillOptions p r.user v
        | none => []
      let cont := decide (m = .continued)
      ((s.sendPrinter p (.streamOpen n m (if cont then x.sent else 0) (if cont then x.lastSheet else 0) x.sheetCap r.pages
          r.copies options)).setContext c { x with step := some .sent }).setJob j { r with state := .opening }
  | _, _, _ => s

/-- The test of an open waiting for its printer (R66). The arbiter is run by the caller. -/
def State.waitTest (s : State) (c : Fin 8) : State :=
  let x := s.context c
  if x.state = .opening ∧ x.step = some .wait then
    match x.owner, x.job with
    | some p, some n =>
      match s.findJob n with
      | none => s
      | some (_, r) =>
        match (s.cond p).state with
        | some .ready => s.sendOpen c
        | some .degraded => if r.touchedBy (s.cond p).loss then s.withdraw c else s.sendOpen c
        | _ => s
    | _, _ => s
  else s

/-! ### Fetching and sending (R69 to R72) -/

/-- Which of a context's two buffers. -/
inductive BufferId where
  | a | b
deriving DecidableEq, Repr

def Context.buffer (x : Context) : BufferId → Buffer
  | .a => x.bufA
  | .b => x.bufB

def Context.setBuffer (x : Context) (i : BufferId) (v : Buffer) : Context :=
  match i with
  | .a => { x with bufA := v }
  | .b => { x with bufB := v }

/-- The buffer that is FULL with segment `k`, with its contents. -/
def Context.fullWith (x : Context) (k : Nat) : Option (BufferId × Segment) :=
  match x.bufA with
  | .full n seg => if n = k then some (.a, seg) else match x.bufB with
    | .full n' seg' => if n' = k then some (.b, seg') else none
    | _ => none
  | _ => match x.bufB with
    | .full n' seg' => if n' = k then some (.b, seg') else none
    | _ => none

/-- A stream that may fetch and send: RUNNING, no end pending, last-sent mark clear (R69, R71). -/
def Context.flowing (x : Context) : Bool := decide (x.state = .running) && x.pendingEnd.isNone && !x.lastSent

/-- Starts a fetch into a buffer where R69 allows. -/
def State.startFetch (s : State) (c : Fin 8) (i : BufferId) : State :=
  let x := s.context c
  match x.job, x.nextFetch, x.position with
  | some n, some k, some pos =>
    match s.findJob n with
    | none => s
    | some (_, r) =>
      if x.flowing = true ∧ x.buffer i = .empty ∧ k ≤ r.segments then
        (s.pushRead ⟨c, .fetch, n, pos, k⟩).setContext c
          { x.setBuffer i (.fetching k) with
            nextFetch := some (k + 1)
            position := if k + 1 ≤ r.segments then s.nextPos pos else none }
      else s
  | _, _, _ => s

/-- Starts the fetches that R69 allows, buffer A first. -/
def State.startFetches (s : State) (c : Fin 8) : State := (s.startFetch c .a).startFetch c .b

/-- How segment `k` may go out now (R72): none when the sheet cap makes it wait for segment k + 1, else whether it is the last
and whether segment k + 1 is discarded with it. -/
def Context.sendForm (x : Context) (segments k : Nat) : Option (Bool × Bool) :=
  if k = segments then some (true, false)
  else match x.sheetCap with
    | none => some (false, false)
    | some cap =>
      match x.fullWith (k + 1) with
      | none => none
      | some (_, seg) =>
        if seg.header.sheetStart = true ∧ seg.header.sheet = cap + 1 then some (true, true) else some (false, false)

/-- The context after segment `k`, FULL in buffer `i`, has gone out (R71, R72). -/
def Context.afterSend (x : Context) (i : BufferId) (seg : Segment) (last discardNext : Bool) : Context :=
  let y := x.setBuffer i .empty
  { y with
    bufA := if discardNext then .empty else y.bufA
    bufB := if discardNext then .empty else y.bufB
    credit := x.credit - 1
    sent := x.sent + 1
    lastSheet := if seg.header.sheetStart then seg.header.sheet else x.lastSheet
    lastSent := last }

/-- Sends the next segment when R71 and R72 allow it. -/
def State.trySend (s : State) (c : Fin 8) : Option State :=
  let x := s.context c
  match x.owner, x.job with
  | some p, some n =>
    match s.findJob n with
    | none => none
    | some (_, r) =>
      if x.flowing = true ∧ 1 ≤ x.credit then
        match x.fullWith (x.sent + 1), x.sendForm r.segments (x.sent + 1) with
        | some (i, seg), some (last, discardNext) =>
          some ((s.sendPrinter p (.streamData last n (x.sent + 1) seg)).setContext c (x.afterSend i seg last discardNext))
        | _, _ => none
      else none
  | _, _ => none

/-- Fetches and sends while the rules allow: each send frees a buffer, which then starts a fetch (R71), so two sends at most
happen in one event. -/
def State.pumpFor : (fuel : Nat) → Fin 8 → State → State
  | 0, c, s => s.startFetches c
  | fuel + 1, c, s =>
    let s1 := s.startFetches c
    match s1.trySend c with
    | some s2 => State.pumpFor fuel c s2
    | none => s1

/-- Everything a context may fetch and send in this event (R69 to R72). -/
def State.pump (s : State) (c : Fin 8) : State := State.pumpFor 3 c s

/-! ### Withdrawing reads (R77) -/

/-- The segments of a context's queued FETCH requests, in queue order. -/
def State.queuedFetches (s : State) (c : Fin 8) : List Nat :=
  (s.hsc.reads.filter (fun e => decide (e.context = c) && decide (e.kind = .fetch))).map (fun e => e.segment)

/-- A buffer that a withdrawn request was filling becomes EMPTY (R77). -/
def Buffer.withdrawn (b : Buffer) (segs : List Nat) : Buffer :=
  match b with
  | .fetching k => if k ∈ segs then .empty else .fetching k
  | .empty => .empty
  | .full k seg => .full k seg

/-- Withdraws a context's queued requests; its next fetch goes back to the lowest segment withdrawn (R77). -/
def State.withdrawReads (s : State) (c : Fin 8) : State :=
  let x := s.context c
  let segs := s.queuedFetches c
  let y := { x with bufA := x.bufA.withdrawn segs, bufB := x.bufB.withdrawn segs }
  let z := match segs.min?, x.job.bind s.findJob with
    | some n, some (_, r) => { y with nextFetch := some n, position := s.segmentPos r n }
    | _, _ => y
  (s.removeReads c).setContext c z

/-! ### Endings of the job that run no arbiter -/

/-- A seek that ends without finding its sheet (R113). The arbiter is run by the caller. -/
def State.seekNotFound (s : State) (c : Fin 8) (j : Fin 512) : State :=
  ((s.settleWithAudit j .completeBySeek).dropJob j).freeContext c

/-- The cursor at the job's first segment, and the HEADER request for it (R111). -/
def State.firstHeader (s : State) (c : Fin 8) (r : JobRecord) : State :=
  match r.chainHead with
  | some e =>
    (s.pushRead ⟨c, .header, r.number, ⟨e, 0⟩, 1⟩).setContext c
      { s.context c with nextFetch := some 1, position := some ⟨e, 0⟩ }
  | none => s

/-- The resume sheet exceeds the sheet cap: nothing is left to send (R65, R111). -/
def JobRecord.pastCap (r : JobRecord) : Bool :=
  match r.sheetCap, r.resumeSheet with
  | some cap, some sheet => decide (cap < sheet)
  | _, _ => false

/-- The SE begins a resume seek (R111): it ends at once when the resume sheet exceeds the sheet cap. -/
def State.beginSeek (s : State) (c : Fin 8) (j : Fin 512) : State :=
  if (s.job j).pastCap then s.seekNotFound c j else s.firstHeader c (s.job j)

end Sys2Proof.Machine
end

