-- ==== Sys2Proof/Machine/Release.lean ====
section
/-! DEFINITION. The Release Unit (chapter 3): the context arbiter and its hand-outs, undoing, and what a RELEASE-ASK holds.
What the RU does with an ask is in Machine/Asking.lean. -/

namespace Sys2Proof.Machine

/-! ### The arbiter (R56, R60, R61) -/

/-- The eligible entries of a queue: the printer has no bound context, and no earlier entry names it (R56). `seen` are the
printers of the entries before. -/
def State.eligibleAfter (s : State) (seen : List (Fin 64)) : List QueueEntry → List QueueEntry
  | [] => []
  | e :: rest =>
    if (s.boundAt e.printer).isSome ∨ e.printer ∈ seen then s.eligibleAfter (e.printer :: seen) rest
    else e :: s.eligibleAfter (e.printer :: seen) rest

def State.eligible (s : State) : List QueueEntry := s.eligibleAfter [] s.ru.queue

/-- The FREE context with the lowest number (R60). -/
def State.lowestFreeContext (s : State) : Option (Fin 8) := firstIndex 8 (fun c => decide ((s.context c).state = .free))

/-- The SAVED context nearest the head of the saved list whose owner has no eligible entry (R60). -/
def State.spareSaved (s : State) : Option (Fin 8) :=
  s.ru.saved.find? fun c =>
    match (s.context c).owner with
    | some q => !s.eligible.any (fun e => decide (e.printer = q))
    | none => true

/-- The context obtainable for an eligible entry of printer `p`, by the first rule of R60 that applies. -/
def State.obtainable (s : State) (p : Fin 64) : Option (Fin 8) :=
  match s.savedAt p with
  | some c => some c
  | none =>
    match s.lowestFreeContext with
    | some c => some c
    | none => s.spareSaved

/-- The oldest eligible entry for which a context is obtainable, with that context (R60). -/
def State.handOutChoice (s : State) : Option (QueueEntry × Fin 8) :=
  s.eligible.findSome? (fun e => (s.obtainable e.printer).map (fun c => (e, c)))

/-- A job continues in place: the context is the one the printer owned, SAVED with save-done set, and it names the job (R61). -/
def Context.continues (x : Context) (e : QueueEntry) : Bool :=
  decide (e.origin ≠ .held) && decide (x.state = .saved) && decide (x.owner = some e.printer) && x.saveDone &&
    decide (x.parkedJob = some e.job)

/-- The context after a hand-out in mode START (R65). -/
def startContext (e : QueueEntry) (r : JobRecord) : Context :=
  { Context.free with
    state := .opening, owner := some e.printer, job := some e.job, mode := some .start, step := some .wait,
    nextFetch := some 1, position := r.chainHead.map (fun h => ⟨h, 0⟩), sheetCap := r.sheetCap }

/-- The context after a hand-out in mode CONTINUE (R65). -/
def continueContext (x : Context) (e : QueueEntry) (r : JobRecord) : Context :=
  { x with
    state := .opening, owner := some e.printer, job := some e.job, parkedJob := none, saveDone := false,
    mode := some .continued, step := some .wait, sheetCap := r.sheetCap, credit := 0, stall := none, park := none,
    pendingEnd := none }

/-- The context after a hand-out for a resume seek (R65). Segments sent and the last sheet started are 0 until the sheet is found
(DESIGN CHOICE, log entry 39). -/
def seekContext (e : QueueEntry) (r : JobRecord) : Context :=
  { Context.free with
    state := .opening, owner := some e.printer, job := some e.job, step := some .seek, sheetCap := r.sheetCap }

/-- The queue without the entry of a job. -/
def State.removeEntry (s : State) (n : Nat) : State :=
  { s with ru := { s.ru with queue := s.ru.queue.filter (fun e => e.job != n) } }

/-- A hand-out of context `c` to queue entry `e` (R61, R65, R110, R111), with the test of R66 or the start of the seek. The
arbiter run goes on with the caller. -/
def State.handOut (s : State) (e : QueueEntry) (c : Fin 8) : State :=
  match s.findJob e.job with
  | none => s.removeEntry e.job
  | some (j, r) =>
    let x := s.context c
    let s1 := (s.removeEntry e.job).leaveSaved c
    let bound := { r with boundPrinter := some e.printer, boundContext := some c }
    if e.origin = .held then
      ((s1.setContext c (startContext e r)).setJob j { bound with state := .opening }).waitTest c
    else if x.continues e then
      (((s1.setContext c (continueContext x e r)).unnameJob e.job).setJob j { bound with state := .opening }).waitTest c
    else
      (((s1.setContext c (seekContext e r)).unnameJob e.job).setJob j { bound with state := .seeking }).beginSeek c j

/-- Hands out contexts one at a time while a hand-out is possible (R60). Every hand-out takes one entry off the queue. -/
def State.arbiterFor : (fuel : Nat) → State → State
  | 0, s => s
  | fuel + 1, s =>
    match s.handOutChoice with
    | some (e, c) => State.arbiterFor fuel (s.handOut e c)
    | none => s

/-- Sets whether the arbiter waits (R44). -/
def State.setHold (s : State) (h : ArbiterHold) : State := { s with ru := { s.ru with hold := h } }

/-- The context arbiter is called. It runs (R60), or, while the RU takes the candidates of an ask, it is noted that it has been called
with something queued (R44). -/
def State.runArbiter (s : State) : State :=
  match s.ru.hold with
  | .off => State.arbiterFor s.ru.queue.length s
  | .on => if s.ru.queue = [] then s else s.setHold .called
  | .called => s

/-- The candidates of an ask have been taken: the arbiter waits no longer, and runs if it has been called (R44, R60). -/
def State.endHold (s : State) : State :=
  if s.ru.hold = .called then (s.setHold .off).runArbiter else s.setHold .off

/-! ### Undoing (R57) -/

/-- The job record of an undone entry (R57). -/
def undoneRecord (r : JobRecord) (e : QueueEntry) : JobRecord :=
  match e.origin with
  | .held =>
    { r with
      state := .held, reservation := none, sheetCap := none, vector := none,
      countdown := some (Countdown.load e.countdown) }
  | .parked reason parkedAt =>
    { r with
      state := .parked, parkReason := some reason, parkedAt := some parkedAt, countdown := some (Countdown.load e.countdown) }

/-- Undoes a queue entry (R57). The arbiter is run by the caller. -/
def State.undo (s : State) (e : QueueEntry) : State :=
  match s.findJob e.job with
  | none => s.removeEntry e.job
  | some (j, _) =>
    let s1 := if e.origin = .held then (s.removeEntry e.job).returnJob j else s.removeEntry e.job
    s1.setJob j (undoneRecord (s1.job j) e)

/-- Undoes the entries of a printer that have a property, in queue order (R57, R58, R62). -/
def State.undoEntries (s : State) (p : Fin 64) (which : QueueEntry → Bool) : State :=
  (s.ru.queue.filter (fun e => decide (e.printer = p) && which e)).foldl State.undo s

/-- The vector of an entry's job is touched by a loss set (R58). -/
def State.entryTouched (s : State) (l : LossSet) (e : QueueEntry) : Bool :=
  match s.findJob e.job with
  | some (_, r) => r.touchedBy l
  | none => false

/-- The RU takes a notice of a change of view: a degrade undoes the entries it touches, and then the arbiter is run (R58). -/
def State.takeViewAtRu (s : State) (n : ViewNotice) : State :=
  if n.state = .degraded ∧ s.ru.queue.any (fun e => decide (e.printer = n.printer) && s.entryTouched n.loss e) = true then
    (s.undoEntries n.printer (s.entryTouched n.loss)).runArbiter
  else s

/-! ### The RELEASE-ASK (R41) -/

/-- A RELEASE-ASK's contents (R41); selection 0 is ALL (R181). -/
structure ReleaseAsk where
  tag       : Tag
  badge     : Code32
  selection : Nat
deriving DecidableEq, Repr

end Sys2Proof.Machine
end

