-- ==== Sys2Proof/Machine/Ends.lean ====
section
/-! DEFINITION. The ends of streams and seeks (R74, R77 to R80), the printer's other reset work, recall (7.6), and the SE's
answer to completions and to a change of view. -/

namespace Sys2Proof.Machine

/-- The command kind of PRINTER-RESET (R182). -/
def printerResetKind : Byte := 25

/-! ### Recall of jobs without a context (R117, R119) -/

/-- JOB-REFUSED of a job, to its workstation (R38, R109, R115, R119). -/
def State.refuseJob (s : State) (r : JobRecord) (c : Code) : State := s.send .up r.station (.refusedJob r.number c)

/-- The recall of a HELD job (R117). -/
def State.recallHeld (s : State) (j : Fin 512) : State := (s.dropJob j).refuseJob (s.job j) .recalled

/-- The recall of a PARKED job (R117). -/
def State.recallParked (s : State) (j : Fin 512) : State :=
  let r := s.job j
  (((s.settleOrReturn j .recalled).unnameJob r.number).dropJob j).refuseJob r .recalled

/-- The recall of a QUEUED job (R117). Its JOB-AUDIT and JOB-REFUSED come before the arbiter is run (DESIGN CHOICE, log entry
42). -/
def State.recallQueued (s : State) (j : Fin 512) : State :=
  let r := s.job j
  (((((s.removeEntry r.number).settleOrReturn j .recalled).unnameJob r.number).dropJob j).refuseJob r .recalled).runArbiter

/-! ### The printer's other reset work (R80, R173) -/

/-- The undo of the printer's queue entries, the reset of its conditions, callouts and slots, and the reply that waits (R80).
The arbiter is run by the caller. The reply is queued after the frames, and its notices after the reports, of an end that it waited for
(DESIGN CHOICE, log entries 48 and 49). -/
def State.resetWork (s : State) (p : Fin 64) : State :=
  let s1 := ((s.undoEntries p (fun _ => true)).resetConditions p).resetSlots p
  match s1.resetWait p with
  | some w => (s1.setResetWait p none).send .up w.station (.reply w.tag printerResetKind .done .none)
  | none => s1

/-- After an end at printer `p` is carried out: the reset work that waited for it, and the arbiter run (R77, R80), after whatever
the end reported (DESIGN CHOICE, log entries 42, 48 and 49). -/
def State.afterEnd (s : State) (p : Fin 64) : State :=
  (if (s.resetWait p).isSome then s.resetWork p else s).runArbiter

/-! ### Ends (R74, R77 to R80, R118) -/

/-- The printer has been sent a STREAM-OPEN for the context's stream. -/
def Context.opened (x : Context) : Bool :=
  decide (x.state = .running) || decide (x.state = .halted) || (decide (x.state = .opening) && decide (x.step = some .sent))

/-- A COMPLETE end (R74). -/
def State.endComplete (s : State) (c : Fin 8) (j : Fin 512) : State :=
  ((s.settleWithAudit j .complete).dropJob j).saveContext c
    { s.context c with parkedJob := none, saveDone := true, bufA := .empty, bufB := .empty }

/-- A park from a context: the job parks and the context is SAVED naming it (R78). -/
def State.endPark (s : State) (c : Fin 8) (j : Fin 512) (reason : ParkReason) (sheet : Nat) : State :=
  (s.parkJob j reason sheet).saveContext c { s.context c with saveDone := true, parkedJob := some (s.job j).number }

/-- The resume sheet of a STREAM-END STOPPED at sheet `n` (R74). -/
def stoppedSheet (n : Nat) : Nat := if n < 65535 then n + 1 else 65535

/-- A RECALL end (R118, R119). Its JOB-AUDIT and JOB-REFUSED come here, before the arbiter run of `afterEnd` (DESIGN CHOICE, log
entry 42). -/
def State.endRecall (s : State) (c : Fin 8) (j : Fin 512) : State :=
  let x := s.context c
  let r := s.job j
  (((((if x.opened then s.abort x .ended else s).settleOrReturn j .recalled).freeContext c).unnameJob r.number).dropJob j).refuseJob
    r .recalled

/-- The resume sheet of a park by PRINTER-RESET (R107). -/
def resetSheet (x : Context) (r : JobRecord) : Nat :=
  if x.state = .opening then r.resumeSheet.getD r.nextSheet else r.nextSheet

/-- A RESET end; a recall kept as the recall-pending mark is then carried out on the parked job (R80, R118). -/
def State.endReset (s : State) (c : Fin 8) (j : Fin 512) : State :=
  let x := s.context c
  let r := s.job j
  let s1 := ((if x.opened then s.abort x .ended else s).parkJob j .reset (resetSheet x r)).freeContext c
  if r.recallPending then s1.recallParked j else s1

/-- What an end does at the job and its context (R74, R77, R78, R80, R118). -/
def State.endAt (s : State) (c : Fin 8) (j : Fin 512) : EndKind → State
  | .complete => s.endComplete c j
  | .stopped n => s.endPark c j .stall (stoppedSheet n)
  | .stall => (s.abort (s.context c) .park).endPark c j .stall (s.job j).nextSheet
  | .parkTimer => (s.abort (s.context c) .park).endPark c j .blocked (s.job j).nextSheet
  | .degraded => (s.abort (s.context c) .park).endPark c j .degraded (s.job j).nextSheet
  | .recall => s.endRecall c j
  | .reset => s.endReset c j

/-- Carries out an end (R77). -/
def State.carryOut (s : State) (c : Fin 8) (k : EndKind) : State :=
  let x := s.context c
  match x.owner, x.job.bind s.findJob with
  | some p, some (j, _) => (s.endAt c j k).afterEnd p
  | _, _ => s

/-- An uncorrectable read ends the job as FAILED (R79). -/
def State.fail (s : State) (c : Fin 8) : State :=
  let x := s.context c
  match x.owner, x.job.bind s.findJob with
  | some p, some (j, _) =>
    (((((if x.step = some .seek then s else s.abort x .ended).settleWithAudit j .failed).dropJob j).removeReads c).freeContext
      c).afterEnd p
  | _, _ => s

/-- The recall kept on the job's record when a RESET replaces a pending RECALL (R28, R118). -/
def State.keepRecall (s : State) (c : Fin 8) : State :=
  match (s.context c).job.bind s.findJob with
  | some (j, r) => s.setJob j { r with recallPending := true }
  | none => s

/-- An end arises at a context (R77): it is carried out at once, or held while a read is in flight; a RECALL or RESET replaces
a pending end, and any other kind leaves it. -/
def State.raiseEnd (s : State) (c : Fin 8) (k : EndKind) : State :=
  match (s.context c).pendingEnd with
  | some old =>
    if k = .recall ∨ k = .reset then
      let s1 := if old = .recall ∧ k = .reset then s.keepRecall c else s
      s1.setContext c { s1.context c with pendingEnd := some k }
    else s
  | none =>
    let s1 := s.withdrawReads c
    if s1.readInFlight c then s1.setContext c { s1.context c with pendingEnd := some k } else s1.carryOut c k

/-- The recall of a job with a bound context (R116, R118): a first recall that still waits stands. -/
def State.recallBound (s : State) (r : JobRecord) : State :=
  match s.boundContextOf r.number with
  | some c => if (s.context c).pendingEnd = some .recall ∨ r.recallPending = true then s else s.raiseEnd c .recall
  | none => s

/-- The recall of a job past SEALING (R117, R118). -/
def State.recall (s : State) (j : Fin 512) (r : JobRecord) : State :=
  match r.state with
  | .held => s.recallHeld j
  | .queued => s.recallQueued j
  | .parked => s.recallParked j
  | .seeking => s.recallBound r
  | .opening => s.recallBound r
  | .printing => s.recallBound r
  | .free => s
  | .receiving => s
  | .sealing => s

/-! ### Completions at the SE (R70, R77, R112) -/

/-- The buffer that is FETCHING segment `k` becomes FULL with it (R70). -/
def Context.fill (x : Context) (k : Nat) (seg : Segment) : Context :=
  if x.bufA = .fetching k then { x with bufA := .full k seg }
  else if x.bufB = .fetching k then { x with bufB := .full k seg }
  else x

/-- An uncorrectable completion turns this pending end into FAILED (R77). -/
def EndKind.failsUnread : EndKind → Bool
  | .stall => true
  | .parkTimer => true
  | .degraded => true
  | .stopped _ => true
  | .complete => false
  | .recall => false
  | .reset => false

/-- A FETCH completion at context `c` (R70, R77). -/
def State.fetched (s : State) (c : Fin 8) (k : Nat) (seg : Segment) (worst : WordErrors) : State :=
  let x := s.context c
  if worst = .uncorrectable then
    match x.pendingEnd with
    | some e => if e.failsUnread then s.fail c else s.carryOut c e
    | none => s.fail c
  else
    let s1 := s.setContext c (x.fill k seg)
    match x.pendingEnd with
    | some e => s1.carryOut c e
    | none => s1.pump c

/-- The test of R66, with the arbiter run when it has withdrawn the open (R60, R68). -/
def State.waitThenArbiter (s : State) (c : Fin 8) : State :=
  let s1 := s.waitTest c
  if (s1.context c).state = .opening then s1 else s1.runArbiter

/-- The seek has found its sheet at segment `k` (R112). -/
def State.sheetFound (s : State) (c : Fin 8) (k sheet : Nat) : State :=
  (s.setContext c
    { s.context c with
      sent := k - 1, lastSheet := sheet - 1, mode := some (.restartAt sheet), step := some .wait }).waitThenArbiter c

/-- The cursor advances to the next segment, whose HEADER is asked for (R112). -/
def State.nextHeader (s : State) (c : Fin 8) (n k : Nat) (pos : SegPos) : State :=
  match s.nextPos pos with
  | some next =>
    (s.pushRead ⟨c, .header, n, next, k + 1⟩).setContext c
      { s.context c with nextFetch := some (k + 1), position := some next }
  | none => s

/-- A HEADER completion at context `c` (R112, R114, R118). -/
def State.headerRead (s : State) (c : Fin 8) (e : ReadEntry) (h : Header) (worst : WordErrors) : State :=
  let x := s.context c
  match x.pendingEnd with
  | some k => s.carryOut c k
  | none =>
    if worst = .uncorrectable then s.fail c
    else match x.job.bind s.findJob with
      | none => s
      | some (j, r) =>
        if h.sheetStart = true ∧ some h.sheet = r.resumeSheet then s.sheetFound c e.segment h.sheet
        else if e.segment < r.segments then s.nextHeader c r.number e.segment e.pos
        else (s.seekNotFound c j).runArbiter

/-! ### A change of view at the SE (R66, R76) -/

/-- The stream may run in this printer state, touched or not by its loss set (R76). -/
def runsIn (st : PrinterState) : Bool := decide (st = .ready) || decide (st = .degraded)

/-- A RUNNING stream halts; the park countdown is loaded (R67, R76). -/
def State.halt (s : State) (c : Fin 8) (r : JobRecord) : State :=
  s.setContext c { s.context c with state := .halted, park := some (Countdown.load (s.zone r.zone).parkTime) }

/-- A HALTED stream runs again (R76). -/
def State.resumeStream (s : State) (c : Fin 8) : State :=
  (s.setContext c { s.context c with state := .running, park := none }).pump c

/-- The SE takes a notice of a change of view (R66, R76). -/
def State.takeViewAtSe (s : State) (n : ViewNotice) : State :=
  match s.boundAt n.printer with
  | none => s
  | some c =>
    let x := s.context c
    match x.job.bind s.findJob with
    | none => s
    | some (_, r) =>
      let touching := decide (n.state = .degraded) && r.touchedBy n.loss
      if x.pendingEnd.isSome then s
      else match x.state, x.step with
        | .running, _ =>
          if touching then s.raiseEnd c .degraded else if runsIn n.state then s else s.halt c r
        | .halted, _ =>
          if touching then s.raiseEnd c .degraded else if runsIn n.state then s.resumeStream c else s
        | .opening, some .wait => s.waitThenArbiter c
        | .opening, some .sent => if touching then (s.withdraw c).runArbiter else s
        | _, _ => s

end Sys2Proof.Machine
end

