-- ==== Sys2Proof/Machine/Frames.lean ====
section
/-! DEFINITION. The Frame Classifier (R171, R177) and the reading of received frames: the envelope (R176), the encodings of
R178 and R179, and the payloads of chapter 12. -/

namespace Sys2Proof.Machine

/-! ### Bytes -/

/-- The byte at an offset, as a number; 0 past the end. -/
def byteAt (b : List Byte) (i : Nat) : Nat := (b.getD i 0).toNat

/-- A two-byte number, most significant byte first (chapter 12). -/
def be16 (b : List Byte) (i : Nat) : Nat := byteAt b i * 256 + byteAt b (i + 1)

/-- A four-byte number. -/
def be32 (b : List Byte) (i : Nat) : Nat := be16 b i * 65536 + be16 b (i + 2)

/-- A station address: six bytes. -/
def be48 (b : List Byte) (i : Nat) : Station := BitVec.ofNat 48 (be16 b i * 4294967296 + be32 b (i + 2))

/-- A flag bit of a byte. -/
def flagAt (b : List Byte) (i bit : Nat) : Bool := decide ((byteAt b i / 2 ^ bit) % 2 = 1)

/-- An index that must be below `n`. -/
def fin? (n x : Nat) : Option (Fin n) := if h : x < n then some ⟨x, h⟩ else none

/-! ### The classifier (R171, R176, R177) -/

/-- The Jarhede EtherType (chapter 12). -/
def jarhedeType : BitVec 16 := 0x88B5

/-- The kinds of print-path frame the part receives (R183). -/
inductive FrameKind where
  | jobOpen | jobData | jobClose | jobCancel | command | status | releaseAsk
  | streamAccept | streamReject | credit | sheetDone | streamEnd
deriving DecidableEq, Repr

/-- The frame kinds by their values (R183, in hexadecimal there). -/
def frameKindOf : Nat → Option FrameKind
  | 0x01 => some .jobOpen
  | 0x02 => some .jobData
  | 0x03 => some .jobClose
  | 0x04 => some .jobCancel
  | 0x10 => some .command
  | 0x20 => some .status
  | 0x21 => some .releaseAsk
  | 0x22 => some .streamAccept
  | 0x23 => some .streamReject
  | 0x24 => some .credit
  | 0x25 => some .sheetDone
  | 0x26 => some .streamEnd
  | _ => none

/-- The port a kind is valid on (R19, R41, R124, R165, R171). -/
def FrameKind.port : FrameKind → Port
  | .jobOpen => .up
  | .jobData => .up
  | .jobClose => .up
  | .jobCancel => .up
  | .command => .up
  | .status => .fp
  | .releaseAsk => .fp
  | .streamAccept => .fp
  | .streamReject => .fp
  | .credit => .fp
  | .sheetDone => .fp
  | .streamEnd => .fp

/-- What the FC does with a frame. -/
inductive Sorting where
  | foreign
  | discard
  | deliver (k : FrameKind)
deriving DecidableEq, Repr

/-- The envelope is whole, of version 1, and its payload length does not exceed the bytes that follow (R177). -/
def envelopeGood (f : EthFrame) : Bool :=
  decide (6 ≤ f.body.length) && decide (byteAt f.body 0 = 1) && decide (be16 f.body 2 + 6 ≤ f.body.length)

/-- A frame's source may send on this port: any station upstream, a DEFINED printer on the fleet port (R171). -/
def State.sourceKnown (s : State) (p : Port) (a : Station) : Bool :=
  match p with
  | .up => true
  | .fp => (s.printerOf a).isSome

/-- The FC's sorting of a frame that arrived on port `p` (R171, R177). -/
def State.sort (s : State) (p : Port) (f : EthFrame) : Sorting :=
  if f.etherType ≠ jarhedeType then .foreign
  else if envelopeGood f = false ∨ s.sourceKnown p f.src = false then .discard
  else match frameKindOf (byteAt f.body 1) with
    | some k => if k.port = p then .deliver k else .discard
    | none => .discard

/-- A print-path frame as its owner gets it: source, frame sequence, and payload without padding (R176, R177). -/
structure InFrame where
  src     : Station
  seq     : Nat
  payload : List Byte
deriving DecidableEq, Repr

def openFrame (f : EthFrame) : InFrame := ⟨f.src, be16 f.body 4, (f.body.drop 6).take (be16 f.body 2)⟩

/-- The frame of kind `k` at the head of the receive buffer of its port, if that is what stands there. -/
def State.headFrame (s : State) (k : FrameKind) : Option InFrame :=
  match (s.port k.port).rx with
  | f :: _ => if s.sort k.port f = .deliver k then some (openFrame f) else none
  | [] => none

/-- Takes the frame of kind `k` at the head of its receive buffer and hands it to its owner; nothing happens when no such frame
stands there (log entry 1). -/
def State.onFrame (s : State) (k : FrameKind) (act : InFrame → State → State) : State :=
  match s.headFrame k with
  | some f => act f (s.popRx k.port)
  | none => s

/-- As `onFrame`, for a frame from a printer: its owner also gets the printer slot of the source (R41). -/
def State.onPrinterFrame (s : State) (k : FrameKind) (act : Fin 64 → List Byte → State → State) : State :=
  s.onFrame k fun f t =>
    match t.printerOf f.src with
    | some p => act p f.payload t
    | none => t

/-! ### Option entries and amounts (R3, R178, R179) -/

/-- The option codes by number (R178). -/
def optCodeOf : Nat → Option OptCode
  | 1 => some .copies
  | 2 => some .sides
  | 3 => some .colour
  | 4 => some .size
  | 5 => some .staple
  | 6 => some .tray
  | 7 => some .bin
  | 8 => some .collate
  | _ => none

/-- The value ranges of the option codes, as R178 numbers the values (R3). -/
def OptCode.inRange (c : OptCode) (v : Nat) : Bool :=
  match c with
  | .copies => decide (1 ≤ v) && decide (v ≤ 99)
  | .sides => decide (v = 1) || decide (v = 2)
  | .colour => decide (v ≤ 1)
  | .size => decide (v ≤ 1)
  | .staple => decide (v ≤ 2)
  | .tray => decide (v ≤ 7)
  | .bin => decide (v ≤ 7)
  | .collate => decide (v ≤ 1)

/-- An option entry of two bytes: none for an unknown code or a value out of range (R32). -/
def optionEntry? (code value : Nat) : Option OptionEntry :=
  match optCodeOf code with
  | some c => if c.inRange value then some ⟨c, value⟩ else none
  | none => none

/-- `n` option entries from offset `i`, none when any is invalid (R32). -/
def optionEntries? (b : List Byte) (i : Nat) : Nat → Option (List OptionEntry)
  | 0 => some []
  | n + 1 =>
    match optionEntry? (byteAt b i) (byteAt b (i + 1)), optionEntries? b (i + 2) n with
    | some e, some rest => some (e :: rest)
    | _, _ => none

/-- The `i`-th half-byte from offset `o`, the high half first (R179). -/
def nibbleAt (b : List Byte) (o i : Nat) : Nat :=
  if i % 2 = 0 then byteAt b (o + i / 2) / 16 else byteAt b (o + i / 2) % 16

/-- The number that `n` decimal digits from half-byte `i` spell, none when one is above 9. -/
def digits? (b : List Byte) (o : Nat) : (n : Nat) → (i acc : Nat) → Option Nat
  | 0, _, acc => some acc
  | n + 1, i, acc => if nibbleAt b o i ≤ 9 then digits? b o n (i + 1) (acc * 10 + nibbleAt b o i) else none

/-- A received packed decimal amount at an offset: its sign and its magnitude; none when it is invalid (R90, R179). -/
def amount? (b : List Byte) (o : Nat) : Option (Bool × Nat) :=
  if nibbleAt b o 0 ≠ 0 then none
  else match digits? b o 8 1 0 with
    | none => none
    | some n => if nibbleAt b o 9 = 12 then some (false, n) else if nibbleAt b o 9 = 13 then some (true, n) else none

/-- A received amount in a field that may not be negative and does not exceed `limit` (R90). -/
def positive? (b : List Byte) (o limit : Nat) : Option Nat :=
  match amount? b o with
  | some (false, n) => if n ≤ limit then some n else none
  | _ => none

/-- A received balance: −9,999.99 to +999,999.99, MINUS zero taken as zero (R90). -/
def balance? (b : List Byte) (o : Nat) : Option Int :=
  match amount? b o with
  | some (false, n) => some (n : Int)
  | some (true, n) => if n ≤ 999999 then some (-(n : Int)) else none
  | none => none

/-- The consumable slot of a number (R178). -/
def consumableOf : Nat → Option Consumable
  | 0 => some .k
  | 1 => some .c
  | 2 => some .m
  | 3 => some .y
  | 4 => some .drum
  | 5 => some .fuser
  | _ => none

/-! ### Upload frames (R180) -/

/-- JOB-OPEN (R31, R180). `ticket` is none when the ticket is invalid or the length disagrees with its count. -/
structure JobOpenFrame where
  tag    : Tag
  badge  : Code32
  zone   : Nat
  pages  : Nat
  copies : Nat
  ticket : Option (List OptionEntry)
deriving DecidableEq, Repr

def parseJobOpen (b : List Byte) : Option JobOpenFrame :=
  if b.length < 11 then none
  else
    let count := byteAt b 10
    some
      { tag := BitVec.ofNat 16 (be16 b 0), badge := BitVec.ofNat 32 (be32 b 2), zone := byteAt b 6, pages := be16 b 7,
        copies := byteAt b 9,
        ticket := if b.length = 11 + 2 * count ∧ count ≤ 12 then optionEntries? b 11 count else none }

/-- JOB-DATA (R33, R180). -/
structure JobDataFrame where
  job        : Nat
  sheetStart : Bool
  sheet      : Nat
  data       : List Byte
deriving DecidableEq, Repr

/-- A payload that names its job binds to it (R177). One cut short in its flag or its sheet number has no data bytes, so that its
fate is the LENGTH of R33; what it lacks reads as 0. -/
def parseJobData (b : List Byte) : Option JobDataFrame :=
  if b.length < 2 then none else some ⟨be16 b 0, flagAt b 2 0, be16 b 3, b.drop 5⟩

/-- JOB-CLOSE: job number, segment count and byte count (R35, R180). -/
structure JobCloseFrame where
  job      : Nat
  segments : Nat
  bytes    : Nat
deriving DecidableEq, Repr

def parseJobClose (b : List Byte) : Option JobCloseFrame :=
  if b.length = 10 then some ⟨be16 b 0, be32 b 2, be32 b 6⟩ else none

def parseJobCancel (b : List Byte) : Option Nat := if b.length = 2 then some (be16 b 0) else none

/-! ### Frames from printers (R180, R181) -/

/-- A level percent: 0 to 100, 255 for unknown, none when out of range (R124). -/
def level? (x : Nat) : Option (Option Nat) := if x = 255 then some none else if x ≤ 100 then some (some x) else none

/-- A reported supply type: 0 to 63, 255 for the slot's default, none when out of range (R124, R162). -/
def supplyType? (x : Nat) : Option (Option (Fin 64)) := if x = 255 then some none else (fin? 64 x).map some

def slotReport? (b : List Byte) (o : Nat) : Option SlotReport :=
  match level? (byteAt b o), supplyType? (byteAt b (o + 5)) with
  | some l, some t => some ⟨l, BitVec.ofNat 32 (be32 b (o + 1)), t⟩
  | _, _ => none

def panelOf : Nat → Option PanelState
  | 0 => some .online
  | 1 => some .offline
  | 2 => some .sleeping
  | 3 => some .serviceMenu
  | _ => none

/-- STATUS: none when the frame is one that the CM discards (R124, R180). -/
def parseStatus (b : List Byte) : Option StatusFrame :=
  if b.length = 44 ∧ byteAt b 0 ≤ 6 then
    match slotReport? b 7, slotReport? b 13, slotReport? b 19, slotReport? b 25, slotReport? b 31, slotReport? b 37,
      panelOf (byteAt b 43) with
    | some k, some c, some m, some y, some d, some f, some panel =>
      some ⟨(List.range (byteAt b 0)).map (fun i => Fin.ofNat 256 (byteAt b (1 + i))), ⟨k, c, m, y, d, f⟩, panel⟩
    | _, _, _, _, _, _, _ => none
  else none

def parseReleaseAsk (b : List Byte) : Option ReleaseAsk :=
  if b.length = 8 then some ⟨BitVec.ofNat 16 (be16 b 0), BitVec.ofNat 32 (be32 b 2), be16 b 6⟩ else none

/-- STREAM-ACCEPT and CREDIT: a stream tag and a byte (R181). -/
def parseTagByte (b : List Byte) : Option (Nat × Nat) := if b.length = 3 then some (be16 b 0, byteAt b 2) else none

def parseStreamReject (b : List Byte) : Option Nat := if b.length = 2 then some (be16 b 0) else none

/-- SHEET-DONE (R73, R180). -/
structure SheetDoneFrame where
  job         : Nat
  sheet       : Nat
  faces       : Nat
  colourFaces : Nat
  large       : Bool
deriving DecidableEq, Repr

/-- None for a bad length or for fields outside the ranges of R73. -/
def parseSheetDone (b : List Byte) : Option SheetDoneFrame :=
  if b.length = 7 ∧ 1 ≤ be16 b 2 ∧ (byteAt b 4 = 1 ∨ byteAt b 4 = 2) ∧ byteAt b 5 ≤ byteAt b 4 then
    some ⟨be16 b 0, be16 b 2, byteAt b 4, byteAt b 5, flagAt b 6 0⟩
  else none

/-- STREAM-END: the tag and the end kind (R74, R181). A COMPLETE is taken whatever its sheet number (DESIGN CHOICE, log entry
40). -/
def parseStreamEnd (b : List Byte) : Option (Nat × EndKind) :=
  if b.length = 5 then
    if byteAt b 2 = 0 then some (be16 b 0, .complete)
    else if byteAt b 2 = 1 then some (be16 b 0, .stopped (be16 b 3))
    else none
  else none

/-! ### Commands (R165, R182) -/

/-- A COMMAND: its source, tag, kind byte and body (R182). -/
structure CommandFrame where
  src  : Station
  tag  : Tag
  kind : Byte
  body : List Byte
deriving DecidableEq, Repr

/-- None when the payload is too short for a tag and a kind. -/
def parseCommand (f : InFrame) : Option CommandFrame :=
  if f.payload.length < 3 then none
  else some ⟨f.src, BitVec.ofNat 16 (be16 f.payload 0), BitVec.ofNat 8 (byteAt f.payload 2), f.payload.drop 3⟩

/-- The MU accepts a COMMAND when the console station list is empty or holds the source (R165). -/
def State.accepts (s : State) (a : Station) : Bool :=
  (List.finRange 4).all (fun i => (s.console i).isNone) ||
    (List.finRange 4).any (fun i => match s.console i with | some e => decide (e.station = a) | none => false)

/-- The REPLY to a command (R165, R182). -/
def State.reply (s : State) (f : CommandFrame) (c : Code) (contents : Contents) : State :=
  s.send .up f.src (.reply f.tag f.kind c contents)

/-- The command of kind `kind` at the head of the upstream receive buffer, if that is what stands there. -/
def State.headCommand (s : State) (kind : Byte) : Option CommandFrame :=
  match (s.headFrame .command).bind parseCommand with
  | some f => if f.kind = kind then some f else none
  | none => none

/-- Takes a command of kind `kind` at the MU (R165): REFUSED_STATION from a station that is not listed, RANGE when `parse`
does not read its body (R177), and otherwise what the command does. -/
def State.onCommand {α : Type} (s : State) (kind : Byte) (parse : List Byte → Option α)
    (act : CommandFrame → α → State → State) : State :=
  match s.headCommand kind with
  | none => s
  | some f =>
    let t := s.popRx .up
    if t.accepts f.src = false then t.reply f .refusedStation .none
    else match parse f.body with
      | some x => act f x t
      | none => t.reply f .range .none

/-- A body of no fields. -/
def parseNothing (b : List Byte) : Option Unit := if b.length = 0 then some () else none

/-- A body of one byte. -/
def parseByte (b : List Byte) : Option Nat := if b.length = 1 then some (byteAt b 0) else none

/-- A body of two bytes, one number each. -/
def parseTwoBytes (b : List Byte) : Option (Nat × Nat) := if b.length = 2 then some (byteAt b 0, byteAt b 1) else none

/-- A body of one two-byte number. -/
def parseWord (b : List Byte) : Option Nat := if b.length = 2 then some (be16 b 0) else none

end Sys2Proof.Machine
end

