-- ==== Sys2Proof/Machine/Encode.lean ====
section
/-! DEFINITION. The frames that the part sends, as bytes (R176 to R183): the encodings of R178 and R179, the payload of each
kind, the envelope, and the padding of R177. -/

namespace Sys2Proof.Machine

/-! ### Fields (R178, R179) -/

/-- A number in one byte. -/
def u8 (n : Nat) : List Byte := [BitVec.ofNat 8 n]

/-- A number in two bytes, most significant first. -/
def u16 (n : Nat) : List Byte := [BitVec.ofNat 8 (n / 256), BitVec.ofNat 8 n]

/-- A number in four bytes, most significant first. -/
def u32 (n : Nat) : List Byte := u16 (n / 65536) ++ u16 n

/-- A station address, as on the wire. -/
def stationBytes (a : Station) : List Byte := u16 (a.toNat / 4294967296) ++ u32 a.toNat

/-- A single flag in a byte (log entry 14). -/
def flagByte (b : Bool) : List Byte := u8 (if b then 1 else 0)

/-- A set of named flags: bit 0 for the first member listed. -/
def flagBits : List Bool → Nat
  | [] => 0
  | b :: rest => (if b then 1 else 0) + 2 * flagBits rest

def flagSet (bs : List Bool) : List Byte := u8 (flagBits bs)

/-- A day and a minute. -/
def stampBytes (t : Stamp) : List Byte := u16 t.day ++ u16 t.minute

/-- Half-bytes in pairs, the high half first. -/
def pairBytes : List Nat → List Byte
  | a :: b :: rest => BitVec.ofNat 8 (a * 16 + b) :: pairBytes rest
  | _ => []

/-- A packed decimal amount of `w` digits: a pad digit, the digits most significant first, and the sign C or D (R179). -/
def packedBytes (w : Nat) (x : Int) : List Byte :=
  pairBytes (0 :: ((Packed.ofInt w x).digits.reverse ++ [if (Packed.ofInt w x).minus then 13 else 12]))

/-- An amount: five bytes. -/
def amountBytes (x : Int) : List Byte := packedBytes 8 x

/-- `n` bytes of an absent field (log entry 12). -/
def absentBytes (f : AbsentField) (n : Nat) : List Byte := (List.range n).map (Config.absentByte f)

/-- A field that may be absent, of `n` bytes. -/
def optionalBytes {α : Type} (f : AbsentField) (n : Nat) (enc : α → List Byte) : Option α → List Byte
  | some x => enc x
  | none => absentBytes f n

/-- A list: a count byte and its members (R182). -/
def listBytes {α : Type} (enc : α → List Byte) (l : List α) : List Byte := u8 l.length ++ l.flatMap enc

/-- A sheet number that may be absent: 0 for none. -/
def sheetBytes (n : Option Nat) : List Byte := u16 (n.getD 0)

/-- A level percent: 255 for unknown, as R124 writes it (log entry 12). -/
def levelBytes (n : Option Nat) : List Byte := u8 (n.getD 255)

/-- A serial: 0 for unknown, as R124 writes it (log entry 12). -/
def serialBytes (x : Option Code32) : List Byte := u32 (x.getD 0).toNat

/-! ### Named values (R178) -/

def Consumable.number : Consumable → Nat
  | .k => 0
  | .c => 1
  | .m => 2
  | .y => 3
  | .drum => 4
  | .fuser => 5

def OptCode.number : OptCode → Nat
  | .copies => 1
  | .sides => 2
  | .colour => 3
  | .size => 4
  | .staple => 5
  | .tray => 6
  | .bin => 7
  | .collate => 8

def EntryState.number : EntryState → Nat
  | .empty => 0
  | .defined => 1

def AccountState.number : AccountState → Nat
  | .closed => 0
  | .opened => 1
  | .frozen => 2

def CondClass.number : CondClass → Nat
  | .ignore => 0
  | .notice => 1
  | .fault => 2

def CondEffect.number : CondEffect → Nat
  | .none => 0
  | .degrade => 1
  | .block => 2

def CalloutKind.number : CalloutKind → Nat
  | .service => 0
  | .facilities => 1

def JobState.number : JobState → Nat
  | .free => 0
  | .receiving => 1
  | .sealing => 2
  | .held => 3
  | .queued => 4
  | .seeking => 5
  | .opening => 6
  | .printing => 7
  | .parked => 8

def ParkReason.number : ParkReason → Nat
  | .blocked => 0
  | .stall => 1
  | .degraded => 2
  | .reset => 3

def PrinterState.number : PrinterState → Nat
  | .unknown => 0
  | .ready => 1
  | .degraded => 2
  | .blocked => 3
  | .silent => 4

def PanelState.number : PanelState → Nat
  | .online => 0
  | .offline => 1
  | .sleeping => 2
  | .serviceMenu => 3

def CalloutState.number : CalloutState → Nat
  | .free => 0
  | .grace => 1
  | .owed => 2
  | .sent => 3
  | .escalated => 4
  | .acked => 5
  | .suppressed => 6

def ReorderState.number : ReorderState → Nat
  | .quiet => 0
  | .due => 1
  | .ordered => 2

def DueTrigger.number : DueTrigger → Nat
  | .exhausted => 0
  | .floor => 1
  | .daysLeft => 2
  | .lowLevel => 3

def Detection.number : Detection → Nat
  | .firstSighting => 0
  | .serial => 1
  | .levelRise => 2
  | .command => 3

def ServiceState.number : ServiceState → Nat
  | .idle => 0
  | .serving => 1
  | .intakeClosed => 2

def CheckClass.number : CheckClass → Nat
  | .corrected => 0
  | .uncorrectable => 1
  | .overrun => 2

def EndReason.number : EndReason → Nat
  | .complete => 0
  | .completeBySeek => 1
  | .failed => 2
  | .recalled => 3
  | .expiredParked => 4

def AbortKind.number : AbortKind → Nat
  | .ended => 0
  | .park => 1

def ResolvedCause.number : ResolvedCause → Nat
  | .cleared => 0
  | .reset => 1

def Disposition.number : Disposition → Nat
  | .settled => 0
  | .returned => 1

def portNumber : Port → Nat
  | .up => 0
  | .fp => 1

def Mode.number : Mode → Nat
  | .start => 0
  | .continued => 1
  | .restartAt _ => 2

/-- The code table of R183. -/
def Code.number : Code → Nat
  | .done => 0
  | .busy => 1
  | .range => 2
  | .absent => 3
  | .state => 4
  | .refusedStation => 5
  | .tooLate => 6
  | .saturated => 7
  | .notServing => 8
  | .unknownUser => 16
  | .noAccount => 17
  | .userLimit => 18
  | .tableFull => 19
  | .intakeBusy => 20
  | .ticket => 21
  | .sequence => 22
  | .window => 23
  | .tooLarge => 24
  | .length => 25
  | .storeFull => 26
  | .timeout => 27
  | .cancelled => 28
  | .expired => 29
  | .recalled => 30
  | .accepted => 32
  | .printerUnavailable => 33
  | .queued => 34
  | .resuming => 35
  | .queueFull => 36
  | .colourUnavailable => 37
  | .sizeUnavailable => 38
  | .optionLost => 39
  | .accountFrozen => 40
  | .quota => 41
  | .jobGone => 42
  | .wrongZone => 43
  | .notReady => 44

/-! ### Table entries (R2, R182) -/

def lossBits (l : LossSet) : List Byte := flagSet [l.colour, l.duplex, l.large, l.staple]

def capBits (c : CapSet) : List Byte := flagSet [c.colour, c.duplex, c.large, c.stapler]

def optionBytes (o : OptionEntry) : List Byte := u8 o.code.number ++ u8 o.value

def PrinterEntry.bytes (e : PrinterEntry) : List Byte :=
  u8 e.state.number ++ stationBytes e.station ++ u8 e.zone ++ capBits e.caps ++
    listBytes (fun o => u8 o.code.number) e.options ++ listBytes (fun o => u8 o.value) e.options ++
    consumables.flatMap (fun q => flagByte (e.slotMap.get q).fitted ++ u8 (e.slotMap.get q).defaultType) ++
    u16 e.statusTimeout

def ZoneEntry.bytes (e : ZoneEntry) : List Byte :=
  u16 e.holdTime ++ u8 e.parkTime ++ u16 e.parkHoldTime ++ u16 e.stallTime ++ u8 (if e.mute.isSome then 0 else 1) ++
    optionalBytes .muteMinutes 2 (fun c => u16 c.left) e.mute

def UserEntry.bytes (e : UserEntry) : List Byte :=
  u8 e.state.number ++ u32 e.badge.toNat ++ u16 e.account ++ u8 e.homeZone ++ flagByte e.mayDowngrade ++
    flagByte e.mayPartial ++ flagByte e.colourPermitted ++ u8 e.liveJobs

def AccountEntry.bytes (e : AccountEntry) : List Byte :=
  u8 e.state.number ++ amountBytes e.overdraft ++ u8 e.plan ++ amountBytes e.balance ++ amountBytes e.reserved ++
    packedBytes 10 e.charged ++ amountBytes e.unbilled ++ u16 e.liveReservations

def RatePlan.bytes (e : RatePlan) : List Byte :=
  amountBytes e.rm ++ amountBytes e.rc ++ amountBytes e.rl ++ amountBytes e.rd ++ u8 e.discount ++ amountBytes e.minimum

def ConditionEntry.bytes (e : ConditionEntry) : List Byte :=
  u8 e.cls.number ++ u8 e.effect.number ++ lossBits e.loss ++ u8 e.grace ++ u16 e.escalation ++ u8 e.kind.number

def SupplyEntry.bytes (e : SupplyEntry) : List Byte :=
  u8 e.state.number ++ u8 e.kind.number ++ u32 e.ratedYield ++ u8 e.leadDays ++ u32 e.floorCount ++ u8 e.lowLevel ++
    u8 e.colourStop

/-! ### Contents of replies (R134, R151, R163, R170, R172) -/

/-- A condition list entry in CONDITION-READ (R134). Its class is numbered in the list of R15, NOTICE 1 and FAULT 2, not in the two
values that R125 lists for it (DESIGN CHOICE, log entry 46). -/
def CondItem.bytes (it : CondItem) : List Byte :=
  u8 it.code ++ u8 it.cls.number ++ u8 it.effect.number ++ lossBits it.loss ++ stampBytes it.firstSeen ++
    flagByte it.calloutWanted

def HistoryRecord.bytes (h : HistoryRecord) : List Byte := u8 h.code ++ stampBytes h.firstSeen ++ stampBytes h.cleared

def ConditionRecord.bytes (r : ConditionRecord) : List Byte :=
  optionalBytes .printerState 1 (fun (x : PrinterState) => u8 x.number) r.state ++ lossBits r.loss ++
    optionalBytes .statusCountdown 2 (fun (c : Countdown) => u16 c.left) r.countdown ++
    optionalBytes .panelState 1 (fun (x : PanelState) => u8 x.number) r.panel ++ listBytes CondItem.bytes r.list ++
    listBytes HistoryRecord.bytes r.history

def CalloutEntry.bytes (e : CalloutEntry) : List Byte :=
  u8 e.code ++ u8 e.kind.number ++ stampBytes e.firstSeen ++ u8 e.state.number ++ u8 e.level ++
    optionalBytes .calloutCountdown 2 (fun (c : Countdown) => u16 c.left) e.countdown ++ flagByte e.escalationOwed ++
    u16 e.parkedJobs

def SlotReading.bytes (x : SlotReading) : List Byte :=
  let r := x.record
  flagByte x.fitted ++ u8 r.supply ++ u32 r.remaining ++ u16 r.overrun ++ u16 r.today ++ u16 r.average ++
    flagByte r.seeded ++ levelBytes r.lastLevel ++ serialBytes r.lastSerial ++ u8 r.reorder.number ++
    optionalBytes .dueTrigger 1 (fun (t : DueTrigger) => u8 t.number) r.trigger ++
    optionalBytes .orderRef 4 (fun (x : Code32) => u32 x.toNat) r.orderRef ++
    flagSet [r.owedFitted.isSome, r.owedReorder] ++ flagByte r.exhausted ++ flagByte r.commandFit ++ u16 x.daysLeft ++
    u32 x.ratedYield

/-- Where a check occurred: the job number and the extent, or the port (R169). -/
def CheckSite.bytes : CheckSite → List Byte
  | .store job extent => u16 job ++ u16 extent
  | .port p => u8 (portNumber p)

/-- The size of a first occurrence of a class. -/
def CheckClass.occurrenceSize : CheckClass → Nat
  | .corrected => 8
  | .uncorrectable => 8
  | .overrun => 5

def checkRecordBytes (c : CheckClass) (r : CheckRecord) : List Byte :=
  u8 r.count ++
    optionalBytes .occurrence c.occurrenceSize (fun (x : CheckSite × Stamp) => x.1.bytes ++ stampBytes x.2) r.first ++
    optionalBytes .occurrence 4 stampBytes r.last

def CheckReading.bytes (r : CheckReading) : List Byte :=
  checkRecordBytes .corrected r.corrected ++ checkRecordBytes .uncorrectable r.uncorrectable ++
    checkRecordBytes .overrun r.overrun ++ u8 (worstRank r.worst)

def ChargeValues.bytes (v : ChargeValues) : List Byte :=
  u8 (match v.sides with | .one => 1 | .two => 2) ++ u8 (match v.colour with | .mono => 0 | .colour => 1) ++
    u8 (match v.size with | .standard => 0 | .large => 1)

def OptionVector.bytes (v : OptionVector) : List Byte :=
  listBytes (fun (x : PrinterValue) => u8 x.code.number ++ u8 x.value ++ flagByte x.omitted) v.values ++ v.charge.bytes

/-- Every field of a job record (R28, R172). An absent option vector takes one byte, a free value, and no charge values (DESIGN
CHOICE, log entry 12). -/
def jobRecordBytes (r : JobRecord) : List Byte :=
  u16 r.number ++ u8 r.state.number ++ u16 r.user ++ u16 r.account ++ stationBytes r.station ++ u8 r.zone ++
    stampBytes r.created ++ listBytes optionBytes r.ticket ++ u16 r.pages ++ u8 r.copies ++ u32 r.segments ++ u32 r.bytes ++
    optionalBytes .chainHead 2 (fun (e : Fin 4096) => u16 e) r.chainHead ++
    optionalBytes .chainTail 2 (fun (e : Fin 4096) => u16 e) r.chainTail ++ u16 r.extents ++
    optionalBytes .countdown 2 (fun (c : Countdown) => u16 c.left) r.countdown ++
    optionalBytes .reservation 5 (fun (n : Nat) => amountBytes n) r.reservation ++ sheetBytes r.sheetCap ++
    u32 r.tallies.fm ++ u32 r.tallies.fc ++ u32 r.tallies.d ++ u32 r.tallies.l ++ u16 r.confirmed ++ sheetBytes r.resumeSheet ++
    optionalBytes .parkedAt 4 stampBytes r.parkedAt ++
    optionalBytes .parkReason 1 (fun (x : ParkReason) => u8 x.number) r.parkReason ++
    optionalBytes .vectorCount 1 OptionVector.bytes r.vector ++
    optionalBytes .boundPrinter 1 (fun (p : Fin 64) => u8 p) r.boundPrinter ++
    optionalBytes .boundContext 1 (fun (c : Fin 8) => u8 c) r.boundContext ++ u8 r.releases ++ flagByte r.recallPending

/-- A queue entry, and after it its place in the queue (R55, R172, R182). Its origin is numbered in R55's own list, HELD 0 and
PARKED 1 (DESIGN CHOICE, log entry 46). -/
def queueEntryBytes (x : Nat × QueueEntry) : List Byte :=
  let e := x.2
  u16 e.job ++ u8 e.printer ++
    (match e.origin with
     | .held => u8 0 ++ u16 e.countdown ++ absentBytes .parkReason 1 ++ absentBytes .parkedAt 4
     | .parked reason t => u8 1 ++ u16 e.countdown ++ u8 reason.number ++ stampBytes t) ++ u8 x.1

def consoleBytes (e : Option ConsoleEntry) : List Byte :=
  optionalBytes .consoleStation 7 (fun (x : ConsoleEntry) => stationBytes x.station ++ flagByte x.reportStation) e

def PartReading.bytes (r : PartReading) : List Byte :=
  u8 r.service.number ++ stampBytes r.clock ++ u8 r.checkLevel ++ u16 r.poolLength ++ r.jobStates.flatMap u16 ++
    r.uploadStates.flatMap u8 ++ r.contextStates.flatMap u8 ++ u8 r.savedLength ++ u8 r.releaseDepth ++ u8 r.writeDepth ++
    u8 r.readDepth ++ u8 r.reportDepth ++ r.calloutStates.flatMap u8 ++ u8 r.owedResolved ++ u16 r.droppedNotices ++
    u16 r.droppedAudits ++ listBytes consoleBytes r.consoles

def Contents.bytes : Contents → List Byte
  | .none => []
  | .printer e => e.bytes
  | .zone e => e.bytes
  | .user e => e.bytes
  | .account e => e.bytes
  | .plan e => e.bytes
  | .condition e => e.bytes
  | .supply e => e.bytes
  | .balance a b v => u16 a ++ amountBytes b ++ amountBytes (shownAvailable v)
  | .conditions r => r.bytes
  | .callouts es free owed => listBytes CalloutEntry.bytes es ++ u8 free ++ u8 owed
  | .slots r => consumables.flatMap (fun q => (r.get q).bytes)
  | .checks r level => r.bytes ++ u8 level
  | .checksCleared r => r.bytes
  | .job r e => jobRecordBytes r ++ e.elim [] queueEntryBytes
  | .part r => r.bytes

/-! ### Reports (R100, R141, R146, R158, R159, R169, R174) -/

/-- Printer slot, station address and zone of a notice. -/
def placeBytes (p : Fin 64) (a : Station) (z : Fin 16) : List Byte := u8 p ++ stationBytes a ++ u8 z

def CalloutNotice.bytes (n : CalloutNotice) : List Byte :=
  placeBytes n.printer n.station n.zone ++ u8 n.code ++ u8 n.kind.number ++ stampBytes n.firstSeen ++ u8 n.level ++
    optionalBytes .printerState 1 (fun (x : PrinterState) => u8 x.number) n.state ++ u16 n.parked ++ u8 n.present

def ResolvedNotice.bytes (n : ResolvedNotice) : List Byte :=
  placeBytes n.printer n.station n.zone ++ u8 n.code ++ u8 n.kind.number ++ stampBytes n.firstSeen ++ u8 n.level ++
    u8 n.stateAt.number ++ u8 n.cause.number ++ stampBytes n.cleared

def ReorderNotice.bytes (n : ReorderNotice) : List Byte :=
  placeBytes n.printer n.station n.zone ++ u8 n.slot.number ++ u8 n.supply ++
    optionalBytes .dueTrigger 1 (fun (t : DueTrigger) => u8 t.number) n.trigger ++ u32 n.remaining ++ u16 n.overrun ++
    u16 n.average ++ u16 n.daysLeft ++ levelBytes n.lastLevel ++ serialBytes n.lastSerial ++ u8 n.leadDays ++ u32 n.floorCount

def FittedNotice.bytes (n : FittedNotice) : List Byte :=
  placeBytes n.printer n.station n.zone ++ u8 n.slot.number ++ u8 n.fitted.prior.number ++
    optionalBytes .orderRef 4 (fun (x : Code32) => u32 x.toNat) n.fitted.orderRef ++ u8 n.fitted.detection.number ++
    stampBytes n.fitted.fittedAt ++ u8 n.supply ++ u32 n.ratedYield ++ serialBytes n.lastSerial ++ levelBytes n.lastLevel

def JobAudit.bytes (a : JobAudit) : List Byte :=
  u16 a.job ++ u16 a.user ++ u16 a.account ++ u8 a.reason.number ++ u8 a.disposition.number ++ amountBytes a.reservation ++
    amountBytes a.charge ++ amountBytes a.charged ++ amountBytes a.unbilledPart ++ u32 a.tallies.fm ++ u32 a.tallies.fc ++
    u32 a.tallies.d ++ u32 a.tallies.l ++ u16 a.confirmed ++ sheetBytes a.sheetCap ++ u8 a.releases ++
    flagSet [a.marks.floored, a.marks.minimum, a.marks.clamped, a.marks.unbilledSaturated, a.marks.ctdSaturated] ++
    amountBytes a.balance ++ amountBytes a.available

/-- A CHECK report: its occurrence data carry the time of the check, which is the report's stamp (R169). -/
def CheckReport.bytes (c : CheckReport) (stamp : Stamp) : List Byte :=
  u8 c.cls.number ++ c.site.bytes ++ stampBytes stamp ++ u8 c.count ++ u8 (worstRank c.worst)

def Report.bytes (r : Report) : List Byte :=
  match r.body with
  | .callout n => u8 0 ++ stampBytes r.stamp ++ n.bytes
  | .resolved n => u8 1 ++ stampBytes r.stamp ++ n.bytes
  | .reorder n => u8 2 ++ stampBytes r.stamp ++ n.bytes
  | .fitted n => u8 3 ++ stampBytes r.stamp ++ n.bytes
  | .audit a => u8 4 ++ stampBytes r.stamp ++ a.bytes
  | .check c => u8 5 ++ stampBytes r.stamp ++ c.bytes r.stamp
  | .restarted n => u8 6 ++ stampBytes r.stamp ++ u16 n.dropped ++ u16 n.settled ++ u16 n.returned

/-! ### Frames (R176, R177, R180 to R183) -/

/-- An entry of a RELEASE-ANSWER: 14 bytes (R181). -/
def AnswerEntry.bytes (e : AnswerEntry) : List Byte :=
  u16 e.job ++ u8 e.outcome.number ++
    flagSet [e.marks.colourToMono, e.marks.duplexToSimplex, e.marks.stapleDropped, e.marks.partly, false, false,
      e.declared.isSome, e.reservation.isSome] ++
    sheetBytes e.sheetCap ++ amountBytes (e.reservation.getD 0) ++ u16 (e.declared.getD (0, 0)).1 ++ u8 (e.declared.getD (0, 0)).2

/-- The restart sheet of a STREAM-OPEN: 0 unless RESTART-AT-SHEET (R181). -/
def Mode.sheet : Mode → Nat
  | .restartAt n => n
  | .start => 0
  | .continued => 0

/-- The frame kind and the payload (R180 to R183). -/
def OutFrame.payload : OutFrame → Nat × List Byte
  | .receiptOpen tag job window => (0x81, u8 0 ++ u16 tag.toNat ++ u16 job ++ u8 window)
  | .receiptClosed job segments bytes => (0x81, u8 1 ++ u16 job ++ u32 segments ++ u32 bytes)
  | .dataAck job seq => (0x82, u16 job ++ u16 seq)
  | .refusedOpen tag code => (0x83, u8 0 ++ u16 tag.toNat ++ u8 code.number)
  | .refusedJob job code => (0x83, u8 1 ++ u16 job ++ u8 code.number)
  | .reply tag kind code contents => (0x90, u16 tag.toNat ++ [kind] ++ u8 code.number ++ contents.bytes)
  | .report r => (0x91, r.bytes)
  | .releaseAnswer tag badge result entries available =>
    (0xA1, u16 tag.toNat ++ u32 badge.toNat ++ u8 result.number ++ u8 entries.length ++
      (match available with
       | some v => amountBytes (shownAvailable v) ++ entries.flatMap AnswerEntry.bytes
       | none => []))
  | .streamOpen job mode sent lastSheet sheetCap pages copies options =>
    (0xA2, u16 job ++ u8 mode.number ++ u16 mode.sheet ++ u32 sent ++ u16 lastSheet ++ sheetBytes sheetCap ++ u16 pages ++
      u8 copies ++ listBytes optionBytes options)
  | .streamData last job segment seg =>
    (if last then 0xA4 else 0xA3,
      u16 job ++ u32 segment ++ flagByte seg.header.sheetStart ++ u16 seg.header.sheet ++ seg.data)
  | .streamAbort job kind sent lastSheet => (0xA5, u16 job ++ u8 kind.number ++ u32 sent ++ u16 lastSheet)

/-- Padding with zero bytes: 46 bytes after the EtherType make a frame of 64 bytes (R177). -/
def padded (b : List Byte) : List Byte := b ++ List.replicate (46 - b.length) 0

/-- What follows the EtherType: the envelope and the payload, padded (R176, R177). -/
def OutFrame.body (f : OutFrame) : List Byte :=
  padded (u8 1 ++ u8 f.payload.1 ++ u16 f.payload.2.length ++ u16 0 ++ f.payload.2)

/-- A frame as it leaves the part (R177). -/
def State.wireFrame (s : State) (dst : Station) (f : OutFrame) : EthFrame := ⟨dst, s.partStation, jarhedeType, f.body⟩

end Sys2Proof.Machine
end

