-- ==== Sys2Proof/Machine/Intake.lean ====
section
/-! DEFINITION. The Intake Unit (chapter 2): JOB_OPEN, JOB_DATA, JOB_CLOSE, JOB_CANCEL and IDLE_TIMEOUT. -/

namespace Sys2Proof.Machine

/-! ### JOB_OPEN (R31, R32) -/

def State.freeJobIndex (s : State) : Option (Fin 512) := firstIndex 512 (fun j => decide ((s.job j).state = .free))

def State.freeSlotIndex (s : State) : Option (Fin 16) := firstIndex 16 (fun i => decide ((s.slot i).state = .free))

/-- What an accepted JOB-OPEN is given: its user, the FREE record and slot with the lowest numbers, its zone and ticket. -/
structure OpenGrant where
  user   : Fin 8192
  record : Fin 512
  slot   : Fin 16
  zone   : Fin 16
  ticket : List OptionEntry
deriving DecidableEq, Repr

/-- The zone of a job: the frame's, or the user's home zone for 255 (R31). -/
def zoneOf? (z : Nat) (home : Fin 16) : Option (Fin 16) := if z = 255 then some home else fin? 16 z

/-- Test 7 of R31: the zone and the ticket, none when a field is out of range. -/
def openFields (f : JobOpenFrame) (home : Fin 16) : Option (Fin 16 × List OptionEntry) :=
  if 1 ≤ f.pages ∧ f.pages ≤ 9999 ∧ 1 ≤ f.copies ∧ f.copies ≤ 99 then
    match zoneOf? f.zone home, f.ticket with
    | some z, some t => some (z, t)
    | _, _ => none
  else none

/-- The tests of a JOB-OPEN, in order (R31). -/
def State.openTest (s : State) (f : JobOpenFrame) : Except Code OpenGrant :=
  if s.mu.service ≠ .serving then .error .notServing
  else match s.findUser f.badge with
    | none => .error .unknownUser
    | some (u, e) =>
      if (s.account e.account).state = .closed then .error .noAccount
      else if 16 ≤ e.liveJobs then .error .userLimit
      else match s.freeJobIndex with
        | none => .error .tableFull
        | some j =>
          match s.freeSlotIndex with
          | none => .error .intakeBusy
          | some i =>
            match openFields f e.homeZone with
            | none => .error .ticket
            | some (z, t) => .ok ⟨u, j, i, z, t⟩

/-- The new job record (R28). -/
def State.newRecord (s : State) (src : Station) (f : JobOpenFrame) (g : OpenGrant) (n : Nat) : JobRecord :=
  { JobRecord.powerOn with
    number := n, state := .receiving, user := g.user, account := (s.user g.user).account, station := src, zone := g.zone,
    created := s.mu.clock, ticket := g.ticket, pages := f.pages, copies := f.copies }

/-- An upload slot opened for job `n` (R31). -/
def UploadSlot.opening (n : Nat) : UploadSlot := ⟨.opened, n, 1, 0, 0, some (Countdown.load 60), none⟩

/-- A JOB-OPEN that passes every test (R31). -/
def State.acceptOpen (s : State) (src : Station) (f : JobOpenFrame) (g : OpenGrant) : State :=
  let n := s.nextNumber
  let e := s.user g.user
  let s1 := (s.setUser g.user { e with liveJobs := e.liveJobs + 1 }).setJob g.record (s.newRecord src f g n)
  let s2 := { s1.setSlot g.slot (UploadSlot.opening n) with lastNumber := n }
  s2.send .up src (.receiptOpen f.tag n 4)

/-- A JOB-OPEN taken at the IU (R31). -/
def State.takeOpen (s : State) (src : Station) (f : JobOpenFrame) : State :=
  match s.openTest f with
  | .ok g => s.acceptOpen src f g
  | .error c => s.send .up src (.refusedOpen f.tag c)

def execJobOpen (s : State) : Host.Outcome State Fault Refusal :=
  .next (s.onFrame .jobOpen fun f t => match parseJobOpen f.payload with
    | some x => t.takeOpen f.src x
    | none => t)

/-! ### Sealing and abandonment (R35, R38) -/

/-- A SEALING job whose last write is done becomes HELD (R35). -/
def State.becomeHeld (s : State) (i : Fin 16) (j : Fin 512) : State :=
  let r := s.job j
  ((s.setJob j { r with state := .held, countdown := some (Countdown.load (s.zone r.zone).holdTime) }).setSlot i
    UploadSlot.powerOn).send .up r.station (.receiptClosed r.number r.segments r.bytes)

/-- The abandonment at slot `i` completes (R38). -/
def State.completeAbandon (s : State) (i : Fin 16) (c : Code) : State :=
  match s.findJob (s.slot i).job with
  | some (j, r) => ((s.dropJob j).refuseJob r c).setSlot i UploadSlot.powerOn
  | none => s.setSlot i UploadSlot.powerOn

/-- An abandonment of the job at slot `i` (R38). -/
def State.abandon (s : State) (i : Fin 16) (c : Code) : State :=
  let x := s.slot i
  if x.state = .ending then s
  else
    let s1 := s.discardWrites x.job
    if s1.writeInProgress x.job then s1.setSlot i { x with state := .ending, idle := none, pending := some c }
    else s1.completeAbandon i c

/-! ### JOB_DATA (R33) -/

/-- The OPEN slot and the record that a JOB-DATA or JOB-CLOSE from `src` binds to (R19). -/
def State.boundSlot (s : State) (src : Station) (n : Nat) : Option (Fin 16 × Fin 512 × JobRecord) :=
  match s.findSlot n, s.findJob n with
  | some i, some (j, r) => if (s.slot i).state = .opened ∧ r.station = src then some (i, j, r) else none
  | _, _ => none

/-- Tests 1 to 5 of R33: the code of the first that fails. -/
def dataTest (x : UploadSlot) (r : JobRecord) (seq : Nat) (f : JobDataFrame) : Option Code :=
  if seq ≠ x.nextSeq then some .sequence
  else if 4 ≤ r.segments - x.written then some .window
  else if 65536 ≤ r.segments then some .tooLarge
  else if f.data.length < 1 ∨ 1024 < f.data.length then some .length
  else if f.sheetStart = true ∧ f.sheet ≠ x.lastSheet + 1 then some .sequence
  else if f.sheetStart = false ∧ r.segments = 0 then some .sequence
  else none

/-- Test 6 of R33: an extent when the segment count is a multiple of 64; none when the pool is empty. -/
def State.withExtent (s : State) (j : Fin 512) : Option State :=
  if (s.job j).segments % 64 = 0 then s.allocateExtent j else some s

/-- The segment that a JOB-DATA makes (R20, R33). -/
def segmentOf (f : JobDataFrame) : Segment :=
  ⟨⟨f.data.length, f.sheetStart, if f.sheetStart then f.sheet else 0⟩, f.data⟩

/-- A JOB-DATA that passes every test, its extent taken (R33). -/
def State.acceptData (s : State) (i : Fin 16) (j : Fin 512) (seq : Nat) (f : JobDataFrame) : State :=
  let r := s.job j
  let x := s.slot i
  match s.segmentPos r (r.segments + 1) with
  | none => s
  | some pos =>
    ((s.setJob j { r with segments := r.segments + 1, bytes := r.bytes + f.data.length }).setSlot i
      { x with
        nextSeq := (x.nextSeq + 1) % 65536
        lastSheet := if f.sheetStart then f.sheet else x.lastSheet
        idle := some (Countdown.load 60) }).pushWrite ⟨r.number, seq, pos, segmentOf f⟩

/-- A JOB-DATA taken at the IU (R19, R33). -/
def State.takeData (s : State) (src : Station) (seq : Nat) (f : JobDataFrame) : State :=
  match s.boundSlot src f.job with
  | none => s
  | some (i, j, r) =>
    match dataTest (s.slot i) r seq f with
    | some c => s.abandon i c
    | none =>
      match s.withExtent j with
      | none => s.abandon i .storeFull
      | some t => t.acceptData i j seq f

def execJobData (s : State) : Host.Outcome State Fault Refusal :=
  .next (s.onFrame .jobData fun f t => match parseJobData f.payload with
    | some x => t.takeData f.src f.seq x
    | none => t)

/-! ### JOB_CLOSE (R35) -/

/-- The job and its slot become SEALING; a job with no write outstanding becomes HELD in the same event (R35). -/
def State.seal (s : State) (i : Fin 16) (j : Fin 512) : State :=
  let r := s.job j
  let x := s.slot i
  let s1 := (s.setSlot i { x with state := .sealing, idle := none }).setJob j { r with state := .sealing }
  if x.written = r.segments then s1.becomeHeld i j else s1

/-- A JOB-CLOSE taken at the IU (R19, R35). -/
def State.takeClose (s : State) (src : Station) (f : JobCloseFrame) : State :=
  match s.boundSlot src f.job with
  | none => s
  | some (i, j, r) =>
    if f.segments = r.segments ∧ f.bytes = r.bytes ∧ ¬(r.segments = 0 ∧ r.bytes = 0) then s.seal i j
    else s.abandon i .length

def execJobClose (s : State) : Host.Outcome State Fault Refusal :=
  .next (s.onFrame .jobClose fun f t => match parseJobClose f.payload with
    | some x => t.takeClose f.src x
    | none => t)

/-! ### JOB_CANCEL (R37) -/

/-- A cancel of a job still at the IU: abandoned from an OPEN slot, pending at a SEALING one; none when an earlier code stands
(R37, R116). -/
def State.cancelUpload (s : State) (n : Nat) : Option State :=
  match s.findSlot n with
  | none => none
  | some i =>
    let x := s.slot i
    match x.state, x.pending with
    | .opened, _ => some (s.abandon i .cancelled)
    | .sealing, none => some (s.setSlot i { x with pending := some .cancelled })
    | _, _ => none

/-- A JOB-CANCEL taken at the IU (R37). -/
def State.takeCancel (s : State) (src : Station) (n : Nat) : State :=
  match s.findJob n with
  | none => s
  | some (j, r) =>
    if r.station ≠ src then s
    else if r.state = .receiving ∨ r.state = .sealing then (s.cancelUpload n).getD s
    else s.recall j r

def execJobCancel (s : State) : Host.Outcome State Fault Refusal :=
  .next (s.onFrame .jobCancel fun f t => match parseJobCancel f.payload with
    | some n => t.takeCancel f.src n
    | none => t)

/-! ### IDLE_TIMEOUT (R36) -/

def execIdleTimeout (i : Fin 16) (s : State) : Host.Outcome State Fault Refusal :=
  .next (if (s.slot i).state = .opened ∧ expiryDue (s.slot i).idle = true then s.abandon i .timeout else s)

end Sys2Proof.Machine
end

