-- ==== Sys2Proof/Machine/Dram.lean ====
section
/-! DEFINITION. The steps of the Hold Store Controller (2.3): DRAM_GRANT, WRITE_COMPLETION, FETCH_COMPLETION and
HEADER_COMPLETION. The errors that have come upon the stored words are operands of the completions (log entry 6). -/

namespace Sys2Proof.Machine

/-- DRAM_GRANT: the arbiter's grant (R26). -/
def execDramGrant (s : State) : Host.Outcome State Fault Refusal := .next s.grant

/-- A written segment in its slot (R20, R27): every word with the check bits of its writing. -/
def State.storeSegment (s : State) (e : WriteEntry) : State := s.setStored e.pos ⟨e.segment, .clean, .clean⟩

/-- Written rises by one and a DATA-ACK is sent (R34). -/
def State.ackWrite (s : State) (i : Fin 16) (r : JobRecord) (seq : Nat) : State :=
  let x := s.slot i
  (s.setSlot i { x with written := x.written + 1 }).send .up r.station (.dataAck r.number seq)

/-- The last write of a SEALING job is done (R34). -/
def State.sealDone (s : State) (i : Fin 16) (j : Fin 512) : State :=
  match (s.slot i).pending with
  | none => s.becomeHeld i j
  | some c => s.abandon i c

/-- A write completion at the IU (R34). -/
def State.writeDone (s : State) (e : WriteEntry) : State :=
  match s.findSlot e.job, s.findJob e.job with
  | some i, some (j, r) =>
    match (s.slot i).state with
    | .opened => s.ackWrite i r e.seq
    | .sealing =>
      let s1 := s.ackWrite i r e.seq
      if (s1.slot i).written = r.segments then s1.sealDone i j else s1
    | .ending => s.completeAbandon i ((s.slot i).pending.getD .cancelled)
    | .free => s
  | _, _ => s

/-- WRITE_COMPLETION: the write in progress ends, and its completion goes to the IU unless a RESTART was taken since its grant
(R20, R34, R40). -/
def execWriteCompletion (s : State) : Host.Outcome State Fault Refusal :=
  .next
    (match s.hsc.op with
     | some ⟨.write e, ignored⟩ =>
       let t := s.clearOp.storeSegment e
       if ignored then t else t.writeDone e
     | _ => s)

/-- FETCH_COMPLETION: the fetch in progress ends, its words checked, and its completion goes to the SE unless a RESTART was
taken since its grant (R27, R40, R70). The CHECK of the read is offered to the report queue before the JOB-AUDIT of an end that it
brings (DESIGN CHOICE, log entry 49). -/
def execFetchCompletion (header data : WordErrors) (s : State) : Host.Outcome State Fault Refusal :=
  .next
    (match s.hsc.op with
     | some ⟨.read ⟨c, .fetch, n, pos, k⟩, ignored⟩ =>
       let t := s.clearOp.readErrors ⟨c, .fetch, n, pos, k⟩ header data
       if ignored then t.1 else t.1.fetched c k (s.stored pos).segment t.2
     | _ => s)

/-- HEADER_COMPLETION: the header read in progress ends, its words checked, and its completion goes to the SE unless a RESTART
was taken since its grant (R27, R40, R112). The CHECK of the read comes before the JOB-AUDIT of an end (DESIGN CHOICE, log entry 49). -/
def execHeaderCompletion (header : WordErrors) (s : State) : Host.Outcome State Fault Refusal :=
  .next
    (match s.hsc.op with
     | some ⟨.read ⟨c, .header, n, pos, k⟩, ignored⟩ =>
       let t := s.clearOp.readErrors ⟨c, .header, n, pos, k⟩ header .clean
       if ignored then t.1 else t.1.headerRead c ⟨c, .header, n, pos, k⟩ (s.stored pos).segment.header t.2
     | _ => s)

end Sys2Proof.Machine
end

