-- ==== Sys2Proof/Machine/Ports.lean ====
section
/-! DEFINITION. POWER_ON_RESET and the steps of the ports and the classifier: FRAME_ARRIVAL, FOREIGN_FRAME, PORT_TRANSMIT,
REPORT_TAKEN and FRAME_DISCARDED_AT_FC (R168, R171, R175, R177). -/

namespace Sys2Proof.Machine

/-- POWER_ON_RESET: every block, table and record takes its power-on value, with the STRAP pins sampled (R175, R177). The
contents of the DRAM become undefined anew (R40). -/
def execPowerOnReset (strap : BitVec 8) (s : State) : Host.Outcome State Fault Refusal :=
  .next { State.powerOn strap (s.hsc.epoch + 1) with pending := s.pending, between := s.between }

/-- Places a frame at the tail of a port's receive buffer. -/
def State.receive (s : State) (p : Port) (f : EthFrame) : State :=
  s.setPort p { s.port p with rx := (s.port p).rx ++ [f] }

/-- FRAME_ARRIVAL: the frame joins the receive buffer, or is discarded with a PORT-OVERRUN check when 16 stand there (R171). -/
def execFrameArrival (p : Port) (f : EthFrame) (s : State) : Host.Outcome State Fault Refusal :=
  .next (if (s.port p).rx.length < 16 then s.receive p f else s.noteCheck .overrun (.port p))

/-- The port on the other side. -/
def otherPort : Port → Port
  | .up => .fp
  | .fp => .up

/-- Places a foreign frame in the pass-through buffer toward port `p`, or discards it when 8 stand there (R171). -/
def State.passOn (s : State) (p : Port) (f : EthFrame) : State :=
  if (s.port p).pass.length < 8 then
    { s.setPort p { s.port p with pass := (s.port p).pass ++ [⟨s.age, f⟩] } with age := s.age + 1 }
  else s

/-- FOREIGN_FRAME: the FC takes a foreign frame from the head of the receive buffer of `p` (R171). -/
def execForeignFrame (p : Port) (s : State) : Host.Outcome State Fault Refusal :=
  .next
    (match (s.port p).rx with
     | f :: _ => if s.sort p f = .foreign then (s.popRx p).passOn (otherPort p) f else s
     | [] => s)

/-- FRAME_DISCARDED_AT_FC: the FC takes a print-path frame that it discards (R171, R177). -/
def execFrameDiscardedAtFc (p : Port) (s : State) : Host.Outcome State Fault Refusal :=
  .next
    (match (s.port p).rx with
     | f :: _ => if s.sort p f = .discard then s.popRx p else s
     | [] => s)

/-- Records a frame that leaves port `p`. -/
def State.emit (s : State) (p : Port) (f : EthFrame) : State := { s with sent := s.sent ++ [(p, f)] }

/-- Sends the head of a transmit queue. -/
def State.sendOwn (s : State) (p : Port) (t : TxFrame) : State :=
  (s.setPort p { s.port p with tx := (s.port p).tx.tail }).emit p (s.wireFrame t.dst t.frame)

/-- Sends the head of a pass-through buffer, unchanged. -/
def State.sendForeign (s : State) (p : Port) (f : PassFrame) : State :=
  (s.setPort p { s.port p with pass := (s.port p).pass.tail }).emit p f.frame

/-- The transmitter of a port sends its oldest frame (R171). -/
def State.transmit (s : State) (p : Port) : State :=
  match (s.port p).tx, (s.port p).pass with
  | [], [] => s
  | t :: _, [] => s.sendOwn p t
  | [], f :: _ => s.sendForeign p f
  | t :: _, f :: _ => if t.age < f.age then s.sendOwn p t else s.sendForeign p f

/-- PORT_TRANSMIT (R171). -/
def execPortTransmit (p : Port) (s : State) : Host.Outcome State Fault Refusal := .next (s.transmit p)

/-- The report station: the console entry that carries the flag (R165). -/
def State.reportStation (s : State) : Option Station :=
  (List.finRange 4).findSome? fun i =>
    match s.console i with
    | some e => if e.reportStation then some e.station else none
    | none => none

/-- The UP takes the head report for the report station (R168). -/
def State.takeReport (s : State) (a : Station) (r : Report) : State :=
  { s with mu := { s.mu with reports := s.mu.reports.tail } }.send .up a (.report r)

/-- REPORT_TAKEN: when a report station is set and the UP's transmit queue holds no frame, the head report leaves the queue, and
the freed places serve owed notices (R148, R168). -/
def execReportTaken (s : State) : Host.Outcome State Fault Refusal :=
  .next
    (match s.reportStation, s.up.tx, s.mu.reports with
     | some a, [], r :: _ => State.serveOwed 64 (s.takeReport a r)
     | _, _, _ => s)

end Sys2Proof.Machine
end

