-- ==== Sys2Proof/Machine/PrinterSteps.lean ====
section
/-! DEFINITION. The steps of the printer side (chapters 8, 9 and 10): STATUS and its timeout, CONDITION_READ, the callout expiries
and commands, zone mute, and the slot commands. -/

namespace Sys2Proof.Machine

/-! ### Conditions -/

/-- STATUS (R124, R126 to R132). -/
def execStatus (s : State) : Host.Outcome State Fault Refusal :=
  .next (s.onPrinterFrame .status fun p b t => match parseStatus b with
    | some f => t.takeStatus p f
    | none => t)

/-- STATUS_TIMEOUT (R128). -/
def execStatusTimeout (p : Fin 64) (s : State) : Host.Outcome State Fault Refusal :=
  .next (if s.printerDefined p = true ∧ expiryDue (s.cond p).countdown = true then s.timeOut p else s)

/-- A command that names a printer slot: RANGE outside 0 to 63, ABSENT for an EMPTY entry (R134, R151, R163, R173). -/
def State.forPrinter (s : State) (f : CommandFrame) (n : Nat) (act : Fin 64 → State) : State :=
  match fin? 64 n with
  | none => s.reply f .range .none
  | some p => if s.printerDefined p then act p else s.reply f .absent .none

/-- CONDITION_READ (R134). -/
def execConditionRead (s : State) : Host.Outcome State Fault Refusal :=
  .next (s.onCommand 6 parseByte fun f n t =>
    t.forPrinter f n fun p => t.reply f .done (.conditions (t.cond p)))

/-! ### Callouts -/

/-- GRACE_EXPIRY (R140). -/
def execGraceExpiry (i : Fin 48) (s : State) : Host.Outcome State Fault Refusal :=
  .next (if (s.callout i).state = .grace ∧ expiryDue (s.callout i).countdown = true then s.sendingStep i else s)

/-- ESCALATION_EXPIRY (R142). -/
def execEscalationExpiry (i : Fin 48) (s : State) : Host.Outcome State Fault Refusal :=
  .next
    (if ((s.callout i).state = .sent ∨ (s.callout i).state = .escalated) ∧ expiryDue (s.callout i).countdown = true then
       s.escalate i
     else s)

/-- MUTE_EXPIRY (R147). -/
def execMuteExpiry (z : Fin 16) (s : State) : Host.Outcome State Fault Refusal :=
  .next (if expiryDue (s.zone z).mute then s.openZone z else s)

/-- The condition is in the printer's list with callout-wanted set (R143). -/
def State.waitsForCallout (s : State) (p : Fin 64) (code : Fin 256) : Bool :=
  (s.cond p).list.any (fun it => decide (it.code = code) && it.calloutWanted)

/-- An acknowledgment of entry `i` (R143): the reply, and the state after. -/
def State.ackCallout (s : State) (i : Fin 48) : State × Code :=
  let e := s.callout i
  match e.state with
  | .sent => (s.setCallout i { e with state := .acked, countdown := none, escalationOwed := false }, .done)
  | .escalated => (s.setCallout i { e with state := .acked, countdown := none, escalationOwed := false }, .done)
  | .acked => (s, .done)
  | .free => (s, .state)
  | .grace => (s, .state)
  | .owed => (s, .state)
  | .suppressed => (s, .state)

/-- CALLOUT_ACK (R143). -/
def execCalloutAck (s : State) : Host.Outcome State Fault Refusal :=
  .next (s.onCommand 7 parseTwoBytes fun f n t =>
    match fin? 64 n.1 with
    | none => t.reply f .range .none
    | some p =>
      let code : Fin 256 := Fin.ofNat 256 n.2
      match t.findCallout p code with
      | some i => (t.ackCallout i).1.reply f (t.ackCallout i).2 .none
      | none => t.reply f (if t.waitsForCallout p code then .state else .tooLate) .none)

/-- A closure of entry `i` (R144). -/
def State.closeCallout (s : State) (i : Fin 48) : State × Code :=
  let e := s.callout i
  match e.state with
  | .acked => (s.setCallout i { e with state := .suppressed }, .done)
  | .suppressed => (s, .done)
  | .free => (s, .state)
  | .grace => (s, .state)
  | .owed => (s, .state)
  | .sent => (s, .state)
  | .escalated => (s, .state)

/-- CALLOUT_CLOSE (R144). -/
def execCalloutClose (s : State) : Host.Outcome State Fault Refusal :=
  .next (s.onCommand 8 parseTwoBytes fun f n t =>
    match fin? 64 n.1 with
    | none => t.reply f .range .none
    | some p =>
      match t.findCallout p (Fin.ofNat 256 n.2) with
      | some i => (t.closeCallout i).1.reply f (t.closeCallout i).2 .none
      | none => t.reply f .tooLate .none)

/-- The callout entries of a printer in condition order (R151). -/
def State.calloutReading (s : State) (p : Fin 64) : List CalloutEntry :=
  (sortBy s.calloutBefore (s.calloutsOf p)).map s.callout

/-- CALLOUT_READ (R151). -/
def execCalloutRead (s : State) : Host.Outcome State Fault Refusal :=
  .next (s.onCommand 9 parseByte fun f n t =>
    t.forPrinter f n fun p =>
      t.reply f .done
        (.callouts (t.calloutReading p) (countIndexes 48 (fun i => decide ((t.callout i).state = .free)))
          t.co.owedResolved.length))

/-- A zone and its minutes (R147); none for a bad length. -/
def parseMute (b : List Byte) : Option (Nat × Nat) := if b.length = 3 then some (byteAt b 0, be16 b 1) else none

/-- ZONE_MUTE (R147). -/
def execZoneMute (s : State) : Host.Outcome State Fault Refusal :=
  .next (s.onCommand 10 parseMute fun f n t =>
    match fin? 16 n.1 with
    | none => t.reply f .range .none
    | some z =>
      if 1 ≤ n.2 ∧ n.2 ≤ 720 then
        (t.setZone z { t.zone z with mute := some (Countdown.load n.2) }).reply f .done .none
      else t.reply f .range .none)

/-- ZONE_UNMUTE (R147). -/
def execZoneUnmute (s : State) : Host.Outcome State Fault Refusal :=
  .next (s.onCommand 11 parseByte fun f n t =>
    match fin? 16 n with
    | none => t.reply f .range .none
    | some z => if t.zoneMuted z then (t.openZone z).reply f .done .none else t.reply f .state .none)

/-! ### Slots -/

/-- ORDER-ACK: printer slot, consumable slot and order reference (R161); none for a bad length or a value out of range. -/
def parseOrderAck (b : List Byte) : Option (Fin 64 × Consumable × Code32) :=
  if b.length = 6 then
    match fin? 64 (byteAt b 0), consumableOf (byteAt b 1) with
    | some p, some q => some (p, q, BitVec.ofNat 32 (be32 b 2))
    | _, _ => none
  else none

/-- The record after an ORDER-ACK in DUE or ORDERED (R161). -/
def SlotRecord.order (r : SlotRecord) (ref : Code32) : SlotRecord :=
  { r with reorder := .ordered, orderRef := some ref, owedReorder := false }

/-- ORDER_ACK (R161). -/
def execOrderAck (s : State) : Host.Outcome State Fault Refusal :=
  .next (s.onCommand 12 parseOrderAck fun f a t =>
    let p := a.1
    let q := a.2.1
    if t.printerDefined p = false then t.reply f .absent .none
    else if ((t.printer p).slotMap.get q).fitted = false then t.reply f .state .none
    else if (t.slotRecord p q).reorder = .quiet then t.reply f .tooLate .none
    else (t.setSlotRecord p q ((t.slotRecord p q).order a.2.2)).reply f .done .none)

/-- SLOT-FITTED: printer slot, consumable slot and supply type, none in the type for 255 (R162). -/
def parseSlotFitted (b : List Byte) : Option (Fin 64 × Consumable × Option (Fin 64)) :=
  if b.length = 3 then
    match fin? 64 (byteAt b 0), consumableOf (byteAt b 1), supplyType? (byteAt b 2) with
    | some p, some q, some t => some (p, q, t)
    | _, _, _ => none
  else none

/-- A named supply type is DEFINED with the slot's kind; none named passes (R162). -/
def State.typeAccepted (s : State) (q : Consumable) : Option (Fin 64) → Bool
  | some x => s.supplyFits x q
  | none => true

/-- A fitting declared by a console (R158, R162). -/
def State.declareFitting (s : State) (p : Fin 64) (q : Consumable) (x : Option (Fin 64)) : State :=
  let t := s.fitting p q (x.getD ((s.printer p).slotMap.get q).defaultType) .command
  t.setSlotRecord p q { t.slotRecord p q with commandFit := true }

/-- SLOT_FITTED (R162). -/
def execSlotFitted (s : State) : Host.Outcome State Fault Refusal :=
  .next (s.onCommand 13 parseSlotFitted fun f a t =>
    let p := a.1
    let q := a.2.1
    if t.typeAccepted q a.2.2 = false then t.reply f .range .none
    else if t.printerDefined p = false then t.reply f .absent .none
    else if ((t.printer p).slotMap.get q).fitted = false then t.reply f .state .none
    else (t.declareFitting p q a.2.2).reply f .done .none)

/-- One slot of a SLOT-READ (R163). -/
def State.slotReading (s : State) (p : Fin 64) (q : Consumable) : SlotReading :=
  let r := s.slotRecord p q
  ⟨((s.printer p).slotMap.get q).fitted, r, r.daysLeft, (s.supply r.supply).ratedYield⟩

/-- SLOT_READ (R163). -/
def execSlotRead (s : State) : Host.Outcome State Fault Refusal :=
  .next (s.onCommand 14 parseByte fun f n t =>
    t.forPrinter f n fun p =>
      t.reply f .done
        (.slots ⟨t.slotReading p .k, t.slotReading p .c, t.slotReading p .m, t.slotReading p .y, t.slotReading p .drum,
          t.slotReading p .fuser⟩))

/-! ### PRINTER_RESET (R80, R173) -/

/-- A PRINTER-RESET taken at printer `p`: its SAVED context becomes FREE; a bound context ends with RESET; the other reset work
and the reply follow at once when no context is bound, and else at the end (R80). -/
def State.resetPrinter (s : State) (p : Fin 64) (f : CommandFrame) : State :=
  let s1 := s.setResetWait p (some ⟨f.src, f.tag⟩)
  let s2 := match s1.savedAt p with
    | some c => s1.freeContext c
    | none => s1
  match s2.boundAt p with
  | some c => s2.raiseEnd c .reset
  | none => (s2.resetWork p).runArbiter

/-- PRINTER_RESET (R173). -/
def execPrinterReset (s : State) : Host.Outcome State Fault Refusal :=
  .next (s.onCommand 25 parseByte fun f n t =>
    t.forPrinter f n fun p => if (t.resetWait p).isSome then t.reply f .busy .none else t.resetPrinter p f)

end Sys2Proof.Machine
end

