-- ==== Sys2Proof/Machine/Management.lean ====
section
/-! DEFINITION. The Management Unit's own commands (chapter 11), RECALL_JOB (R116), UNKNOWN_COMMAND and RESTART (R174). -/

namespace Sys2Proof.Machine

/-! ### The console station list (R165) -/

/-- A CONSOLE-SET: an entry number, an address or none, and the report-station flag (log entry 13). -/
structure ConsoleSet where
  entry  : Fin 4
  target : Option Station
  flag   : Bool
deriving DecidableEq, Repr

/-- None for an entry outside 0 to 3, a zero or group address, or a bad length (R165). -/
def parseConsoleSet (b : List Byte) : Option ConsoleSet :=
  match fin? 4 (byteAt b 0) with
  | none => none
  | some i =>
    if b.length = 2 then some ⟨i, none, flagAt b 1 0⟩
    else if b.length = 8 ∧ be48 b 1 ≠ 0 ∧ isGroupAddress (be48 b 1) = false then some ⟨i, some (be48 b 1), flagAt b 7 0⟩
    else none

/-- Another entry holds the address (R165). -/
def State.consoleHeld (s : State) (i : Fin 4) (a : Station) : Bool :=
  (List.finRange 4).any fun k => decide (k ≠ i) && match s.console k with | some e => decide (e.station = a) | none => false

/-- The flag on every entry but `i` cleared (R165). -/
def State.clearOtherFlags (s : State) (i : Fin 4) : State :=
  (List.finRange 4).foldl
    (fun t k => if k = i then t else t.setConsole k ((t.console k).map (fun e => { e with reportStation := false }))) s

/-- A CONSOLE-SET that passes its tests (R165). -/
def State.setStation (s : State) (c : ConsoleSet) : State :=
  match c.target with
  | none => s.setConsole c.entry none
  | some a => (if c.flag then s.clearOtherFlags c.entry else s).setConsole c.entry (some ⟨a, c.flag⟩)

/-- The address of a CONSOLE-SET is held by another entry (R165). -/
def State.consoleClash (s : State) (c : ConsoleSet) : Bool :=
  match c.target with
  | some a => s.consoleHeld c.entry a
  | none => false

/-- CONSOLE_SET (R165). -/
def execConsoleSet (s : State) : Host.Outcome State Fault Refusal :=
  .next (s.onCommand 15 parseConsoleSet fun f c t =>
    if t.consoleClash c then t.reply f .range .none else (t.setStation c).reply f .done .none)

/-- The kinds of command the part knows are 1 to 26 (R182). -/
def knownCommand (k : Byte) : Bool := decide (1 ≤ k.toNat ∧ k.toNat ≤ 26)

/-- UNKNOWN_COMMAND: a COMMAND of an unknown kind is answered RANGE, or REFUSED_STATION from a station that is not listed
(R165); one too short for a tag and a kind is discarded (R177, log entry 17). -/
def execUnknownCommand (s : State) : Host.Outcome State Fault Refusal :=
  .next
    (match s.headFrame .command with
     | none => s
     | some g =>
       match parseCommand g with
       | none => s.popRx .up
       | some f =>
         if knownCommand f.kind then s
         else
           let t := s.popRx .up
           t.reply f (if t.accepts f.src then .range else .refusedStation) .none)

/-! ### Service state (R39, R166) -/

def State.setService (s : State) (v : ServiceState) : State := { s with mu := { s.mu with service := v } }

/-- At least one printer and one user are DEFINED and one account is not CLOSED (R166). -/
def State.mayServe (s : State) : Bool :=
  s.tables.printers.cells.any (fun c => decide (c.2.state = .defined)) &&
    s.tables.users.cells.any (fun c => decide (c.2.state = .defined)) &&
    s.tables.accounts.cells.any (fun c => decide (c.2.state ≠ .closed))

/-- SERVICE_ON (R166). -/
def execServiceOn (s : State) : Host.Outcome State Fault Refusal :=
  .next (s.onCommand 16 parseNothing fun f _ t =>
    match t.mu.service with
    | .idle => if t.mayServe then (t.setService .serving).reply f .done .none else t.reply f .state .none
    | .serving => t.reply f .state .none
    | .intakeClosed => (t.setService .serving).reply f .done .none)

/-- INTAKE_CLOSE (R166). -/
def execIntakeClose (s : State) : Host.Outcome State Fault Refusal :=
  .next (s.onCommand 17 parseNothing fun f _ t =>
    match t.mu.service with
    | .serving => (t.setService .intakeClosed).reply f .done .none
    | .idle => t.reply f .state .none
    | .intakeClosed => t.reply f .state .none)

/-- Every upload is abandoned, with its pending code or NOT_SERVING (R39), in slot order (log entry 48). -/
def State.shutIntake (s : State) : State :=
  (List.finRange 16).foldl
    (fun t i => if (t.slot i).state = .free then t else t.abandon i ((t.slot i).pending.getD .notServing)) s

/-- SERVICE_OFF (R39, R166). The JOB-REFUSEDs of the abandoned uploads are queued before the REPLY (DESIGN CHOICE, log entry 48). -/
def execServiceOff (s : State) : Host.Outcome State Fault Refusal :=
  .next (s.onCommand 18 parseNothing fun f _ t =>
    if t.mu.service = .idle then t.reply f .state .none else (t.setService .idle).shutIntake.reply f .done .none)

/-! ### Checks (R170) -/

/-- CHECK_LEVEL (R170). -/
def execCheckLevel (s : State) : Host.Outcome State Fault Refusal :=
  .next (s.onCommand 20 parseByte fun f n t =>
    match fin? 4 n with
    | some l => { t with mu := { t.mu with checkLevel := l } }.reply f .done .none
    | none => t.reply f .range .none)

def State.checkReading (s : State) : CheckReading := ⟨s.mu.corrected, s.mu.uncorrectable, s.mu.overrun, s.mu.worst⟩

/-- CHECK_READ (R170). -/
def execCheckRead (s : State) : Host.Outcome State Fault Refusal :=
  .next (s.onCommand 21 parseNothing fun f _ t => t.reply f .done (.checks t.checkReading t.mu.checkLevel))

def State.clearChecks (s : State) : State :=
  { s with
    mu := { s.mu with
      corrected := CheckRecord.zero, uncorrectable := CheckRecord.zero, overrun := CheckRecord.zero, worst := none } }

/-- CHECK_CLEAR: the reply carries the records as they stood (R170). -/
def execCheckClear (s : State) : Host.Outcome State Fault Refusal :=
  .next (s.onCommand 22 parseNothing fun f _ t => t.clearChecks.reply f .done (.checksCleared t.checkReading))

/-! ### Reading the part (R172) -/

/-- The queue entry of a job with its place, the head being place 1 (log entry 33). -/
def State.queuePlace (s : State) (n : Nat) : Option (Nat × QueueEntry) :=
  (s.ru.queue.find? (fun e => decide (e.job = n))).map (fun e => (s.ru.queue.findIdx (fun x => decide (x.job = n)) + 1, e))

/-- JOB_READ (R172). -/
def execJobRead (s : State) : Host.Outcome State Fault Refusal :=
  .next (s.onCommand 23 parseWord fun f n t =>
    if n = 0 then t.reply f .range .none
    else match t.findJob n with
      | some (_, r) => t.reply f .done (.job r (t.queuePlace n))
      | none => t.reply f .absent .none)

def State.countJobs (s : State) (x : JobState) : Nat := countIndexes 512 (fun j => decide ((s.job j).state = x))

def State.countSlots (s : State) (x : UploadState) : Nat := countIndexes 16 (fun i => decide ((s.slot i).state = x))

def State.countContexts (s : State) (x : ContextState) : Nat := countIndexes 8 (fun c => decide ((s.context c).state = x))

def State.countCallouts (s : State) (x : CalloutState) : Nat := countIndexes 48 (fun i => decide ((s.callout i).state = x))

/-- What a PART-READ shows (R172). -/
def State.partReading (s : State) : PartReading where
  service := s.mu.service
  clock := s.mu.clock
  checkLevel := s.mu.checkLevel
  poolLength := s.hsc.poolLength
  jobStates :=
    [JobState.free, .receiving, .sealing, .held, .queued, .seeking, .opening, .printing, .parked].map s.countJobs
  uploadStates := [UploadState.free, .opened, .sealing, .ending].map s.countSlots
  contextStates := [ContextState.free, .opening, .running, .halted, .saved].map s.countContexts
  savedLength := s.ru.saved.length
  releaseDepth := s.ru.queue.length
  writeDepth := s.hsc.writes.length
  readDepth := s.hsc.reads.length
  reportDepth := s.mu.reports.length
  calloutStates := [CalloutState.free, .grace, .owed, .sent, .escalated, .acked, .suppressed].map s.countCallouts
  owedResolved := s.co.owedResolved.length
  droppedNotices := s.co.dropped
  droppedAudits := s.mu.droppedAudits
  consoles := (List.finRange 4).map s.console

/-- PART_READ (R172). -/
def execPartRead (s : State) : Host.Outcome State Fault Refusal :=
  .next (s.onCommand 24 parseNothing fun f _ t => t.reply f .done (.part t.partReading))

/-! ### RECALL_JOB (R116) -/

/-- A RECALL-JOB: the state after and the reply code (R116). -/
def State.recallNumber (s : State) (n : Nat) : State × Code :=
  if n = 0 then (s, .range)
  else match s.findJob n with
    | none => (s, .tooLate)
    | some (j, r) =>
      if r.state = .receiving ∨ r.state = .sealing then
        match s.cancelUpload n with
        | some t => (t, .done)
        | none => (s, .state)
      else (s.recall j r, .done)

/-- RECALL_JOB (R116 to R119). Where the recall is carried out at once, its JOB-REFUSED is queued before the REPLY (DESIGN CHOICE,
log entry 41). -/
def execRecallJob (s : State) : Host.Outcome State Fault Refusal :=
  .next (s.onCommand 5 parseWord fun f n t => (t.recallNumber n).1.reply f (t.recallNumber n).2 .none)

/-! ### RESTART (R40, R81, R105, R136, R150, R174) -/

/-- The command kind of RESTART (R182). -/
def restartKind : Byte := 26

/-- Contexts that have sent a STREAM-OPEN send STREAM-ABORT END (R81), in the order of their numbers (DESIGN CHOICE, log entry
45). -/
def State.abortAll (s : State) : State :=
  (List.finRange 8).foldl (fun t c => if (t.context c).opened then t.abort (t.context c) .ended else t) s

/-- A context has sent a STREAM-OPEN. -/
def State.anyOpened (s : State) : Bool := (List.finRange 8).any (fun c => (s.context c).opened)

/-- A job that holds a reservation is settled at RESTART: PRINTING, or tallied (R99). -/
def JobRecord.settledAtRestart (r : JobRecord) : Bool :=
  r.reservation.isSome && (decide (r.state = .printing) || r.tallied)

/-- A job that holds a reservation is returned at RESTART (R99). -/
def JobRecord.returnedAtRestart (r : JobRecord) : Bool :=
  r.reservation.isSome && !(decide (r.state = .printing) || r.tallied)

/-- The settlements and returns of step 1, without audits (R99, R105). -/
def State.settleAll (s : State) : State :=
  s.jobs.cells.foldl
    (fun t c => if c.2.settledAtRestart then t.settleJob c.1 else if c.2.returnedAtRestart then t.returnJob c.1 else t) s

/-- The live records in ascending order of job number (R40). -/
def State.liveInOrder (s : State) : List (Fin 512 × JobRecord) :=
  sortBy (fun a b => decide (a.2.number < b.2.number)) (s.jobs.cells.filter (fun c => decide (c.2.state ≠ .free)))

/-- Every live job's chain joins the free pool (R40). -/
def State.freeAllChains (s : State) : State := s.liveInOrder.foldl (fun t c => t.freeChain c.1) s

/-- Step 2: every job dropped, the queues emptied, contexts and upload slots FREE; a granted operation's completion will be
ignored (R40, R62, R81). -/
def State.dropAll (s : State) : State :=
  let t := s.freeAllChains
  { t with
    jobs := ⟨[]⟩
    slots := ⟨[]⟩
    tables := { t.tables with users := t.tables.users.mapListed (fun _ => UserEntry.powerOn) (fun _ e => { e with liveJobs := 0 }) }
    hsc := { t.hsc with writes := [], reads := [], op := t.hsc.op.map (fun o => { o with ignored := true }) }
    ru := ⟨[], [], [], .off⟩
    se := ⟨⟨[]⟩, []⟩ }

/-- Every DEFINED printer becomes UNKNOWN with an empty record (R136). -/
def State.renewAllConditions (s : State) : State :=
  (List.finRange 64).foldl (fun t p => if t.printerDefined p then t.setCond p (t.freshRecord p []) else t) { s with cm := ⟨[]⟩ }

/-- Step 3: reports, callouts, owed RESOLVED notices, mutes and conditions cleared (R9, R136, R150). -/
def State.clearNotices (s : State) : State :=
  { s with
    mu := { s.mu with reports := [] }
    co := { s.co with entries := ⟨[]⟩, owedResolved := [] }
    tables := { s.tables with
      zones := s.tables.zones.mapListed (fun _ => ZoneEntry.powerOn) (fun _ e => { e with mute := none }) } }.renewAllConditions

/-- The slot records of printers whose reset waits for a read in flight take reset values (R164, R173). -/
def State.resetWaiting (s : State) : State :=
  (List.finRange 64).foldl (fun t p => if (t.resetWait p).isSome then t.resetSlots p else t) s

/-- The replies of the PRINTER-RESETs that waited (R173). -/
def State.answerWaiting (s : State) : State :=
  (List.finRange 64).foldl
    (fun t p => match t.resetWait p with
      | some w => (t.setResetWait p none).send .up w.station (.reply w.tag printerResetKind .done .none)
      | none => t) s

/-- Sends everything a port still holds, oldest first. -/
def State.drainFor : (fuel : Nat) → Port → State → State
  | 0, _, s => s
  | fuel + 1, p, s => State.drainFor fuel p (s.transmit p)

/-- Sends everything a port still holds. -/
def State.drain (s : State) (p : Port) : State := State.drainFor ((s.port p).tx.length + (s.port p).pass.length) p s

/-- Empties the buffers of both ports; the frames of step 1 leave the fleet port first (R171, log entry 8). -/
def State.emptyPorts (s : State) (aborted : Bool) : State :=
  let t := if aborted then s.drain .fp else s
  { t with up := ⟨[], [], []⟩, fp := ⟨[], [], []⟩ }

/-- The RESTARTED report (R174). -/
def State.restartedReport (s : State) : RestartedReport where
  dropped := s.jobs.cells.countP (fun c => decide (c.2.state ≠ .free))
  settled := s.jobs.cells.countP (fun c => c.2.settledAtRestart)
  returned := s.jobs.cells.countP (fun c => c.2.returnedAtRestart)

/-- RESTART's five steps, and the emptying of the ports (R174). -/
def State.restart (s : State) : State :=
  let done := s.abortAll.settleAll.dropAll.clearNotices.resetWaiting
  ((done.pushReport (.restarted s.restartedReport)).setService .idle).emptyPorts s.anyOpened

/-- RESTART: the waiting PRINTER-RESETs are answered before the RESTART (R173, R174). -/
def execRestart (s : State) : Host.Outcome State Fault Refusal :=
  .next (s.onCommand restartKind parseNothing fun f _ t => t.restart.answerWaiting.reply f .done .none)

end Sys2Proof.Machine
end

