-- ==== Sys2Proof/Machine/StreamSteps.lean ====
section
/-! DEFINITION. The steps of streaming, parking and expiry (chapters 3, 4 and 7): the two takings of a change of view, the stream
frames of the printers, and the expiries of streams and jobs. -/

namespace Sys2Proof.Machine

/-! ### Changes of view -/

/-- STATE_CHANGE_AT_RU: the RU takes the CM's oldest notice (R58). -/
def execStateChangeAtRu (s : State) : Host.Outcome State Fault Refusal :=
  .next
    (match s.ru.notices with
     | n :: rest => { s with ru := { s.ru with notices := rest } }.takeViewAtRu n
     | [] => s)

/-- STATE_CHANGE_AT_SE: the SE takes the CM's oldest notice (R66, R76). -/
def execStateChangeAtSe (s : State) : Host.Outcome State Fault Refusal :=
  .next
    (match s.se.notices with
     | n :: rest => { s with se := { s.se with notices := rest } }.takeViewAtSe n
     | [] => s)

/-! ### Stream frames (R64) -/

/-- The context that a stream frame binds to: owned by its source printer, its bound job the tag (R64). -/
def State.boundTo (s : State) (p : Fin 64) (tag : Nat) : Option (Fin 8) :=
  firstIndex 8 (fun c => decide ((s.context c).owner = some p) && decide ((s.context c).job = some tag))

/-- The stall time of the zone of the job bound to a context (R67, R71). -/
def State.stallLoad (s : State) (r : JobRecord) : Countdown := Countdown.load (s.zone r.zone).stallTime

/-- An accepted stream (R67): RUNNING in READY or DEGRADED, else HALTED with the park countdown loaded. -/
def State.acceptStream (s : State) (c : Fin 8) (p : Fin 64) (j : Fin 512) (r : JobRecord) (credit : Nat) : State :=
  let x := s.context c
  let y := { x with credit := min credit 8, stall := some (s.stallLoad r), step := none }
  let s1 := s.setJob j { r with state := .printing }
  if (s.cond p).state = some .ready ∨ (s.cond p).state = some .degraded then
    (s1.setContext c { y with state := .running }).pump c
  else s1.setContext c { y with state := .halted, park := some (Countdown.load (s.zone r.zone).parkTime) }

/-- STREAM-ABORT END for a tag that binds to no context; its counts are free values (R64, log entry 24). -/
def State.abortUnbound (s : State) (p : Fin 64) (tag : Nat) : State :=
  s.sendPrinter p (.streamAbort tag .ended Config.unboundAbortSent Config.unboundAbortSheet)

/-- A STREAM-ACCEPT from printer `p` (R64, R67). -/
def State.takeAccept (s : State) (p : Fin 64) (tag credit : Nat) : State :=
  match s.boundTo p tag with
  | none => s.abortUnbound p tag
  | some c =>
    if (s.context c).state = .opening ∧ (s.context c).step = some .sent then
      match s.findJob tag with
      | some (j, r) => s.acceptStream c p j r credit
      | none => s
    else s

def execStreamAccept (s : State) : Host.Outcome State Fault Refusal :=
  .next (s.onPrinterFrame .streamAccept fun p b t => match parseTagByte b with
    | some (tag, credit) => t.takeAccept p tag credit
    | none => t)

/-- A STREAM-REJECT from printer `p` (R68). -/
def State.takeReject (s : State) (p : Fin 64) (tag : Nat) : State :=
  match s.boundTo p tag with
  | some c =>
    if (s.context c).state = .opening ∧ (s.context c).step = some .sent then (s.endOpen c .blocked false).runArbiter else s
  | none => s

def execStreamReject (s : State) : Host.Outcome State Fault Refusal :=
  .next (s.onPrinterFrame .streamReject fun p b t => match parseStreamReject b with
    | some tag => t.takeReject p tag
    | none => t)

/-- The context is RUNNING or HALTED. -/
def Context.streaming (x : Context) : Bool := decide (x.state = .running) || decide (x.state = .halted)

/-- Credit added to a context, its stall countdown reloaded when credit rises from 0 (R71). -/
def State.addCredit (s : State) (c : Fin 8) (r : JobRecord) (n : Nat) : State :=
  let x := s.context c
  (s.setContext c
    { x with credit := min (x.credit + n) 8, stall := if x.credit = 0 then some (s.stallLoad r) else x.stall }).pump c

/-- A CREDIT from printer `p`, its increment 1 to 255 (R71). -/
def State.takeCredit (s : State) (p : Fin 64) (tag n : Nat) : State :=
  match s.boundTo p tag, s.findJob tag with
  | some c, some (_, r) =>
    if (s.context c).streaming = true ∧ (s.context c).pendingEnd = none ∧ 1 ≤ n then s.addCredit c r n else s
  | _, _ => s

def execCredit (s : State) : Host.Outcome State Fault Refusal :=
  .next (s.onPrinterFrame .credit fun p b t => match parseTagByte b with
    | some (tag, n) => t.takeCredit p tag n
    | none => t)

/-- The largest value of a tally (R73). -/
def maxTally : Nat := 9999999

/-- The tallies after a sheet (R73). -/
def Tallies.addSheet (t : Tallies) (f : SheetDoneFrame) : Tallies where
  fm := satAdd maxTally t.fm (f.faces - f.colourFaces)
  fc := satAdd maxTally t.fc f.colourFaces
  d := satAdd maxTally t.d (if f.faces = 2 then 1 else 0)
  l := satAdd maxTally t.l (if f.large then 1 else 0)

/-- The job record after a sheet (R73). -/
def JobRecord.addSheet (r : JobRecord) (f : SheetDoneFrame) : JobRecord :=
  { r with
    tallies := r.tallies.addSheet f
    confirmed := if f.sheet = r.confirmed + 1 then f.sheet else r.confirmed }

/-- A SHEET-DONE from printer `p` (R73). -/
def State.takeSheet (s : State) (p : Fin 64) (f : SheetDoneFrame) : State :=
  match s.boundTo p f.job, s.findJob f.job with
  | some c, some (j, r) =>
    if (s.context c).streaming then (s.setJob j (r.addSheet f)).countSheet p f.faces f.colourFaces f.large else s
  | _, _ => s

def execSheetDone (s : State) : Host.Outcome State Fault Refusal :=
  .next (s.onPrinterFrame .sheetDone fun p b t => match parseSheetDone b with
    | some f => t.takeSheet p f
    | none => t)

/-- A STREAM-END from printer `p` (R74). -/
def State.takeEnd (s : State) (p : Fin 64) (tag : Nat) (k : EndKind) : State :=
  match s.boundTo p tag with
  | some c => if (s.context c).streaming then s.raiseEnd c k else s
  | none => s

def execStreamEnd (s : State) : Host.Outcome State Fault Refusal :=
  .next (s.onPrinterFrame .streamEnd fun p b t => match parseStreamEnd b with
    | some (tag, k) => t.takeEnd p tag k
    | none => t)

/-! ### Expiries -/

/-- The expiry of a countdown has been taken. -/
def taken (c : Option Countdown) : Option Countdown := c.map (fun k => { k with due := false })

/-- STALL_EXPIRY: end kind STALL, in RUNNING (R75). -/
def execStallExpiry (c : Fin 8) (s : State) : Host.Outcome State Fault Refusal :=
  .next
    (let x := s.context c
     if expiryDue x.stall then
       let t := s.setContext c { x with stall := taken x.stall }
       if x.state = .running then t.raiseEnd c .stall else t
     else s)

/-- PARK_TIMER_EXPIRY: end kind PARK-TIMER, in HALTED (R76). -/
def execParkTimerExpiry (c : Fin 8) (s : State) : Host.Outcome State Fault Refusal :=
  .next
    (let x := s.context c
     if expiryDue x.park then
       let t := s.setContext c { x with park := taken x.park }
       if x.state = .halted then t.raiseEnd c .parkTimer else t
     else s)

/-- A parked job's park countdown has run out (R109). -/
def State.expireParked (s : State) (j : Fin 512) (r : JobRecord) : State :=
  (((s.settleOrReturn j .expiredParked).unnameJob r.number).refuseJob r .expired).dropJob j

/-- PARK_HOLD_EXPIRY (R109). -/
def execParkHoldExpiry (n : Nat) (s : State) : Host.Outcome State Fault Refusal :=
  .next
    (match s.findJob n with
     | some (j, r) => if r.state = .parked ∧ expiryDue r.countdown = true then s.expireParked j r else s
     | none => s)

/-- HOLD_EXPIRY (R115). -/
def execHoldExpiry (n : Nat) (s : State) : Host.Outcome State Fault Refusal :=
  .next
    (match s.findJob n with
     | some (j, r) =>
       if r.state = .held ∧ expiryDue r.countdown = true then (s.dropJob j).refuseJob r .expired else s
     | none => s)

end Sys2Proof.Machine
end

