-- ==== Sys2Proof/Machine/TableSteps.lean ====
section
/-! DEFINITION. TABLE_WRITE and TABLE_READ (chapter 1), and ACCOUNT_CREDIT and ACCOUNT_DEBIT (chapter 6). A write's fields are
read whole first (test 2 of R1), and the tests that look at other entries follow in order. -/

namespace Sys2Proof.Machine

/-! ### The fields of an entry (R1 test 2, R182) -/

/-- A byte within a range. -/
def byteIn? (b : List Byte) (i lo hi : Nat) : Option Nat :=
  if lo ≤ byteAt b i ∧ byteAt b i ≤ hi then some (byteAt b i) else none

/-- Two bytes within a range. -/
def wordIn? (b : List Byte) (i lo hi : Nat) : Option Nat := if lo ≤ be16 b i ∧ be16 b i ≤ hi then some (be16 b i) else none

/-- Four bytes within a range. -/
def longIn? (b : List Byte) (i lo hi : Nat) : Option Nat := if lo ≤ be32 b i ∧ be32 b i ≤ hi then some (be32 b i) else none

/-- The expected option list with its default values: `n` codes from `i` and `n` values from `v` (R3). -/
def expectedOptions? (b : List Byte) (i v : Nat) : Nat → Option (List OptionEntry)
  | 0 => some []
  | n + 1 =>
    match optionEntry? (byteAt b i) (byteAt b v), expectedOptions? b (i + 1) (v + 1) n with
    | some o, some rest => if rest.any (fun r => decide (r.code = o.code)) then none else some (o :: rest)
    | _, _ => none

/-- A place of the slot map: a fitted flag and a default supply type (R3). -/
def slotSetting? (b : List Byte) (i : Nat) : Option SlotSetting := (fin? 64 (byteAt b (i + 1))).map (fun t => ⟨flagAt b i 0, t⟩)

def slotMap? (b : List Byte) (i : Nat) : Option (PerSlot SlotSetting) :=
  match slotSetting? b i, slotSetting? b (i + 2), slotSetting? b (i + 4), slotSetting? b (i + 6), slotSetting? b (i + 8),
    slotSetting? b (i + 10) with
  | some s1, some s2, some s3, some s4, some s5, some s6 => some ⟨s1, s2, s3, s4, s5, s6⟩
  | _, _, _, _, _, _ => none

/-- What a write carries for an entry that has an EMPTY state: nothing beyond it, or every field (R4, R11, R182). -/
inductive Written (α : Type) where
  | empty
  | entry (e : α)
deriving DecidableEq, Repr

/-- A written entry of a table with EMPTY entries: a state byte, then the fields that `fields` reads. -/
def written? {α : Type} (b : List Byte) (fields : List Byte → Option α) : Option (Written α) :=
  if byteAt b 0 = 0 ∧ b.length = 1 then some .empty
  else if byteAt b 0 = 1 then (fields b).map .entry
  else none

/-- The fields of a DEFINED printer entry (R3, R4), but for the test of the default types. -/
def printerFields? (b : List Byte) : Option PrinterEntry :=
  let n := byteAt b 9
  let m := 11 + n + n
  if b.length = m + 14 ∧ n ≤ 8 ∧ byteAt b (10 + n) = n ∧ be48 b 1 ≠ 0 ∧ isGroupAddress (be48 b 1) = false then
    match fin? 16 (byteAt b 7), expectedOptions? b 10 (11 + n) n, slotMap? b m, wordIn? b (m + 12) 30 600 with
    | some z, some os, some sm, some t =>
      some ⟨.defined, be48 b 1, z, ⟨flagAt b 8 0, flagAt b 8 1, flagAt b 8 2, flagAt b 8 3⟩, os, sm, t⟩
    | _, _, _, _ => none
  else none

/-- The four times of a zone (R9): hold time, park time, park hold time, stall time. -/
structure ZoneTimes where
  hold     : Nat
  park     : Nat
  parkHold : Nat
  stall    : Nat
deriving DecidableEq, Repr

def zoneFields? (b : List Byte) : Option ZoneTimes :=
  if b.length = 10 then
    match wordIn? b 0 60 4320, byteIn? b 2 1 30, wordIn? b 3 60 1440, wordIn? b 5 10 600 with
    | some h, some p, some ph, some st => some ⟨h, p, ph, st⟩
    | _, _, _, _ => none
  else none

/-- The fields of a DEFINED user entry (R10, R11); the live job count is not writable. -/
def userFields? (b : List Byte) : Option UserEntry :=
  if b.length = 12 ∧ be32 b 1 ≠ 0 then
    match fin? 1024 (be16 b 5), fin? 16 (byteAt b 7) with
    | some a, some z =>
      some ⟨.defined, BitVec.ofNat 32 (be32 b 1), a, z, flagAt b 8 0, flagAt b 9 0, flagAt b 10 0, 0⟩
    | _, _ => none
  else none

/-- The static fields of an account (R12, R13). -/
structure AccountFields where
  state     : AccountState
  overdraft : Nat
  plan      : Fin 16
  balance   : Int
deriving DecidableEq, Repr

def accountStateOf : Nat → Option AccountState
  | 0 => some .closed
  | 1 => some .opened
  | 2 => some .frozen
  | _ => none

def accountFields? (b : List Byte) : Option AccountFields :=
  if b.length = 30 then
    match accountStateOf (byteAt b 0), positive? b 1 999999, fin? 16 (byteAt b 6), balance? b 7 with
    | some st, some o, some p, some bal => some ⟨st, o, p, bal⟩
    | _, _, _, _ => none
  else none

/-- A rate plan (R14). -/
def planFields? (b : List Byte) : Option RatePlan :=
  if b.length = 26 then
    match positive? b 0 9999, positive? b 5 9999, positive? b 10 9999, positive? b 15 9999, byteIn? b 20 0 99,
      positive? b 21 9999 with
    | some rm, some rc, some rl, some rd, some p, some m => some ⟨rm, rc, rl, rd, p, m⟩
    | _, _, _, _, _, _ => none
  else none

def condClassOf : Nat → Option CondClass
  | 0 => some .ignore
  | 1 => some .notice
  | 2 => some .fault
  | _ => none

def condEffectOf : Nat → Option CondEffect
  | 0 => some .none
  | 1 => some .degrade
  | 2 => some .block
  | _ => none

def calloutKindOf : Nat → Option CalloutKind
  | 0 => some .service
  | 1 => some .facilities
  | _ => none

/-- The effect and the loss set agree: a loss set with DEGRADE and only with it (R15). -/
def lossAgrees (e : CondEffect) (l : LossSet) : Bool := decide (e = .degrade) == decide (l ≠ LossSet.none)

/-- A condition entry (R15). -/
def conditionFields? (b : List Byte) : Option ConditionEntry :=
  let l : LossSet := ⟨flagAt b 2 0, flagAt b 2 1, flagAt b 2 2, flagAt b 2 3⟩
  if b.length = 7 then
    match condClassOf (byteAt b 0), condEffectOf (byteAt b 1), byteIn? b 3 0 240, wordIn? b 4 0 480, calloutKindOf (byteAt b 6) with
    | some c, some e, some g, some x, some d => if lossAgrees e l then some ⟨c, e, l, g, x, d⟩ else none
    | _, _, _, _, _ => none
  else none

/-- A DEFINED supply entry (R17, R18). -/
def supplyFields? (b : List Byte) : Option SupplyEntry :=
  if b.length = 13 then
    match consumableOf (byteAt b 1), longIn? b 2 1000 250000, byteIn? b 6 1 60, longIn? b 7 0 (be32 b 2), byteIn? b 11 0 50,
      byteIn? b 12 0 20 with
    | some q, some yield, some d, some fl, some lo, some st => some ⟨.defined, q, yield, d, fl, lo, st⟩
    | _, _, _, _, _, _ => none
  else none

/-! ### Printer entries (R4 to R8) -/

/-- Every fitted slot names a default type that is DEFINED with the slot's kind (R4). -/
def State.defaultsFit (s : State) (e : PrinterEntry) : Bool :=
  consumables.all (fun q => !(e.slotMap.get q).fitted || s.supplyFits (e.slotMap.get q).defaultType q)

/-- Another DEFINED entry holds the station address (R4). -/
def State.stationHeld (s : State) (p : Fin 64) (a : Station) : Bool :=
  s.tables.printers.cells.any (fun c => decide (c.1 ≠ p) && decide (c.2.state = .defined) && decide (c.2.station = a))

/-- A context is bound at the printer, or the release queue holds an entry for it (R6). -/
def State.printerBusy (s : State) (p : Fin 64) : Bool :=
  (s.boundAt p).isSome || s.ru.queue.any (fun e => decide (e.printer = p))

/-- The SAVED context of a printer becomes FREE, and the arbiter is run (R7, R8, R60). -/
def State.dropSaved (s : State) (p : Fin 64) : State :=
  match s.savedAt p with
  | some c => (s.freeContext c).runArbiter
  | none => s

/-- A printer entry made DEFINED (R5). -/
def State.startPrinter (s : State) (p : Fin 64) (e : PrinterEntry) : State :=
  let s1 := s.setPrinter p e
  (s1.setCond p (s1.freshRecord p [])).resetSlots p

/-- The records of slots whose fitted flag changes take their reset values (R6). -/
def State.refit (s : State) (p : Fin 64) (old : PrinterEntry) : State :=
  consumables.foldl
    (fun t q => if (old.slotMap.get q).fitted = ((t.printer p).slotMap.get q).fitted then t else t.resetSlot p q) s

/-- A taken write of a DEFINED entry over a DEFINED entry (R6, R7). -/
def State.changePrinter (s : State) (p : Fin 64) (e : PrinterEntry) : State :=
  let s1 := s.setPrinter p e
  if (s.printer p).station = e.station then s1.refit p (s.printer p)
  else ((s1.renewConditions p).resetSlots p).dropSaved p

/-- A taken write that makes a DEFINED entry EMPTY (R8). -/
def State.emptyPrinter (s : State) (p : Fin 64) : State :=
  (((s.setPrinter p { s.printer p with state := .empty }).stopConditions p).resetSlots p).dropSaved p

/-- A TABLE-WRITE of printer entry `p` (R1, R4 to R8). -/
def State.writePrinter (s : State) (p : Fin 64) (w : Written PrinterEntry) : State × Code :=
  match w with
  | .empty =>
    if s.printerDefined p = false then (s, .done)
    else if s.printerBusy p then (s, .busy)
    else (s.emptyPrinter p, .done)
  | .entry e =>
    if s.defaultsFit e = false ∨ s.stationHeld p e.station = true then (s, .range)
    else if s.printerDefined p = false then (s.startPrinter p e, .done)
    else if s.printerBusy p then (s, .busy)
    else (s.changePrinter p e, .done)

/-! ### The other tables -/

/-- A TABLE-WRITE of zone entry `z` (R9). -/
def State.writeZone (s : State) (z : Fin 16) (t : ZoneTimes) : State :=
  s.setZone z
    { s.zone z with holdTime := t.hold, parkTime := t.park, parkHoldTime := t.parkHold, stallTime := t.stall }

/-- Another DEFINED user holds the badge code (R11). -/
def State.badgeHeld (s : State) (u : Fin 8192) (b : Code32) : Bool :=
  s.tables.users.cells.any (fun c => decide (c.1 ≠ u) && decide (c.2.state = .defined) && decide (c.2.badge = b))

/-- A TABLE-WRITE of user entry `u` (R11). -/
def State.writeUser (s : State) (u : Fin 8192) (w : Written UserEntry) : State × Code :=
  let old := s.user u
  match w with
  | .empty => if old.liveJobs ≠ 0 then (s, .busy) else (s.setUser u { old with state := .empty }, .done)
  | .entry e =>
    if s.badgeHeld u e.badge then (s, .range)
    else if old.liveJobs ≠ 0 ∧ e.account ≠ old.account then (s, .busy)
    else (s.setUser u { e with liveJobs := old.liveJobs }, .done)

/-- An account entry with new static fields (R13). -/
def AccountEntry.rewrite (a : AccountEntry) (f : AccountFields) : AccountEntry :=
  { a with state := f.state, overdraft := f.overdraft, plan := f.plan, balance := f.balance }

/-- A TABLE-WRITE of account entry `i` (R13): the test of CLOSED, then the balance check. -/
def State.writeAccount (s : State) (i : Fin 1024) (f : AccountFields) : State × Code :=
  let a := s.account i
  if f.state = .closed ∧ a.reserved ≠ 0 then (s, .busy)
  else if f.balance - a.reserved < -(f.overdraft : Int) then (s, .range)
  else (s.setAccount i (a.rewrite f), .done)

/-- The default supply type of a fitted slot, or the type of a slot record, of a DEFINED printer (R18). -/
def State.supplyInUse (s : State) (t : Fin 64) : Bool :=
  (List.finRange 64).any fun p =>
    s.printerDefined p &&
      consumables.any fun q =>
        decide ((s.slotRecord p q).supply = t) ||
          (((s.printer p).slotMap.get q).fitted && decide (((s.printer p).slotMap.get q).defaultType = t))

/-- A record fitted with type `t` holds no more than its new rated yield (R18). -/
def SlotRecord.clamp (t : Fin 64) (yield : Nat) (r : SlotRecord) : SlotRecord :=
  if r.supply = t then { r with remaining := min r.remaining yield } else r

def clampAll (t : Fin 64) (yield : Nat) (x : PerSlot SlotRecord) : PerSlot SlotRecord :=
  ⟨x.k.clamp t yield, x.c.clamp t yield, x.m.clamp t yield, x.y.clamp t yield, x.drum.clamp t yield, x.fuser.clamp t yield⟩

/-- Every slot record fitted with a type is clamped to its lowered rated yield (R18). -/
def State.clampYield (s : State) (t : Fin 64) (yield : Nat) : State :=
  { s with slotRecords := s.slotRecords.mapListed (fun _ => slotRecordsPowerOn) (fun _ x => clampAll t yield x) }

/-- A TABLE-WRITE of supply entry `t` (R18). -/
def State.writeSupply (s : State) (t : Fin 64) (w : Written SupplyEntry) : State × Code :=
  let old := s.supply t
  match w with
  | .empty => if s.supplyInUse t then (s, .busy) else (s.setSupply t { old with state := .empty }, .done)
  | .entry e =>
    if e.kind ≠ old.kind ∧ s.supplyInUse t = true then (s, .busy)
    else
      let s1 := s.setSupply t e
      (if e.ratedYield < old.ratedYield then s1.clampYield t e.ratedYield else s1, .done)

/-! ### TABLE_WRITE -/

/-- A write of an entry whose index is below `n` and whose fields are valid, RANGE otherwise (R1 tests 1 and 2). -/
def State.writeEntry (s : State) {n : Nat} {α : Type} (index : Nat) (fields : Option α) (act : Fin n → α → State × Code) :
    State × Code :=
  match fin? n index, fields with
  | some i, some x => act i x
  | _, _ => (s, .range)

/-- A TABLE-WRITE of entry `index` of table `table`, `b` its fields (R1): the state after and the reply code. -/
def State.writeTable (s : State) (table index : Nat) (b : List Byte) : State × Code :=
  match table with
  | 0 => s.writeEntry index (written? b printerFields?) s.writePrinter
  | 1 => s.writeEntry index (zoneFields? b) (fun z x => (s.writeZone z x, .done))
  | 2 => s.writeEntry index (written? b userFields?) s.writeUser
  | 3 => s.writeEntry index (accountFields? b) s.writeAccount
  | 4 => s.writeEntry index (planFields? b) (fun (i : Fin 16) x => (s.setPlan i x, .done))
  | 5 => s.writeEntry index (conditionFields? b) (fun (i : Fin 256) x => (s.setCondition i x, .done))
  | 6 => s.writeEntry index (written? b supplyFields?) s.writeSupply
  | _ => (s, .range)

/-- The table, the entry index and the fields of a TABLE-WRITE (R182). -/
def parseTableWrite (b : List Byte) : Option (Nat × Nat × List Byte) :=
  if b.length < 3 then none else some (byteAt b 0, be16 b 1, b.drop 3)

/-- The TABLE-WRITE at the head is taken and answered (R1). -/
def State.takeTableWrite (s : State) : State :=
  s.onCommand 1 parseTableWrite fun f a t =>
    let w := t.writeTable a.1 a.2.1 a.2.2
    w.1.reply f w.2 .none

/-- TABLE_WRITE (R1). -/
def execTableWrite (s : State) : Host.Outcome State Fault Refusal := .next s.takeTableWrite

/-! ### TABLE_READ (R2) -/

/-- Every field of an entry, none for a table or an index out of range (R2). -/
def State.readTable (s : State) (table index : Nat) : Option Contents :=
  match table with
  | 0 => (fin? 64 index).map (fun i => .printer (s.printer i))
  | 1 => (fin? 16 index).map (fun i => .zone (s.zone i))
  | 2 => (fin? 8192 index).map (fun i => .user (s.user i))
  | 3 => (fin? 1024 index).map (fun i => .account (s.account i))
  | 4 => (fin? 16 index).map (fun i => .plan (s.plan i))
  | 5 => (fin? 256 index).map (fun i => .condition (s.condition i))
  | 6 => (fin? 64 index).map (fun i => .supply (s.supply i))
  | _ => none

def parseTableRead (b : List Byte) : Option (Nat × Nat) := if b.length = 3 then some (byteAt b 0, be16 b 1) else none

/-- TABLE_READ (R2). -/
def execTableRead (s : State) : Host.Outcome State Fault Refusal :=
  .next (s.onCommand 2 parseTableRead fun f a t =>
    match t.readTable a.1 a.2 with
    | some c => t.reply f .done c
    | none => t.reply f .range .none)

/-! ### ACCOUNT_CREDIT and ACCOUNT_DEBIT (R101, R102) -/

/-- An account number and an amount of 0.00 to 999,999.99 (R101, R102). -/
def parseAmountCommand (b : List Byte) : Option (Fin 1024 × Nat) :=
  if b.length = 7 then
    match fin? 1024 (be16 b 0), positive? b 2 99999999 with
    | some i, some x => some (i, x)
    | _, _ => none
  else none

/-- The account number, the balance and the available amount as they stand (R101, R102). -/
def State.balanceOf (s : State) (i : Fin 1024) : Contents := .balance i (s.account i).balance (s.account i).available

/-- The account after a credit (R101). -/
def AccountEntry.credit (a : AccountEntry) (x : Nat) : AccountEntry := { a with balance := satAddInt maxAmount a.balance x }

/-- The account after a debit (R102). -/
def AccountEntry.debit (a : AccountEntry) (x : Nat) : AccountEntry := { a with balance := a.balance - (x : Int) }

/-- The ACCOUNT-CREDIT at the head is taken and answered (R101). -/
def State.takeAccountCredit (s : State) : State :=
  s.onCommand 3 parseAmountCommand fun f a t =>
    let old := t.account a.1
    let u := t.setAccount a.1 (old.credit a.2)
    u.reply f (if maxAmount < old.balance + (a.2 : Int) then .saturated else .done) (u.balanceOf a.1)

/-- ACCOUNT_CREDIT (R101). -/
def execAccountCredit (s : State) : Host.Outcome State Fault Refusal := .next s.takeAccountCredit

/-- The ACCOUNT-DEBIT at the head is taken and answered (R102). -/
def State.takeAccountDebit (s : State) : State :=
  s.onCommand 4 parseAmountCommand fun f a t =>
    let old := t.account a.1
    if old.available < (a.2 : Int) then t.reply f .range (t.balanceOf a.1)
    else
      let u := t.setAccount a.1 (old.debit a.2)
      u.reply f .done (u.balanceOf a.1)

/-- ACCOUNT_DEBIT (R102). -/
def execAccountDebit (s : State) : Host.Outcome State Fault Refusal := .next s.takeAccountDebit

end Sys2Proof.Machine
end

