-- ==== Sys2Proof/Machine/Asking.lean ====
section
/-! DEFINITION. RELEASE_ASK (chapter 3): option resolution, the decision cascade with the events that may come between its
requests, admission, and the answer. -/

namespace Sys2Proof.Machine

/-! ### Option resolution (R45 to R48) -/

def noMarks : AnswerMarks := ⟨false, false, false, false⟩

/-- One printer value (R45). `o` is the printer's code with its default. -/
def resolveValue (r : JobRecord) (o : OptionEntry) : PrinterValue :=
  match o.code with
  | .copies => ⟨.copies, r.copies, false⟩
  | code =>
    match r.ticket.find? (fun t => decide (t.code = code)) with
    | some t => ⟨code, t.value, false⟩
    | none => ⟨code, o.value, true⟩

/-- The value of a code among printer values, or `other` when it is not there (R46). -/
def valueOf (vs : List PrinterValue) (code : OptCode) (other : Nat) : Nat :=
  match vs.find? (fun v => decide (v.code = code)) with
  | some v => v.value
  | none => other

/-- Sets the value of a code among printer values. -/
def setValue (vs : List PrinterValue) (code : OptCode) (value : Nat) : List PrinterValue :=
  vs.map (fun v => if v.code = code then { v with value := value } else v)

/-- The charge values of printer values (R46). -/
def chargeValues (vs : List PrinterValue) : ChargeValues where
  sides := if valueOf vs .sides 1 = 2 then .two else .one
  colour := if valueOf vs .colour 0 = 1 then .colour else .mono
  size := if valueOf vs .size 0 = 1 then .large else .standard

/-- Applies the losses in the order colour, duplex, large, staple (R48). -/
def applyLosses (l : LossSet) (mayDowngrade : Bool) (vs : List PrinterValue) : Except Code (List PrinterValue × AnswerMarks) :=
  let colourLost := l.colour && decide (valueOf vs .colour 0 = 1)
  if colourLost = true ∧ mayDowngrade = false then .error .colourUnavailable
  else
    let vs1 := if colourLost then setValue vs .colour 0 else vs
    let duplexLost := l.duplex && decide (valueOf vs1 .sides 1 = 2)
    let vs2 := if duplexLost then setValue vs1 .sides 1 else vs1
    if l.large = true ∧ valueOf vs2 .size 0 = 1 then .error .sizeUnavailable
    else
      let stapleLost := l.staple && decide (valueOf vs2 .staple 0 ≠ 0)
      let vs3 := if stapleLost then setValue vs2 .staple 0 else vs2
      .ok (vs3, { noMarks with colourToMono := colourLost, duplexToSimplex := duplexLost, stapleDropped := stapleLost })

/-- Option resolution of a held candidate at a printer (R45 to R48). -/
def State.resolve (s : State) (p : Fin 64) (r : JobRecord) : Except Code (OptionVector × AnswerMarks) :=
  match applyLosses (s.losses p r.user) (s.user r.user).mayDowngrade ((s.printer p).options.map (resolveValue r)) with
  | .ok (vs, m) => .ok (⟨vs, chargeValues vs⟩, m)
  | .error c => .error c

/-! ### The decision cascade (R50 to R53) -/

/-- What the cascade grants: the vector, the marks, the sheet cap and the amount reserved. -/
structure Grant where
  vector : OptionVector
  marks  : AnswerMarks
  cap    : Option Nat
  amount : Nat
deriving DecidableEq, Repr

/-- The vector with COLOUR as MONO (R51). -/
def OptionVector.toMono (v : OptionVector) : OptionVector :=
  ⟨setValue v.values .colour 0, { v.charge with colour := .mono }⟩

/-- The answer code of a RESERVE result that refuses the candidate (R50, R52). -/
def refusalOf : ReserveResult → Code
  | .frozen => .accountFrozen
  | .closed => .noAccount
  | .quota => .quota
  | .reserved => .quota

/-- The table that a TABLE-WRITE at the head names. -/
def State.headTable (s : State) : Option Nat := ((s.headCommand 1).bind (fun f => parseTableWrite f.body)).map (fun a => a.1)

/-- The state that a step leaves: the next one, or the one before it where the step stops. -/
def State.left (s : State) : Host.Outcome State Fault Refusal → State
  | .next t => t
  | .fault _ => s
  | .refused _ => s

/-- An event at an account is taken. One that is not at hand changes nothing (R99, R104, log entries 1 and 47). -/
def State.takeAccountEvent (s : State) : AccountEvent → State
  | .credit => s.takeAccountCredit
  | .debit => s.takeAccountDebit
  | .tableWrite => if s.headTable = some 3 ∨ s.headTable = some 4 then s.takeTableWrite else s
  | .streamEnd => s.left (execStreamEnd s)
  | .streamReject => s.left (execStreamReject s)
  | .fetchCompletion header data => s.left (execFetchCompletion header data s)
  | .headerCompletion header => s.left (execHeaderCompletion header s)
  | .stateChangeAtSe => s.left (execStateChangeAtSe s)
  | .recallJob => s.left (execRecallJob s)
  | .jobCancel => s.left (execJobCancel s)
  | .parkHoldExpiry n => s.left (execParkHoldExpiry n s)

/-- An event comes between two requests of an ask whose candidates are `own`, while the arbiter waits (R44). One that reaches the
record of a candidate (7.7), or the release queue, which is the RU's (R41, R57), comes before the ask or after it, and not here. -/
def State.comeBetween (own : List (Fin 512)) (s : State) (e : AccountEvent) : State :=
  let t := s.takeAccountEvent e
  if t.ru.queue = s.ru.queue ∧ ∀ j ∈ own, t.job j = s.job j then t else s

/-- The next request of an ask whose candidates are `own` is at hand: the events that come before it are taken (R104). -/
def State.request (s : State) (own : List (Fin 512)) : State :=
  match s.between with
  | [] => s
  | events :: rest => { events.foldl (State.comeBetween own) s with between := rest }

/-- The account of a job, as it stands. -/
def State.accountOf (s : State) (r : JobRecord) : AccountEntry := s.account r.account

/-- The rate plan that a job's account names, as both stand (R82). -/
def State.planOf (s : State) (r : JobRecord) : RatePlan := s.plan (s.accountOf r).plan

/-- One attempt of the cascade: the state after its RESERVE, the amount asked for, the result, and the account's available amount
as a result that reserves nothing gives it (R95). -/
structure Attempt where
  state     : State
  amount    : Nat
  result    : ReserveResult
  available : Int
deriving DecidableEq, Repr

/-- An attempt: a request of the CU that prices under the plan as it stands, and then a RESERVE of that amount at the account as it
then stands (R50, R82, R95). The amount is added to reserved at admission, within the same event (R55). -/
def State.attempt (s : State) (own : List (Fin 512)) (r : JobRecord) (price : RatePlan → Nat) : Attempt :=
  let priced := s.request own
  let reserving := priced.request own
  let amount := price (priced.planOf r)
  ⟨reserving, amount, reserveResult (reserving.accountOf r) amount, (reserving.accountOf r).available⟩

/-- The partial step (R52), after the QUOTA of attempt `last`: a CAP SEARCH within the available amount that came with it, and an
attempt at the capped estimate. It has no test of the number of sheets: a job of one sheet whose rate plan is written between the two
can be granted a cap of 1 (DESIGN CHOICE, log entry 50). -/
def Attempt.partialStep (last : Attempt) (own : List (Fin 512)) (u : UserEntry) (r : JobRecord) (v : OptionVector) (m : AnswerMarks) :
    State × Except Code Grant :=
  if u.mayPartial = false then (last.state, .error .quota)
  else
    let search := last.state.request own
    match capSearch (search.planOf r) v.charge r.pages r.copies last.available with
    | none => (search, .error .quota)
    | some n =>
      let cap := min n 65535
      let w := search.attempt own r (fun plan => cappedEstimate plan v.charge r.pages cap)
      match w.result with
      | .reserved => (w.state, .ok ⟨v, { m with partly := true }, some cap, w.amount⟩)
      | res => (w.state, .error (refusalOf res))

/-- The colour step, after the QUOTA of attempt `last`, and the partial step after it (R51). -/
def Attempt.colourStep (last : Attempt) (own : List (Fin 512)) (u : UserEntry) (r : JobRecord) (v : OptionVector) (m : AnswerMarks) :
    State × Except Code Grant :=
  if v.charge.colour = .colour ∧ u.mayDowngrade = true then
    let m' := { m with colourToMono := true }
    let w := last.state.attempt own r (fun plan => estimate plan v.toMono.charge r.pages r.copies)
    match w.result with
    | .reserved => (w.state, .ok ⟨v.toMono, m', none, w.amount⟩)
    | .quota => w.partialStep own u r v.toMono m'
    | res => (w.state, .error (refusalOf res))
  else last.partialStep own u r v m

/-- The decision cascade (R50 to R53), in an ask whose candidates are `own`: the state after it, and what it grants or the code that
refuses the candidate. -/
def State.cascade (s : State) (own : List (Fin 512)) (u : UserEntry) (r : JobRecord) (v : OptionVector) (m : AnswerMarks) :
    State × Except Code Grant :=
  let w := s.attempt own r (fun plan => estimate plan v.charge r.pages r.copies)
  match w.result with
  | .reserved => (w.state, .ok ⟨v, m, none, w.amount⟩)
  | .quota => w.colourStep own u r v m
  | res => (w.state, .error (refusalOf res))

/-! ### Admission (R55) -/

def State.pushEntry (s : State) (e : QueueEntry) : State := { s with ru := { s.ru with queue := s.ru.queue ++ [e] } }

/-- Admission of a HELD candidate with what the cascade granted (R55). -/
def State.queueHeld (s : State) (p : Fin 64) (j : Fin 512) (g : Grant) : State :=
  let r := s.job j
  ((s.setAccount r.account ((s.account r.account).reserve g.amount)).pushEntry ⟨r.number, p, .held, countLeft r.countdown⟩).setJob j
    { r with
      state := .queued, countdown := none, reservation := some g.amount, sheetCap := g.cap, vector := some g.vector,
      releases := satAdd 255 r.releases 1 }

/-- Admission of a PARKED candidate (R55). -/
def State.queueParked (s : State) (p : Fin 64) (j : Fin 512) : State :=
  let r := s.job j
  (s.pushEntry ⟨r.number, p, .parked (r.parkReason.getD .blocked) (r.parkedAt.getD s.mu.clock), countLeft r.countdown⟩).setJob j
    { r with
      state := .queued, countdown := none, parkReason := none, parkedAt := none, releases := satAdd 255 r.releases 1 }

/-! ### The RELEASE-ASK (R41 to R44, R54) -/

/-- Two jobs in the order of R43 by a stamp, then the lower number. -/
def jobBefore (stamp : JobRecord → Stamp) (a b : Fin 512 × JobRecord) : Bool :=
  (stamp a.2).before (stamp b.2) || (decide (stamp a.2 = stamp b.2) && decide (a.2.number < b.2.number))

/-- A user's jobs of a state in a zone, in the order of a stamp (R43). -/
def State.jobsInOrder (s : State) (u : Fin 8192) (z : Fin 16) (st : JobState) (stamp : JobRecord → Stamp) :
    List (Fin 512 × JobRecord) :=
  sortBy (jobBefore stamp)
    (s.jobs.cells.filter (fun c => decide (c.2.user = u) && decide (c.2.zone = z) && decide (c.2.state = st)))

/-- The candidates of an ACCEPTED ask for ALL: parked by time of parking, then held by time of creation (R43). -/
def State.candidates (s : State) (u : Fin 8192) (z : Fin 16) : List (Fin 512 × JobRecord) :=
  s.jobsInOrder u z .parked (fun r => r.parkedAt.getD ⟨0, 0⟩) ++ s.jobsInOrder u z .held (fun r => r.created)

/-- The entry of a candidate that is refused, with its declared size (R54). -/
def refusedEntry (r : JobRecord) (c : Code) : AnswerEntry := ⟨r.number, c, noMarks, none, none, some (r.pages, r.copies)⟩

/-- Takes one candidate, of the candidates `own`, through the steps of R44 at printer `p`. -/
def State.takeCandidate (s : State) (own : List (Fin 512)) (p : Fin 64) (j : Fin 512) : State × AnswerEntry :=
  let r := s.job j
  if 16 ≤ s.ru.queue.length then (s, refusedEntry r .queueFull)
  else if r.state = .parked then
    if r.touchedBy (s.losses p r.user) then (s, refusedEntry r .optionLost)
    else (s.queueParked p j, ⟨r.number, .resuming, noMarks, none, r.reservation, some (r.pages, r.copies)⟩)
  else
    match s.resolve p r with
    | .error c => (s, refusedEntry r c)
    | .ok (v, m) =>
      match s.cascade own (s.user r.user) r v m with
      | (t, .error c) => (t, refusedEntry r c)
      | (t, .ok g) =>
        (t.queueHeld p j g, ⟨r.number, .queued, g.marks, g.cap, some g.amount, some (r.pages, r.copies)⟩)

/-- Takes candidates, of the candidates `own`, one after another (R44). -/
def State.takeCandidates (s : State) (own : List (Fin 512)) (p : Fin 64) : List (Fin 512) → State × List AnswerEntry
  | [] => (s, [])
  | j :: rest =>
    let one := s.takeCandidate own p j
    let more := one.1.takeCandidates own p rest
    (more.1, one.2 :: more.2)

/-- The answer entry of a named job that is no candidate (R43). -/
def State.notCandidate (s : State) (u : Fin 8192) (n : Nat) : AnswerEntry :=
  let code : Code :=
    match s.findJob n with
    | none => .jobGone
    | some (_, r) =>
      if r.user ≠ u then .jobGone
      else if r.state = .held ∨ r.state = .parked then .wrongZone
      else .notReady
  ⟨n, code, noMarks, none, none, none⟩

/-- The candidates an ask takes, and the single entry of a named job that is none of them (R43). -/
def State.askedFor (s : State) (u : Fin 8192) (z : Fin 16) (selection : Nat) : List (Fin 512) × List AnswerEntry :=
  let all := s.candidates u z
  if selection = 0 then (all.map (fun c => c.1), [])
  else
    match all.find? (fun c => decide (c.2.number = selection)) with
    | some c => ([c.1], [])
    | none => ([], [s.notCandidate u selection])

/-- The ask result: the first test of R42 that fails, or the user that holds the badge. -/
def State.askTest (s : State) (p : Fin 64) (badge : Code32) : Except Code (Fin 8192) :=
  if s.mu.service = .idle then .error .notServing
  else match s.findUser badge with
    | none => .error .unknownUser
    | some (u, _) =>
      if (s.cond p).state = some .ready ∨ (s.cond p).state = some .degraded then .ok u else .error .printerUnavailable

/-- The entry's job was admitted to the release queue by this ask (R44 step 4). -/
def AnswerEntry.queuedNow (e : AnswerEntry) : Bool := decide (e.outcome = .queued) || decide (e.outcome = .resuming)

/-- A RELEASE-ASK taken at the RU (R42 to R44, R54, R60), with the events that come between its requests. The arbiter waits until every
candidate has been taken, and runs then if one was admitted or an event between has called it. -/
def State.releaseAsk (s : State) (p : Fin 64) (f : ReleaseAsk) : State :=
  match s.askTest p f.badge with
  | .error c => s.sendPrinter p (.releaseAnswer f.tag f.badge c [] none)
  | .ok u =>
    let asked := s.askedFor u (s.printer p).zone f.selection
    let taken := (s.setHold .on).takeCandidates asked.1 p asked.1
    let last := taken.1.request asked.1
    let available := (last.account (last.user u).account).available
    let answered := last.sendPrinter p (.releaseAnswer f.tag f.badge .accepted (taken.2 ++ asked.2) (some available))
    (if taken.2.any AnswerEntry.queuedNow then answered.runArbiter else answered).endHold

/-- RELEASE_ASK (R41 to R44, R54), with the events that `between` puts before its requests. -/
def execReleaseAsk (s : State) : Host.Outcome State Fault Refusal :=
  .next (s.onPrinterFrame .releaseAsk fun p b t => match parseReleaseAsk b with
    | some f => t.releaseAsk p f
    | none => t)

end Sys2Proof.Machine
end

