-- ==== Sys2Proof/Machine/Clock.lean ====
section
/-! DEFINITION. The steps of the time base: SECOND_TICK, MINUTE_TICK, DAY_ROLLOVER and TIME_SET (spec/00 Time, R167). A tick
lowers every running countdown of its unit; the expiry of one that reaches 0 is an event of its own (log entry 3). -/

namespace Sys2Proof.Machine

/-! ### Seconds -/

def UploadSlot.tick (x : UploadSlot) : UploadSlot := { x with idle := tickCountdown x.idle }

/-- A buffer is FULL. -/
def Buffer.isFull : Buffer → Bool
  | .full _ _ => true
  | .empty => false
  | .fetching _ => false

/-- The stall countdown counts: RUNNING, a buffer FULL, credit 0 (R75). -/
def Context.stallCounts (x : Context) : Bool :=
  decide (x.state = .running) && (x.bufA.isFull || x.bufB.isFull) && decide (x.credit = 0)

def Context.secondTick (x : Context) : Context := if x.stallCounts then { x with stall := tickCountdown x.stall } else x

def ConditionRecord.tick (r : ConditionRecord) : ConditionRecord := { r with countdown := tickCountdown r.countdown }

/-- SECOND_TICK: idle countdowns (R36), stall countdowns (R75) and status countdowns (R127). -/
def State.secondTick (s : State) : State :=
  { s with
    slots := s.slots.mapListed (fun _ => UploadSlot.powerOn) (fun _ x => x.tick)
    se := { s.se with contexts := s.se.contexts.mapListed (fun _ => Context.free) (fun _ x => x.secondTick) }
    cm := s.cm.mapListed (fun _ => ConditionRecord.powerOn) (fun _ r => r.tick) }

def execSecondTick (s : State) : Host.Outcome State Fault Refusal := .next s.secondTick

/-! ### Minutes -/

/-- The wall clock a minute later (R167). -/
def Stamp.next (t : Stamp) : Stamp :=
  if t.minute < 1439 then ⟨t.day, t.minute + 1⟩ else ⟨if t.day < 65535 then t.day + 1 else 0, 0⟩

def JobRecord.tick (r : JobRecord) : JobRecord := { r with countdown := tickCountdown r.countdown }

/-- The park countdown of a HALTED context falls (R76). -/
def Context.minuteTick (x : Context) : Context := if x.state = .halted then { x with park := tickCountdown x.park } else x

def CalloutEntry.tick (e : CalloutEntry) : CalloutEntry := { e with countdown := tickCountdown e.countdown }

def ZoneEntry.tick (e : ZoneEntry) : ZoneEntry := { e with mute := tickCountdown e.mute }

/-- MINUTE_TICK: the wall clock (R167), hold and park countdowns of jobs (R109, R115), park countdowns of contexts (R76), grace
and escalation countdowns (R138, R142) and remaining mute minutes (R147). A day rollover becomes due for the SU (log entry 4). -/
def State.minuteTick (s : State) : State :=
  { s with
    jobs := s.jobs.mapListed (fun _ => JobRecord.powerOn) (fun _ r => r.tick)
    se := { s.se with contexts := s.se.contexts.mapListed (fun _ => Context.free) (fun _ x => x.minuteTick) }
    co := { s.co with entries := s.co.entries.mapListed (fun _ => CalloutEntry.free) (fun _ e => e.tick) }
    tables := { s.tables with zones := s.tables.zones.mapListed (fun _ => ZoneEntry.powerOn) (fun _ e => e.tick) }
    mu := { s.mu with
      clock := s.mu.clock.next
      rolloversDue := if s.mu.clock.minute < 1439 then s.mu.rolloversDue else s.mu.rolloversDue + 1 } }

def execMinuteTick (s : State) : Host.Outcome State Fault Refusal := .next s.minuteTick

/-- DAY_ROLLOVER: the SU runs the processing of a rollover that a minute tick has made (R154, R167). -/
def execDayRollover (s : State) : Host.Outcome State Fault Refusal :=
  .next
    (if s.mu.rolloversDue = 0 then s
     else { s with mu := { s.mu with rolloversDue := s.mu.rolloversDue - 1 } }.rollover)

/-! ### TIME_SET -/

/-- A day and a minute; none for a minute above 1439 or a bad length (R167). -/
def parseTime (b : List Byte) : Option Stamp :=
  if b.length = 4 ∧ be16 b 2 ≤ 1439 then some ⟨be16 b 0, be16 b 2⟩ else none

/-- The clock takes a new value; a greater day runs the rollover processing once (R167). -/
def State.setClock (s : State) (t : Stamp) : State :=
  let s1 := { s with mu := { s.mu with clock := t } }
  if s.mu.clock.day < t.day then s1.rollover else s1

def execTimeSet (s : State) : Host.Outcome State Fault Refusal :=
  .next (s.onCommand 19 parseTime fun f t u => (u.setClock t).reply f .done .none)

end Sys2Proof.Machine
end

