-- ==== Sys2Proof/Machine/Dispatch.lean ====
section
/-! DEFINITION. One arm per step of spec/opcode_table.json, each a direct call of its meaning. -/

namespace Sys2Proof.Machine

def exec (i : Instr) (s : State) : Host.Outcome State Fault Refusal :=
  match i with
  | .powerOnReset strap => Sys2Proof.Machine.execPowerOnReset strap s
  | .frameArrival p f => Sys2Proof.Machine.execFrameArrival p f s
  | .foreignFrame p => Sys2Proof.Machine.execForeignFrame p s
  | .portTransmit p => Sys2Proof.Machine.execPortTransmit p s
  | .secondTick => Sys2Proof.Machine.execSecondTick s
  | .minuteTick => Sys2Proof.Machine.execMinuteTick s
  | .dayRollover => Sys2Proof.Machine.execDayRollover s
  | .jobOpen => Sys2Proof.Machine.execJobOpen s
  | .jobData => Sys2Proof.Machine.execJobData s
  | .jobClose => Sys2Proof.Machine.execJobClose s
  | .jobCancel => Sys2Proof.Machine.execJobCancel s
  | .idleTimeout k => Sys2Proof.Machine.execIdleTimeout k s
  | .dramGrant => Sys2Proof.Machine.execDramGrant s
  | .writeCompletion => Sys2Proof.Machine.execWriteCompletion s
  | .fetchCompletion h d => Sys2Proof.Machine.execFetchCompletion h d s
  | .headerCompletion h => Sys2Proof.Machine.execHeaderCompletion h s
  | .releaseAsk => Sys2Proof.Machine.execReleaseAsk s
  | .stateChangeAtRu => Sys2Proof.Machine.execStateChangeAtRu s
  | .stateChangeAtSe => Sys2Proof.Machine.execStateChangeAtSe s
  | .streamAccept => Sys2Proof.Machine.execStreamAccept s
  | .streamReject => Sys2Proof.Machine.execStreamReject s
  | .credit => Sys2Proof.Machine.execCredit s
  | .sheetDone => Sys2Proof.Machine.execSheetDone s
  | .streamEnd => Sys2Proof.Machine.execStreamEnd s
  | .stallExpiry c => Sys2Proof.Machine.execStallExpiry c s
  | .parkTimerExpiry c => Sys2Proof.Machine.execParkTimerExpiry c s
  | .parkHoldExpiry n => Sys2Proof.Machine.execParkHoldExpiry n s
  | .holdExpiry n => Sys2Proof.Machine.execHoldExpiry n s
  | .status => Sys2Proof.Machine.execStatus s
  | .statusTimeout p => Sys2Proof.Machine.execStatusTimeout p s
  | .graceExpiry k => Sys2Proof.Machine.execGraceExpiry k s
  | .escalationExpiry k => Sys2Proof.Machine.execEscalationExpiry k s
  | .muteExpiry z => Sys2Proof.Machine.execMuteExpiry z s
  | .reportTaken => Sys2Proof.Machine.execReportTaken s
  | .unknownCommand => Sys2Proof.Machine.execUnknownCommand s
  | .tableWrite => Sys2Proof.Machine.execTableWrite s
  | .tableRead => Sys2Proof.Machine.execTableRead s
  | .accountCredit => Sys2Proof.Machine.execAccountCredit s
  | .accountDebit => Sys2Proof.Machine.execAccountDebit s
  | .recallJob => Sys2Proof.Machine.execRecallJob s
  | .conditionRead => Sys2Proof.Machine.execConditionRead s
  | .calloutAck => Sys2Proof.Machine.execCalloutAck s
  | .calloutClose => Sys2Proof.Machine.execCalloutClose s
  | .calloutRead => Sys2Proof.Machine.execCalloutRead s
  | .zoneMute => Sys2Proof.Machine.execZoneMute s
  | .zoneUnmute => Sys2Proof.Machine.execZoneUnmute s
  | .orderAck => Sys2Proof.Machine.execOrderAck s
  | .slotFitted => Sys2Proof.Machine.execSlotFitted s
  | .slotRead => Sys2Proof.Machine.execSlotRead s
  | .consoleSet => Sys2Proof.Machine.execConsoleSet s
  | .serviceOn => Sys2Proof.Machine.execServiceOn s
  | .intakeClose => Sys2Proof.Machine.execIntakeClose s
  | .serviceOff => Sys2Proof.Machine.execServiceOff s
  | .timeSet => Sys2Proof.Machine.execTimeSet s
  | .checkLevel => Sys2Proof.Machine.execCheckLevel s
  | .checkRead => Sys2Proof.Machine.execCheckRead s
  | .checkClear => Sys2Proof.Machine.execCheckClear s
  | .jobRead => Sys2Proof.Machine.execJobRead s
  | .partRead => Sys2Proof.Machine.execPartRead s
  | .printerReset => Sys2Proof.Machine.execPrinterReset s
  | .restart => Sys2Proof.Machine.execRestart s
  | .frameDiscardedAtFc p => Sys2Proof.Machine.execFrameDiscardedAtFc p s

end Sys2Proof.Machine
end

