-- ==== Sys2Proof/Safety.lean ====
section
/-! DEFINITION. What claims are stated in: runs, a safe run, the standing rules that every step keeps, and the shapes of the
events that statements suppose (a command at the head of the receive buffer, a frame from a printer, a bound stream). -/

namespace Sys2Proof.Machine

/-! ### Runs -/

/-- The states that steps reach from `s`. -/
inductive Reaches (s : State) : State → Prop where
  | here : Reaches s s
  | step {t u : State} : Reaches s t → Sys2Proof.Machine.step t = .next u → Reaches s u

/-- A step answers a next state. -/
def Completes (s : State) : Prop := ∃ t, Sys2Proof.Machine.step s = .next t

/-- A run from `s` is safe when no step of it stops in a fault or a refusal. -/
def SafeRun (s : State) : Prop := ∀ t, Reaches s t → Completes t

/-! ### The standing rules -/

/-- Room in the buffers and queues that the manual bounds: receive buffers 16, pass-through buffers 8 (R171), the report queue 64
(R168), the owed RESOLVED list 48 (R146), the release queue 16 (R55). -/
structure State.WithinRoom (s : State) : Prop where
  upReceive  : s.up.rx.length ≤ 16
  fpReceive  : s.fp.rx.length ≤ 16
  upPass     : s.up.pass.length ≤ 8
  fpPass     : s.fp.pass.length ≤ 8
  reports    : s.mu.reports.length ≤ 64
  owed       : s.co.owedResolved.length ≤ 48
  queue      : s.ru.queue.length ≤ 16

/-- The wall clock reads a day 0 to 65535 and a minute 0 to 1439 (R167). -/
def State.ClockLegal (s : State) : Prop := s.mu.clock.day ≤ 65535 ∧ s.mu.clock.minute ≤ 1439

/-- The balance of an account less its reserved amount is at or above minus its overdraft limit, and the balance is at most
999,999.99 (R94). -/
def AccountEntry.Covered (a : AccountEntry) : Prop := -a.overdraft ≤ a.balance - a.reserved ∧ a.balance ≤ maxAmount

/-- Every account is covered (R94). -/
def State.AccountsCovered (s : State) : Prop := ∀ i, (s.account i).Covered

/-- The counts that stop at a limit are within it: the checks at 255 (R169), dropped notices and audits at 65535 (R146, R168),
a context's credit at 8 (R63), a job's tallies at 9,999,999 (R28). -/
structure State.CountsBounded (s : State) : Prop where
  checks  : s.mu.corrected.count ≤ 255 ∧ s.mu.uncorrectable.count ≤ 255 ∧ s.mu.overrun.count ≤ 255
  dropped : s.mu.droppedAudits ≤ 65535 ∧ s.co.dropped ≤ 65535
  credit  : ∀ c, (s.context c).credit ≤ 8
  tallies : ∀ j, (s.job j).tallies.fm ≤ maxTally ∧ (s.job j).tallies.fc ≤ maxTally ∧ (s.job j).tallies.d ≤ maxTally ∧
    (s.job j).tallies.l ≤ maxTally

/-- The hold store is in canonical form: slots strictly rising, none listed that reads as never written. -/
def State.StoreCanonical (s : State) : Prop := s.hsc.store.wf (fun _ => none) = true

/-- Every other table is in canonical form. -/
structure State.TablesCanonical (s : State) : Prop where
  printers    : s.tables.printers.wf (fun _ => PrinterEntry.powerOn) = true
  zones       : s.tables.zones.wf (fun _ => ZoneEntry.powerOn) = true
  users       : s.tables.users.wf (fun _ => UserEntry.powerOn) = true
  accounts    : s.tables.accounts.wf (fun _ => AccountEntry.powerOn) = true
  plans       : s.tables.plans.wf (fun _ => RatePlan.powerOn) = true
  conditions  : s.tables.conditions.wf ConditionEntry.powerOn = true
  supplies    : s.tables.supplies.wf (fun _ => SupplyEntry.powerOn) = true
  slots       : s.slots.wf (fun _ => UploadSlot.powerOn) = true
  links       : s.hsc.links.wf linkPowerOn = true
  jobs        : s.jobs.wf (fun _ => JobRecord.powerOn) = true
  contexts    : s.se.contexts.wf (fun _ => Context.free) = true
  cm          : s.cm.wf (fun _ => ConditionRecord.powerOn) = true
  callouts    : s.co.entries.wf (fun _ => CalloutEntry.free) = true
  slotRecords : s.slotRecords.wf (fun _ => slotRecordsPowerOn) = true
  consoles    : s.mu.consoles.wf (fun _ => none) = true
  resetWaits  : s.mu.resetWaits.wf (fun _ => none) = true

/-- No RELEASE-ASK is half taken: the arbiter does not wait (R41, R44). -/
def State.NoAskInProgress (s : State) : Prop := s.ru.hold = .off

/-- The standing rules of the manual that every step keeps. -/
structure State.Standing (s : State) : Prop where
  room     : s.WithinRoom
  clock    : s.ClockLegal
  accounts : s.AccountsCovered
  counts   : s.CountsBounded
  store    : s.StoreCanonical
  hold     : s.NoAskInProgress

/-! ### The standing equations -/

/-- The sum of a number over the job records. -/
def State.jobSum (s : State) (f : JobRecord → Nat) : Nat := (s.jobs.cells.map (fun c => f c.2)).sum

/-- The number of job records with a property. -/
def State.jobCount (s : State) (p : JobRecord → Bool) : Nat := s.jobs.cells.countP (fun c => p c.2)

/-- The records of the job table: a FREE one has its power-on value, and no two live ones hold one number (R28, R29). -/
structure State.RecordsLegal (s : State) : Prop where
  free    : ∀ j, (s.job j).state = .free → s.job j = JobRecord.powerOn
  numbers : ∀ i j, (s.job i).state ≠ .free → (s.job j).state ≠ .free → (s.job i).number = (s.job j).number → i = j

/-- Every extent is in the free pool or in the chain of a job: the pool length and the extent counts together are 4096, and a job
with no chain counts no extent (R21, R172). -/
structure State.ExtentsCounted (s : State) : Prop where
  total  : s.hsc.poolLength + s.jobSum (fun r => r.extents) = 4096
  chains : ∀ j, (s.job j).chainHead.isSome = (s.job j).chainTail.isSome ∧ ((s.job j).chainHead = none → (s.job j).extents = 0)

/-- A user's live job count is the number of live records that name the user, at most 16 (R10). -/
def State.LiveJobsCounted (s : State) : Prop :=
  ∀ u, (s.user u).liveJobs = s.jobCount (fun r => decide (r.state ≠ .free) && decide (r.user = u)) ∧ (s.user u).liveJobs ≤ 16

/-- A job in this state holds a reservation (R93). -/
def JobState.reserves : JobState → Bool
  | .queued => true
  | .seeking => true
  | .opening => true
  | .printing => true
  | .parked => true
  | .free => false
  | .receiving => false
  | .sealing => false
  | .held => false

/-- A job holds a reservation exactly in QUEUED, SEEKING, OPENING, PRINTING and PARKED; every account's reserved amount is the sum of
its jobs' reservations, and its live reservation count their number (R93). -/
structure State.ReservationsCounted (s : State) : Prop where
  held     : ∀ j, (s.job j).reservation.isSome = (s.job j).state.reserves
  reserved : ∀ i, (s.account i).reserved = (s.jobSum (fun r => if r.account = i then r.reservation.getD 0 else 0) : Nat)
  count    : ∀ i, (s.account i).liveReservations = s.jobCount (fun r => decide (r.account = i) && r.reservation.isSome)

/-- The job state that goes with a bound context (R64); FREE for a context without a job. -/
def Context.jobState (x : Context) : JobState :=
  match x.state, x.step, x.mode with
  | .opening, some .seek, _ => .seeking
  | .opening, some .wait, some (.restartAt _) => .seeking
  | .opening, _, _ => .opening
  | .running, _, _ => .printing
  | .halted, _, _ => .printing
  | .free, _, _ => .free
  | .saved, _, _ => .free

/-- A job in this state is bound to a context (R64). -/
def JobState.streams : JobState → Bool
  | .seeking => true
  | .opening => true
  | .printing => true
  | .free => false
  | .receiving => false
  | .sealing => false
  | .held => false
  | .queued => false
  | .parked => false

/-- Contexts and jobs agree (R28, R59, R63, R64): a bound context is owned by its job's bound printer and goes with its job's state;
a job is bound exactly in SEEKING, OPENING and PRINTING; a printer owns at most one context; a FREE context has its FREE values; and the
saved list names the SAVED contexts, each once. -/
structure State.ContextsAgree (s : State) : Prop where
  free     : ∀ c, (s.context c).state = .free → s.context c = Context.free
  owned    : ∀ c, (s.context c).state ≠ .free → (s.context c).owner.isSome = true
  unbound  : ∀ c, (s.context c).job = none ↔ (s.context c).state = .free ∨ (s.context c).state = .saved
  bound    : ∀ c n, (s.context c).job = some n → ∃ j, (s.job j).number = n ∧ (s.job j).state = (s.context c).jobState ∧
    (s.job j).boundContext = some c ∧ (s.job j).boundPrinter = (s.context c).owner
  streams  : ∀ j, (s.job j).state.streams = true → ∃ c, (s.context c).job = some (s.job j).number
  others   : ∀ j, (s.job j).state.streams = false → (s.job j).boundContext = none ∧ (s.job j).boundPrinter = none
  owners   : ∀ c d, (s.context c).owner.isSome = true → (s.context c).owner = (s.context d).owner → c = d
  saved    : ∀ c, c ∈ s.ru.saved ↔ (s.context c).state = .saved
  savedOnce : s.ru.saved.Nodup

/-- The job state that goes with an upload slot (R30, R35, R38). -/
def UploadState.holds : UploadState → JobState → Bool
  | .opened, .receiving => true
  | .sealing, .sealing => true
  | .ending, .receiving => true
  | .ending, .sealing => true
  | _, _ => false

/-- Every upload slot in use names a job that is being uploaded, and no other slot names it (R30). -/
structure State.UploadsAgree (s : State) : Prop where
  named : ∀ i, (s.slot i).state ≠ .free →
    ∃ j, (s.job j).number = (s.slot i).job ∧ (s.slot i).state.holds (s.job j).state = true
  apart : ∀ i k, (s.slot i).state ≠ .free → (s.slot k).state ≠ .free → (s.slot i).job = (s.slot k).job → i = k

/-- The release queue holds one entry for each QUEUED job, and no other (R55). -/
structure State.QueueAgrees (s : State) : Prop where
  queued : ∀ e ∈ s.ru.queue, ∃ j, (s.job j).number = e.job ∧ (s.job j).state = .queued
  apart  : (s.ru.queue.map (fun e => e.job)).Nodup
  listed : ∀ j, (s.job j).state = .queued → ∃ e ∈ s.ru.queue, e.job = (s.job j).number

/-- The reads asked for and not completed: the one in flight, unless its completion is to be ignored, and the queued ones. -/
def State.readsAsked (s : State) : List ReadEntry :=
  (match s.hsc.op with
   | some ⟨.read e, false⟩ => [e]
   | _ => []) ++ s.hsc.reads

/-- Reads and contexts agree (R69, R77, R111): a HEADER is asked for a context at step SEEK, one at a time, a FETCH for a RUNNING or
HALTED one, and none is queued for a context whose end is pending. -/
structure State.ReadsAgree (s : State) : Prop where
  headers : ∀ e ∈ s.readsAsked, e.kind = .header →
    (s.context e.context).state = .opening ∧ (s.context e.context).step = some .seek
  fetches : ∀ e ∈ s.readsAsked, e.kind = .fetch →
    (s.context e.context).state = .running ∨ (s.context e.context).state = .halted
  single  : ∀ c, s.readsAsked.countP (fun e => decide (e.context = c) && decide (e.kind = .header)) ≤ 1
  pending : ∀ e ∈ s.hsc.reads, (s.context e.context).pendingEnd = none

/-- What the manual says stands at all times between the job table and the other records. -/
structure State.Coherent (s : State) : Prop where
  tables       : s.TablesCanonical
  records      : s.RecordsLegal
  extents      : s.ExtentsCounted
  liveJobs     : s.LiveJobsCounted
  reservations : s.ReservationsCounted
  contexts     : s.ContextsAgree
  uploads      : s.UploadsAgree
  queue        : s.QueueAgrees
  reads        : s.ReadsAgree

/-! ### Events at hand -/

/-- A command of kind `kind` from a station that the MU accepts stands at the head of the upstream receive buffer (R165). -/
def Commanded (s : State) (kind : Byte) (f : CommandFrame) : Prop := s.headCommand kind = some f ∧ s.accepts f.src = true

/-- A frame of kind `k` from the DEFINED printer `p`, with payload `b`, stands at the head of the fleet receive buffer (R41). -/
def FromPrinter (s : State) (k : FrameKind) (p : Fin 64) (b : List Byte) : Prop :=
  k.port = .fp ∧ ∃ f, s.headFrame k = some f ∧ f.payload = b ∧ s.printerOf f.src = some p

/-- The state after a frame is sent upstream (R171). Nothing else changes. -/
def State.sentUp (s : State) (a : Station) (f : OutFrame) : State :=
  { s with up := { s.up with tx := s.up.tx ++ [⟨s.age, a, f⟩] }, age := s.age + 1 }

/-- The state after a frame is sent to the station of printer `p` (R171). Nothing else changes. -/
def State.sentTo (s : State) (p : Fin 64) (f : OutFrame) : State :=
  { s with fp := { s.fp with tx := s.fp.tx ++ [⟨s.age, (s.printer p).station, f⟩] }, age := s.age + 1 }

/-- The state after the frame at the head of the fleet receive buffer is taken. -/
def State.tookFp (s : State) : State := { s with fp := { s.fp with rx := s.fp.rx.tail } }

/-- The state after the frame at the head of the upstream receive buffer is taken. -/
def State.tookUp (s : State) : State := { s with up := { s.up with rx := s.up.rx.tail } }

/-- The state after one REPLY to the source of command `f`, with its tag and kind (R165). Nothing else changes. -/
def State.replied (s : State) (f : CommandFrame) (c : Code) (x : Contents) : State :=
  s.sentUp f.src (.reply f.tag f.kind c x)

/-- A stream of job `r`, held in record `j`, is bound at context `c` for printer `p`. -/
structure BoundStream (s : State) (c : Fin 8) (p : Fin 64) (j : Fin 512) (r : JobRecord) : Prop where
  binds : s.boundTo p r.number = some c
  owner : (s.context c).owner = some p
  job   : (s.context c).job = some r.number
  found : s.findJob r.number = some (j, r)
  held  : s.job j = r

end Sys2Proof.Machine
end

