-- ==== Sys2Proof/Certificates/Slice0/Obligations.lean ====
section
/-! DEFINITION. The statements about the model, for the provers. Each names in its docstring the rules of spec/ it rests on. A
result is written as the whole next state wherever that is short, so that it is the frame too: what it does not name is as it
was. -/

section

open Sys2Proof Sys2Proof.Machine

/-! ### The interface -/

/-- A step takes the command at the front of the queue: it is `exec` of that command on the state with the queue's rest. -/
def Obligations.StepTakesFront : Prop :=
  ∀ (c : Instr) (s : State) (rest : List Instr),
    step { s with pending := c :: rest } = exec c { s with pending := rest }

/-- Every command completes from every state and leaves the queue of waiting commands as it was; so every run is safe. -/
def Obligations.EveryCommandCompletes : Prop :=
  (∀ (c : Instr) (s : State), ∃ t, exec c s = .next t ∧ t.pending = s.pending) ∧ ∀ s : State, SafeRun s

/-! ### Standing rules -/

/-- Every step keeps the standing rules: the capacities of R55, R146, R168 and R171, a legal clock (R167), every account
covered (R94), the counts within their limits (R28, R63, R146, R168, R169), and the hold store in its canonical form (the
model's own form of R20). The standing equations between the tables are StepKeepsCoherence. -/
def Obligations.StepKeepsStandingRules : Prop := ∀ s t : State, s.Standing → step s = .next t → t.Standing

/-- After reset the standing rules hold, every table is in its canonical form, and the records agree. -/
def Obligations.ResetHasStandingRules : Prop := State.reset.Standing ∧ State.reset.Coherent

/-- Every step keeps every sparse table in its canonical form (the model's own form of the tables of chapters 1 to 11). -/
def Obligations.StepKeepsTablesCanonical : Prop := ∀ s t : State, s.TablesCanonical → step s = .next t → t.TablesCanonical

/-- Every step keeps what the manual says stands at all times between the job table and the other records (`State.Coherent`): pool length
and extent counts together are 4096 (R21); each user's live job count is the number of the user's live records (R10); each account's
reserved amount and live reservation count are those of its jobs' reservations (R93); contexts, their owners and their jobs agree as the
table of R64 gives; and with these what they rest on: numbers of live jobs are distinct, the saved list names the SAVED contexts, upload
slots and the release queue name the jobs in the states they hold, reads are asked for where R69 and R111 say. That a FREE job record has
every field at its power-on value is R28, the values of fields it does not name log entry 11. -/
def Obligations.StepKeepsCoherence : Prop := ∀ s t : State, s.Coherent → step s = .next t → t.Coherent

/-! ### Power-on, ports and reports -/

/-- POWER_ON_RESET gives the management side the values of R175, the free pool those of R21, every record its FREE or EMPTY
value, and the station address the STRAP pins (R177). -/
def Obligations.PowerOnGivesPowerOnValues : Prop :=
  ∀ (strap : BitVec 8) (s : State), ∃ t, exec (.powerOnReset strap) s = .next t ∧
    (∀ i, t.console i = none) ∧ t.reportStation = none ∧ t.mu.service = .idle ∧ t.mu.clock = ⟨0, 0⟩ ∧ t.mu.reports = [] ∧
    t.mu.droppedAudits = 0 ∧ t.checkReading = ⟨⟨0, none, none⟩, ⟨0, none, none⟩, ⟨0, none, none⟩, none⟩ ∧
    t.mu.checkLevel = 3 ∧ t.up = ⟨[], [], []⟩ ∧ t.fp = ⟨[], [], []⟩ ∧ (∀ a, t.accepts a = true) ∧
    t.hsc.poolHead = some 0 ∧ t.hsc.poolTail = some 4095 ∧ t.hsc.poolLength = 4096 ∧
    (∀ e : Fin 4096, t.link e = if h : e.val + 1 < 4096 then some ⟨e.val + 1, h⟩ else none) ∧
    t.hsc.writes = [] ∧ t.hsc.reads = [] ∧ t.hsc.op = none ∧ t.hsc.lastServed = .reads ∧ t.lastNumber = 0 ∧
    (∀ j, (t.job j).state = .free) ∧ (∀ i, (t.slot i).state = .free) ∧ (∀ c, t.context c = Context.free) ∧
    t.ru.queue = [] ∧ t.ru.saved = [] ∧ (∀ i, (t.callout i).state = .free) ∧ t.co.owedResolved = [] ∧ t.co.dropped = 0 ∧
    (∀ p, (t.printer p).state = .empty ∧ t.cond p = ⟨[], none, ⟨false, false, false, false⟩, none, none, []⟩) ∧
    (∀ z, t.zone z = ⟨1440, 5, 240, 120, none⟩) ∧ (∀ u, t.user u = ⟨.empty, 0, 0, 0, false, false, false, 0⟩) ∧
    (∀ a, t.account a = ⟨.closed, 0, 0, 0, 0, 0, 0, 0⟩) ∧ (∀ i, t.plan i = ⟨0, 0, 0, 0, 0, 0⟩) ∧
    (∀ i, t.condition i =
      if i = 255 then ⟨.fault, .block, ⟨false, false, false, false⟩, 10, 60, .service⟩
      else ⟨.ignore, .none, ⟨false, false, false, false⟩, 0, 0, .service⟩) ∧
    (∀ i, t.supply i = ⟨.empty, .k, 1000, 1, 0, 0, 0⟩) ∧ (∀ p q, t.slotRecord p q = SlotRecord.resetTo 0) ∧
    t.partStation = (0x024A483624 : BitVec 40) ++ strap ∧ t.pending = s.pending ∧ t.between = s.between

/-- FRAME_ARRIVAL: a frame joins the tail of a receive buffer that holds fewer than 16 frames; into a full one it is discarded,
and the PORT-OVERRUN check of the port is counted, saturating at 255, and reported at check level 2 or 3 (R169, R171). -/
def Obligations.ArrivalQueuesOrOverruns : Prop :=
  ∀ (p : Port) (f : EthFrame) (s : State),
    ((s.port p).rx.length < 16 →
      exec (.frameArrival p f) s = .next (s.setPort p { s.port p with rx := (s.port p).rx ++ [f] })) ∧
    (16 ≤ (s.port p).rx.length →
      let worst := if s.mu.worst = some .uncorrectable then some .uncorrectable else some .overrun
      exec (.frameArrival p f) s = .next
        { s with mu := { s.mu with
          overrun :=
            { count := min (s.mu.overrun.count + 1) 255
              first := if s.mu.overrun.count = 0 then some (.port p, s.mu.clock) else s.mu.overrun.first
              last := some s.mu.clock }
          worst := worst
          reports :=
            if 2 ≤ s.mu.checkLevel.val ∧ s.mu.reports.length < 64 then
              s.mu.reports ++ [⟨s.mu.clock, .check ⟨.overrun, .port p, min (s.mu.overrun.count + 1) 255, worst⟩⟩]
            else s.mu.reports } })

/-- FOREIGN_FRAME and FRAME_DISCARDED_AT_FC: the FC takes the head of a receive buffer; a foreign frame joins the pass-through
buffer toward the other port unless 8 stand there, and a frame that fails a test of R177 is gone without an answer
(R171, R177). -/
def Obligations.ClassifierTakesFrames : Prop :=
  ∀ (p : Port) (s : State) (f : EthFrame) (rest : List EthFrame), (s.port p).rx = f :: rest →
    (f.etherType ≠ 0x88B5 → (s.port (otherPort p)).pass.length < 8 →
      exec (.foreignFrame p) s = .next
        { (s.setPort p { s.port p with rx := rest }).setPort (otherPort p)
            { s.port (otherPort p) with pass := (s.port (otherPort p)).pass ++ [⟨s.age, f⟩] } with age := s.age + 1 }) ∧
    (f.etherType ≠ 0x88B5 → 8 ≤ (s.port (otherPort p)).pass.length →
      exec (.foreignFrame p) s = .next (s.setPort p { s.port p with rx := rest })) ∧
    (f.etherType = 0x88B5 →
      (f.body.length < 6 ∨ byteAt f.body 0 ≠ 1 ∨ f.body.length < be16 f.body 2 + 6 ∨ (p = .fp ∧ s.printerOf f.src = none) ∨
        frameKindOf (byteAt f.body 1) = none) →
      exec (.frameDiscardedAtFc p) s = .next (s.setPort p { s.port p with rx := rest }))

/-- PORT_TRANSMIT: of the two head frames the older leaves, the only one where one buffer is empty, and none where both are; a frame of
the part carries its station address as source, a foreign frame leaves as it came (R171, R177). Between equal age stamps, which no run
has, the foreign frame goes first: the model's choice, log entry 9. -/
def Obligations.TransmitterSendsOldest : Prop :=
  ∀ (p : Port) (s : State),
    (∀ (x : TxFrame) (xs : List TxFrame) (y : PassFrame) (ys : List PassFrame), (s.port p).tx = x :: xs → (s.port p).pass = y :: ys →
      (x.age < y.age →
        exec (.portTransmit p) s = .next
          { s.setPort p { s.port p with tx := xs } with
            sent := s.sent ++ [(p, ⟨x.dst, s.partStation, 0x88B5, x.frame.body⟩)] }) ∧
      (y.age ≤ x.age →
        exec (.portTransmit p) s = .next
          { s.setPort p { s.port p with pass := ys } with sent := s.sent ++ [(p, y.frame)] })) ∧
    (∀ (x : TxFrame) (xs : List TxFrame), (s.port p).tx = x :: xs → (s.port p).pass = [] →
      exec (.portTransmit p) s = .next
        { s.setPort p { s.port p with tx := xs } with
          sent := s.sent ++ [(p, ⟨x.dst, s.partStation, 0x88B5, x.frame.body⟩)] }) ∧
    (∀ (y : PassFrame) (ys : List PassFrame), (s.port p).tx = [] → (s.port p).pass = y :: ys →
      exec (.portTransmit p) s = .next
        { s.setPort p { s.port p with pass := ys } with sent := s.sent ++ [(p, y.frame)] }) ∧
    ((s.port p).tx = [] → (s.port p).pass = [] → exec (.portTransmit p) s = .next s)

/-- REPORT_TAKEN: with a report station set and an empty transmit queue, the head report leaves the queue for that station (R168);
without a report station, with a frame in the transmit queue, or with no report, nothing is taken. The freed place serves one owed
notice (R148, R160): here of a queue that was full, so that one place is free. First the callouts that wait in OPEN zones, by printer
slot and condition order; then the owed RESOLVED notices, by printer slot and then as made; then the SU's, by printer slot and slot, a
record's FITTED before its REORDER. With none owed the place stays free. -/
def Obligations.ReportLeavesForStation : Prop :=
  (∀ s : State, (s.reportStation = none ∨ s.up.tx ≠ [] ∨ s.mu.reports = []) → exec .reportTaken s = .next s) ∧
  ∀ (s : State) (a : Station) (r : Report) (rest : List Report), s.mu.reports = r :: rest → s.reportStation = some a →
    s.up.tx = [] →
    let muted (k : Fin 48) : Prop := (s.zone (s.printer (s.callout k).printer).zone).mute.isSome = true
    let quiet : Prop := ∀ k, (s.callout k).waits = true → muted k
    let owes (p : Fin 64) (q : Consumable) : Prop :=
      (s.slotRecord p q).owedFitted.isSome = true ∨ (s.slotRecord p q).owedReorder = true
    let left (l : List Report) : State := ({ s with mu := { s.mu with reports := l } }).sentUp a (.report r)
    (quiet → s.co.owedResolved = [] → (∀ p q, ¬owes p q) → exec .reportTaken s = .next (left rest)) ∧
    (rest.length = 63 →
      (∀ k, (s.callout k).waits = true → ¬muted k →
        (∀ m, m ≠ k → (s.callout m).waits = true → ¬muted m → s.calloutBefore k m = true) →
        let e := s.callout k
        exec .reportTaken s = .next
          ((left (rest ++ [⟨s.mu.clock, .callout (s.calloutNotice e)⟩])).setCallout k
            { e with
              state := if e.state = .owed then .sent else e.state
              parkedJobs := s.parkedInZone (s.printer e.printer).zone
              escalationOwed := false
              countdown :=
                if e.level < 3 ∧ (s.condition e.code).escalation ≠ 0 then some ⟨(s.condition e.code).escalation, false⟩
                else none })) ∧
      (∀ (n : ResolvedNotice) (before after : List ResolvedNotice), quiet → s.co.owedResolved = before ++ n :: after →
        (∀ m ∈ before, n.printer < m.printer) → (∀ m ∈ after, n.printer ≤ m.printer) →
        exec .reportTaken s = .next
          { left (rest ++ [⟨s.mu.clock, .resolved n⟩]) with co := { s.co with owedResolved := before ++ after } }) ∧
      (∀ (p : Fin 64) (q : Consumable), quiet → s.co.owedResolved = [] →
        (∀ p' q', p' < p ∨ (p' = p ∧ q'.number < q.number) → ¬owes p' q') →
        (∀ f, (s.slotRecord p q).owedFitted = some f →
          exec .reportTaken s = .next
            ((left (rest ++ [⟨s.mu.clock, .fitted (s.fittedNotice p q f)⟩])).setSlotRecord p q
              { s.slotRecord p q with owedFitted := none })) ∧
        ((s.slotRecord p q).owedFitted = none → (s.slotRecord p q).owedReorder = true →
          exec .reportTaken s = .next
            ((left (rest ++ [⟨s.mu.clock, .reorder (s.reorderNotice p q)⟩])).setSlotRecord p q
              { s.slotRecord p q with owedReorder := false }))))

/-! ### The time base -/

/-- SECOND_TICK lowers every running idle, stall and status countdown by one, marks as due those that reach 0, and changes nothing
else (R36, R75, R127; the mark is log entry 3). -/
def Obligations.SecondTickLowersCountdowns : Prop :=
  ∀ s : State, s.TablesCanonical → ∃ t, exec .secondTick s = .next t ∧
    (∀ i, t.slot i = { s.slot i with idle := (s.slot i).idle.map (fun k => ⟨k.left - 1, decide (k.left ≤ 1)⟩) }) ∧
    (∀ c, t.context c =
      if (s.context c).state = .running ∧ ((s.context c).bufA.isFull ∨ (s.context c).bufB.isFull) ∧ (s.context c).credit = 0 then
        { s.context c with stall := (s.context c).stall.map (fun k => ⟨k.left - 1, decide (k.left ≤ 1)⟩) }
      else s.context c) ∧
    (∀ p, t.cond p = { s.cond p with countdown := (s.cond p).countdown.map (fun k => ⟨k.left - 1, decide (k.left ≤ 1)⟩) }) ∧
    t.se.notices = s.se.notices ∧ { t with slots := s.slots, se := s.se, cm := s.cm } = s

/-- MINUTE_TICK advances the wall clock, a day rollover from minute 1439 becoming due, and lowers the countdowns held in minutes;
nothing else changes (R76, R109, R115, R138, R142, R147, R167; the due rollover is log entry 4). -/
def Obligations.MinuteTickAdvances : Prop :=
  ∀ s : State, s.TablesCanonical → ∃ t, exec .minuteTick s = .next t ∧
    (s.mu.clock.minute < 1439 →
      t.mu = { s.mu with clock := ⟨s.mu.clock.day, s.mu.clock.minute + 1⟩ }) ∧
    (s.mu.clock.minute = 1439 →
      t.mu = { s.mu with
        clock := ⟨if s.mu.clock.day < 65535 then s.mu.clock.day + 1 else 0, 0⟩, rolloversDue := s.mu.rolloversDue + 1 }) ∧
    (∀ j, t.job j = { s.job j with countdown := (s.job j).countdown.map (fun k => ⟨k.left - 1, decide (k.left ≤ 1)⟩) }) ∧
    (∀ c, t.context c =
      if (s.context c).state = .halted then
        { s.context c with park := (s.context c).park.map (fun k => ⟨k.left - 1, decide (k.left ≤ 1)⟩) }
      else s.context c) ∧
    (∀ i, t.callout i = { s.callout i with countdown := (s.callout i).countdown.map (fun k => ⟨k.left - 1, decide (k.left ≤ 1)⟩) }) ∧
    (∀ z, t.zone z = { s.zone z with mute := (s.zone z).mute.map (fun k => ⟨k.left - 1, decide (k.left ≤ 1)⟩) }) ∧
    t.se.notices = s.se.notices ∧ { t.co with entries := s.co.entries } = s.co ∧
    { t.tables with zones := s.tables.zones } = s.tables ∧
    { t with jobs := s.jobs, se := s.se, co := s.co, tables := s.tables, mu := s.mu } = s

/-- DAY_ROLLOVER: every live slot record of every printer takes its new daily average and starts the day at 0; one that is QUIET and
whose days-left is at or below its type's lead days becomes DUE with trigger DAYS_LEFT, and its REORDER notice is enqueued, by printer
slot and then K to FUSER, or owed once 64 reports stand in the queue; a record that is not live stays as it is (R154, R159). -/
def Obligations.RolloverAveragesUsage : Prop :=
  ∀ s : State, 1 ≤ s.mu.rolloversDue → ∃ t, exec .dayRollover s = .next t ∧
    let average (r : SlotRecord) : Nat := if r.seeded then (7 * r.average + r.today) / 8 else r.today
    let left (r : SlotRecord) : Nat := if average r = 0 then 999 else min 999 (r.remaining / average r)
    let due (p : Fin 64) (q : Consumable) : Bool :=
      s.slotLive p q && decide ((s.slotRecord p q).reorder = .quiet) &&
        decide (left (s.slotRecord p q) ≤ (s.supply (s.slotRecord p q).supply).leadDays)
    let all : List (Fin 64 × Consumable) :=
      (List.finRange 64).flatMap (fun p => ([.k, .c, .m, .y, .drum, .fuser].filter (due p)).map (fun q => (p, q)))
    let room := 64 - s.mu.reports.length
    t.mu.rolloversDue = s.mu.rolloversDue - 1 ∧ { t with mu := s.mu, slotRecords := s.slotRecords } = s ∧
    { t.mu with rolloversDue := s.mu.rolloversDue, reports := s.mu.reports } = s.mu ∧
    t.mu.reports = s.mu.reports ++
      (all.take room).map (fun x => (⟨s.mu.clock, .reorder (t.reorderNotice x.1 x.2)⟩ : Report)) ∧
    (∀ p q, s.slotLive p q = false → t.slotRecord p q = s.slotRecord p q) ∧
    (∀ p q, s.slotLive p q = true →
      t.slotRecord p q = { s.slotRecord p q with
        average := average (s.slotRecord p q), seeded := true, today := 0
        reorder := if due p q then .due else (s.slotRecord p q).reorder
        trigger := if due p q then some .daysLeft else (s.slotRecord p q).trigger
        owedReorder := (s.slotRecord p q).owedReorder || decide ((p, q) ∈ all.drop room) })

/-! ### Intake -/

/-- A COMMAND that a station sends is delivered to the MU with its tag, its kind and its body, padding dropped (R165, R176, R177,
R182, R183). UNKNOWN_COMMAND: a COMMAND of a kind outside 1 to 26 is answered RANGE, and from a station that is not listed
REFUSED_STATION (tested first: log entry 18), with its tag and kind (R165, R182). -/
def Obligations.CommandIsDelivered : Prop :=
  (∀ (s : State) (dst src : Station) (tag : Tag) (kind : Byte) (body : List Byte) (pad : Nat) (rest : List EthFrame),
    body.length ≤ 1400 →
    s.up.rx =
      ⟨dst, src, 0x88B5,
        [1, 0x10] ++ u16 (3 + body.length) ++ [0, 0] ++ u16 tag.toNat ++ [kind] ++ body ++ List.replicate pad 0⟩ :: rest →
    s.headCommand kind = some ⟨src, tag, kind, body⟩) ∧
  ∀ (s : State) (g : InFrame) (f : CommandFrame), s.headFrame .command = some g → parseCommand g = some f →
    (f.kind = 0 ∨ 26 < f.kind.toNat) →
    (s.accepts f.src = true → exec .unknownCommand s = .next (s.tookUp.replied f .range .none)) ∧
    (s.accepts f.src = false → exec .unknownCommand s = .next (s.tookUp.replied f .refusedStation .none))

/-- JOB_OPEN: a JOB-OPEN that passes the seven tests of R31 creates the record and the slot with the lowest FREE numbers and is
answered with JOB-RECEIPT (open); the first failed test, in the order of R31, is answered with its code and creates nothing (R28, R31).
The number given lies in 1 to 65535 and no live record holds it (R29). -/
def Obligations.JobOpenCreatesJob : Prop :=
  (∀ s : State, s.jobs.wf (fun _ => JobRecord.powerOn) = true →
    1 ≤ s.nextNumber ∧ s.nextNumber ≤ 65535 ∧ s.findJob s.nextNumber = none) ∧
  ∀ (s : State) (fr : InFrame) (f : JobOpenFrame), s.headFrame .jobOpen = some fr → parseJobOpen fr.payload = some f →
    let refused (c : Code) : Prop := exec .jobOpen s = .next (s.tookUp.sentUp fr.src (.refusedOpen f.tag c))
    (s.mu.service ≠ .serving → refused .notServing) ∧
    (s.mu.service = .serving → s.findUser f.badge = none → refused .unknownUser) ∧
    (∀ (u : Fin 8192) (e : UserEntry), s.mu.service = .serving → s.findUser f.badge = some (u, e) → s.user u = e →
      ((s.account e.account).state = .closed → refused .noAccount) ∧
      ((s.account e.account).state ≠ .closed → 16 ≤ e.liveJobs → refused .userLimit) ∧
      ((s.account e.account).state ≠ .closed → e.liveJobs < 16 → (∀ j, (s.job j).state ≠ .free) → refused .tableFull) ∧
      (∀ j : Fin 512, (s.account e.account).state ≠ .closed → e.liveJobs < 16 → s.freeJobIndex = some j →
        ((∀ i, (s.slot i).state ≠ .free) → refused .intakeBusy) ∧
        (∀ i : Fin 16, s.freeSlotIndex = some i →
          ((f.pages = 0 ∨ 9999 < f.pages ∨ f.copies = 0 ∨ 99 < f.copies ∨ (16 ≤ f.zone ∧ f.zone ≠ 255) ∨ f.ticket = none) →
            refused .ticket) ∧
          (∀ (z : Fin 16) (ticket : List OptionEntry), 1 ≤ f.pages → f.pages ≤ 9999 → 1 ≤ f.copies → f.copies ≤ 99 →
            (f.zone = z.val ∨ (f.zone = 255 ∧ z = e.homeZone)) → f.ticket = some ticket →
            exec .jobOpen s = .next
              ({ ((s.tookUp.setUser u { e with liveJobs := e.liveJobs + 1 }).setJob j
                    { JobRecord.powerOn with
                      number := s.nextNumber, state := .receiving, user := u, account := e.account, station := fr.src, zone := z,
                      created := s.mu.clock, ticket := ticket, pages := f.pages, copies := f.copies }).setSlot i
                  { state := .opened, job := s.nextNumber, nextSeq := 1, written := 0, lastSheet := 0, idle := some ⟨60, false⟩,
                    pending := none } with
                lastNumber := s.nextNumber }.sentUp fr.src (.receiptOpen f.tag s.nextNumber 4))))))

/-- JOB_DATA at an OPEN slot: the tests of R33 in their order, the first that fails abandoning the job with its code: SEQUENCE of the frame,
WINDOW, TOO_LARGE, LENGTH of no data bytes or more than 1024, SEQUENCE of the sheets, STORE_FULL where the segment opens an extent and the
pool has none; a segment that passes is accepted and its write queued, in the extent taken where it opens one (R19, R22, R33). That a
payload of two to four bytes names its job, has no data and so is abandoned with LENGTH is log entry 17. -/
def Obligations.JobDataQueuesWrite : Prop :=
  (∀ (n : Nat) (rest : List Byte), n ≤ 65535 → rest.length ≤ 3 → ∃ f, parseJobData (u16 n ++ rest) = some f ∧ f.job = n ∧ f.data = []) ∧
  ∀ (s : State) (fr : InFrame) (f : JobDataFrame) (i : Fin 16) (j : Fin 512) (r : JobRecord),
    s.headFrame .jobData = some fr → parseJobData fr.payload = some f → s.findSlot f.job = some i →
    s.findJob f.job = some (j, r) → s.job j = r → (s.slot i).state = .opened → r.station = fr.src →
    let x := s.slot i
    let refused (c : Code) : Prop := exec .jobData s = .next (s.tookUp.abandon i c)
    let accepted (t : State) (pos : SegPos) : State :=
      ((t.setJob j { t.job j with segments := r.segments + 1, bytes := r.bytes + f.data.length }).setSlot i
        { x with
          nextSeq := (x.nextSeq + 1) % 65536
          lastSheet := if f.sheetStart then f.sheet else x.lastSheet
          idle := some ⟨60, false⟩ }).pushWrite
        ⟨r.number, fr.seq, pos, ⟨⟨f.data.length, f.sheetStart, if f.sheetStart then f.sheet else 0⟩, f.data⟩⟩
    let inTurn : Prop := fr.seq = x.nextSeq
    let roomy : Prop := r.segments - x.written < 4
    let small : Prop := r.segments < 65536
    let long : Prop := 1 ≤ f.data.length ∧ f.data.length ≤ 1024
    let sheets : Prop := if f.sheetStart then f.sheet = x.lastSheet + 1 else r.segments ≠ 0
    (¬inTurn → refused .sequence) ∧ (inTurn → ¬roomy → refused .window) ∧ (inTurn → roomy → ¬small → refused .tooLarge) ∧
    (inTurn → roomy → small → ¬long → refused .length) ∧
    (inTurn → roomy → small → long → ¬sheets → refused .sequence) ∧
    (inTurn → roomy → small → long → sheets →
      (r.segments % 64 ≠ 0 → ∀ pos, s.segmentPos r (r.segments + 1) = some pos →
        exec .jobData s = .next (accepted s.tookUp pos)) ∧
      (r.segments % 64 = 0 → s.hsc.poolHead = none → refused .storeFull) ∧
      (r.segments % 64 = 0 → ∀ t pos, s.tookUp.allocateExtent j = some t → t.segmentPos (t.job j) (r.segments + 1) = some pos →
        exec .jobData s = .next (accepted t pos)))

/-- An extent is taken from the head of the free pool and joined to the tail of the chain (R22), and a chain is appended whole at
the tail of the pool (R23): the extents of the pool and of the job together stay the same number. -/
def Obligations.ExtentsMoveBetweenPoolAndChain : Prop :=
  ∀ (s : State) (j : Fin 512),
    (∀ (e n : Fin 4096), s.hsc.poolHead = some e → s.link e = some n → 2 ≤ s.hsc.poolLength → e ≠ n →
      (s.job j).chainTail ≠ some e →
      ∃ t, s.allocateExtent j = some t ∧ t.hsc.poolHead = some n ∧ t.hsc.poolLength + 1 = s.hsc.poolLength ∧
        t.link e = none ∧ (t.job j).chainTail = some e ∧ (t.job j).extents = (s.job j).extents + 1 ∧
        (∀ x, (s.job j).chainTail = some x → t.link x = some e ∧ (t.job j).chainHead = (s.job j).chainHead) ∧
        ((s.job j).chainTail = none → (t.job j).chainHead = some e)) ∧
    (s.hsc.poolHead = none → s.allocateExtent j = none) ∧
    (∀ h x : Fin 4096, (s.job j).chainHead = some h → (s.job j).chainTail = some x →
      (s.freeChain j).hsc.poolTail = some x ∧
      (s.freeChain j).hsc.poolLength = s.hsc.poolLength + (s.job j).extents ∧
      ((s.freeChain j).job j).chainHead = none ∧ ((s.freeChain j).job j).chainTail = none ∧
      ((s.freeChain j).job j).extents = 0 ∧
      (∀ y, s.hsc.poolTail = some y → (s.freeChain j).link y = some h) ∧
      (s.hsc.poolLength = 0 → (s.freeChain j).hsc.poolHead = some h))

/-- JOB_CLOSE: counts that agree seal the job, which becomes HELD at once when no write is outstanding; a segment count or a byte count that
differs abandons it with LENGTH, and so does the close of a job of no segments (R35). What stands in the fields of a FREE record that the
manual does not give is the model's choice, log entry 11. -/
def Obligations.JobCloseSealsJob : Prop :=
  ∀ (s : State) (fr : InFrame) (f : JobCloseFrame) (i : Fin 16) (j : Fin 512) (r : JobRecord),
    s.headFrame .jobClose = some fr → parseJobClose fr.payload = some f → s.findSlot f.job = some i →
    s.findJob f.job = some (j, r) → s.job j = r → (s.slot i).state = .opened → r.station = fr.src →
    (f.segments = r.segments → f.bytes = r.bytes → 1 ≤ r.segments → (s.slot i).written < r.segments →
      exec .jobClose s = .next
        ((s.tookUp.setSlot i { s.slot i with state := .sealing, idle := none }).setJob j { r with state := .sealing })) ∧
    (f.segments = r.segments → f.bytes = r.bytes → 1 ≤ r.segments → (s.slot i).written = r.segments →
      ∃ t, exec .jobClose s = .next t ∧ t.job j = { r with state := .held, countdown := some ⟨(s.zone r.zone).holdTime, false⟩ } ∧
        t.slot i = ⟨.free, 0, 0, 0, 0, none, none⟩ ∧ (∀ k, k ≠ j → t.job k = s.job k) ∧ (∀ k, k ≠ i → t.slot k = s.slot k) ∧
        t.up = { s.tookUp.up with
          tx := s.up.tx ++ [⟨s.age, r.station, .receiptClosed r.number r.segments r.bytes⟩] } ∧
        { t with jobs := s.jobs, slots := s.slots, up := s.up, age := s.age } = s) ∧
    ((f.segments ≠ r.segments ∨ f.bytes ≠ r.bytes ∨ (r.segments = 0 ∧ r.bytes = 0)) →
      exec .jobClose s = .next (s.tookUp.abandon i .length))

/-- JOB_CANCEL and IDLE_TIMEOUT abandon an upload with no write in progress: its queued writes are discarded, its chain and its record
freed, JOB-REFUSED sent, and its slot becomes FREE (R36, R37, R38; an expiry is a step of its own, log entry 3). What stands in the fields
of a FREE record that the manual does not give is the model's choice, log entry 11. -/
def Obligations.UploadIsAbandoned : Prop :=
  ∀ (s : State) (i : Fin 16) (j : Fin 512) (r : JobRecord) (n : Nat), s.findJob n = some (j, r) → s.findSlot n = some i →
    (s.slot i).state = .opened → (s.slot i).job = n → r.state = .receiving → s.writeInProgress n = false →
    (∀ fr : InFrame, s.headFrame .jobCancel = some fr → fr.payload = u16 n → n < 65536 → r.station = fr.src →
      exec .jobCancel s = .next
        ((((s.tookUp.discardWrites n).dropJob j).sentUp r.station (.refusedJob r.number .cancelled)).setSlot i
          ⟨.free, 0, 0, 0, 0, none, none⟩)) ∧
    (∀ k, (s.slot i).idle = some ⟨k, true⟩ →
      exec (.idleTimeout i) s = .next
        ((((s.discardWrites n).dropJob j).sentUp r.station (.refusedJob r.number .timeout)).setSlot i
          ⟨.free, 0, 0, 0, 0, none, none⟩))

/-! ### The hold store -/

/-- DRAM_GRANT: with both queues holding entries the arbiter grants the head of the queue that its last grant did not serve, and
with one the head of that one; a granted entry leaves its queue (R26). -/
def Obligations.ArbiterAlternates : Prop :=
  ∀ s : State,
    (∀ (w : WriteEntry) (ws : List WriteEntry), s.hsc.op = none → s.hsc.writes = w :: ws →
      (s.hsc.reads = [] ∨ s.hsc.lastServed = .reads) →
      exec .dramGrant s = .next
        { s with hsc := { s.hsc with writes := ws, op := some ⟨.write w, false⟩, lastServed := .writes } }) ∧
    (∀ (r : ReadEntry) (rs : List ReadEntry), s.hsc.op = none → s.hsc.reads = r :: rs →
      (s.hsc.writes = [] ∨ s.hsc.lastServed = .writes) →
      exec .dramGrant s = .next
        { s with hsc := { s.hsc with reads := rs, op := some ⟨.read r, false⟩, lastServed := .reads } }) ∧
    (s.hsc.writes = [] → s.hsc.reads = [] → exec .dramGrant s = .next s) ∧
    (s.hsc.op ≠ none → exec .dramGrant s = .next s)

/-- WRITE_COMPLETION for an OPEN slot: the segment stands at its position, every other position reads as before, written rises by one
and a DATA-ACK of its sequence is sent (R20, R34). -/
def Obligations.WriteCompletionStoresAndAcks : Prop :=
  ∀ (s : State) (e : WriteEntry) (i : Fin 16) (j : Fin 512) (r : JobRecord),
    s.hsc.op = some ⟨.write e, false⟩ → s.findSlot e.job = some i → s.findJob e.job = some (j, r) →
    (s.slot i).state = .opened →
    ∃ t, exec .writeCompletion s = .next t ∧ t.stored e.pos = ⟨e.segment, .clean, .clean⟩ ∧
      (∀ pos : SegPos, pos ≠ e.pos → t.stored pos = s.stored pos) ∧ t.hsc.op = none ∧
      t.slot i = { s.slot i with written := (s.slot i).written + 1 } ∧ (∀ k, k ≠ i → t.slot k = s.slot k) ∧
      t.up = { s.up with tx := s.up.tx ++ [⟨s.age, r.station, .dataAck r.number e.seq⟩] } ∧
      { t.hsc with store := s.hsc.store, op := s.hsc.op } = s.hsc ∧
      { t with hsc := s.hsc, slots := s.slots, up := s.up, age := s.age } = s

/-- FETCH_COMPLETION at a HALTED context with no end pending: clean or corrected words fill the buffer that is FETCHING the segment, and a
corrected read counts one STORE-CORRECTED check; no other position of the store and no account changes (R27, R70). An uncorrectable word at
a RUNNING or HALTED context with no end pending ends the job as FAILED: STREAM-ABORT END goes out, the job is settled with a JOB-AUDIT
FAILED and freed, the context becomes FREE, and one STORE-UNCORRECTABLE check is counted (R27, R79, R96, R100); here no queue entry and no
PRINTER-RESET waits, and two reports find room. The errors a read finds are the command's operands (log entry 6), and the JOB-AUDIT stands
behind a CHECK of the same read, the model's choice of log entry 49. What stands in the fields of a FREE record that the manual does not
give is the model's choice, log entry 11. -/
def Obligations.FetchFillsBuffer : Prop :=
  (∀ (s : State) (c : Fin 8) (n k : Nat) (pos : SegPos) (worst : WordErrors),
    s.hsc.op = some ⟨.read ⟨c, .fetch, n, pos, k⟩, false⟩ → (s.context c).state = .halted → (s.context c).pendingEnd = none →
    (s.context c).bufA = .fetching k → (s.stored pos).headerErrors = .clean → (s.stored pos).dataErrors = .clean →
    worst ≠ .uncorrectable →
    ∃ t, exec (.fetchCompletion .clean worst) s = .next t ∧
      t.context c = { s.context c with bufA := .full k (s.stored pos).segment } ∧
      (∀ d, d ≠ c → t.context d = s.context d) ∧ t.se.notices = s.se.notices ∧ t.hsc.op = none ∧
      (∀ q : SegPos, q ≠ pos → t.stored q = s.stored q) ∧ t.stored pos = ⟨(s.stored pos).segment, .clean, worst⟩ ∧
      { t.hsc with store := s.hsc.store, op := s.hsc.op } = s.hsc ∧
      t.mu.corrected.count = (if worst = .single then min (s.mu.corrected.count + 1) 255 else s.mu.corrected.count) ∧
      { t.mu with corrected := s.mu.corrected, worst := s.mu.worst, reports := s.mu.reports } = s.mu ∧
      { t with hsc := s.hsc, se := s.se, mu := s.mu } = s) ∧
  ∀ (s : State) (c : Fin 8) (p : Fin 64) (j : Fin 512) (r : JobRecord) (k res : Nat) (pos : SegPos) (header data : WordErrors),
    s.hsc.op = some ⟨.read ⟨c, .fetch, r.number, pos, k⟩, false⟩ →
    ((s.context c).state = .running ∨ (s.context c).state = .halted) → (s.context c).step = none →
    (s.context c).pendingEnd = none → (s.context c).owner = some p → (s.context c).job = some r.number →
    s.findJob r.number = some (j, r) → s.job j = r → r.reservation = some res →
    (header = .uncorrectable ∨ data = .uncorrectable) → s.ru.queue = [] → s.resetWait p = none → s.mu.reports.length < 63 →
    ∃ t, exec (.fetchCompletion header data) s = .next t ∧ t.job j = JobRecord.powerOn ∧ (∀ i, i ≠ j → t.job i = s.job i) ∧
      t.account r.account = (s.account r.account).settle
        (computeCharge r.tallies (s.plan (s.account r.account).plan)) res ∧
      (∀ i, i ≠ r.account → t.account i = s.account i) ∧
      t.user r.user = { s.user r.user with liveJobs := (s.user r.user).liveJobs - 1 } ∧
      t.context c = Context.free ∧ (∀ d, d ≠ c → t.context d = s.context d) ∧
      t.ru.saved = s.ru.saved.filter (fun x => x != c) ∧ t.ru.queue = [] ∧ t.ru.notices = s.ru.notices ∧
      t.hsc.op = none ∧ t.hsc.reads = s.hsc.reads.filter (fun e => e.context != c) ∧
      (∀ q : SegPos, q ≠ pos → t.stored q = s.stored q) ∧
      t.fp = { s.fp with
        tx := s.fp.tx ++
          [⟨s.age, (s.printer p).station, .streamAbort r.number .ended (s.context c).sent (s.context c).lastSheet⟩] } ∧
      t.mu.uncorrectable.count = min (s.mu.uncorrectable.count + 1) 255 ∧ t.mu.worst = some .uncorrectable ∧
      (∃ a, t.mu.reports.getLast? = some ⟨s.mu.clock, .audit a⟩ ∧ a.job = r.number ∧ a.reason = .failed ∧
        a.disposition = .settled ∧ a.reservation = res) ∧
      { t.mu with uncorrectable := s.mu.uncorrectable, worst := s.mu.worst, reports := s.mu.reports } = s.mu ∧
      { t.tables with accounts := s.tables.accounts, users := s.tables.users } = s.tables ∧ t.se.notices = s.se.notices ∧
      { t with
        fp := s.fp, jobs := s.jobs, tables := s.tables, hsc := s.hsc, se := s.se, ru := s.ru, mu := s.mu, age := s.age } = s

/-- HEADER_COMPLETION at open step SEEK: a header that does not begin the resume sheet, with the sheet-start flag clear or of another sheet,
moves the cursor one segment on and asks for its header, before the last segment; at the last segment the sheet is not found, and the job is
settled with JOB-AUDIT COMPLETE-BY-SEEK and freed with its context, nothing being sent to the printer (R112, R113; here no queue entry waits
and a report finds room); a header that begins it finds the sheet, and the open waits for its printer (R112, R66; here the printer is
BLOCKED). What stands in the fields of a FREE record that the manual does not give is the model's choice, log entry 11. -/
def Obligations.SeekReadsHeaders : Prop :=
  ∀ (s : State) (c : Fin 8) (p : Fin 64) (j : Fin 512) (r : JobRecord) (pos next : SegPos) (k sheet : Nat),
    s.hsc.op = some ⟨.read ⟨c, .header, r.number, pos, k⟩, false⟩ → (s.context c).state = .opening →
    (s.context c).step = some .seek → (s.context c).pendingEnd = none → (s.context c).owner = some p →
    (s.context c).job = some r.number → s.findJob r.number = some (j, r) → s.job j = r → r.resumeSheet = some sheet →
    (s.stored pos).headerErrors = .clean →
    (((s.stored pos).segment.header.sheetStart = false ∨ (s.stored pos).segment.header.sheet ≠ sheet) → k < r.segments →
      s.nextPos pos = some next →
      ∃ t, exec (.headerCompletion .clean) s = .next t ∧
        t.context c = { s.context c with nextFetch := some (k + 1), position := some next } ∧
        t.hsc.reads = s.hsc.reads ++ [⟨c, .header, r.number, next, k + 1⟩] ∧ t.hsc.op = none ∧
        (∀ d, d ≠ c → t.context d = s.context d) ∧ (∀ q : SegPos, t.stored q = s.stored q) ∧
        t.se.notices = s.se.notices ∧ { t with hsc := s.hsc, se := s.se } = s) ∧
    (((s.stored pos).segment.header.sheetStart = false ∨ (s.stored pos).segment.header.sheet ≠ sheet) → k = r.segments →
      s.ru.queue = [] → s.mu.reports.length < 64 → ∀ res, r.reservation = some res →
      ∃ t, exec (.headerCompletion .clean) s = .next t ∧ t.job j = JobRecord.powerOn ∧ (∀ i, i ≠ j → t.job i = s.job i) ∧
        t.account r.account = (s.account r.account).settle
          (computeCharge r.tallies (s.plan (s.account r.account).plan)) res ∧
        (∀ i, i ≠ r.account → t.account i = s.account i) ∧
        t.user r.user = { s.user r.user with liveJobs := (s.user r.user).liveJobs - 1 } ∧
        t.context c = Context.free ∧ (∀ d, d ≠ c → t.context d = s.context d) ∧ t.hsc.op = none ∧ t.hsc.reads = s.hsc.reads ∧
        t.ru.saved = s.ru.saved.filter (fun x => x != c) ∧ t.ru.queue = [] ∧ t.ru.notices = s.ru.notices ∧
        (∀ q : SegPos, t.stored q = s.stored q) ∧
        (∃ a, t.mu.reports = s.mu.reports ++ [⟨s.mu.clock, .audit a⟩] ∧ a.job = r.number ∧ a.reason = .completeBySeek ∧
          a.disposition = .settled ∧ a.reservation = res) ∧
        { t.mu with reports := s.mu.reports } = s.mu ∧
        { t.tables with accounts := s.tables.accounts, users := s.tables.users } = s.tables ∧ t.se.notices = s.se.notices ∧
        { t with jobs := s.jobs, tables := s.tables, hsc := s.hsc, se := s.se, ru := s.ru, mu := s.mu } = s) ∧
    ((s.stored pos).segment.header.sheetStart = true → (s.stored pos).segment.header.sheet = sheet →
      (s.cond p).state = some .blocked →
      ∃ t, exec (.headerCompletion .clean) s = .next t ∧
        t.context c = { s.context c with
          sent := k - 1, lastSheet := sheet - 1, mode := some (.restartAt sheet), step := some .wait } ∧
        t.hsc.reads = s.hsc.reads ∧ t.hsc.op = none ∧ (∀ d, d ≠ c → t.context d = s.context d) ∧
        (∀ q : SegPos, t.stored q = s.stored q) ∧ t.se.notices = s.se.notices ∧ { t with hsc := s.hsc, se := s.se } = s)

/-! ### Release -/

/-- RELEASE_ASK: in IDLE it is answered NOT_SERVING; at a printer that is neither READY nor DEGRADED, PRINTER_UNAVAILABLE; and with no
candidate, ACCEPTED with no entries and the available amount of the user's account as it stands after the events that come before that
request (R42, R43, R54, R104; which events may come is log entry 47, and the first list of `between` holds them). No state changes but the
ports and what those events change and, where one of them calls the arbiter, its run after the answer (R44). -/
def Obligations.ReleaseAskIsAnswered : Prop :=
  ∀ (s : State) (p : Fin 64) (tag : Tag) (badge : Code32),
    FromPrinter s .releaseAsk p (u16 tag.toNat ++ u32 badge.toNat ++ u16 0) →
    (s.mu.service = .idle →
      exec .releaseAsk s = .next (s.tookFp.sentTo p (.releaseAnswer tag badge .notServing [] none))) ∧
    (∀ u e, s.mu.service ≠ .idle → s.findUser badge = some (u, e) → (s.cond p).state ≠ some .ready →
      (s.cond p).state ≠ some .degraded →
      exec .releaseAsk s = .next (s.tookFp.sentTo p (.releaseAnswer tag badge .printerUnavailable [] none))) ∧
    (∀ u e, s.mu.service ≠ .idle → s.findUser badge = some (u, e) → ((s.cond p).state = some .ready ∨ (s.cond p).state = some .degraded) →
      (∀ c ∈ s.jobs.cells, c.2.user ≠ u) →
      let t := { (s.between.headD []).foldl (State.comeBetween []) (s.tookFp.setHold .on) with between := s.between.tail }
      exec .releaseAsk s = .next (t.sentTo p
        (.releaseAnswer tag badge .accepted [] (some ((t.account (t.user u).account).balance -
          (t.account (t.user u).account).reserved + (t.account (t.user u).account).overdraft)))).endHold)

/-- RELEASE_ASK that admits the one job its user has waiting in the printer's zone, at a READY printer that owns no context, with the
release queue empty and context `c` the lowest FREE one; no event comes between its requests. A HELD job whose estimate the account covers
is reserved and answered QUEUED, and is then handed the context: START, and STREAM-OPEN goes out (R43 to R46, R50, R54 to R56, R60, R65,
R66, R95). A PARKED job that no loss touches is answered RESUMING with its reservation; no context names it for this printer, so it is
handed the context for a resume seek, which asks for the first header, and SAVED contexts stop naming it (R44, R54, R55, R61, R65, R110,
R111). The options of the STREAM-OPEN are filled as log entry 28 says, and the counts of 0 in the context of the seek are the model's choice
of log entry 39. -/
def Obligations.AskAdmitsJob : Prop :=
  ∀ (s : State) (p : Fin 64) (tag : Tag) (badge : Code32) (u : Fin 8192) (e : UserEntry) (j : Fin 512) (r : JobRecord) (c : Fin 8)
    (v : OptionVector),
    FromPrinter s .releaseAsk p (u16 tag.toNat ++ u32 badge.toNat ++ u16 0) → s.TablesCanonical → s.mu.service ≠ .idle →
    s.findUser badge = some (u, e) → s.user u = e → (s.cond p).state = some .ready →
    s.jobs.cells.filter (fun x => decide (x.2.user = u) && decide (x.2.zone = (s.printer p).zone) &&
      (decide (x.2.state = .held) || decide (x.2.state = .parked))) = [(j, r)] →
    s.job j = r → s.findJob r.number = some (j, r) → r.account = e.account → s.ru.queue = [] →
    (∀ d, (s.context d).owner ≠ some p) → (s.context c).state = .free → (∀ d, d < c → (s.context d).state ≠ .free) →
    s.between = [] →
    let a := s.account e.account
    let answer (x : AnswerEntry) (left : Int) : TxFrame :=
      ⟨s.age, (s.printer p).station, .releaseAnswer tag badge .accepted [x] (some left)⟩
    (∀ m : AnswerMarks, r.state = .held → s.resolve p r = .ok (v, m) → a.state = .opened →
      let n := estimate (s.plan a.plan) v.charge r.pages r.copies
      (n : Int) ≤ a.balance - a.reserved + a.overdraft → a.reserved + n ≤ 99999999 →
      ∃ t, exec .releaseAsk s = .next t ∧
        t.job j = { r with
          state := .opening, countdown := none, reservation := some n, sheetCap := none, vector := some v,
          releases := min (r.releases + 1) 255, boundPrinter := some p, boundContext := some c } ∧
        (∀ i, i ≠ j → t.job i = s.job i) ∧
        t.account e.account = { a with reserved := a.reserved + n, liveReservations := a.liveReservations + 1 } ∧
        (∀ i, i ≠ e.account → t.account i = s.account i) ∧ { t.tables with accounts := s.tables.accounts } = s.tables ∧
        t.context c = { Context.free with
          state := .opening, owner := some p, job := some r.number, mode := some .start, step := some .sent, nextFetch := some 1,
          position := r.chainHead.map (fun h => ⟨h, 0⟩) } ∧
        (∀ d, d ≠ c → t.context d = s.context d) ∧ t.se.notices = s.se.notices ∧
        t.ru = { s.ru with saved := s.ru.saved.filter (fun x => x != c), hold := .off } ∧
        t.fp = { s.tookFp.fp with
          tx := s.fp.tx ++
            [answer ⟨r.number, .queued, m, none, some n, some (r.pages, r.copies)⟩ (a.balance - (a.reserved + n) + a.overdraft),
              ⟨s.age + 1, (s.printer p).station,
                .streamOpen r.number .start 0 0 none r.pages r.copies (s.fillOptions p u v)⟩] } ∧
        { t with fp := s.fp, age := s.age, tables := s.tables, jobs := s.jobs, se := s.se, ru := s.ru } = s) ∧
    (∀ (res : Nat) (h : Fin 4096), r.state = .parked → r.vector = some v → (s.losses p u).touches v = false →
      r.reservation = some res → r.sheetCap = none → r.chainHead = some h →
      ∃ t, exec .releaseAsk s = .next t ∧
        t.job j = { r with
          state := .seeking, countdown := none, parkReason := none, parkedAt := none, releases := min (r.releases + 1) 255,
          boundPrinter := some p, boundContext := some c } ∧
        (∀ i, i ≠ j → t.job i = s.job i) ∧
        t.context c = { Context.free with
          state := .opening, owner := some p, job := some r.number, step := some .seek, nextFetch := some 1,
          position := some ⟨h, 0⟩ } ∧
        (∀ d, d ≠ c → t.context d =
          if (s.context d).state = .saved ∧ (s.context d).parkedJob = some r.number then
            { s.context d with parkedJob := none, saveDone := false }
          else s.context d) ∧
        t.hsc = { s.hsc with reads := s.hsc.reads ++ [⟨c, .header, r.number, ⟨h, 0⟩, 1⟩] } ∧ t.se.notices = s.se.notices ∧
        t.ru = { s.ru with saved := s.ru.saved.filter (fun x => x != c), hold := .off } ∧
        t.fp = { s.tookFp.fp with
          tx := s.fp.tx ++
            [answer ⟨r.number, .resuming, ⟨false, false, false, false⟩, none, some res, some (r.pages, r.copies)⟩
              (a.balance - a.reserved + a.overdraft)] } ∧
        { t with fp := s.fp, age := s.age, jobs := s.jobs, se := s.se, ru := s.ru, hsc := s.hsc } = s)

/-- The context arbiter. An entry of the release queue is eligible when its printer has no bound context and no earlier entry names the
printer (R56). The arbiter hands out to the oldest eligible entry for which a context is obtainable: the SAVED context its printer owns;
else the FREE context with the lowest number; else the SAVED context nearest the head of the saved list whose owner has no eligible entry;
and it goes on until no hand-out is possible (R60). A hand-out to a job whose printer owns the SAVED context that names it, with save-done
set, continues in place: mode CONTINUE, and at a READY printer STREAM-OPEN goes out with the segments sent and the last sheet started that
the context kept (R61, R65, R66), and the options filled as log entry 28 says. The other hand-outs are stated with RELEASE_ASK
(AskAdmitsJob). While the candidates of an ask are taken the arbiter waits: a call of it is at most noted, and no entry leaves the queue,
whatever events come between (which events may come, and that a call of the arbiter waits for the last candidate, is log entry 47); the
admitted jobs join its tail in the order of the answer; a candidate that finds 16 entries is answered QUEUE_FULL, and so is every later one
(R44). -/
def Obligations.ArbiterHandsOut : Prop :=
  (∀ s : State, s.ru.hold = .off →
    let asks (q : Fin 64) : Prop := s.boundAt q = none ∧ ∃ x ∈ s.ru.queue, x.printer = q
    let saved (q : Fin 64) (c : Fin 8) : Prop := (s.context c).owner = some q ∧ (s.context c).state = .saved
    let spare (c : Fin 8) : Prop := ∀ q, (s.context c).owner = some q → ¬asks q
    let obtains (q : Fin 64) (c : Fin 8) : Prop :=
      saved q c ∨
      ((∀ d, ¬saved q d) ∧ (s.context c).state = .free ∧ ∀ d, d < c → (s.context d).state ≠ .free) ∨
      ((∀ d, ¬saved q d) ∧ (∀ d, (s.context d).state ≠ .free) ∧
        ∃ near far, s.ru.saved = near ++ c :: far ∧ spare c ∧ ∀ d ∈ near, ¬spare d)
    let nothing (q : Fin 64) : Prop :=
      (∀ d, ¬saved q d) ∧ (∀ d, (s.context d).state ≠ .free) ∧ ∀ d ∈ s.ru.saved, ¬spare d
    (∀ e c, s.handOutChoice = some (e, c) →
      s.runArbiter = (s.handOut e c).runArbiter ∧ obtains e.printer c ∧ s.boundAt e.printer = none ∧
      ∃ older newer, s.ru.queue = older ++ e :: newer ∧ (∀ x ∈ older, x.printer ≠ e.printer) ∧
        ∀ x ∈ older, s.boundAt x.printer = none → nothing x.printer) ∧
    (s.handOutChoice = none → s.runArbiter = s ∧ ∀ q, asks q → nothing q) ∧
    s.runArbiter.handOutChoice = none) ∧
  (∀ s : State, s.ru.hold ≠ .off →
    (s.runArbiter = s ∨ s.runArbiter = s.setHold .called) ∧ s.endHold.ru.hold = .off ∧
    (s.ru.hold = .called → s.endHold = (s.setHold .off).runArbiter)) ∧
  (∀ (s : State) (own l : List (Fin 512)) (p : Fin 64), (∀ j ∈ l, j ∈ own) →
    let t := s.takeCandidates own p l
    (∃ more, t.1.ru.queue = s.ru.queue ++ more ∧ (∀ e ∈ more, e.printer = p) ∧
      more.map (fun e => e.job) = (t.2.filter AnswerEntry.queuedNow).map (fun a => a.job)) ∧
    (s.ru.queue.length ≤ 16 → t.1.ru.queue.length ≤ 16) ∧
    (16 ≤ s.ru.queue.length → t.1 = s ∧ t.2.length = l.length ∧ ∀ a ∈ t.2, a.outcome = .queueFull)) ∧
  ∀ (s : State) (e : QueueEntry) (c : Fin 8) (j : Fin 512) (r : JobRecord) (v : OptionVector),
    s.TablesCanonical → s.findJob e.job = some (j, r) → s.job j = r → e.origin ≠ .held → (s.context c).state = .saved →
    (s.context c).owner = some e.printer → (s.context c).saveDone = true → (s.context c).parkedJob = some e.job →
    (s.cond e.printer).state = some .ready → r.vector = some v →
    let x := s.context c
    let t := s.handOut e c
    t.context c = { x with
      state := .opening, job := some e.job, parkedJob := none, saveDone := false, mode := some .continued, step := some .sent,
      sheetCap := r.sheetCap, credit := 0, stall := none, park := none, pendingEnd := none } ∧
    (∀ d, d ≠ c → t.context d =
      if (s.context d).state = .saved ∧ (s.context d).parkedJob = some e.job then
        { s.context d with parkedJob := none, saveDone := false }
      else s.context d) ∧
    t.job j = { r with state := .opening, boundPrinter := some e.printer, boundContext := some c } ∧
    (∀ i, i ≠ j → t.job i = s.job i) ∧ t.se.notices = s.se.notices ∧
    t.ru = { s.ru with queue := s.ru.queue.filter (fun y => y.job != e.job), saved := s.ru.saved.filter (fun y => y != c) } ∧
    t.fp = { s.fp with
      tx := s.fp.tx ++
        [⟨s.age, (s.printer e.printer).station,
          .streamOpen e.job .continued x.sent x.lastSheet r.sheetCap r.pages r.copies (s.fillOptions e.printer r.user v)⟩] } ∧
    { t with fp := s.fp, age := s.age, jobs := s.jobs, se := s.se, ru := s.ru } = s

/-- A grant of the decision cascade, with any events between its requests: the cascade makes `k` requests, two for a whole job, two more
where COLOUR is tried as MONO and three more for a sheet cap, each taking the events that come before it, and nothing else of the machine
changes (R50 to R52, R104; which events may come is log entry 47). The amount is one the AU reserves in the account as it then stands; it is
the estimate, under the rate plan as it stood at the request before, of the whole job, or with a cap N from 1 to 65535 of the first N
sheets; a cap needs may-print-partial and comes after MONO has been tried, and COLOUR becomes MONO only with may-downgrade-colour (R50, R51,
R52, R82, R95); there is no test of the number of sheets of the job, which is log entry 50. With no events between, a job is refused only
where the account does not cover its estimate. -/
def Obligations.CascadeGrantsWhatItReserves : Prop :=
  ∀ (s t : State) (own : List (Fin 512)) (u : UserEntry) (r : JobRecord) (v : OptionVector) (m : AnswerMarks),
    (∀ g : Grant, s.cascade own u r v m = (t, .ok g) →
      let k := 2 + (if g.vector = v then 0 else 2) + (if g.cap = none then 0 else 3)
      let after (n : Nat) : State := (fun x => State.request x own)^[n] s
      let plan := (after (k - 1)).plan ((after (k - 1)).account r.account).plan
      t = after k ∧ reserveResult ((after k).account r.account) g.amount = .reserved ∧
      (g.cap = none → g.amount = estimate plan g.vector.charge r.pages r.copies) ∧
      (∀ n, g.cap = some n → u.mayPartial = true ∧ n ≤ 65535 ∧ 1 ≤ n ∧ g.amount = cappedEstimate plan g.vector.charge r.pages n ∧
        (v.charge.colour = .colour → u.mayDowngrade = true → g.vector = v.toMono)) ∧
      (g.vector ≠ v → u.mayDowngrade = true ∧ v.charge.colour = .colour ∧ g.vector = v.toMono ∧ g.vector.charge.colour = .mono) ∧
      g.marks = { m with
        colourToMono := m.colourToMono || decide (g.vector ≠ v), partly := m.partly || g.cap.isSome }) ∧
    (∀ code : Code, s.cascade own u r v m = (t, .error code) →
      (code = .accountFrozen ∨ code = .noAccount ∨ code = .quota) ∧
      (s.between = [] → t = s ∧
        reserveResult (s.account r.account) (estimate (s.plan (s.account r.account).plan) v.charge r.pages r.copies) ≠ .reserved))

/-- Admission of a HELD candidate, and its undoing: admission queues the job with its countdown kept in the entry and reserves the
amount; the undo gives the reservation back and the job is HELD again with its countdown. Admission of a PARKED candidate keeps its
countdown, park reason and stamp in the entry and changes no account; the undo parks it again with them (R55, R57, R95, R98). -/
def Obligations.AdmissionIsUndone : Prop :=
  (∀ (s : State) (p : Fin 64) (j : Fin 512) (g : Grant) (k : Nat),
    (s.job j).state = .held → (s.job j).countdown = some ⟨k, false⟩ → (s.job j).reservation = none → (s.job j).vector = none →
    (s.job j).sheetCap = none → (∀ e ∈ s.ru.queue, e.job ≠ (s.job j).number) →
    (s.queueHeld p j g).findJob (s.job j).number = some (j, (s.queueHeld p j g).job j) →
    (s.queueHeld p j g).ru.queue = s.ru.queue ++ [⟨(s.job j).number, p, .held, k⟩] ∧
    ((s.queueHeld p j g).job j).state = .queued ∧ ((s.queueHeld p j g).job j).countdown = none ∧
    ((s.queueHeld p j g).job j).reservation = some g.amount ∧
    ((s.queueHeld p j g).account (s.job j).account).reserved = (s.account (s.job j).account).reserved + g.amount ∧
    (((s.queueHeld p j g).undo ⟨(s.job j).number, p, .held, k⟩).job j =
      { s.job j with releases := min ((s.job j).releases + 1) 255 }) ∧
    ((s.queueHeld p j g).undo ⟨(s.job j).number, p, .held, k⟩).ru.queue = s.ru.queue ∧
    ((s.queueHeld p j g).undo ⟨(s.job j).number, p, .held, k⟩).account (s.job j).account = s.account (s.job j).account) ∧
  ∀ (s : State) (p : Fin 64) (j : Fin 512) (k : Nat) (reason : ParkReason) (since : Stamp),
    (s.job j).state = .parked → (s.job j).countdown = some ⟨k, false⟩ → (s.job j).parkReason = some reason →
    (s.job j).parkedAt = some since → (∀ e ∈ s.ru.queue, e.job ≠ (s.job j).number) →
    let t := s.queueParked p j
    let e : QueueEntry := ⟨(s.job j).number, p, .parked reason since, k⟩
    t.findJob (s.job j).number = some (j, t.job j) →
    t.ru = { s.ru with queue := s.ru.queue ++ [e] } ∧ t.tables = s.tables ∧
    t.job j = { s.job j with
      state := .queued, countdown := none, parkReason := none, parkedAt := none, releases := min ((s.job j).releases + 1) 255 } ∧
    (t.undo e).job j = { s.job j with releases := min ((s.job j).releases + 1) 255 } ∧ (t.undo e).ru = s.ru ∧
    (t.undo e).tables = s.tables

/-- STATE_CHANGE_AT_SE and STATE_CHANGE_AT_RU: a RUNNING stream halts when its printer becomes BLOCKED, its park countdown loaded from
its zone; a printer that becomes BLOCKED leaves its queue entries, and one that becomes DEGRADED with a loss set that touches the job
of the one entry that waits undoes that entry (R58, R76). The changes wait in two queues of notices, the model's choice of log entry 5. -/
def Obligations.ChangeOfViewIsTaken : Prop :=
  (∀ (s : State) (p : Fin 64) (n : ViewNotice) (rest : List ViewNotice) (e : QueueEntry), n.printer = p → n.state = .degraded →
    s.ru.notices = n :: rest → s.ru.queue = [e] → e.printer = p → s.entryTouched n.loss e = true →
    exec .stateChangeAtRu s = .next ({ s with ru := { s.ru with notices := rest } }.undo e)) ∧
  ∀ (s : State) (c : Fin 8) (p : Fin 64) (j : Fin 512) (r : JobRecord) (n : ViewNotice) (rest : List ViewNotice),
    n.printer = p → n.state = .blocked →
    (s.se.notices = n :: rest → s.boundAt p = some c → (s.context c).job = some r.number → s.findJob r.number = some (j, r) →
      (s.context c).state = .running → (s.context c).pendingEnd = none →
      exec .stateChangeAtSe s = .next
        ({ s with se := { s.se with notices := rest } }.setContext c
          { s.context c with state := .halted, park := some ⟨(s.zone r.zone).parkTime, false⟩ })) ∧
    (s.se.notices = n :: rest → s.boundAt p = none →
      exec .stateChangeAtSe s = .next { s with se := { s.se with notices := rest } }) ∧
    (s.ru.notices = n :: rest →
      exec .stateChangeAtRu s = .next { s with ru := { s.ru with notices := rest } })

/-! ### Streams -/

/-- STREAM_ACCEPT: at step SENT the credit is taken, at most 8, the stall countdown loaded and the job PRINTING. At a printer that is
READY or DEGRADED the context is RUNNING, and it fetches and sends as far as the rules allow: each segment sent takes one of the credit;
from empty buffers it asks for the next two segments and sends none. At any other printer it is HALTED with the park countdown loaded.
An accept at another step or state changes nothing, and one that binds to no context is answered with STREAM-ABORT END (R64, R67, R69,
R71). That buffer A is filled before B is log entry 22; the counts of that STREAM-ABORT are free values, log entry 24. -/
def Obligations.StreamAcceptStartsStream : Prop :=
  ∀ (s : State) (c : Fin 8) (p : Fin 64) (j : Fin 512) (r : JobRecord) (credit tag : Nat), credit ≤ 255 → tag ≤ 65535 →
    FromPrinter s .streamAccept p (u16 tag ++ u8 credit) →
    (BoundStream s c p j r → r.number = tag → (s.context c).state = .opening → (s.context c).step = some .sent →
      ((s.cond p).state ≠ some .ready → (s.cond p).state ≠ some .degraded →
        exec .streamAccept s = .next
          ((s.tookFp.setJob j { r with state := .printing }).setContext c
            { s.context c with
              state := .halted, step := none, credit := min credit 8, stall := some ⟨(s.zone r.zone).stallTime, false⟩,
              park := some ⟨(s.zone r.zone).parkTime, false⟩ })) ∧
      (((s.cond p).state = some .ready ∨ (s.cond p).state = some .degraded) →
        ∃ t sends asked, exec .streamAccept s = .next t ∧
          { t.context c with
            nextFetch := (s.context c).nextFetch, position := (s.context c).position, sent := (s.context c).sent,
            bufA := (s.context c).bufA, bufB := (s.context c).bufB, credit := min credit 8,
            lastSheet := (s.context c).lastSheet, lastSent := (s.context c).lastSent } =
            { s.context c with
              state := .running, step := none, credit := min credit 8, stall := some ⟨(s.zone r.zone).stallTime, false⟩ } ∧
          (t.context c).credit + sends.length = min credit 8 ∧ (t.context c).sent = (s.context c).sent + sends.length ∧
          t.fp = { s.tookFp.fp with tx := s.fp.tx ++ sends } ∧ t.age = s.age + sends.length ∧
          (∀ x ∈ sends, x.dst = (s.printer p).station ∧ ∃ last k seg, x.frame = .streamData last tag k seg) ∧
          t.hsc = { s.hsc with reads := s.hsc.reads ++ asked } ∧
          (∀ x ∈ asked, x.context = c ∧ x.kind = .fetch ∧ x.job = tag) ∧
          ((s.context c).bufA = .empty → (s.context c).bufB = .empty → sends = []) ∧
          (∀ (k : Nat) (pos next : SegPos), (s.context c).bufA = .empty → (s.context c).bufB = .empty →
            (s.context c).pendingEnd = none → (s.context c).lastSent = false → (s.context c).nextFetch = some k →
            (s.context c).position = some pos → k + 1 ≤ r.segments → s.nextPos pos = some next →
            asked = [⟨c, .fetch, tag, pos, k⟩, ⟨c, .fetch, tag, next, k + 1⟩] ∧ (t.context c).bufA = .fetching k ∧
            (t.context c).bufB = .fetching (k + 1) ∧ (t.context c).nextFetch = some (k + 2)) ∧
          t.job j = { r with state := .printing } ∧ (∀ k, k ≠ j → t.job k = s.job k) ∧
          (∀ d, d ≠ c → t.context d = s.context d) ∧ t.se.notices = s.se.notices ∧
          { t with jobs := s.jobs, se := s.se, hsc := s.hsc, fp := s.fp, age := s.age } = s)) ∧
    (s.boundTo p tag = some c → ((s.context c).state ≠ .opening ∨ (s.context c).step ≠ some .sent) →
      exec .streamAccept s = .next s.tookFp) ∧
    (s.boundTo p tag = none →
      ∃ sent sheet, exec .streamAccept s = .next (s.tookFp.sentTo p (.streamAbort tag .ended sent sheet)))

/-- STREAM_REJECT. At a START open the reservation is returned, the job is HELD with a fresh hold time, and the context is FREE (R68, R98).
At a CONTINUE or RESTART-AT-SHEET open the job parks again: PARKED with reason BLOCKED, its park time loaded, its reservation and its resume
sheet kept, and the context is SAVED for its printer, naming no job, at the tail of the saved list (R59, R68, R107). One that binds to no
such open is discarded (R64, R68). Here no queue entry waits where an open ends. -/
def Obligations.StreamRejectEndsOpen : Prop :=
  (∀ (s : State) (p : Fin 64) (tag : Nat), tag ≤ 65535 → FromPrinter s .streamReject p (u16 tag) →
    (∀ c, s.boundTo p tag = some c → (s.context c).state ≠ .opening ∨ (s.context c).step ≠ some .sent) →
    exec .streamReject s = .next s.tookFp) ∧
  ∀ (s : State) (c : Fin 8) (p : Fin 64) (j : Fin 512) (r : JobRecord), r.number ≤ 65535 →
    FromPrinter s .streamReject p (u16 r.number) → BoundStream s c p j r → (s.context c).state = .opening →
    (s.context c).step = some .sent → s.ru.queue = [] →
    let x := s.context c
    let elsewhere (t : State) : Prop :=
      (∀ k, k ≠ j → t.job k = s.job k) ∧ (∀ d, d ≠ c → t.context d = s.context d) ∧ t.se.notices = s.se.notices ∧
      t.fp = s.tookFp.fp ∧ { t with fp := s.fp, jobs := s.jobs, tables := s.tables, se := s.se, ru := s.ru } = s
    (∀ res, x.mode = some .start → r.reservation = some res →
      ∃ t, exec .streamReject s = .next t ∧
        t.job j = { r with
          state := .held, reservation := none, sheetCap := none, vector := none,
          countdown := some ⟨(s.zone r.zone).holdTime, false⟩, boundPrinter := none, boundContext := none } ∧
        t.context c = Context.free ∧ { t.ru with hold := s.ru.hold } = { s.ru with saved := s.ru.saved.filter (fun d => d != c) } ∧
        t.account r.account = { s.account r.account with
          reserved := (s.account r.account).reserved - res, liveReservations := (s.account r.account).liveReservations - 1 } ∧
        (∀ i, i ≠ r.account → t.account i = s.account i) ∧ { t.tables with accounts := s.tables.accounts } = s.tables ∧
        elsewhere t) ∧
    (∀ sheet, (x.mode = some .continued ∨ ∃ n, x.mode = some (.restartAt n)) → r.resumeSheet = some sheet →
      ∃ t, exec .streamReject s = .next t ∧
        t.job j = { r with
          state := .parked, parkReason := some .blocked, parkedAt := some s.mu.clock,
          countdown := some ⟨(s.zone r.zone).parkHoldTime, false⟩, boundPrinter := none, boundContext := none } ∧
        t.context c = { x with
          state := .saved, job := none, mode := none, step := none, credit := 0, stall := none, park := none,
          pendingEnd := none, saveDone := false, parkedJob := none } ∧
        { t.ru with hold := s.ru.hold } = { s.ru with saved := s.ru.saved ++ [c] } ∧ t.tables = s.tables ∧ elsewhere t)

/-- CREDIT at a HALTED context raises the credit, at most to 8, and reloads the stall countdown when it rises from 0; nothing is
sent (R71). -/
def Obligations.CreditRaisesCredit : Prop :=
  ∀ (s : State) (c : Fin 8) (p : Fin 64) (j : Fin 512) (r : JobRecord) (n : Nat), r.number ≤ 65535 → 1 ≤ n → n ≤ 255 →
    FromPrinter s .credit p (u16 r.number ++ u8 n) → BoundStream s c p j r → (s.context c).state = .halted →
    (s.context c).pendingEnd = none →
    exec .credit s = .next
      (s.tookFp.setContext c
        { s.context c with
          credit := min ((s.context c).credit + n) 8
          stall := if (s.context c).credit = 0 then some ⟨(s.zone r.zone).stallTime, false⟩ else (s.context c).stall })

/-- The next segment goes out when it stands FULL and credit allows, and no cap holds it back: one STREAM-DATA, or STREAM-DATA-LAST for
the job's final segment, with the credit, the buffer and the counts changed as R71 gives. Under a sheet cap a segment before the final
one waits for the segment after it to be FULL: where that one begins the sheet after the cap it is discarded and the segment goes out as
STREAM-DATA-LAST, and else as STREAM-DATA (R71, R72). -/
def Obligations.SegmentIsSentUnderCredit : Prop :=
  ∀ (s : State) (c : Fin 8) (p : Fin 64) (j : Fin 512) (r : JobRecord) (seg : Segment),
    (s.context c).owner = some p → (s.context c).job = some r.number → s.findJob r.number = some (j, r) →
    (s.context c).state = .running → (s.context c).pendingEnd = none → (s.context c).lastSent = false →
    1 ≤ (s.context c).credit → (s.context c).sent + 1 ≤ r.segments → (s.context c).bufA = .full ((s.context c).sent + 1) seg →
    let goes (last discarding : Bool) : Option State :=
      some ((s.sentTo p (.streamData last r.number ((s.context c).sent + 1) seg)).setContext c
        { s.context c with
          bufA := .empty, bufB := if discarding then .empty else (s.context c).bufB, credit := (s.context c).credit - 1
          sent := (s.context c).sent + 1
          lastSheet := if seg.header.sheetStart then seg.header.sheet else (s.context c).lastSheet
          lastSent := last })
    (((s.context c).sheetCap = none ∨ (s.context c).sent + 1 = r.segments) →
      s.trySend c = goes (decide ((s.context c).sent + 1 = r.segments)) false) ∧
    (∀ cap, (s.context c).sheetCap = some cap → (s.context c).sent + 1 < r.segments →
      ((∀ next, (s.context c).bufB ≠ .full ((s.context c).sent + 2) next) → s.trySend c = none) ∧
      ∀ next : Segment, (s.context c).bufB = .full ((s.context c).sent + 2) next →
        (next.header.sheetStart = true → next.header.sheet = cap + 1 → s.trySend c = goes true true) ∧
        ((next.header.sheetStart = false ∨ next.header.sheet ≠ cap + 1) → s.trySend c = goes false false))

/-- SHEET_DONE: the sheet is added to the job's tallies, which stop at 9,999,999, the next sheet in order is confirmed, and the sheet goes
to the slots of the printer (R73, R180). -/
def Obligations.SheetIsTallied : Prop :=
  ∀ (s : State) (c : Fin 8) (p : Fin 64) (j : Fin 512) (r : JobRecord) (sheet faces colour : Nat) (large : Bool),
    r.number ≤ 65535 → 1 ≤ sheet → sheet ≤ 65535 → (faces = 1 ∨ faces = 2) → colour ≤ faces →
    FromPrinter s .sheetDone p (u16 r.number ++ u16 sheet ++ u8 faces ++ u8 colour ++ flagByte large) →
    BoundStream s c p j r → ((s.context c).state = .running ∨ (s.context c).state = .halted) →
    exec .sheetDone s = .next
      ((s.tookFp.setJob j
        { r with
          tallies :=
            ⟨min (r.tallies.fm + (faces - colour)) 9999999, min (r.tallies.fc + colour) 9999999,
              min (r.tallies.d + if faces = 2 then 1 else 0) 9999999, min (r.tallies.l + if large then 1 else 0) 9999999⟩
          confirmed := if sheet = r.confirmed + 1 then sheet else r.confirmed }).countSheet p faces colour large)

/-- A sheet counts against each live slot of its printer with its units: remaining falls and stops at 0, what it could not take goes to
overrun, all goes to the day's count, and the exhausted flag is set when remaining is 0 (R153). A QUIET record that is then at or below
its type's floor count becomes DUE, with trigger EXHAUSTED where the flag was set by this sheet and FLOOR else, and its REORDER notice is
enqueued, in the order K to FUSER, or owed once 64 reports stand in the queue (R153, R159). Nothing else changes. -/
def Obligations.SheetCountsAgainstSlots : Prop :=
  ∀ (s : State) (p : Fin 64) (faces colour : Nat) (large : Bool),
    let w := if large then 2 else 1
    let u (q : Consumable) : Nat := match q with
      | .k => faces * w
      | .c => colour * w
      | .m => colour * w
      | .y => colour * w
      | .drum => faces * w
      | .fuser => 1
    let due (q : Consumable) : Bool :=
      s.slotLive p q && decide (1 ≤ u q) && decide ((s.slotRecord p q).reorder = .quiet) &&
        decide ((s.slotRecord p q).remaining - u q ≤ (s.supply (s.slotRecord p q).supply).floorCount)
    let all : List Consumable := [.k, .c, .m, .y, .drum, .fuser].filter due
    let room := 64 - s.mu.reports.length
    let t := s.countSheet p faces colour large
    (∀ q, s.slotLive p q = true → 1 ≤ u q →
      let r := s.slotRecord p q
      t.slotRecord p q = { r with
        remaining := r.remaining - u q, overrun := min (r.overrun + (u q - r.remaining)) 65535
        today := min (r.today + u q) 65535, exhausted := r.exhausted || decide (r.remaining ≤ u q)
        reorder := if due q then .due else r.reorder
        trigger :=
          if due q then some (if r.remaining ≤ u q ∧ r.exhausted = false then .exhausted else .floor) else r.trigger
        owedReorder := r.owedReorder || decide (q ∈ all.drop room) }) ∧
    (∀ q, (s.slotLive p q = false ∨ u q = 0) → t.slotRecord p q = s.slotRecord p q) ∧
    (∀ p' q, p' ≠ p → t.slotRecord p' q = s.slotRecord p' q) ∧
    t.mu = { s.mu with
      reports := s.mu.reports ++ (all.take room).map (fun q => (⟨s.mu.clock, .reorder (t.reorderNotice p q)⟩ : Report)) } ∧
    { t with slotRecords := s.slotRecords, mu := s.mu } = s

/-- STREAM_END with no read in flight. COMPLETE: the job is settled and freed, and the context is SAVED for its printer, save-done set and
naming no job, at the tail of the saved list; a JOB-AUDIT is offered to the report queue (R74, R96, R100, R168). STOPPED at sheet n: the job
parks with reason STALL and resume sheet n + 1, at most 65535, the context is SAVED naming it, no frame goes out and no account changes
(R74, R78, R107). Here no queue entry and no PRINTER-RESET waits. What stands in the fields of a FREE record that the manual does not give
is the model's choice, log entry 11. -/
def Obligations.CompleteEndSettlesAndSaves : Prop :=
  (∀ (s : State) (c : Fin 8) (p : Fin 64) (j : Fin 512) (r : JobRecord) (res : Nat), r.number ≤ 65535 →
    FromPrinter s .streamEnd p (u16 r.number ++ u8 0 ++ u16 0) → BoundStream s c p j r →
    ((s.context c).state = .running ∨ (s.context c).state = .halted) →
    (s.context c).pendingEnd = none → s.readInFlight c = false → s.ru.queue = [] → s.resetWait p = none →
    r.reservation = some res →
    ∃ t, exec .streamEnd s = .next t ∧ t.job j = JobRecord.powerOn ∧ (∀ k, k ≠ j → t.job k = s.job k) ∧
      t.account r.account =
        (let charge := computeCharge r.tallies (s.plan (s.account r.account).plan)
         { s.account r.account with
           balance := (s.account r.account).balance - (min charge.amount res : Nat)
           reserved := (s.account r.account).reserved - res
           charged := min ((s.account r.account).charged + (min charge.amount res : Nat)) 9999999999
           unbilled := min ((s.account r.account).unbilled + (charge.amount - min charge.amount res : Nat)) 99999999
           liveReservations := (s.account r.account).liveReservations - 1 }) ∧
      (∀ i, i ≠ r.account → t.account i = s.account i) ∧
      t.user r.user = { s.user r.user with liveJobs := (s.user r.user).liveJobs - 1 } ∧
      (t.context c).state = .saved ∧ (t.context c).owner = some p ∧ (t.context c).saveDone = true ∧
      (t.context c).parkedJob = none ∧ (t.context c).job = none ∧ (t.context c).bufA = .empty ∧ (t.context c).bufB = .empty ∧
      (∀ d, d ≠ c → t.context d = s.context d) ∧ t.ru.saved = s.ru.saved ++ [c] ∧
      (s.mu.reports.length < 64 → ∃ a, t.mu.reports = s.mu.reports ++ [⟨s.mu.clock, .audit a⟩] ∧ a.job = r.number ∧
        a.reason = .complete ∧ a.disposition = .settled ∧ a.reservation = res) ∧
      (64 ≤ s.mu.reports.length →
        t.mu.reports = s.mu.reports ∧ t.mu.droppedAudits = min (s.mu.droppedAudits + 1) 65535) ∧
      { t.mu with reports := s.mu.reports, droppedAudits := s.mu.droppedAudits } = s.mu ∧
      { t.tables with accounts := s.tables.accounts, users := s.tables.users } = s.tables ∧ t.fp = s.tookFp.fp ∧
      { t with
        fp := s.fp, jobs := s.jobs, tables := s.tables, hsc := s.hsc, se := s.se, ru := s.ru, mu := s.mu } = s) ∧
  ∀ (s : State) (c : Fin 8) (p : Fin 64) (j : Fin 512) (r : JobRecord) (n : Nat), r.number ≤ 65535 → n ≤ 65535 →
    FromPrinter s .streamEnd p (u16 r.number ++ u8 1 ++ u16 n) → BoundStream s c p j r →
    ((s.context c).state = .running ∨ (s.context c).state = .halted) →
    (s.context c).pendingEnd = none → s.readInFlight c = false → s.ru.queue = [] → s.resetWait p = none →
    ∃ t, exec .streamEnd s = .next t ∧
      t.job j = { r with
        state := .parked, parkReason := some .stall, resumeSheet := some (if n < 65535 then n + 1 else 65535),
        parkedAt := some s.mu.clock, countdown := some ⟨(s.zone r.zone).parkHoldTime, false⟩, boundPrinter := none,
        boundContext := none } ∧
      (∀ k, k ≠ j → t.job k = s.job k) ∧ (t.context c).state = .saved ∧ (t.context c).owner = some p ∧
      (t.context c).saveDone = true ∧ (t.context c).parkedJob = some r.number ∧ (t.context c).job = none ∧
      (t.context c).credit = 0 ∧ (t.context c).stall = none ∧ (t.context c).park = none ∧
      (t.context c).sent = (s.context c).sent ∧ (t.context c).lastSheet = (s.context c).lastSheet ∧
      (∀ d, d ≠ c → t.context d = s.context d) ∧ t.se.notices = s.se.notices ∧
      t.ru = { s.ru with saved := s.ru.saved ++ [c] } ∧
      t.hsc = { s.hsc with reads := s.hsc.reads.filter (fun x => x.context != c) } ∧ t.fp = s.tookFp.fp ∧
      { t with fp := s.fp, jobs := s.jobs, hsc := s.hsc, se := s.se, ru := s.ru } = s

/-- STALL_EXPIRY in RUNNING and PARK_TIMER_EXPIRY in HALTED, with no read in flight: the job parks with its reason, resume sheet, stamp
and park countdown, STREAM-ABORT PARK goes out, the context is SAVED naming the job, and no account changes (R75, R76, R78,
R107); here no queue entry waits. An expiry is a step of its own (log entry 3). -/
def Obligations.ExpiryParksStream : Prop :=
  ∀ (s : State) (c : Fin 8) (p : Fin 64) (j : Fin 512) (r : JobRecord) (i : Instr) (reason : ParkReason),
    BoundStream s c p j r → (s.context c).pendingEnd = none → s.readInFlight c = false → s.ru.queue = [] →
    s.resetWait p = none → r.confirmed < 65535 →
    ((i = .stallExpiry c ∧ (s.context c).state = .running ∧ expiryDue (s.context c).stall = true ∧ reason = .stall) ∨
      (i = .parkTimerExpiry c ∧ (s.context c).state = .halted ∧ expiryDue (s.context c).park = true ∧ reason = .blocked)) →
    ∃ t, exec i s = .next t ∧
      t.job j = { r with
        state := .parked, parkReason := some reason, resumeSheet := some (r.confirmed + 1), parkedAt := some s.mu.clock,
        countdown := some ⟨(s.zone r.zone).parkHoldTime, false⟩, boundPrinter := none, boundContext := none } ∧
      (∀ k, k ≠ j → t.job k = s.job k) ∧ (t.context c).state = .saved ∧ (t.context c).owner = some p ∧
      (t.context c).saveDone = true ∧ (t.context c).parkedJob = some r.number ∧ (t.context c).job = none ∧
      (t.context c).credit = 0 ∧ (t.context c).stall = none ∧ (t.context c).park = none ∧
      (t.context c).sent = (s.context c).sent ∧ (∀ d, d ≠ c → t.context d = s.context d) ∧ t.ru.saved = s.ru.saved ++ [c] ∧
      t.fp.tx = s.fp.tx ++
        [⟨s.age, (s.printer p).station, .streamAbort r.number .park (s.context c).sent (s.context c).lastSheet⟩] ∧
      { t.hsc with reads := s.hsc.reads } = s.hsc ∧
      { t with fp := s.fp, jobs := s.jobs, hsc := s.hsc, se := s.se, ru := s.ru, age := s.age } = s

/-- HOLD_EXPIRY and PARK_HOLD_EXPIRY free the job with JOB-REFUSED EXPIRED; a parked job is settled if tallied, else its reservation
returned, with a JOB-AUDIT EXPIRED_PARKED (R99, R109, R115). An expiry is a step of its own (log entry 3). What stands in the fields of a
FREE record that the manual does not give is the model's choice, log entry 11. -/
def Obligations.CountdownExpiryEndsJob : Prop :=
  ∀ (s : State) (n k : Nat) (j : Fin 512) (r : JobRecord), s.findJob n = some (j, r) → s.job j = r →
    r.countdown = some ⟨k, true⟩ →
    (r.state = .held →
      exec (.holdExpiry n) s = .next ((s.dropJob j).sentUp r.station (.refusedJob r.number .expired))) ∧
    (r.state = .parked → 1 ≤ r.tallies.fm + r.tallies.fc →
      exec (.parkHoldExpiry n) s = .next
        ((((s.settleWithAudit j .expiredParked).unnameJob r.number).sentUp r.station (.refusedJob r.number .expired)).dropJob j)) ∧
    (r.state = .parked → r.tallies.fm + r.tallies.fc = 0 →
      exec (.parkHoldExpiry n) s = .next
        ((((s.returnWithAudit j .expiredParked).unnameJob r.number).sentUp r.station (.refusedJob r.number .expired)).dropJob j))

/-! ### Conditions -/

/-- STATUS: the condition list, the printer state, the loss set, the countdown, the panel state and the history ring are those of R126 to
R133, and no other printer's record loses an entry (R126, R129, R133). The CO is told (R131, R138, R145, R146): a FAULT code that enters an
empty list takes the lowest FREE callout entry as GRACE with its grace minutes, or, with grace 0 in a MUTED zone, as OWED; with no FREE
entry its condition waits. The one FAULT entry of a list that is removed frees its callout entry, where no condition waits for one; a desk
that was told gets a RESOLVED notice, enqueued with room and else owed while the owed list has room. The CO's notices come before the slot
reports' (log entry 43), which StatusReportsSlots states; a change of view waits as a notice (log entry 5). A freed callout entry has the
values of CalloutEntry.free, its fields besides the state, which R137 leaves undefined, being the model's choice of log entry 11. -/
def Obligations.StatusRebuildsConditions : Prop :=
  ∀ (s : State) (p : Fin 64) (b : List Byte) (f : StatusFrame), FromPrinter s .status p b → parseStatus b = some f →
    let l := s.rebuiltList f.codes (s.cond p).list
    ∃ t, exec .status s = .next t ∧ (t.cond p).list.map (fun it => (it.code, it.cls, it.effect, it.loss, it.firstSeen)) =
        l.map (fun it => (it.code, it.cls, it.effect, it.loss, it.firstSeen)) ∧
      (t.cond p).state = some
        (if ∃ it ∈ l, it.effect = .block then .blocked else if ∃ it ∈ l, it.effect = .degrade then .degraded else .ready) ∧
      (t.cond p).loss = deriveLoss l ∧ (t.cond p).countdown = some ⟨(s.printer p).statusTimeout, false⟩ ∧
      (t.cond p).panel = some f.panel ∧ (t.cond p).history = s.newHistory f.codes (s.cond p) ∧
      ((s.cond p).state ≠ (t.cond p).state → ∃ n : ViewNotice, n.printer = p ∧ some n.state = (t.cond p).state ∧
        t.ru.notices = s.ru.notices ++ [n] ∧ t.se.notices = s.se.notices ++ [n]) ∧
      (∀ p', p' ≠ p → { t.cond p' with list := (s.cond p').list } = s.cond p' ∧
        (t.cond p').list.map (fun it => (it.code, it.firstSeen)) = (s.cond p').list.map (fun it => (it.code, it.firstSeen))) ∧
      (∀ code : Fin 256, (s.cond p).list = [] → f.codes = [code] → (s.condition code).cls = .fault →
        (∀ i, (s.callout i).state = .free → (∀ k, k < i → (s.callout k).state ≠ .free) →
          ((s.condition code).grace ≠ 0 →
            t.callout i = ⟨.grace, p, code, s.mu.clock, (s.condition code).kind, 1, some ⟨(s.condition code).grace, false⟩, false, 0⟩) ∧
          ((s.condition code).grace = 0 → (s.zone (s.printer p).zone).mute.isSome = true →
            t.callout i = ⟨.owed, p, code, s.mu.clock, (s.condition code).kind, 1, none, false, 0⟩) ∧
          (∀ k, k ≠ i → t.callout k = s.callout k) ∧ (∀ it ∈ (t.cond p).list, it.calloutWanted = false)) ∧
        ((∀ i, (s.callout i).state ≠ .free) →
          t.co = s.co ∧
          (t.cond p).list = [⟨code, .fault, (s.condition code).effect, (s.condition code).loss, s.mu.clock, true⟩])) ∧
      (∀ (it : CondItem) (i : Fin 48), (s.cond p).list = [it] → it.cls = .fault → f.codes = [] → s.findCallout p it.code = some i →
        (∀ p', p' ≠ p → ∀ other ∈ (s.cond p').list, other.calloutWanted = false) →
        let e := s.callout i
        let told : Prop := e.state = .sent ∨ e.state = .escalated ∨ e.state = .acked
        let n : ResolvedNotice :=
          ⟨p, (s.printer p).station, (s.printer p).zone, it.code, e.kind, e.firstSeen, e.level, e.state, .cleared, s.mu.clock⟩
        t.callout i = CalloutEntry.free ∧ (∀ k, k ≠ i → t.callout k = s.callout k) ∧
        (told → s.mu.reports.length < 64 → t.co.owedResolved = s.co.owedResolved ∧
          ∃ more, t.mu.reports = s.mu.reports ++ ⟨s.mu.clock, .resolved n⟩ :: more) ∧
        (told → 64 ≤ s.mu.reports.length → s.co.owedResolved.length < 48 → t.co.owedResolved = s.co.owedResolved ++ [n]) ∧
        (¬told → t.co.owedResolved = s.co.owedResolved)) ∧
      t.fp = s.tookFp.fp ∧ t.se.contexts = s.se.contexts ∧ t.ru.queue = s.ru.queue ∧ t.ru.saved = s.ru.saved ∧
      { t.mu with reports := s.mu.reports } = s.mu ∧
      { t with
        fp := s.fp, cm := s.cm, se := s.se, ru := s.ru, co := s.co, slotRecords := s.slotRecords, mu := s.mu } = s

/-- STATUS, at the printer's slots: a live record whose command-fit mark is set loses it; any other is tested for a fitting, by first
sighting, serial and level rise in this order (R155, R156), and one found loads the type that was reported if it is DEFINED for the slot,
and else the default type, and makes the record QUIET, a FITTED notice going out where a reorder was told (R157, R158); it carries the last
serial and level from before the report (log entry 31), and an earlier FITTED that is still owed stays owed, the model's choice of log entry
44. The last level and serial then take those that are known, and a QUIET record at or below its type's low level becomes DUE with trigger
LOW_LEVEL and a REORDER notice (R155, R159). The notices come slot by slot, K to FUSER. Here the conditions give the CO nothing, and the
report queue has room for twelve. -/
def Obligations.StatusReportsSlots : Prop :=
  ∀ (s : State) (p : Fin 64) (b : List Byte) (f : StatusFrame), FromPrinter s .status p b → parseStatus b = some f →
    (∀ it ∈ (s.cond p).list, it.cls ≠ .fault) → (∀ code ∈ f.codes, (s.condition code).cls ≠ .fault) →
    s.mu.reports.length ≤ 52 →
    let r (q : Consumable) : SlotRecord := s.slotRecord p q
    let found (q : Consumable) : Option Detection :=
      if (r q).commandFit = true then none
      else if (r q).lastLevel = none ∧ (r q).lastSerial = none then
        if (f.slots.get q).level ≠ none ∨ (f.slots.get q).serial ≠ 0 then some .firstSighting else none
      else if (f.slots.get q).serial ≠ 0 ∧ (r q).lastSerial ≠ none then
        if (r q).lastSerial = some (f.slots.get q).serial then none else some .serial
      else if ∃ new ∈ (f.slots.get q).level, ∃ old ∈ (r q).lastLevel, old + 40 ≤ new then some .levelRise
      else none
    let fitted (q : Consumable) : Fin 64 :=
      match (f.slots.get q).supply with
      | some x => if (s.supply x).state = .defined ∧ (s.supply x).kind = q then x else ((s.printer p).slotMap.get q).defaultType
      | none => ((s.printer p).slotMap.get q).defaultType
    let base (q : Consumable) : SlotRecord :=
      if found q = none then { r q with commandFit := false }
      else { r q with
        supply := fitted q, remaining := (s.supply (fitted q)).ratedYield, overrun := 0, exhausted := false, reorder := .quiet
        trigger := none, orderRef := none, owedReorder := false }
    let low (q : Consumable) : Prop :=
      (base q).reorder = .quiet ∧ ∃ l ∈ (f.slots.get q).level, l ≤ (s.supply (base q).supply).lowLevel
    ∃ t, exec .status s = .next t ∧
      (∀ q, s.slotLive p q = false → t.slotRecord p q = r q) ∧
      (∀ q, s.slotLive p q = true →
        t.slotRecord p q = { base q with
          lastLevel := if (f.slots.get q).level = none then (r q).lastLevel else (f.slots.get q).level
          lastSerial := if (f.slots.get q).serial = 0 then (r q).lastSerial else some (f.slots.get q).serial
          reorder := (t.slotRecord p q).reorder, trigger := (t.slotRecord p q).trigger } ∧
        (low q → (t.slotRecord p q).reorder = .due ∧ (t.slotRecord p q).trigger = some .lowLevel) ∧
        (¬low q → (t.slotRecord p q).reorder = (base q).reorder ∧ (t.slotRecord p q).trigger = (base q).trigger)) ∧
      (∀ p' q, p' ≠ p → t.slotRecord p' q = s.slotRecord p' q) ∧ t.co = s.co ∧
      ∃ notices : Consumable → List Report, t.mu.reports = s.mu.reports ++ [.k, .c, .m, .y, .drum, .fuser].flatMap notices ∧
        ∀ q, (s.slotLive p q = false → notices q = []) ∧
          (s.slotLive p q = true → ∃ first second, notices q = first ++ second ∧
            (low q → second = [⟨s.mu.clock, .reorder (t.reorderNotice p q)⟩]) ∧ (¬low q → second = []) ∧
            (∀ d, found q = some d → (r q).reorder ≠ .quiet → (r q).owedReorder = false →
              first = [⟨s.mu.clock, .fitted
                ⟨p, (s.printer p).station, (s.printer p).zone, q, ⟨(r q).reorder, (r q).orderRef, d, s.mu.clock⟩, fitted q,
                  (s.supply (fitted q)).ratedYield, (r q).lastSerial, (r q).lastLevel⟩⟩]) ∧
            ((found q = none ∨ (r q).reorder = .quiet ∨ (r q).owedReorder = true) → first = []))

/-- The list after a STATUS of at most 6 codes: every code of the frame whose class in the table is not IGNORE stands in it, once, with
the class, effect and loss set of the table, and no other code does; it holds at most 6 entries. An entry that stays keeps its first-seen
stamp and its callout-wanted flag; a new one has the clock and the flag clear (R125, R126). -/
def Obligations.RebuiltListIsSound : Prop :=
  ∀ (s : State) (codes : List (Fin 256)) (l : List CondItem), codes.length ≤ 6 → (l.map (fun it => it.code)).Nodup →
    (s.rebuiltList codes l).length ≤ 6 ∧ ((s.rebuiltList codes l).map (fun it => it.code)).Nodup ∧
    (∀ code ∈ codes, (s.condition code).cls ≠ .ignore → ∃ it ∈ s.rebuiltList codes l, it.code = code) ∧
    ∀ it ∈ s.rebuiltList codes l, it.code ∈ codes ∧ (s.condition it.code).cls ≠ .ignore ∧ it.cls = (s.condition it.code).cls ∧
      it.effect = (s.condition it.code).effect ∧ it.loss = (s.condition it.code).loss ∧
      (∀ old ∈ l, old.code = it.code → it.firstSeen = old.firstSeen ∧ it.calloutWanted = old.calloutWanted) ∧
      ((∀ old ∈ l, old.code ≠ it.code) → it.firstSeen = s.mu.clock ∧ it.calloutWanted = false)

/-- STATUS_TIMEOUT: the printer is SILENT and its countdown stops; the loss set is the union over the DEGRADE entries of the list (R127,
R128, R129). NO CONTACT joins the list with the class, effect and loss set of the table and the clock as its first-seen stamp, unless its
class is IGNORE or 255 is there already; the other entries stay (R128). The SE and the RU are told the change of view, unless the printer
was SILENT (R130). A FAULT entry is handed to the CO: the lowest FREE callout entry takes it in GRACE, and at a grace of 0 it is SENT, or
OWED in a MUTED zone or with a full report queue; with no entry FREE it waits, callout-wanted (R131, R138, R140, R141). An expiry is a step
of its own (log entry 3); a change of view waits at the SE and the RU (log entry 5). -/
def Obligations.TimeoutSilencesPrinter : Prop :=
  ∀ (s : State) (p : Fin 64), (s.printer p).state = .defined → expiryDue (s.cond p).countdown = true →
    let r := s.cond p
    let c := s.condition 255
    let e := s.printer p
    let item (wanted : Bool) : CondItem := ⟨255, c.cls, c.effect, c.loss, s.mu.clock, wanted⟩
    let silent (items : List CondItem) : ConditionRecord :=
      let lost (option : LossSet → Bool) := (r.list ++ items).any (fun it => decide (it.effect = .degrade) && option it.loss)
      { r with
        list := r.list ++ items, state := some .silent, countdown := none,
        loss := ⟨lost (fun l => l.colour), lost (fun l => l.duplex), lost (fun l => l.large), lost (fun l => l.staple)⟩ }
    let view : List ViewNotice := if r.state = some .silent then [] else [⟨p, .silent, ⟨false, false, false, false⟩⟩]
    let enters (cls : CondClass) : Prop := c.cls = cls ∧ ∀ it ∈ r.list, it.code ≠ 255
    let callout (st : CalloutState) (timer : Option Countdown) (parked : Nat) : CalloutEntry :=
      ⟨st, p, 255, s.mu.clock, c.kind, 1, timer, false, parked⟩
    let report : Report :=
      ⟨s.mu.clock, .callout
        ⟨p, e.station, e.zone, 255, c.kind, s.mu.clock, 1, some .silent, s.parkedInZone e.zone, r.list.length + 1⟩⟩
    ∃ t, exec (.statusTimeout p) s = .next t ∧
      { t with cm := s.cm, co := s.co, mu := s.mu } =
        { s with
          se := { s.se with notices := s.se.notices ++ view }, ru := { s.ru with notices := s.ru.notices ++ view } } ∧
      (∀ p', p' ≠ p → t.cond p' = s.cond p') ∧ { t.mu with reports := s.mu.reports } = s.mu ∧
      { t.co with entries := s.co.entries } = s.co ∧
      ((c.cls = .ignore ∨ ∃ it ∈ r.list, it.code = 255) → t.cond p = silent [] ∧ t.co = s.co ∧ t.mu = s.mu) ∧
      (enters .notice → t.cond p = silent [item false] ∧ t.co = s.co ∧ t.mu = s.mu) ∧
      (enters .fault → (∀ i, (s.callout i).state ≠ .free) → t.cond p = silent [item true] ∧ t.co = s.co ∧ t.mu = s.mu) ∧
      (enters .fault → ∀ i, (s.callout i).state = .free → (∀ k, k < i → (s.callout k).state ≠ .free) →
        t.cond p = silent [item false] ∧ (∀ k, k ≠ i → t.callout k = s.callout k) ∧
        (c.grace ≠ 0 → t.callout i = callout .grace (some ⟨c.grace, false⟩) 0 ∧ t.mu = s.mu) ∧
        (c.grace = 0 → ((s.zone e.zone).mute.isSome ∨ 64 ≤ s.mu.reports.length) →
          t.callout i = callout .owed none 0 ∧ t.mu = s.mu) ∧
        (c.grace = 0 → (s.zone e.zone).mute = none → s.mu.reports.length < 64 →
          t.callout i =
            callout .sent (if c.escalation = 0 then none else some ⟨c.escalation, false⟩) (s.parkedInZone e.zone) ∧
          t.mu.reports = s.mu.reports ++ [report]))

/-! ### Callouts -/

/-- GRACE_EXPIRY and ESCALATION_EXPIRY: in an OPEN zone with room in the report queue the CALLOUT is enqueued, level 1 as SENT and the next
level as ESCALATED, the escalation time loaded below level 3; in a MUTED zone the notice is owed (R140, R141, R142). An expiry is a step of
its own (log entry 3). -/
def Obligations.CalloutIsSentOrOwed : Prop :=
  ∀ (s : State) (i : Fin 48) (k : Nat), (s.callout i).countdown = some ⟨k, true⟩ →
    let e := s.callout i
    let z := (s.printer e.printer).zone
    let n (l : Nat) : CalloutNotice :=
      ⟨e.printer, (s.printer e.printer).station, z, e.code, e.kind, e.firstSeen, l, (s.cond e.printer).state,
        s.parkedInZone z, (s.cond e.printer).list.length⟩
    let timer : Option Countdown :=
      if (s.condition e.code).escalation = 0 then none else some ⟨(s.condition e.code).escalation, false⟩
    (e.state = .grace → e.level = 1 → (s.zone z).mute = none → s.mu.reports.length < 64 →
      exec (.graceExpiry i) s = .next
        ({ s with mu := { s.mu with reports := s.mu.reports ++ [(⟨s.mu.clock, .callout (n 1)⟩ : Report)] } }.setCallout i
          { e with state := .sent, countdown := timer, escalationOwed := false, parkedJobs := s.parkedInZone z })) ∧
    (e.state = .grace → (s.zone z).mute.isSome →
      exec (.graceExpiry i) s = .next (s.setCallout i { e with state := .owed, countdown := none })) ∧
    (e.state = .sent → e.level = 1 → (s.zone z).mute = none → s.mu.reports.length < 64 →
      exec (.escalationExpiry i) s = .next
        ({ s with mu := { s.mu with reports := s.mu.reports ++ [(⟨s.mu.clock, .callout (n 2)⟩ : Report)] } }.setCallout i
          { e with
            state := .escalated, level := 2, countdown := timer, escalationOwed := false,
            parkedJobs := s.parkedInZone z })) ∧
    (e.state = .escalated → e.level = 2 → (s.zone z).mute.isSome →
      exec (.escalationExpiry i) s = .next
        (s.setCallout i { e with level := 3, escalationOwed := true, countdown := none }))

/-- The desk's commands at callouts, zones and orders. CALLOUT_ACK makes a SENT or ESCALATED callout ACKED, leaves an ACKED one, and answers
STATE in GRACE, OWED and SUPPRESSED; CALLOUT_CLOSE makes an ACKED one SUPPRESSED, leaves a SUPPRESSED one, and answers STATE in GRACE, OWED,
SENT and ESCALATED; without an entry the answer is TOO_LATE, but STATE to an acknowledgment of a condition that waits for an entry (R143,
R144). ZONE_MUTE mutes a zone or replaces its minutes, minutes outside 1 to 720 being refused RANGE; ZONE_UNMUTE and MUTE_EXPIRY (a step of
its own, log entry 3) open a MUTED zone, here with no callout waiting; ZONE_UNMUTE of an OPEN zone is answered STATE (R147). ORDER_ACK in
DUE or ORDERED makes the record ORDERED with the reference, an owed REORDER cancelled; in QUIET it is answered TOO_LATE (R161). -/
def Obligations.DeskCommandsAreTaken : Prop :=
  (∀ (s : State) (f : CommandFrame) (p : Fin 64) (code : Fin 256), f.body = u8 p ++ u8 code →
    (∀ i : Fin 48, s.findCallout p code = some i →
      (Commanded s 7 f → ((s.callout i).state = .sent ∨ (s.callout i).state = .escalated) →
        exec .calloutAck s = .next
          ((s.tookUp.setCallout i { s.callout i with state := .acked, countdown := none, escalationOwed := false }).replied f .done
            .none)) ∧
      (Commanded s 7 f → (s.callout i).state = .acked → exec .calloutAck s = .next (s.tookUp.replied f .done .none)) ∧
      (Commanded s 7 f →
        ((s.callout i).state = .grace ∨ (s.callout i).state = .owed ∨ (s.callout i).state = .suppressed) →
        exec .calloutAck s = .next (s.tookUp.replied f .state .none)) ∧
      (Commanded s 8 f → (s.callout i).state = .acked →
        exec .calloutClose s = .next ((s.tookUp.setCallout i { s.callout i with state := .suppressed }).replied f .done .none)) ∧
      (Commanded s 8 f → (s.callout i).state = .suppressed →
        exec .calloutClose s = .next (s.tookUp.replied f .done .none)) ∧
      (Commanded s 8 f →
        ((s.callout i).state = .grace ∨ (s.callout i).state = .owed ∨ (s.callout i).state = .sent ∨
          (s.callout i).state = .escalated) →
        exec .calloutClose s = .next (s.tookUp.replied f .state .none))) ∧
    (s.findCallout p code = none →
      (Commanded s 7 f → (∃ it ∈ (s.cond p).list, it.code = code ∧ it.calloutWanted = true) →
        exec .calloutAck s = .next (s.tookUp.replied f .state .none)) ∧
      (Commanded s 7 f → (∀ it ∈ (s.cond p).list, it.code = code → it.calloutWanted = false) →
        exec .calloutAck s = .next (s.tookUp.replied f .tooLate .none)) ∧
      (Commanded s 8 f → exec .calloutClose s = .next (s.tookUp.replied f .tooLate .none)))) ∧
  (∀ (s : State) (f : CommandFrame) (z : Fin 16) (n : Nat), n ≤ 65535 →
    (Commanded s 10 f → f.body = u8 z ++ u16 n → 1 ≤ n → n ≤ 720 →
      exec .zoneMute s = .next ((s.tookUp.setZone z { s.zone z with mute := some ⟨n, false⟩ }).replied f .done .none)) ∧
    (Commanded s 10 f → f.body = u8 z ++ u16 n → (n = 0 ∨ 720 < n) →
      exec .zoneMute s = .next (s.tookUp.replied f .range .none)) ∧
    (Commanded s 11 f → f.body = u8 z → (s.zone z).mute.isSome → (∀ i, (s.callout i).waits = false) →
      exec .zoneUnmute s = .next ((s.tookUp.setZone z { s.zone z with mute := none }).replied f .done .none)) ∧
    (Commanded s 11 f → f.body = u8 z → (s.zone z).mute = none →
      exec .zoneUnmute s = .next (s.tookUp.replied f .state .none)) ∧
    (expiryDue (s.zone z).mute = true → (∀ i, (s.callout i).waits = false) →
      exec (.muteExpiry z) s = .next (s.setZone z { s.zone z with mute := none }))) ∧
  ∀ (s : State) (f : CommandFrame) (p : Fin 64) (q : Consumable) (ref : Code32), Commanded s 12 f →
    f.body = u8 p ++ u8 q.number ++ u32 ref.toNat → (s.printer p).state = .defined →
    ((s.printer p).slotMap.get q).fitted = true →
    ((s.slotRecord p q).reorder ≠ .quiet →
      exec .orderAck s = .next
        ((s.tookUp.setSlotRecord p q
          { s.slotRecord p q with reorder := .ordered, orderRef := some ref, owedReorder := false }).replied f .done .none)) ∧
    ((s.slotRecord p q).reorder = .quiet → exec .orderAck s = .next (s.tookUp.replied f .tooLate .none))

/-! ### Slots -/

/-- SLOT_FITTED with a type that is DEFINED for the slot, or with 255 for the slot's default type, loads its rated yield, makes the record
QUIET and sets the command-fit mark. Where the desk had been told of a reorder, a FITTED notice with detection COMMAND is enqueued, or
owed once 64 reports stand in the queue, an owed one being replaced then (R158, R162); with room an earlier FITTED that is still owed
stays owed, the model's choice of log entry 44. A type that is not DEFINED for the slot, or a number from 64 to 254, is refused RANGE, an
EMPTY printer entry ABSENT, and a slot that is not fitted STATE (R162). -/
def Obligations.FittingIsDeclared : Prop :=
  ∀ (s : State) (f : CommandFrame) (p : Fin 64) (q : Consumable) (n : Nat), Commanded s 13 f →
    f.body = u8 p ++ u8 q.number ++ u8 n → n ≤ 255 →
    ((63 < n ∧ n ≠ 255) → exec .slotFitted s = .next (s.tookUp.replied f .range .none)) ∧
    (∀ x : Fin 64, n = x → ((s.supply x).state = .empty ∨ (s.supply x).kind ≠ q) →
      exec .slotFitted s = .next (s.tookUp.replied f .range .none)) ∧
    ∀ x : Fin 64,
      ((n = x ∧ (s.supply x).state = .defined ∧ (s.supply x).kind = q) ∨
        (n = 255 ∧ x = ((s.printer p).slotMap.get q).defaultType)) →
      ((s.printer p).state = .empty → exec .slotFitted s = .next (s.tookUp.replied f .absent .none)) ∧
      ((s.printer p).state = .defined → ((s.printer p).slotMap.get q).fitted = false →
        exec .slotFitted s = .next (s.tookUp.replied f .state .none)) ∧
      ((s.printer p).state = .defined → ((s.printer p).slotMap.get q).fitted = true →
        s.slotRecords.wf (fun _ => slotRecordsPowerOn) = true →
        let r := s.slotRecord p q
        let told : Prop := r.reorder ≠ .quiet ∧ r.owedReorder = false
        let notice : OwedFitted := ⟨r.reorder, r.orderRef, .command, s.mu.clock⟩
        let new : SlotRecord := { r with
          supply := x, remaining := (s.supply x).ratedYield, overrun := 0, exhausted := false, reorder := .quiet, trigger := none,
          orderRef := none, owedReorder := false, commandFit := true }
        (¬told → exec .slotFitted s = .next ((s.tookUp.setSlotRecord p q new).replied f .done .none)) ∧
        (told → s.mu.reports.length < 64 →
          let report : Report := ⟨s.mu.clock, .fitted
            ⟨p, (s.printer p).station, (s.printer p).zone, q, notice, x, (s.supply x).ratedYield, r.lastSerial, r.lastLevel⟩⟩
          exec .slotFitted s = .next
            (({ s.tookUp with mu := { s.mu with reports := s.mu.reports ++ [report] } }.setSlotRecord p q new).replied f .done
              .none)) ∧
        (told → 64 ≤ s.mu.reports.length →
          exec .slotFitted s = .next
            ((s.tookUp.setSlotRecord p q { new with owedFitted := some notice }).replied f .done .none)))

/-! ### Tables and accounts -/

/-- TABLE_WRITE of the entries other than printer entries; each replaces the fields that may be written and no other; it is refused RANGE
when the table or the entry does not exist or a field is outside its range, and then leaves the entry as it was (R1). Zone entries keep
their mute state; their times are taken in the unit the entry holds, any number in range, which is log entry 16 (R9). Account entries keep
reserved, charged-to-date, unbilled and the live reservation count; a write that would close an account with a reserved amount is BUSY, one
that fails the balance check RANGE (R12, R13). Rate plans and condition entries, a loss set going with DEGRADE and only with it (R14, R15).
Supply entries: a write that would make a type in use EMPTY or of another slot kind is BUSY, which types are in use being log entry 35, and
a lower rated yield lowers the records fitted with it (R17, R18). User entries keep the live job count; a badge held by another DEFINED user
is RANGE, and a user with live jobs is not made EMPTY nor given another account, BUSY (R10, R11); each of the three consent flags is bit 0
of a byte of its own, log entry 14. Printer entries: PrinterEntryIsWritten. -/
def Obligations.TableWriteIsChecked : Prop :=
  ∀ (s : State) (f : CommandFrame), Commanded s 1 f → s.TablesCanonical →
    let answers (c : Code) : Prop := exec .tableWrite s = .next (s.tookUp.replied f c .none)
    let writes (t : State) : Prop := exec .tableWrite s = .next (t.replied f .done .none)
    (∀ (k i : Nat) (rest : List Byte), k ≤ 255 → i ≤ 65535 → f.body = u8 k ++ u16 i ++ rest →
      [64, 16, 8192, 1024, 16, 256, 64].getD k 0 ≤ i → answers .range) ∧
    (∀ (z : Fin 16) (h p ph st : Nat) (m : Byte) (x : Nat), h ≤ 65535 → p ≤ 255 → ph ≤ 65535 → st ≤ 65535 →
      f.body = u8 1 ++ u16 z ++ u16 h ++ u8 p ++ u16 ph ++ u16 st ++ [m] ++ u16 x →
      let good : Prop := 60 ≤ h ∧ h ≤ 4320 ∧ 1 ≤ p ∧ p ≤ 30 ∧ 60 ≤ ph ∧ ph ≤ 1440 ∧ 10 ≤ st ∧ st ≤ 600
      (good → writes (s.tookUp.setZone z
        { s.zone z with holdTime := h, parkTime := p, parkHoldTime := ph, stallTime := st })) ∧
      (¬good → answers .range)) ∧
    (∀ (i : Fin 1024) (k plan : Nat) (o bal : Int) (rest : List Byte), k ≤ 255 → plan ≤ 255 → o.natAbs ≤ 99999999 →
      bal.natAbs ≤ 99999999 → rest.length = 18 →
      f.body = u8 3 ++ u16 i ++ (u8 k ++ amountBytes o ++ u8 plan ++ amountBytes bal ++ rest) →
      let a := s.account i
      let good : Prop := k ≤ 2 ∧ 0 ≤ o ∧ o ≤ 999999 ∧ plan < 16 ∧ -999999 ≤ bal
      (¬good → answers .range) ∧
      ∀ (x : AccountState) (own : Fin 16), good → k = x.number → plan = own →
        (x = .closed → a.reserved ≠ 0 → answers .busy) ∧
        ((x ≠ .closed ∨ a.reserved = 0) → bal - a.reserved < -o → answers .range) ∧
        ((x ≠ .closed ∨ a.reserved = 0) → -o ≤ bal - a.reserved →
          writes (s.tookUp.setAccount i { a with state := x, overdraft := o.toNat, plan := own, balance := bal }))) ∧
    (∀ (i : Fin 16) (rm rc rl rd m : Int) (p : Nat), (∀ x ∈ [rm, rc, rl, rd, m], x.natAbs ≤ 99999999) → p ≤ 255 →
      f.body = u8 4 ++ u16 i ++
        (amountBytes rm ++ amountBytes rc ++ amountBytes rl ++ amountBytes rd ++ u8 p ++ amountBytes m) →
      let good : Prop := (∀ x ∈ [rm, rc, rl, rd, m], 0 ≤ x ∧ x ≤ 9999) ∧ p ≤ 99
      (good → writes (s.tookUp.setPlan i ⟨rm.toNat, rc.toNat, rl.toNat, rd.toNat, p, m.toNat⟩)) ∧ (¬good → answers .range)) ∧
    (∀ (i : Fin 256) (cls effect kind g x : Nat) (l : LossSet), cls ≤ 255 → effect ≤ 255 → kind ≤ 255 → g ≤ 255 → x ≤ 65535 →
      f.body = u8 5 ++ u16 i ++ (u8 cls ++ u8 effect ++ lossBits l ++ u8 g ++ u16 x ++ u8 kind) →
      let good : Prop :=
        cls ≤ 2 ∧ effect ≤ 2 ∧ kind ≤ 1 ∧ g ≤ 240 ∧ x ≤ 480 ∧ (effect = 1 ↔ l ≠ ⟨false, false, false, false⟩)
      (¬good → answers .range) ∧
      ∀ (cl : CondClass) (ef : CondEffect) (kd : CalloutKind), good → cls = cl.number → effect = ef.number → kind = kd.number →
        writes (s.tookUp.setCondition i ⟨cl, ef, l, g, x, kd⟩)) ∧
    (∀ i : Fin 64,
      let used : Prop := ∃ p q, (s.printer p).state = .defined ∧ ((s.slotRecord p q).supply = i ∨
        (((s.printer p).slotMap.get q).fitted = true ∧ ((s.printer p).slotMap.get q).defaultType = i))
      (f.body = u8 6 ++ u16 i ++ u8 0 →
        (used → answers .busy) ∧ (¬used → writes (s.tookUp.setSupply i { s.supply i with state := .empty }))) ∧
      (∀ (k : Nat) (rest : List Byte), 2 ≤ k → k ≤ 255 → f.body = u8 6 ++ u16 i ++ (u8 k ++ rest) → answers .range) ∧
      ∀ (kind y d fl lo st : Nat), kind ≤ 255 → y < 4294967296 → d ≤ 255 → fl < 4294967296 → lo ≤ 255 → st ≤ 255 →
        f.body = u8 6 ++ u16 i ++ (u8 1 ++ u8 kind ++ u32 y ++ u8 d ++ u32 fl ++ u8 lo ++ u8 st) →
        let good : Prop := kind ≤ 5 ∧ 1000 ≤ y ∧ y ≤ 250000 ∧ 1 ≤ d ∧ d ≤ 60 ∧ fl ≤ y ∧ lo ≤ 50 ∧ st ≤ 20
        (¬good → answers .range) ∧
        ∀ q : Consumable, good → kind = q.number → (q ≠ (s.supply i).kind → used → answers .busy) ∧
        ((q = (s.supply i).kind ∨ ¬used) →
          ∃ t, exec .tableWrite s = .next t ∧ t.supply i = ⟨.defined, q, y, d, fl, lo, st⟩ ∧
            (∀ k, k ≠ i → t.supply k = s.supply k) ∧
            (∀ p q, t.slotRecord p q =
              if y < (s.supply i).ratedYield ∧ (s.slotRecord p q).supply = i then
                { s.slotRecord p q with remaining := min (s.slotRecord p q).remaining y }
              else s.slotRecord p q) ∧
            t.up = (s.tookUp.replied f .done .none).up ∧ { t.tables with supplies := s.tables.supplies } = s.tables ∧
            { t with up := s.up, age := s.age, tables := s.tables, slotRecords := s.slotRecords } = s)) ∧
    (∀ u : Fin 8192,
      let old := s.user u
      (f.body = u8 2 ++ u16 u ++ u8 0 →
        (old.liveJobs ≠ 0 → answers .busy) ∧ (old.liveJobs = 0 → writes (s.tookUp.setUser u { old with state := .empty }))) ∧
      (∀ (k : Nat) (rest : List Byte), 2 ≤ k → k ≤ 255 → f.body = u8 2 ++ u16 u ++ (u8 k ++ rest) → answers .range) ∧
      ∀ (badge : Code32) (a z : Nat) (may partly colour : Bool) (live : Byte), a ≤ 65535 → z ≤ 255 →
        f.body = u8 2 ++ u16 u ++
          (u8 1 ++ u32 badge.toNat ++ u16 a ++ u8 z ++ flagByte may ++ flagByte partly ++ flagByte colour ++ [live]) →
        let held : Prop := ∃ k, k ≠ u ∧ (s.user k).state = .defined ∧ (s.user k).badge = badge
        ((badge = 0 ∨ 1024 ≤ a ∨ 16 ≤ z ∨ held) → answers .range) ∧
        ∀ (account : Fin 1024) (zone : Fin 16), badge ≠ 0 → ¬held → a = account → z = zone →
          (old.liveJobs ≠ 0 → account ≠ old.account → answers .busy) ∧
          ((old.liveJobs = 0 ∨ account = old.account) →
            writes (s.tookUp.setUser u ⟨.defined, badge, account, zone, may, partly, colour, old.liveJobs⟩)))

/-- TABLE_WRITE of a printer entry, its fields as R3 orders them (the lists and pairs are log entry 15, a fitted flag as bit 0 of a byte log
entry 14). A DEFINED entry is refused RANGE when a fitted slot's default type is not DEFINED for the slot or another DEFINED entry holds the
station (R4). Over an EMPTY entry it starts the printer: state UNKNOWN with nothing remembered and slot records at their reset values (R5,
R136, R164), and no change of view is told, which is log entry 25. Over a DEFINED entry it is BUSY while a context is bound there or the
queue holds an entry for the printer; otherwise, with the same station, only the slots whose fitted flag changes are reset (R6), and with
another station the conditions, callouts and slots are reset and the SAVED context is FREE (R7). Made EMPTY, the entry keeps its other
fields, and the printer has no conditions, no state (log entry 34) and no callouts and its slots are reset (R8). The arbiter has nothing to
do here: no queue entry waits. -/
def Obligations.PrinterEntryIsWritten : Prop :=
  ∀ (s : State) (f : CommandFrame) (p : Fin 64), Commanded s 1 f → s.TablesCanonical →
    let answers (c : Code) : Prop := exec .tableWrite s = .next (s.tookUp.replied f c .none)
    let busy : Prop := s.boundAt p ≠ none ∨ ∃ x ∈ s.ru.queue, x.printer = p
    let renewed (t : State) (e : PrinterEntry) : Prop :=
      t.printer p = e ∧ (∀ k, k ≠ p → t.printer k = s.printer k) ∧ { t.tables with printers := s.tables.printers } = s.tables ∧
      (∀ q, t.slotRecord p q = SlotRecord.resetTo (e.slotMap.get q).defaultType) ∧
      (∀ k q, k ≠ p → t.slotRecord k q = s.slotRecord k q) ∧ t.up = (s.tookUp.replied f .done .none).up
    let unheld (t : State) : Prop :=
      (∀ c, t.context c =
        if (s.context c).owner = some p ∧ (s.context c).state = .saved then Context.free else s.context c) ∧
      (∀ c, c ∈ t.ru.saved ↔ c ∈ s.ru.saved ∧ ¬((s.context c).owner = some p ∧ (s.context c).state = .saved)) ∧ t.ru.queue = [] ∧
      (∀ i, (t.callout i).state ≠ .free → (t.callout i).printer ≠ p) ∧ { t.mu with reports := s.mu.reports } = s.mu ∧
      { t with
        up := s.up, age := s.age, tables := s.tables, cm := s.cm, se := s.se, ru := s.ru, co := s.co,
        slotRecords := s.slotRecords, mu := s.mu } = s
    (∀ e : PrinterEntry, f.body = u8 0 ++ u16 p ++ e.bytes → e.state = .defined → e.station ≠ 0 →
      e.station.getLsbD 40 = false → e.options.length ≤ 8 → (e.options.map (fun o => o.code)).Nodup →
      (∀ o ∈ e.options, o.code.inRange o.value = true) → 30 ≤ e.statusTimeout → e.statusTimeout ≤ 600 →
      let good : Prop :=
        (∀ q, (e.slotMap.get q).fitted = true →
          (s.supply (e.slotMap.get q).defaultType).state = .defined ∧ (s.supply (e.slotMap.get q).defaultType).kind = q) ∧
        ∀ k, k ≠ p → (s.printer k).state = .defined → (s.printer k).station ≠ e.station
      let fresh : ConditionRecord :=
        ⟨[], some .unknown, ⟨false, false, false, false⟩, some ⟨e.statusTimeout, false⟩, none, []⟩
      (¬good → answers .range) ∧
      (good → (s.printer p).state = .empty →
        ∃ t, exec .tableWrite s = .next t ∧ renewed t e ∧ t.cond p = fresh ∧ (∀ k, k ≠ p → t.cond k = s.cond k) ∧
          { t with up := s.up, age := s.age, tables := s.tables, cm := s.cm, slotRecords := s.slotRecords } = s) ∧
      (good → (s.printer p).state = .defined → busy → answers .busy) ∧
      (good → (s.printer p).state = .defined → ¬busy → (s.printer p).station = e.station →
        ∃ t, exec .tableWrite s = .next t ∧ t.printer p = e ∧ (∀ k, k ≠ p → t.printer k = s.printer k) ∧
          { t.tables with printers := s.tables.printers } = s.tables ∧
          (∀ q, t.slotRecord p q =
            if ((s.printer p).slotMap.get q).fitted = (e.slotMap.get q).fitted then s.slotRecord p q
            else SlotRecord.resetTo (e.slotMap.get q).defaultType) ∧
          (∀ k q, k ≠ p → t.slotRecord k q = s.slotRecord k q) ∧ t.up = (s.tookUp.replied f .done .none).up ∧
          { t with up := s.up, age := s.age, tables := s.tables, slotRecords := s.slotRecords } = s) ∧
      (good → (s.printer p).state = .defined → s.boundAt p = none → s.ru.queue = [] → s.ContextsAgree →
        (s.printer p).station ≠ e.station →
        ∃ t, exec .tableWrite s = .next t ∧ renewed t e ∧ t.cond p = fresh ∧ unheld t)) ∧
    (f.body = u8 0 ++ u16 p ++ u8 0 →
      ((s.printer p).state = .empty → answers .done) ∧ ((s.printer p).state = .defined → busy → answers .busy) ∧
      ((s.printer p).state = .defined → s.boundAt p = none → s.ru.queue = [] → s.ContextsAgree →
        ∃ t, exec .tableWrite s = .next t ∧ renewed t { s.printer p with state := .empty } ∧
          t.cond p = ⟨[], none, ⟨false, false, false, false⟩, none, none, []⟩ ∧ unheld t))

/-- ACCOUNT_CREDIT raises the balance and saturates at 999,999.99; ACCOUNT_DEBIT lowers it within the available amount and is refused
RANGE beyond it; each reply carries the balance and the available amount (R101, R102). -/
def Obligations.CreditAndDebitMoveBalance : Prop :=
  ∀ (s : State) (f : CommandFrame) (i : Fin 1024) (x : Nat), x ≤ 99999999 → f.body = u16 i ++ amountBytes x →
    let a := s.account i
    (Commanded s 3 f → a.balance + x ≤ 99999999 →
      exec .accountCredit s = .next
        ((s.tookUp.setAccount i { a with balance := a.balance + x }).replied f .done
          (.balance i (a.balance + x) (a.balance + x - a.reserved + a.overdraft)))) ∧
    (Commanded s 3 f → 99999999 < a.balance + x →
      exec .accountCredit s = .next
        ((s.tookUp.setAccount i { a with balance := 99999999 }).replied f .saturated
          (.balance i 99999999 (99999999 - a.reserved + a.overdraft)))) ∧
    (Commanded s 4 f → 0 ≤ a.balance - a.reserved + a.overdraft - x →
      exec .accountDebit s = .next
        ((s.tookUp.setAccount i { a with balance := a.balance - x }).replied f .done
          (.balance i (a.balance - x) (a.balance - x - a.reserved + a.overdraft)))) ∧
    (Commanded s 4 f → a.balance - a.reserved + a.overdraft - x < 0 →
      exec .accountDebit s = .next
        (s.tookUp.replied f .range (.balance i a.balance (a.balance - a.reserved + a.overdraft))))

/-- RESERVE adds the amount to reserved when the account is OPEN, its available amount covers it and reserved stays within 999,999.99,
and otherwise changes nothing (R95). SETTLE charges the balance with the smaller of charge and reservation, adds the rest of the charge to
unbilled, and removes the reservation; RETURN gives the reservation back without charge; neither lowers the available amount (R94, R96,
R97, R98). -/
def Obligations.ReservationIsTakenAndReleased : Prop :=
  (∀ (s : State) (i : Fin 1024) (x : Nat),
    let a := s.account i
    (a.state = .opened → (x : Int) ≤ a.balance - a.reserved + a.overdraft → a.reserved + x ≤ 99999999 →
      s.reserve i x =
        (s.setAccount i { a with reserved := a.reserved + x, liveReservations := a.liveReservations + 1 }, .reserved)) ∧
    (a.state = .closed → s.reserve i x = (s, .closed)) ∧ (a.state = .frozen → s.reserve i x = (s, .frozen)) ∧
    (a.state = .opened → a.balance - a.reserved + a.overdraft < x → s.reserve i x = (s, .quota)) ∧
    (a.state = .opened → (x : Int) ≤ a.balance - a.reserved + a.overdraft → 99999999 < a.reserved + x →
      s.reserve i x = (s, .quota))) ∧
  ∀ (s : State) (j : Fin 512) (res : Nat), (s.job j).reservation = some res →
    let a := s.account (s.job j).account
    let t := s.settleJob j
    let u := s.returnJob j
    let charge := (computeCharge (s.job j).tallies (s.plan a.plan)).amount
    t.account (s.job j).account = { a with
      balance := a.balance - (min charge res : Nat)
      reserved := a.reserved - res
      charged := min (a.charged + (min charge res : Nat)) 9999999999
      unbilled := min (a.unbilled + (charge - min charge res : Nat)) 99999999
      liveReservations := a.liveReservations - 1 } ∧
    a.available ≤ (t.account (s.job j).account).available ∧ t.job j = { s.job j with reservation := none } ∧
    u.account (s.job j).account = { a with reserved := a.reserved - res, liveReservations := a.liveReservations - 1 } ∧
    (u.account (s.job j).account).available = a.available + res ∧ u.job j = { s.job j with reservation := none } ∧
    (∀ i, i ≠ (s.job j).account → t.account i = s.account i ∧ u.account i = s.account i) ∧
    (∀ k, k ≠ j → t.job k = s.job k ∧ u.job k = s.job k) ∧
    { t with tables := s.tables, jobs := s.jobs } = s ∧ { u with tables := s.tables, jobs := s.jobs } = s

/-! ### Charges and amounts -/

/-- The charge: net is gross less the duplex credit and not below 0, the discount is rounded to the nearest hundredth, half up, a job
that printed a face is charged at least the minimum, one that printed none 0, and no charge exceeds 999,999.99 (R87, R88). -/
def Obligations.ChargeFollowsStages : Prop :=
  ∀ (t : Tallies) (p : RatePlan), p.discount ≤ 99 → p.minimum ≤ 9999 →
    let gross := t.fm * p.rm + t.fc * p.rc + t.l * p.rl
    let net := gross - t.d * p.rd
    let c := computeCharge t p
    (c.floored = true ↔ gross < t.d * p.rd) ∧
    net * (100 - p.discount) < 100 * discountedOf t p + 50 ∧ 100 * discountedOf t p ≤ net * (100 - p.discount) + 50 ∧
    (t.fm + t.fc = 0 → c.amount = 0 ∧ c.minimum = false) ∧
    (1 ≤ t.fm + t.fc → discountedOf t p < p.minimum → c.amount = p.minimum ∧ c.minimum = true) ∧
    (1 ≤ t.fm + t.fc → p.minimum ≤ discountedOf t p → c.amount = min (discountedOf t p) 99999999 ∧ c.minimum = false) ∧
    (c.clamped = true ↔ 1 ≤ t.fm + t.fc ∧ 99999999 < discountedOf t p) ∧ c.amount ≤ 99999999 ∧
    ¬(c.floored = true ∧ c.clamped = true)

/-- CAP SEARCH gives the largest sheet count from 1 to the total whose capped estimate does not exceed the amount, and NONE exactly when
there is no such count; the capped estimate of one sheet is at least the minimum, and that of all sheets is the estimate of the whole
job (R89). -/
def Obligations.CapSearchIsLargest : Prop :=
  ∀ (plan : RatePlan) (v : ChargeValues) (pages copies : Nat) (limit : Int),
    (∀ n, capSearch plan v pages copies limit = some n ↔
      1 ≤ n ∧ n ≤ totalSheets v.sides pages copies ∧ (cappedEstimate plan v pages n : Int) ≤ limit ∧
      ∀ m, n < m → m ≤ totalSheets v.sides pages copies → limit < (cappedEstimate plan v pages m : Int)) ∧
    (capSearch plan v pages copies limit = none ↔
      ∀ m, 1 ≤ m → m ≤ totalSheets v.sides pages copies → limit < (cappedEstimate plan v pages m : Int)) ∧
    (plan.minimum ≤ 9999 → plan.minimum ≤ cappedEstimate plan v pages 1) ∧
    cappedEstimate plan v pages (totalSheets v.sides pages copies) = estimate plan v pages copies

/-- The signed addition of R91, digit by digit on sign and magnitude, is the addition of the integers they stand for, saturating at the
largest magnitude of the field; its result has PLUS when it is 0 (R90, R91). A sum below minus that magnitude, which R91 rules out,
saturates there in the model's refinement (log entry 32). -/
def Obligations.PackedAdditionIsExact : Prop :=
  ∀ (w : Nat) (x y : Int), x.natAbs < 10 ^ w → y.natAbs < 10 ^ w →
    ((Packed.ofInt w x).add (Packed.ofInt w y)).value =
      (if (10 : Int) ^ w - 1 < x + y then (10 : Int) ^ w - 1 else if x + y < -((10 : Int) ^ w - 1) then -((10 : Int) ^ w - 1)
        else x + y) ∧
    (x + y = 0 → ((Packed.ofInt w x).add (Packed.ofInt w y)).minus = false)

/-! ### The management link -/

/-- The reading commands answer with what they read and change nothing else: TABLE_READ of each of the seven tables, CONDITION_READ,
CALLOUT_READ with the printer's entries in condition order and the counts of FREE entries and of owed RESOLVED notices, SLOT_READ with each
slot's days-left and rated yield, CHECK_READ, JOB_READ, which of a QUEUED job carries the queue entry and its place, counted from 1 at
the head (log entry 33), and PART_READ (R2, R134, R151, R154, R163, R170, R172). -/
def Obligations.ReadsChangeNothing : Prop :=
  ∀ (s : State) (f : CommandFrame) (p : Fin 64),
    let answers (i : Instr) (x : Contents) : Prop := exec i s = .next (s.tookUp.replied f .done x)
    (Commanded s 2 f →
      (f.body = u8 0 ++ u16 p → answers .tableRead (.printer (s.printer p))) ∧
      (∀ z : Fin 16, f.body = u8 1 ++ u16 z → answers .tableRead (.zone (s.zone z))) ∧
      (∀ u : Fin 8192, f.body = u8 2 ++ u16 u → answers .tableRead (.user (s.user u))) ∧
      (∀ i : Fin 1024, f.body = u8 3 ++ u16 i → answers .tableRead (.account (s.account i))) ∧
      (∀ i : Fin 16, f.body = u8 4 ++ u16 i → answers .tableRead (.plan (s.plan i))) ∧
      (∀ c : Fin 256, f.body = u8 5 ++ u16 c → answers .tableRead (.condition (s.condition c))) ∧
      (f.body = u8 6 ++ u16 p → answers .tableRead (.supply (s.supply p)))) ∧
    (f.body = u8 p → (s.printer p).state = .defined →
      (Commanded s 6 f → answers .conditionRead (.conditions (s.cond p))) ∧
      (Commanded s 9 f →
        ∃ es, answers .calloutRead
            (.callouts es ((List.finRange 48).countP (fun k => decide ((s.callout k).state = .free))) s.co.owedResolved.length) ∧
          es.Perm (((List.finRange 48).map s.callout).filter (fun e => decide (e.state ≠ .free) && decide (e.printer = p))) ∧
          es.Pairwise (fun a b => a.firstSeen.day < b.firstSeen.day ∨ (a.firstSeen.day = b.firstSeen.day ∧
            (a.firstSeen.minute < b.firstSeen.minute ∨ (a.firstSeen.minute = b.firstSeen.minute ∧
              (s.cond p).list.findIdx (fun it => decide (it.code = a.code)) ≤
                (s.cond p).list.findIdx (fun it => decide (it.code = b.code))))))) ∧
      (Commanded s 14 f →
        let slot (q : Consumable) : SlotReading :=
          ⟨((s.printer p).slotMap.get q).fitted, s.slotRecord p q,
            if (s.slotRecord p q).average = 0 then 999 else min 999 ((s.slotRecord p q).remaining / (s.slotRecord p q).average),
            (s.supply (s.slotRecord p q).supply).ratedYield⟩
        answers .slotRead (.slots ⟨slot .k, slot .c, slot .m, slot .y, slot .drum, slot .fuser⟩))) ∧
    (Commanded s 21 f → f.body = [] →
      answers .checkRead (.checks ⟨s.mu.corrected, s.mu.uncorrectable, s.mu.overrun, s.mu.worst⟩ s.mu.checkLevel)) ∧
    (∀ (n : Nat) (j : Fin 512) (r : JobRecord), Commanded s 23 f → f.body = u16 n → n ≤ 65535 → n ≠ 0 → s.findJob n = some (j, r) →
      ((∀ e ∈ s.ru.queue, e.job ≠ n) → answers .jobRead (.job r none)) ∧
      ∀ (before after : List QueueEntry) (e : QueueEntry), s.ru.queue = before ++ e :: after → e.job = n →
        (∀ x ∈ before, x.job ≠ n) → answers .jobRead (.job r (some (before.length + 1, e)))) ∧
    (Commanded s 24 f → f.body = [] →
      answers .partRead (.part
        { service := s.mu.service, clock := s.mu.clock, checkLevel := s.mu.checkLevel, poolLength := s.hsc.poolLength
          jobStates := [JobState.free, .receiving, .sealing, .held, .queued, .seeking, .opening, .printing, .parked].map
            (fun x => (List.finRange 512).countP (fun j => decide ((s.job j).state = x)))
          uploadStates := [UploadState.free, .opened, .sealing, .ending].map
            (fun x => (List.finRange 16).countP (fun i => decide ((s.slot i).state = x)))
          contextStates := [ContextState.free, .opening, .running, .halted, .saved].map
            (fun x => (List.finRange 8).countP (fun c => decide ((s.context c).state = x)))
          savedLength := s.ru.saved.length, releaseDepth := s.ru.queue.length, writeDepth := s.hsc.writes.length
          readDepth := s.hsc.reads.length, reportDepth := s.mu.reports.length
          calloutStates := [CalloutState.free, .grace, .owed, .sent, .escalated, .acked, .suppressed].map
            (fun x => (List.finRange 48).countP (fun i => decide ((s.callout i).state = x)))
          owedResolved := s.co.owedResolved.length, droppedNotices := s.co.dropped, droppedAudits := s.mu.droppedAudits
          consoles := [s.console 0, s.console 1, s.console 2, s.console 3] }))

/-- CONSOLE_SET of an address that is individual, not zero and held by no other entry takes it; a flag set on one entry clears the flag on
every other; an address held elsewhere is refused RANGE; an address of none empties the entry (R165). The flag is bit 0 of a byte of its
own (log entry 14), and an address of none is a body without one (log entry 13). -/
def Obligations.ConsoleSetKeepsOneReportStation : Prop :=
  ∀ (s : State) (f : CommandFrame) (i : Fin 4) (flag : Bool), Commanded s 15 f →
    (f.body = u8 i ++ flagByte flag → exec .consoleSet s = .next ((s.tookUp.setConsole i none).replied f .done .none)) ∧
    ∀ a : Station, f.body = u8 i ++ stationBytes a ++ flagByte flag → a ≠ 0 → a.getLsbD 40 = false →
      ((∀ k, k ≠ i → ∀ e, s.console k = some e → e.station ≠ a) →
        ∃ t, exec .consoleSet s = .next t ∧ t.console i = some ⟨a, flag⟩ ∧
          (∀ k, k ≠ i → t.console k = (s.console k).map (fun e => ⟨e.station, e.reportStation && !flag⟩)) ∧
          t.up = (s.tookUp.replied f .done .none).up ∧ { t.mu with consoles := s.mu.consoles } = s.mu ∧
          { t with up := s.up, age := s.age, mu := s.mu } = s) ∧
      ((∃ k e, k ≠ i ∧ s.console k = some e ∧ e.station = a) → exec .consoleSet s = .next (s.tookUp.replied f .range .none))

/-- SERVICE_ON, INTAKE_CLOSE and SERVICE_OFF change the service state as the table of R166 gives, and answer STATE in the other
states (R166); here no upload is in progress. TIME_SET to a day not greater than the present one sets the clock and runs no rollover, to a
greater one runs the rollover processing once; a minute above 1439 is refused RANGE (R167). -/
def Obligations.ServiceStateAndClockAreSet : Prop :=
  (∀ (s : State) (f : CommandFrame), f.body = [] →
    (Commanded s 16 f → (s.mu.service = .intakeClosed ∨ (s.mu.service = .idle ∧ s.mayServe = true)) →
      exec .serviceOn s = .next ({ s.tookUp with mu := { s.mu with service := .serving } }.replied f .done .none)) ∧
    (Commanded s 16 f → (s.mu.service = .serving ∨ (s.mu.service = .idle ∧ s.mayServe = false)) →
      exec .serviceOn s = .next (s.tookUp.replied f .state .none)) ∧
    (Commanded s 17 f → s.mu.service = .serving →
      exec .intakeClose s = .next ({ s.tookUp with mu := { s.mu with service := .intakeClosed } }.replied f .done .none)) ∧
    (Commanded s 17 f → s.mu.service ≠ .serving → exec .intakeClose s = .next (s.tookUp.replied f .state .none)) ∧
    (Commanded s 18 f → s.mu.service ≠ .idle → (∀ i, (s.slot i).state = .free) →
      exec .serviceOff s = .next ({ s.tookUp with mu := { s.mu with service := .idle } }.replied f .done .none)) ∧
    (Commanded s 18 f → s.mu.service = .idle → exec .serviceOff s = .next (s.tookUp.replied f .state .none))) ∧
  ∀ (s : State) (f : CommandFrame) (d m : Nat), Commanded s 19 f → f.body = u16 d ++ u16 m → d ≤ 65535 → m ≤ 65535 →
    (m ≤ 1439 → d ≤ s.mu.clock.day →
      exec .timeSet s = .next ({ s.tookUp with mu := { s.mu with clock := ⟨d, m⟩ } }.replied f .done .none)) ∧
    (m ≤ 1439 → s.mu.clock.day < d →
      exec .timeSet s = .next ((State.rollover { s.tookUp with mu := { s.mu with clock := ⟨d, m⟩ } }).replied f .done .none)) ∧
    (1439 < m → exec .timeSet s = .next (s.tookUp.replied f .range .none))

/-- CHECK_LEVEL sets the level, or is refused RANGE above 3; CHECK_READ answers with the records, the worst class and the level and
changes nothing; CHECK_CLEAR clears the records and answers with them as they stood (R170). -/
def Obligations.ChecksAreSetAndCleared : Prop :=
  ∀ (s : State) (f : CommandFrame) (n : Nat), n ≤ 255 →
    (∀ l : Fin 4, Commanded s 20 f → f.body = u8 n → l.val = n →
      exec .checkLevel s = .next ({ s.tookUp with mu := { s.mu with checkLevel := l } }.replied f .done .none)) ∧
    (Commanded s 20 f → f.body = u8 n → 3 < n → exec .checkLevel s = .next (s.tookUp.replied f .range .none)) ∧
    (Commanded s 21 f → f.body = [] →
      exec .checkRead s = .next (s.tookUp.replied f .done
        (.checks ⟨s.mu.corrected, s.mu.uncorrectable, s.mu.overrun, s.mu.worst⟩ s.mu.checkLevel))) ∧
    (Commanded s 22 f → f.body = [] →
      exec .checkClear s = .next
        ({ s.tookUp with
            mu := { s.mu with
              corrected := ⟨0, none, none⟩, uncorrectable := ⟨0, none, none⟩, overrun := ⟨0, none, none⟩,
              worst := none } }.replied f .done
          (.checksCleared ⟨s.mu.corrected, s.mu.uncorrectable, s.mu.overrun, s.mu.worst⟩)))

/-- RECALL_JOB, answered as R116 tables: RANGE for number 0, TOO_LATE for a number no live job holds, STATE where an earlier code of an
upload stands, else DONE. An upload is abandoned CANCELLED, or keeps that as its pending code (R116). A HELD job is freed with JOB-REFUSED
RECALLED (R117, R119). A PARKED or QUEUED job, or one with a bound context, is settled if tallied, else its reservation returned, with a
JOB-AUDIT RECALLED; its record and chain are freed, its user's live job count falls, and JOB-REFUSED RECALLED goes out (R99, R100, R117,
R118, R119). A QUEUED job's entry leaves the queue, and a SAVED context that names the job stops naming it and loses save-done. A bound
context becomes FREE, its printer being sent STREAM-ABORT END where it was sent a STREAM-OPEN; with a read in flight or an end pending the
recall waits as the pending end, and a first recall that waits stands (R118); here no PRINTER-RESET waits at that printer. The arbiter is
run where R117 and R118 say. That the JOB-REFUSED stands before the REPLY is the model's choice of log entry 41, and that it and the
JOB-AUDIT come before the arbiter's run that of log entry 42. What stands in the fields of a FREE record that the manual does not give is
the model's choice, log entry 11. -/
def Obligations.RecallTakesJob : Prop :=
  ∀ (s : State) (f : CommandFrame) (n : Nat), Commanded s 5 f → f.body = u16 n → n ≤ 65535 →
    let answers (c : Code) : Prop := exec .recallJob s = .next (s.tookUp.replied f c .none)
    let done (t : State) : Prop := exec .recallJob s = .next (t.replied f .done .none)
    (n = 0 → answers .range) ∧ (n ≠ 0 → s.findJob n = none → answers .tooLate) ∧
    ∀ (j : Fin 512) (r : JobRecord), n ≠ 0 → s.findJob n = some (j, r) → s.job j = r →
      (∀ i, (r.state = .receiving ∨ r.state = .sealing) → s.findSlot n = some i →
        ((s.slot i).state = .opened → done (s.tookUp.abandon i .cancelled)) ∧
        ((s.slot i).state = .sealing → (s.slot i).pending = none →
          done (s.tookUp.setSlot i { s.slot i with pending := some .cancelled })) ∧
        (((s.slot i).state = .sealing ∧ (s.slot i).pending ≠ none) ∨ (s.slot i).state = .ending → answers .state)) ∧
      (r.state = .held → done ((s.tookUp.dropJob j).sentUp r.station (.refusedJob n .recalled))) ∧
      (∀ c, (r.state = .seeking ∨ r.state = .opening ∨ r.state = .printing) → s.boundContextOf n = some c →
        let x := s.context c
        (x.pendingEnd = some .recall ∨ r.recallPending = true → answers .done) ∧
        (∀ k, x.pendingEnd = some k → k ≠ .recall → r.recallPending = false →
          done (s.tookUp.setContext c { x with pendingEnd := some .recall })) ∧
        (x.pendingEnd = none → r.recallPending = false → s.readInFlight c = true →
          ∃ t, done t ∧ (t.context c).pendingEnd = some .recall ∧
            { t.context c with
              pendingEnd := none, bufA := x.bufA, bufB := x.bufB, nextFetch := x.nextFetch, position := x.position } = x ∧
            (∀ d, d ≠ c → t.context d = s.context d) ∧ t.se.notices = s.se.notices ∧
            t.hsc = { s.hsc with reads := s.hsc.reads.filter (fun e => e.context != c) } ∧
            { t with se := s.se, hsc := s.hsc } = s.tookUp)) ∧
      ∀ res, s.TablesCanonical → r.reservation = some res →
        let a := s.account r.account
        let tallied := decide (1 ≤ r.tallies.fm + r.tallies.fc)
        let charge := computeCharge r.tallies (s.plan a.plan)
        let paid := min charge.amount res
        let unnamed (y : Context) : Context :=
          if y.state = .saved ∧ y.parkedJob = some n then { y with parkedJob := none, saveDone := false } else y
        let recalled (t : State) (age : Nat) : Prop :=
          t.job j = JobRecord.powerOn ∧ (∀ k, k ≠ j → t.job k = s.job k) ∧
          t.account r.account =
            (if tallied then
              { a with
                balance := a.balance - (paid : Nat), reserved := a.reserved - res
                charged := min (a.charged + (paid : Nat)) 9999999999
                unbilled := min (a.unbilled + (charge.amount - paid : Nat)) 99999999, liveReservations := a.liveReservations - 1 }
             else { a with reserved := a.reserved - res, liveReservations := a.liveReservations - 1 }) ∧
          (∀ i, i ≠ r.account → t.account i = s.account i) ∧
          t.user r.user = { s.user r.user with liveJobs := (s.user r.user).liveJobs - 1 } ∧
          (∀ u, u ≠ r.user → t.user u = s.user u) ∧
          { t.tables with accounts := s.tables.accounts, users := s.tables.users } = s.tables ∧
          (∀ h x, r.chainHead = some h → r.chainTail = some x →
            t.hsc.poolTail = some x ∧ t.hsc.poolLength = s.hsc.poolLength + r.extents) ∧
          { t.hsc with
            links := s.hsc.links, poolHead := s.hsc.poolHead, poolTail := s.hsc.poolTail, poolLength := s.hsc.poolLength,
            reads := s.hsc.reads } = s.hsc ∧
          (s.mu.reports.length < 64 →
            ∃ b : JobAudit, t.mu = { s.mu with reports := s.mu.reports ++ [(⟨s.mu.clock, .audit b⟩ : Report)] } ∧ b.job = n ∧
              b.reason = .recalled ∧ b.disposition = (if tallied then .settled else .returned) ∧ b.reservation = res ∧
              b.charge = (if tallied then charge.amount else 0) ∧ b.charged = (if tallied then paid else 0)) ∧
          (64 ≤ s.mu.reports.length → t.mu = { s.mu with droppedAudits := min (s.mu.droppedAudits + 1) 65535 }) ∧
          t.up = { s.tookUp.up with tx := s.up.tx ++ [⟨age, r.station, .refusedJob n .recalled⟩] } ∧ t.age = age + 1 ∧
          t.se.notices = s.se.notices ∧
          { t with
            up := s.up, age := s.age, fp := s.fp, jobs := s.jobs, tables := s.tables, hsc := s.hsc, se := s.se, ru := s.ru,
            mu := s.mu } = s
        (r.state = .parked →
          ∃ t, done t ∧ recalled t s.age ∧ (∀ d, t.context d = unnamed (s.context d)) ∧ t.ru = s.ru ∧
            t.hsc.reads = s.hsc.reads ∧ t.fp = s.fp) ∧
        (r.state = .queued →
          ∃ t, done t.runArbiter ∧ recalled t s.age ∧ (∀ d, t.context d = unnamed (s.context d)) ∧
            t.ru = { s.ru with queue := s.ru.queue.filter (fun e => e.job != n) } ∧ t.hsc.reads = s.hsc.reads ∧ t.fp = s.fp) ∧
        ∀ (c : Fin 8) (p : Fin 64), (r.state = .seeking ∨ r.state = .opening ∨ r.state = .printing) →
          s.boundContextOf n = some c → (s.context c).owner = some p → (s.context c).pendingEnd = none →
          r.recallPending = false → s.readInFlight c = false → s.resetWait p = none →
          let x := s.context c
          let opened := decide (x.state = .running ∨ x.state = .halted ∨ (x.state = .opening ∧ x.step = some .sent))
          ∃ t, done t.runArbiter ∧ recalled t (if opened then s.age + 1 else s.age) ∧ t.context c = Context.free ∧
            (∀ d, d ≠ c → t.context d = unnamed (s.context d)) ∧
            t.ru = { s.ru with saved := s.ru.saved.filter (fun d => d != c) } ∧
            t.hsc.reads = s.hsc.reads.filter (fun e => e.context != c) ∧
            t.fp =
              (if opened then
                { s.fp with tx := s.fp.tx ++ [⟨s.age, (s.printer p).station, .streamAbort n .ended x.sent x.lastSheet⟩] }
               else s.fp)

/-- PRINTER_RESET of a DEFINED printer with no context and no queue entry: its condition list is empty and its state UNKNOWN with the
history kept, its six slot records take their reset values, and the reply is sent; a printer whose reset waits is answered BUSY
(R80, R135, R164, R173). -/
def Obligations.PrinterResetRenewsPrinter : Prop :=
  ∀ (s : State) (f : CommandFrame) (p : Fin 64), Commanded s 25 f → f.body = u8 p → (s.printer p).state = .defined →
    (s.resetWait p = none → (∀ c, (s.context c).owner ≠ some p) → s.ru.queue = [] →
      ∃ t, exec .printerReset s = .next t ∧
        t.cond p = ⟨[], some .unknown, ⟨false, false, false, false⟩, some ⟨(s.printer p).statusTimeout, false⟩, none,
          (s.cond p).history⟩ ∧
        (∀ q, t.slotRecord p q = SlotRecord.resetTo ((s.printer p).slotMap.get q).defaultType) ∧
        (∀ p' q, p' ≠ p → t.slotRecord p' q = s.slotRecord p' q) ∧ (∀ p', t.resetWait p' = s.resetWait p') ∧
        (∀ i, (t.callout i).state ≠ .free → (t.callout i).printer ≠ p) ∧
        t.up = (s.tookUp.replied f .done .none).up ∧ t.se.contexts = s.se.contexts ∧ t.ru.queue = [] ∧
        t.ru.saved = s.ru.saved ∧ { t.mu with reports := s.mu.reports, resetWaits := s.mu.resetWaits } = s.mu ∧
        { t with
          up := s.up, age := s.age, cm := s.cm, se := s.se, ru := s.ru, co := s.co, slotRecords := s.slotRecords,
          mu := s.mu } = s) ∧
    (s.resetWait p ≠ none → exec .printerReset s = .next (s.tookUp.replied f .busy .none))

/-- RESTART drops every job, empties the queues, contexts, callouts, owed RESOLVED notices and the ports, opens every zone, makes every
DEFINED printer UNKNOWN, leaves one RESTARTED report with the number of jobs dropped, sets IDLE and answers DONE; loaded prices, conditions,
consoles, clock, checks and the last job number are kept (R40, R136, R150, R169, R174); here no PRINTER-RESET waits. That the reply alone
stands in the upstream queue, the ports being emptied before it, is the model's reading, log entry 8. Where the records agree (R21, R93),
every extent is in the free pool, and every account has reserved 0 and no live reservation, its balance less what the settled jobs are
charged, and its static fields (R96, R99, R105). What stands in the fields of a FREE record that the manual does not give is the model's
choice, log entry 11. -/
def Obligations.RestartClearsLiveWork : Prop :=
  ∀ (s : State) (f : CommandFrame), Commanded s 26 f → f.body = [] → (∀ p, s.resetWait p = none) →
    ∃ t, exec .restart s = .next t ∧ (∀ j, t.job j = JobRecord.powerOn) ∧ (∀ i, t.slot i = UploadSlot.powerOn) ∧
      (∀ c, t.context c = Context.free) ∧ t.ru.queue = [] ∧ t.ru.saved = [] ∧ t.hsc.writes = [] ∧ t.hsc.reads = [] ∧
      t.hsc.op = s.hsc.op.map (fun o => { o with ignored := true }) ∧ t.hsc.lastServed = s.hsc.lastServed ∧
      t.hsc.store = s.hsc.store ∧ t.lastNumber = s.lastNumber ∧ (∀ i, (t.callout i).state = .free) ∧ t.co.owedResolved = [] ∧
      t.co.dropped = s.co.dropped ∧ (s.TablesCanonical → ∀ z, t.zone z = { s.zone z with mute := none }) ∧
      (s.TablesCanonical → ∀ u, t.user u = { s.user u with liveJobs := 0 }) ∧
      (∀ p, (s.printer p).state = .defined → (t.cond p).state = some .unknown ∧ (t.cond p).list = [] ∧ (t.cond p).history = []) ∧
      t.mu.reports = [⟨s.mu.clock, .restarted
        ⟨s.jobs.cells.countP (fun c => decide (c.2.state ≠ .free)),
          s.jobs.cells.countP (fun c => decide (c.2.reservation.isSome ∧ (c.2.state = .printing ∨ 1 ≤ c.2.tallies.fm + c.2.tallies.fc))),
          s.jobs.cells.countP
            (fun c => decide (c.2.reservation.isSome ∧ ¬(c.2.state = .printing ∨ 1 ≤ c.2.tallies.fm + c.2.tallies.fc)))⟩⟩] ∧
      { t.mu with service := s.mu.service, reports := s.mu.reports } = s.mu ∧ t.mu.service = .idle ∧
      t.slotRecords = s.slotRecords ∧ t.tables.printers = s.tables.printers ∧
      t.tables.plans = s.tables.plans ∧ t.tables.conditions = s.tables.conditions ∧ t.tables.supplies = s.tables.supplies ∧
      (∃ age, t.up = ⟨[], [], [⟨age, f.src, .reply f.tag f.kind .done .none⟩]⟩) ∧ t.fp = ⟨[], [], []⟩ ∧
      (s.Coherent → t.hsc.poolLength = 4096 ∧
        ∀ i, ∃ charged unbilled, t.account i = { s.account i with
          balance := (s.account i).balance - (s.jobSum (fun r =>
            if r.account = i ∧ r.reservation.isSome ∧ (r.state = .printing ∨ 1 ≤ r.tallies.fm + r.tallies.fc) then
              min (computeCharge r.tallies (s.plan (s.account i).plan)).amount (r.reservation.getD 0)
            else 0) : Nat)
          reserved := 0, charged := charged, unbilled := unbilled, liveReservations := 0 })

end
end

