-- ==== Sys2Proof/Laws/Table.lean ====
section
/-! SUPPORT. The laws of sparse tables: a read after a write, and the canonical form that every table operation keeps. -/

namespace Sys2Proof.Machine

variable {n : Nat} {α : Type}

theorem find_insertCell_same (i : Fin n) (v : α) (l : List (Fin n × α)) :
    (insertCell i v l).find? (fun c => c.1 == i) = some (i, v) := by
  induction l with
  | nil => simp [insertCell]
  | cons c rest ih =>
    obtain ⟨k, x⟩ := c
    simp only [insertCell]
    split
    · simp
    · split
      · simp
      · rename_i h
        rw [List.find?_cons_of_neg (by simpa using fun e => h e.symm)]
        exact ih

theorem find_insertCell_other {i j : Fin n} (h : j ≠ i) (v : α) (l : List (Fin n × α)) :
    (insertCell i v l).find? (fun c => c.1 == j) = l.find? (fun c => c.1 == j) := by
  induction l with
  | nil => simp [insertCell, h.symm]
  | cons c rest ih =>
    obtain ⟨k, x⟩ := c
    simp only [insertCell]
    split
    · simp [h.symm]
    · split
      · rename_i e
        subst e
        simp [h.symm]
      · simp [List.find?_cons, ih]

/-- A read after a write to the same entry gives the value written. -/
@[simp] theorem Table.get_set_same [DecidableEq α] (d : Fin n → α) (t : Table n α) (i : Fin n) (v : α) :
    (t.set d i v).get d i = v := by
  unfold Table.get Table.set
  by_cases h : v = d i
  · rw [if_pos h]
    have : (t.cells.filter (fun c => c.1 != i)).find? (fun c => c.1 == i) = none := by
      simp [List.find?_eq_none]
    simp [this, h]
  · rw [if_neg h]
    simp [find_insertCell_same]

/-- A write leaves every other entry alone. -/
theorem Table.get_set_other [DecidableEq α] (d : Fin n → α) (t : Table n α) {i j : Fin n} (h : j ≠ i) (v : α) :
    (t.set d i v).get d j = t.get d j := by
  unfold Table.get Table.set
  by_cases hv : v = d i
  · rw [if_pos hv]
    have : (t.cells.filter (fun c => c.1 != i)).find? (fun c => c.1 == j) = t.cells.find? (fun c => c.1 == j) := by
      rw [List.find?_filter]
      congr 1
      funext c
      by_cases e : c.1 = j
      · simp [e, h]
      · simp [e]
    simp [this]
  · rw [if_neg hv]
    simp [find_insertCell_other h]

/-- The canonical form, as a proposition. -/
theorem Table.wf_iff [DecidableEq α] (d : Fin n → α) (t : Table n α) :
    t.wf d = true ↔ t.cells.Pairwise (fun a b => a.1 < b.1) ∧ ∀ c ∈ t.cells, c.2 ≠ d c.1 := by
  simp [Table.wf]

theorem Table.wf_empty [DecidableEq α] (d : Fin n → α) : (⟨[]⟩ : Table n α).wf d = true := by simp [Table.wf]

theorem mem_insertCell {i : Fin n} {v : α} {l : List (Fin n × α)} {c : Fin n × α} (h : c ∈ insertCell i v l) :
    c = (i, v) ∨ c ∈ l := by
  induction l with
  | nil => simpa [insertCell] using h
  | cons a rest ih =>
    obtain ⟨k, x⟩ := a
    simp only [insertCell] at h
    split at h
    · simpa using h
    · split at h
      · rcases List.mem_cons.1 h with h | h
        · exact .inl h
        · exact .inr (List.mem_cons_of_mem _ h)
      · rcases List.mem_cons.1 h with h | h
        · exact .inr (h ▸ List.mem_cons_self)
        · rcases ih h with h | h
          · exact .inl h
          · exact .inr (List.mem_cons_of_mem _ h)

theorem pairwise_insertCell {i : Fin n} {v : α} {l : List (Fin n × α)} (h : l.Pairwise (fun a b => a.1 < b.1)) :
    (insertCell i v l).Pairwise (fun a b => a.1 < b.1) := by
  induction l with
  | nil => simp [insertCell]
  | cons a rest ih =>
    obtain ⟨k, x⟩ := a
    rw [List.pairwise_cons] at h
    simp only [insertCell]
    split
    · rename_i hik
      rw [List.pairwise_cons]
      refine ⟨fun b hb => ?_, by rw [List.pairwise_cons]; exact h⟩
      rcases List.mem_cons.1 hb with hb | hb
      · rw [hb]; exact hik
      · exact lt_trans hik (h.1 b hb)
    · split
      · rename_i e
        rw [List.pairwise_cons]
        exact ⟨fun b hb => e ▸ h.1 b hb, h.2⟩
      · rename_i h1 h2
        rw [List.pairwise_cons]
        refine ⟨fun b hb => ?_, ih h.2⟩
        rcases mem_insertCell hb with hb | hb
        · rw [hb]; exact lt_of_le_of_ne (not_lt.1 h1) (fun e => h2 e.symm)
        · exact h.1 b hb

/-- A write keeps the canonical form. -/
theorem Table.wf_set [DecidableEq α] (d : Fin n → α) (t : Table n α) (i : Fin n) (v : α) (h : t.wf d = true) :
    (t.set d i v).wf d = true := by
  rw [Table.wf_iff] at h ⊢
  unfold Table.set
  by_cases hv : v = d i
  · rw [if_pos hv]
    exact ⟨h.1.sublist List.filter_sublist, fun c hc => h.2 c (List.mem_filter.1 hc).1⟩
  · rw [if_neg hv]
    refine ⟨pairwise_insertCell h.1, fun c hc => ?_⟩
    rcases mem_insertCell hc with hc | hc
    · rw [hc]; exact hv
    · exact h.2 c hc

/-- Applying a function to every listed entry keeps the canonical form. -/
theorem Table.wf_mapListed [DecidableEq α] (d : Fin n → α) (f : Fin n → α → α) (t : Table n α) (h : t.wf d = true) :
    (t.mapListed d f).wf d = true := by
  rw [Table.wf_iff] at h ⊢
  refine ⟨?_, fun c hc => ?_⟩
  · refine List.Pairwise.filterMap _ (fun a a' haa b hb b' hb' => ?_) h.1
    split at hb <;> simp at hb
    split at hb' <;> simp at hb'
    rw [← hb, ← hb']
    exact haa
  · obtain ⟨a, -, ha⟩ := List.mem_filterMap.1 hc
    split at ha
    · simp at ha
    · rename_i hne
      simp at ha
      rw [← ha]
      exact hne

theorem find_mapListed [DecidableEq α] (d : Fin n → α) (f : Fin n → α → α) (i : Fin n) :
    ∀ l : List (Fin n × α), l.Pairwise (fun a b => a.1 < b.1) →
      ((l.filterMap (fun c => if f c.1 c.2 = d c.1 then none else some (c.1, f c.1 c.2))).find? (fun c => c.1 == i)) =
        (l.find? (fun c => c.1 == i)).bind (fun c => if f i c.2 = d i then none else some (i, f i c.2)) := by
  intro l
  induction l with
  | nil => simp
  | cons a rest ih =>
    intro h
    rw [List.pairwise_cons] at h
    obtain ⟨k, x⟩ := a
    by_cases hk : k = i
    · subst hk
      by_cases hd : f k x = d k
      · have hnone : rest.find? (fun c => c.1 == k) = none := by
          simp only [List.find?_eq_none, beq_iff_eq]
          intro c hc e
          exact absurd (h.1 c hc) (by rw [e]; exact lt_irrefl _)
        simp [hd, ih h.2, hnone]
      · simp [hd]
    · by_cases hd : f k x = d k
      · simp [hd, ih h.2, hk]
      · simp [hd, ih h.2, hk]

/-- On a canonical table, a function that keeps the power-on values acts on every entry. -/
theorem Table.get_mapListed [DecidableEq α] (d : Fin n → α) (f : Fin n → α → α) (t : Table n α) (h : t.wf d = true)
    (i : Fin n) (hd : f i (d i) = d i) : (t.mapListed d f).get d i = f i (t.get d i) := by
  rw [Table.wf_iff] at h
  unfold Table.get Table.mapListed
  simp only [find_mapListed d f i t.cells h.1]
  cases hf : t.cells.find? (fun c => c.1 == i) with
  | none => simp [hd]
  | some c =>
    simp only [Option.bind_some]
    by_cases e : f i c.2 = d i
    · simp [e]
    · simp [e]

/-- An empty table holds the power-on values. -/
theorem Table.get_empty (d : Fin n → α) (i : Fin n) : (⟨[]⟩ : Table n α).get d i = d i := rfl

@[simp] theorem PerSlot.get_set_same (t : PerSlot α) (q : Consumable) (v : α) : (t.set q v).get q = v := by cases q <;> rfl

theorem PerSlot.get_set_other (t : PerSlot α) {q r : Consumable} (h : r ≠ q) (v : α) : (t.set q v).get r = t.get r := by
  cases q <;> cases r <;> first | rfl | exact absurd rfl h

/-- What the first index with a property has, and that no lower index has it. -/
theorem firstIndex_some {p : Fin n → Bool} {i : Fin n} (h : firstIndex n p = some i) :
    p i = true ∧ ∀ k, k < i → p k = false := by
  unfold firstIndex at h
  rw [List.find?_eq_some_iff_getElem] at h
  obtain ⟨hp, k, hk, e, hlow⟩ := h
  refine ⟨hp, fun j hj => ?_⟩
  have hi : (k : Nat) = i.val := by simpa using congrArg Fin.val e
  have := hlow j.val (by omega)
  simpa using this

/-- No index has the property. -/
theorem firstIndex_none {p : Fin n → Bool} (h : firstIndex n p = none) (i : Fin n) : p i = false := by
  unfold firstIndex at h
  rw [List.find?_eq_none] at h
  simpa using h i (List.mem_finRange i)

end Sys2Proof.Machine
end

