-- ==== Sys2Proof/Laws/State.lean ====
section
/-! SUPPORT. What each update of the state leaves as it was (`<update>_frame`, one equation per field, each true by unfolding), what
it writes (`<update>_<field>`), and the same for the updates of a port. -/

namespace Sys2Proof.Machine

@[simp] theorem State.setPrinter_frame (s : State) (p : Fin 64) (e : PrinterEntry) :
    (s.setPrinter p e).up = s.up ∧ (s.setPrinter p e).fp = s.fp ∧ (s.setPrinter p e).strap = s.strap ∧
    (s.setPrinter p e).age = s.age ∧ (s.setPrinter p e).sent = s.sent ∧ (s.setPrinter p e).tables.zones = s.tables.zones ∧
    (s.setPrinter p e).tables.users = s.tables.users ∧ (s.setPrinter p e).tables.accounts = s.tables.accounts ∧
    (s.setPrinter p e).tables.plans = s.tables.plans ∧ (s.setPrinter p e).tables.conditions = s.tables.conditions ∧
    (s.setPrinter p e).tables.supplies = s.tables.supplies ∧ (s.setPrinter p e).slots = s.slots ∧
    (s.setPrinter p e).hsc = s.hsc ∧ (s.setPrinter p e).jobs = s.jobs ∧ (s.setPrinter p e).lastNumber = s.lastNumber ∧
    (s.setPrinter p e).ru = s.ru ∧ (s.setPrinter p e).se = s.se ∧ (s.setPrinter p e).cm = s.cm ∧
    (s.setPrinter p e).co = s.co ∧ (s.setPrinter p e).slotRecords = s.slotRecords ∧ (s.setPrinter p e).mu = s.mu ∧
    (s.setPrinter p e).pending = s.pending ∧
    (s.setPrinter p e).between = s.between :=
  ⟨rfl, rfl, rfl, rfl, rfl, rfl, rfl, rfl, rfl, rfl, rfl, rfl, rfl, rfl, rfl, rfl, rfl, rfl, rfl, rfl, rfl, rfl, rfl⟩

@[simp] theorem State.setZone_frame (s : State) (z : Fin 16) (e : ZoneEntry) :
    (s.setZone z e).up = s.up ∧ (s.setZone z e).fp = s.fp ∧ (s.setZone z e).strap = s.strap ∧ (s.setZone z e).age = s.age ∧
    (s.setZone z e).sent = s.sent ∧ (s.setZone z e).tables.printers = s.tables.printers ∧
    (s.setZone z e).tables.users = s.tables.users ∧ (s.setZone z e).tables.accounts = s.tables.accounts ∧
    (s.setZone z e).tables.plans = s.tables.plans ∧ (s.setZone z e).tables.conditions = s.tables.conditions ∧
    (s.setZone z e).tables.supplies = s.tables.supplies ∧ (s.setZone z e).slots = s.slots ∧ (s.setZone z e).hsc = s.hsc ∧
    (s.setZone z e).jobs = s.jobs ∧ (s.setZone z e).lastNumber = s.lastNumber ∧ (s.setZone z e).ru = s.ru ∧
    (s.setZone z e).se = s.se ∧ (s.setZone z e).cm = s.cm ∧ (s.setZone z e).co = s.co ∧
    (s.setZone z e).slotRecords = s.slotRecords ∧ (s.setZone z e).mu = s.mu ∧ (s.setZone z e).pending = s.pending ∧
    (s.setZone z e).between = s.between :=
  ⟨rfl, rfl, rfl, rfl, rfl, rfl, rfl, rfl, rfl, rfl, rfl, rfl, rfl, rfl, rfl, rfl, rfl, rfl, rfl, rfl, rfl, rfl, rfl⟩

@[simp] theorem State.setUser_frame (s : State) (u : Fin 8192) (e : UserEntry) :
    (s.setUser u e).up = s.up ∧ (s.setUser u e).fp = s.fp ∧ (s.setUser u e).strap = s.strap ∧ (s.setUser u e).age = s.age ∧
    (s.setUser u e).sent = s.sent ∧ (s.setUser u e).tables.printers = s.tables.printers ∧
    (s.setUser u e).tables.zones = s.tables.zones ∧ (s.setUser u e).tables.accounts = s.tables.accounts ∧
    (s.setUser u e).tables.plans = s.tables.plans ∧ (s.setUser u e).tables.conditions = s.tables.conditions ∧
    (s.setUser u e).tables.supplies = s.tables.supplies ∧ (s.setUser u e).slots = s.slots ∧ (s.setUser u e).hsc = s.hsc ∧
    (s.setUser u e).jobs = s.jobs ∧ (s.setUser u e).lastNumber = s.lastNumber ∧ (s.setUser u e).ru = s.ru ∧
    (s.setUser u e).se = s.se ∧ (s.setUser u e).cm = s.cm ∧ (s.setUser u e).co = s.co ∧
    (s.setUser u e).slotRecords = s.slotRecords ∧ (s.setUser u e).mu = s.mu ∧ (s.setUser u e).pending = s.pending ∧
    (s.setUser u e).between = s.between :=
  ⟨rfl, rfl, rfl, rfl, rfl, rfl, rfl, rfl, rfl, rfl, rfl, rfl, rfl, rfl, rfl, rfl, rfl, rfl, rfl, rfl, rfl, rfl, rfl⟩

@[simp] theorem State.setAccount_frame (s : State) (i : Fin 1024) (e : AccountEntry) :
    (s.setAccount i e).up = s.up ∧ (s.setAccount i e).fp = s.fp ∧ (s.setAccount i e).strap = s.strap ∧
    (s.setAccount i e).age = s.age ∧ (s.setAccount i e).sent = s.sent ∧
    (s.setAccount i e).tables.printers = s.tables.printers ∧ (s.setAccount i e).tables.zones = s.tables.zones ∧
    (s.setAccount i e).tables.users = s.tables.users ∧ (s.setAccount i e).tables.plans = s.tables.plans ∧
    (s.setAccount i e).tables.conditions = s.tables.conditions ∧ (s.setAccount i e).tables.supplies = s.tables.supplies ∧
    (s.setAccount i e).slots = s.slots ∧ (s.setAccount i e).hsc = s.hsc ∧ (s.setAccount i e).jobs = s.jobs ∧
    (s.setAccount i e).lastNumber = s.lastNumber ∧ (s.setAccount i e).ru = s.ru ∧ (s.setAccount i e).se = s.se ∧
    (s.setAccount i e).cm = s.cm ∧ (s.setAccount i e).co = s.co ∧ (s.setAccount i e).slotRecords = s.slotRecords ∧
    (s.setAccount i e).mu = s.mu ∧ (s.setAccount i e).pending = s.pending ∧
    (s.setAccount i e).between = s.between :=
  ⟨rfl, rfl, rfl, rfl, rfl, rfl, rfl, rfl, rfl, rfl, rfl, rfl, rfl, rfl, rfl, rfl, rfl, rfl, rfl, rfl, rfl, rfl, rfl⟩

@[simp] theorem State.setPlan_frame (s : State) (i : Fin 16) (e : RatePlan) :
    (s.setPlan i e).up = s.up ∧ (s.setPlan i e).fp = s.fp ∧ (s.setPlan i e).strap = s.strap ∧ (s.setPlan i e).age = s.age ∧
    (s.setPlan i e).sent = s.sent ∧ (s.setPlan i e).tables.printers = s.tables.printers ∧
    (s.setPlan i e).tables.zones = s.tables.zones ∧ (s.setPlan i e).tables.users = s.tables.users ∧
    (s.setPlan i e).tables.accounts = s.tables.accounts ∧ (s.setPlan i e).tables.conditions = s.tables.conditions ∧
    (s.setPlan i e).tables.supplies = s.tables.supplies ∧ (s.setPlan i e).slots = s.slots ∧ (s.setPlan i e).hsc = s.hsc ∧
    (s.setPlan i e).jobs = s.jobs ∧ (s.setPlan i e).lastNumber = s.lastNumber ∧ (s.setPlan i e).ru = s.ru ∧
    (s.setPlan i e).se = s.se ∧ (s.setPlan i e).cm = s.cm ∧ (s.setPlan i e).co = s.co ∧
    (s.setPlan i e).slotRecords = s.slotRecords ∧ (s.setPlan i e).mu = s.mu ∧ (s.setPlan i e).pending = s.pending ∧
    (s.setPlan i e).between = s.between :=
  ⟨rfl, rfl, rfl, rfl, rfl, rfl, rfl, rfl, rfl, rfl, rfl, rfl, rfl, rfl, rfl, rfl, rfl, rfl, rfl, rfl, rfl, rfl, rfl⟩

@[simp] theorem State.setCondition_frame (s : State) (i : Fin 256) (e : ConditionEntry) :
    (s.setCondition i e).up = s.up ∧ (s.setCondition i e).fp = s.fp ∧ (s.setCondition i e).strap = s.strap ∧
    (s.setCondition i e).age = s.age ∧ (s.setCondition i e).sent = s.sent ∧
    (s.setCondition i e).tables.printers = s.tables.printers ∧ (s.setCondition i e).tables.zones = s.tables.zones ∧
    (s.setCondition i e).tables.users = s.tables.users ∧ (s.setCondition i e).tables.accounts = s.tables.accounts ∧
    (s.setCondition i e).tables.plans = s.tables.plans ∧ (s.setCondition i e).tables.supplies = s.tables.supplies ∧
    (s.setCondition i e).slots = s.slots ∧ (s.setCondition i e).hsc = s.hsc ∧ (s.setCondition i e).jobs = s.jobs ∧
    (s.setCondition i e).lastNumber = s.lastNumber ∧ (s.setCondition i e).ru = s.ru ∧ (s.setCondition i e).se = s.se ∧
    (s.setCondition i e).cm = s.cm ∧ (s.setCondition i e).co = s.co ∧ (s.setCondition i e).slotRecords = s.slotRecords ∧
    (s.setCondition i e).mu = s.mu ∧ (s.setCondition i e).pending = s.pending ∧
    (s.setCondition i e).between = s.between :=
  ⟨rfl, rfl, rfl, rfl, rfl, rfl, rfl, rfl, rfl, rfl, rfl, rfl, rfl, rfl, rfl, rfl, rfl, rfl, rfl, rfl, rfl, rfl, rfl⟩

@[simp] theorem State.setSupply_frame (s : State) (i : Fin 64) (e : SupplyEntry) :
    (s.setSupply i e).up = s.up ∧ (s.setSupply i e).fp = s.fp ∧ (s.setSupply i e).strap = s.strap ∧
    (s.setSupply i e).age = s.age ∧ (s.setSupply i e).sent = s.sent ∧
    (s.setSupply i e).tables.printers = s.tables.printers ∧ (s.setSupply i e).tables.zones = s.tables.zones ∧
    (s.setSupply i e).tables.users = s.tables.users ∧ (s.setSupply i e).tables.accounts = s.tables.accounts ∧
    (s.setSupply i e).tables.plans = s.tables.plans ∧ (s.setSupply i e).tables.conditions = s.tables.conditions ∧
    (s.setSupply i e).slots = s.slots ∧ (s.setSupply i e).hsc = s.hsc ∧ (s.setSupply i e).jobs = s.jobs ∧
    (s.setSupply i e).lastNumber = s.lastNumber ∧ (s.setSupply i e).ru = s.ru ∧ (s.setSupply i e).se = s.se ∧
    (s.setSupply i e).cm = s.cm ∧ (s.setSupply i e).co = s.co ∧ (s.setSupply i e).slotRecords = s.slotRecords ∧
    (s.setSupply i e).mu = s.mu ∧ (s.setSupply i e).pending = s.pending ∧
    (s.setSupply i e).between = s.between :=
  ⟨rfl, rfl, rfl, rfl, rfl, rfl, rfl, rfl, rfl, rfl, rfl, rfl, rfl, rfl, rfl, rfl, rfl, rfl, rfl, rfl, rfl, rfl, rfl⟩

@[simp] theorem State.setSlot_frame (s : State) (i : Fin 16) (e : UploadSlot) :
    (s.setSlot i e).up = s.up ∧ (s.setSlot i e).fp = s.fp ∧ (s.setSlot i e).strap = s.strap ∧ (s.setSlot i e).age = s.age ∧
    (s.setSlot i e).sent = s.sent ∧ (s.setSlot i e).tables = s.tables ∧ (s.setSlot i e).hsc = s.hsc ∧
    (s.setSlot i e).jobs = s.jobs ∧ (s.setSlot i e).lastNumber = s.lastNumber ∧ (s.setSlot i e).ru = s.ru ∧
    (s.setSlot i e).se = s.se ∧ (s.setSlot i e).cm = s.cm ∧ (s.setSlot i e).co = s.co ∧
    (s.setSlot i e).slotRecords = s.slotRecords ∧ (s.setSlot i e).mu = s.mu ∧ (s.setSlot i e).pending = s.pending ∧
    (s.setSlot i e).between = s.between :=
  ⟨rfl, rfl, rfl, rfl, rfl, rfl, rfl, rfl, rfl, rfl, rfl, rfl, rfl, rfl, rfl, rfl, rfl⟩

@[simp] theorem State.setJob_frame (s : State) (i : Fin 512) (r : JobRecord) :
    (s.setJob i r).up = s.up ∧ (s.setJob i r).fp = s.fp ∧ (s.setJob i r).strap = s.strap ∧ (s.setJob i r).age = s.age ∧
    (s.setJob i r).sent = s.sent ∧ (s.setJob i r).tables = s.tables ∧ (s.setJob i r).slots = s.slots ∧
    (s.setJob i r).hsc = s.hsc ∧ (s.setJob i r).lastNumber = s.lastNumber ∧ (s.setJob i r).ru = s.ru ∧
    (s.setJob i r).se = s.se ∧ (s.setJob i r).cm = s.cm ∧ (s.setJob i r).co = s.co ∧
    (s.setJob i r).slotRecords = s.slotRecords ∧ (s.setJob i r).mu = s.mu ∧ (s.setJob i r).pending = s.pending ∧
    (s.setJob i r).between = s.between :=
  ⟨rfl, rfl, rfl, rfl, rfl, rfl, rfl, rfl, rfl, rfl, rfl, rfl, rfl, rfl, rfl, rfl, rfl⟩

@[simp] theorem State.setContext_frame (s : State) (c : Fin 8) (x : Context) :
    (s.setContext c x).up = s.up ∧ (s.setContext c x).fp = s.fp ∧ (s.setContext c x).strap = s.strap ∧
    (s.setContext c x).age = s.age ∧ (s.setContext c x).sent = s.sent ∧ (s.setContext c x).tables = s.tables ∧
    (s.setContext c x).slots = s.slots ∧ (s.setContext c x).hsc = s.hsc ∧ (s.setContext c x).jobs = s.jobs ∧
    (s.setContext c x).lastNumber = s.lastNumber ∧ (s.setContext c x).ru = s.ru ∧
    (s.setContext c x).se.notices = s.se.notices ∧ (s.setContext c x).cm = s.cm ∧ (s.setContext c x).co = s.co ∧
    (s.setContext c x).slotRecords = s.slotRecords ∧ (s.setContext c x).mu = s.mu ∧ (s.setContext c x).pending = s.pending ∧
    (s.setContext c x).between = s.between :=
  ⟨rfl, rfl, rfl, rfl, rfl, rfl, rfl, rfl, rfl, rfl, rfl, rfl, rfl, rfl, rfl, rfl, rfl, rfl⟩

@[simp] theorem State.setCond_frame (s : State) (p : Fin 64) (r : ConditionRecord) :
    (s.setCond p r).up = s.up ∧ (s.setCond p r).fp = s.fp ∧ (s.setCond p r).strap = s.strap ∧ (s.setCond p r).age = s.age ∧
    (s.setCond p r).sent = s.sent ∧ (s.setCond p r).tables = s.tables ∧ (s.setCond p r).slots = s.slots ∧
    (s.setCond p r).hsc = s.hsc ∧ (s.setCond p r).jobs = s.jobs ∧ (s.setCond p r).lastNumber = s.lastNumber ∧
    (s.setCond p r).ru = s.ru ∧ (s.setCond p r).se = s.se ∧ (s.setCond p r).co = s.co ∧
    (s.setCond p r).slotRecords = s.slotRecords ∧ (s.setCond p r).mu = s.mu ∧ (s.setCond p r).pending = s.pending ∧
    (s.setCond p r).between = s.between :=
  ⟨rfl, rfl, rfl, rfl, rfl, rfl, rfl, rfl, rfl, rfl, rfl, rfl, rfl, rfl, rfl, rfl, rfl⟩

@[simp] theorem State.setCallout_frame (s : State) (i : Fin 48) (e : CalloutEntry) :
    (s.setCallout i e).up = s.up ∧ (s.setCallout i e).fp = s.fp ∧ (s.setCallout i e).strap = s.strap ∧
    (s.setCallout i e).age = s.age ∧ (s.setCallout i e).sent = s.sent ∧ (s.setCallout i e).tables = s.tables ∧
    (s.setCallout i e).slots = s.slots ∧ (s.setCallout i e).hsc = s.hsc ∧ (s.setCallout i e).jobs = s.jobs ∧
    (s.setCallout i e).lastNumber = s.lastNumber ∧ (s.setCallout i e).ru = s.ru ∧ (s.setCallout i e).se = s.se ∧
    (s.setCallout i e).cm = s.cm ∧ (s.setCallout i e).co.owedResolved = s.co.owedResolved ∧
    (s.setCallout i e).co.dropped = s.co.dropped ∧ (s.setCallout i e).slotRecords = s.slotRecords ∧
    (s.setCallout i e).mu = s.mu ∧ (s.setCallout i e).pending = s.pending ∧
    (s.setCallout i e).between = s.between :=
  ⟨rfl, rfl, rfl, rfl, rfl, rfl, rfl, rfl, rfl, rfl, rfl, rfl, rfl, rfl, rfl, rfl, rfl, rfl, rfl⟩

@[simp] theorem State.setSlotRecord_frame (s : State) (p : Fin 64) (q : Consumable) (r : SlotRecord) :
    (s.setSlotRecord p q r).up = s.up ∧ (s.setSlotRecord p q r).fp = s.fp ∧ (s.setSlotRecord p q r).strap = s.strap ∧
    (s.setSlotRecord p q r).age = s.age ∧ (s.setSlotRecord p q r).sent = s.sent ∧
    (s.setSlotRecord p q r).tables = s.tables ∧ (s.setSlotRecord p q r).slots = s.slots ∧
    (s.setSlotRecord p q r).hsc = s.hsc ∧ (s.setSlotRecord p q r).jobs = s.jobs ∧
    (s.setSlotRecord p q r).lastNumber = s.lastNumber ∧ (s.setSlotRecord p q r).ru = s.ru ∧
    (s.setSlotRecord p q r).se = s.se ∧ (s.setSlotRecord p q r).cm = s.cm ∧ (s.setSlotRecord p q r).co = s.co ∧
    (s.setSlotRecord p q r).mu = s.mu ∧ (s.setSlotRecord p q r).pending = s.pending ∧
    (s.setSlotRecord p q r).between = s.between :=
  ⟨rfl, rfl, rfl, rfl, rfl, rfl, rfl, rfl, rfl, rfl, rfl, rfl, rfl, rfl, rfl, rfl, rfl⟩

@[simp] theorem State.setConsole_frame (s : State) (i : Fin 4) (e : Option ConsoleEntry) :
    (s.setConsole i e).up = s.up ∧ (s.setConsole i e).fp = s.fp ∧ (s.setConsole i e).strap = s.strap ∧
    (s.setConsole i e).age = s.age ∧ (s.setConsole i e).sent = s.sent ∧ (s.setConsole i e).tables = s.tables ∧
    (s.setConsole i e).slots = s.slots ∧ (s.setConsole i e).hsc = s.hsc ∧ (s.setConsole i e).jobs = s.jobs ∧
    (s.setConsole i e).lastNumber = s.lastNumber ∧ (s.setConsole i e).ru = s.ru ∧ (s.setConsole i e).se = s.se ∧
    (s.setConsole i e).cm = s.cm ∧ (s.setConsole i e).co = s.co ∧ (s.setConsole i e).slotRecords = s.slotRecords ∧
    (s.setConsole i e).mu.service = s.mu.service ∧ (s.setConsole i e).mu.clock = s.mu.clock ∧
    (s.setConsole i e).mu.rolloversDue = s.mu.rolloversDue ∧ (s.setConsole i e).mu.reports = s.mu.reports ∧
    (s.setConsole i e).mu.droppedAudits = s.mu.droppedAudits ∧ (s.setConsole i e).mu.corrected = s.mu.corrected ∧
    (s.setConsole i e).mu.uncorrectable = s.mu.uncorrectable ∧ (s.setConsole i e).mu.overrun = s.mu.overrun ∧
    (s.setConsole i e).mu.worst = s.mu.worst ∧ (s.setConsole i e).mu.checkLevel = s.mu.checkLevel ∧
    (s.setConsole i e).mu.resetWaits = s.mu.resetWaits ∧ (s.setConsole i e).pending = s.pending ∧
    (s.setConsole i e).between = s.between :=
  ⟨rfl, rfl, rfl, rfl, rfl, rfl, rfl, rfl, rfl, rfl, rfl, rfl, rfl, rfl, rfl, rfl, rfl, rfl, rfl, rfl, rfl, rfl, rfl,
    rfl, rfl, rfl, rfl, rfl⟩

@[simp] theorem State.setResetWait_frame (s : State) (p : Fin 64) (w : Option ResetWait) :
    (s.setResetWait p w).up = s.up ∧ (s.setResetWait p w).fp = s.fp ∧ (s.setResetWait p w).strap = s.strap ∧
    (s.setResetWait p w).age = s.age ∧ (s.setResetWait p w).sent = s.sent ∧ (s.setResetWait p w).tables = s.tables ∧
    (s.setResetWait p w).slots = s.slots ∧ (s.setResetWait p w).hsc = s.hsc ∧ (s.setResetWait p w).jobs = s.jobs ∧
    (s.setResetWait p w).lastNumber = s.lastNumber ∧ (s.setResetWait p w).ru = s.ru ∧ (s.setResetWait p w).se = s.se ∧
    (s.setResetWait p w).cm = s.cm ∧ (s.setResetWait p w).co = s.co ∧ (s.setResetWait p w).slotRecords = s.slotRecords ∧
    (s.setResetWait p w).mu.consoles = s.mu.consoles ∧ (s.setResetWait p w).mu.service = s.mu.service ∧
    (s.setResetWait p w).mu.clock = s.mu.clock ∧ (s.setResetWait p w).mu.rolloversDue = s.mu.rolloversDue ∧
    (s.setResetWait p w).mu.reports = s.mu.reports ∧ (s.setResetWait p w).mu.droppedAudits = s.mu.droppedAudits ∧
    (s.setResetWait p w).mu.corrected = s.mu.corrected ∧ (s.setResetWait p w).mu.uncorrectable = s.mu.uncorrectable ∧
    (s.setResetWait p w).mu.overrun = s.mu.overrun ∧ (s.setResetWait p w).mu.worst = s.mu.worst ∧
    (s.setResetWait p w).mu.checkLevel = s.mu.checkLevel ∧ (s.setResetWait p w).pending = s.pending ∧
    (s.setResetWait p w).between = s.between :=
  ⟨rfl, rfl, rfl, rfl, rfl, rfl, rfl, rfl, rfl, rfl, rfl, rfl, rfl, rfl, rfl, rfl, rfl, rfl, rfl, rfl, rfl, rfl, rfl,
    rfl, rfl, rfl, rfl, rfl⟩

@[simp] theorem State.setLink_frame (s : State) (e : Fin 4096) (next : Option (Fin 4096)) :
    (s.setLink e next).up = s.up ∧ (s.setLink e next).fp = s.fp ∧ (s.setLink e next).strap = s.strap ∧
    (s.setLink e next).age = s.age ∧ (s.setLink e next).sent = s.sent ∧ (s.setLink e next).tables = s.tables ∧
    (s.setLink e next).slots = s.slots ∧ (s.setLink e next).hsc.poolHead = s.hsc.poolHead ∧
    (s.setLink e next).hsc.poolTail = s.hsc.poolTail ∧ (s.setLink e next).hsc.poolLength = s.hsc.poolLength ∧
    (s.setLink e next).hsc.writes = s.hsc.writes ∧ (s.setLink e next).hsc.reads = s.hsc.reads ∧
    (s.setLink e next).hsc.op = s.hsc.op ∧ (s.setLink e next).hsc.lastServed = s.hsc.lastServed ∧
    (s.setLink e next).hsc.store = s.hsc.store ∧ (s.setLink e next).hsc.epoch = s.hsc.epoch ∧
    (s.setLink e next).jobs = s.jobs ∧ (s.setLink e next).lastNumber = s.lastNumber ∧ (s.setLink e next).ru = s.ru ∧
    (s.setLink e next).se = s.se ∧ (s.setLink e next).cm = s.cm ∧ (s.setLink e next).co = s.co ∧
    (s.setLink e next).slotRecords = s.slotRecords ∧ (s.setLink e next).mu = s.mu ∧ (s.setLink e next).pending = s.pending ∧
    (s.setLink e next).between = s.between :=
  ⟨rfl, rfl, rfl, rfl, rfl, rfl, rfl, rfl, rfl, rfl, rfl, rfl, rfl, rfl, rfl, rfl, rfl, rfl, rfl, rfl, rfl, rfl, rfl,
    rfl, rfl, rfl⟩

@[simp] theorem State.setStored_frame (s : State) (p : SegPos) (x : StoredSegment) :
    (s.setStored p x).up = s.up ∧ (s.setStored p x).fp = s.fp ∧ (s.setStored p x).strap = s.strap ∧
    (s.setStored p x).age = s.age ∧ (s.setStored p x).sent = s.sent ∧ (s.setStored p x).tables = s.tables ∧
    (s.setStored p x).slots = s.slots ∧ (s.setStored p x).hsc.links = s.hsc.links ∧
    (s.setStored p x).hsc.poolHead = s.hsc.poolHead ∧ (s.setStored p x).hsc.poolTail = s.hsc.poolTail ∧
    (s.setStored p x).hsc.poolLength = s.hsc.poolLength ∧ (s.setStored p x).hsc.writes = s.hsc.writes ∧
    (s.setStored p x).hsc.reads = s.hsc.reads ∧ (s.setStored p x).hsc.op = s.hsc.op ∧
    (s.setStored p x).hsc.lastServed = s.hsc.lastServed ∧ (s.setStored p x).hsc.epoch = s.hsc.epoch ∧
    (s.setStored p x).jobs = s.jobs ∧ (s.setStored p x).lastNumber = s.lastNumber ∧ (s.setStored p x).ru = s.ru ∧
    (s.setStored p x).se = s.se ∧ (s.setStored p x).cm = s.cm ∧ (s.setStored p x).co = s.co ∧
    (s.setStored p x).slotRecords = s.slotRecords ∧ (s.setStored p x).mu = s.mu ∧ (s.setStored p x).pending = s.pending ∧
    (s.setStored p x).between = s.between :=
  ⟨rfl, rfl, rfl, rfl, rfl, rfl, rfl, rfl, rfl, rfl, rfl, rfl, rfl, rfl, rfl, rfl, rfl, rfl, rfl, rfl, rfl, rfl, rfl,
    rfl, rfl, rfl⟩

@[simp] theorem State.clearOp_frame (s : State) :
    s.clearOp.up = s.up ∧ s.clearOp.fp = s.fp ∧ s.clearOp.strap = s.strap ∧ s.clearOp.age = s.age ∧
    s.clearOp.sent = s.sent ∧ s.clearOp.tables = s.tables ∧ s.clearOp.slots = s.slots ∧ s.clearOp.hsc.links = s.hsc.links ∧
    s.clearOp.hsc.poolHead = s.hsc.poolHead ∧ s.clearOp.hsc.poolTail = s.hsc.poolTail ∧
    s.clearOp.hsc.poolLength = s.hsc.poolLength ∧ s.clearOp.hsc.writes = s.hsc.writes ∧ s.clearOp.hsc.reads = s.hsc.reads ∧
    s.clearOp.hsc.lastServed = s.hsc.lastServed ∧ s.clearOp.hsc.store = s.hsc.store ∧ s.clearOp.hsc.epoch = s.hsc.epoch ∧
    s.clearOp.jobs = s.jobs ∧ s.clearOp.lastNumber = s.lastNumber ∧ s.clearOp.ru = s.ru ∧ s.clearOp.se = s.se ∧
    s.clearOp.cm = s.cm ∧ s.clearOp.co = s.co ∧ s.clearOp.slotRecords = s.slotRecords ∧ s.clearOp.mu = s.mu ∧
    s.clearOp.pending = s.pending ∧
    s.clearOp.between = s.between :=
  ⟨rfl, rfl, rfl, rfl, rfl, rfl, rfl, rfl, rfl, rfl, rfl, rfl, rfl, rfl, rfl, rfl, rfl, rfl, rfl, rfl, rfl, rfl, rfl,
    rfl, rfl, rfl⟩

@[simp] theorem State.pushReport_frame (s : State) (b : ReportBody) :
    (s.pushReport b).up = s.up ∧ (s.pushReport b).fp = s.fp ∧ (s.pushReport b).strap = s.strap ∧
    (s.pushReport b).age = s.age ∧ (s.pushReport b).sent = s.sent ∧ (s.pushReport b).tables = s.tables ∧
    (s.pushReport b).slots = s.slots ∧ (s.pushReport b).hsc = s.hsc ∧ (s.pushReport b).jobs = s.jobs ∧
    (s.pushReport b).lastNumber = s.lastNumber ∧ (s.pushReport b).ru = s.ru ∧ (s.pushReport b).se = s.se ∧
    (s.pushReport b).cm = s.cm ∧ (s.pushReport b).co = s.co ∧ (s.pushReport b).slotRecords = s.slotRecords ∧
    (s.pushReport b).mu.consoles = s.mu.consoles ∧ (s.pushReport b).mu.service = s.mu.service ∧
    (s.pushReport b).mu.clock = s.mu.clock ∧ (s.pushReport b).mu.rolloversDue = s.mu.rolloversDue ∧
    (s.pushReport b).mu.droppedAudits = s.mu.droppedAudits ∧ (s.pushReport b).mu.corrected = s.mu.corrected ∧
    (s.pushReport b).mu.uncorrectable = s.mu.uncorrectable ∧ (s.pushReport b).mu.overrun = s.mu.overrun ∧
    (s.pushReport b).mu.worst = s.mu.worst ∧ (s.pushReport b).mu.checkLevel = s.mu.checkLevel ∧
    (s.pushReport b).mu.resetWaits = s.mu.resetWaits ∧ (s.pushReport b).pending = s.pending ∧
    (s.pushReport b).between = s.between :=
  ⟨rfl, rfl, rfl, rfl, rfl, rfl, rfl, rfl, rfl, rfl, rfl, rfl, rfl, rfl, rfl, rfl, rfl, rfl, rfl, rfl, rfl, rfl, rfl,
    rfl, rfl, rfl, rfl, rfl⟩

@[simp] theorem State.pushEntry_frame (s : State) (e : QueueEntry) :
    (s.pushEntry e).up = s.up ∧ (s.pushEntry e).fp = s.fp ∧ (s.pushEntry e).strap = s.strap ∧ (s.pushEntry e).age = s.age ∧
    (s.pushEntry e).sent = s.sent ∧ (s.pushEntry e).tables = s.tables ∧ (s.pushEntry e).slots = s.slots ∧
    (s.pushEntry e).hsc = s.hsc ∧ (s.pushEntry e).jobs = s.jobs ∧ (s.pushEntry e).lastNumber = s.lastNumber ∧
    (s.pushEntry e).ru.saved = s.ru.saved ∧ (s.pushEntry e).ru.notices = s.ru.notices ∧
    (s.pushEntry e).ru.hold = s.ru.hold ∧ (s.pushEntry e).se = s.se ∧
    (s.pushEntry e).cm = s.cm ∧ (s.pushEntry e).co = s.co ∧ (s.pushEntry e).slotRecords = s.slotRecords ∧
    (s.pushEntry e).mu = s.mu ∧ (s.pushEntry e).pending = s.pending ∧
    (s.pushEntry e).between = s.between :=
  ⟨rfl, rfl, rfl, rfl, rfl, rfl, rfl, rfl, rfl, rfl, rfl, rfl, rfl, rfl, rfl, rfl, rfl, rfl, rfl, rfl⟩

@[simp] theorem State.removeEntry_frame (s : State) (n : Nat) :
    (s.removeEntry n).up = s.up ∧ (s.removeEntry n).fp = s.fp ∧ (s.removeEntry n).strap = s.strap ∧
    (s.removeEntry n).age = s.age ∧ (s.removeEntry n).sent = s.sent ∧ (s.removeEntry n).tables = s.tables ∧
    (s.removeEntry n).slots = s.slots ∧ (s.removeEntry n).hsc = s.hsc ∧ (s.removeEntry n).jobs = s.jobs ∧
    (s.removeEntry n).lastNumber = s.lastNumber ∧ (s.removeEntry n).ru.saved = s.ru.saved ∧
    (s.removeEntry n).ru.notices = s.ru.notices ∧
    (s.removeEntry n).ru.hold = s.ru.hold ∧ (s.removeEntry n).se = s.se ∧ (s.removeEntry n).cm = s.cm ∧
    (s.removeEntry n).co = s.co ∧ (s.removeEntry n).slotRecords = s.slotRecords ∧ (s.removeEntry n).mu = s.mu ∧
    (s.removeEntry n).pending = s.pending ∧
    (s.removeEntry n).between = s.between :=
  ⟨rfl, rfl, rfl, rfl, rfl, rfl, rfl, rfl, rfl, rfl, rfl, rfl, rfl, rfl, rfl, rfl, rfl, rfl, rfl, rfl⟩

@[simp] theorem State.setHold_frame (s : State) (h : ArbiterHold) :
    (s.setHold h).up = s.up ∧ (s.setHold h).fp = s.fp ∧ (s.setHold h).strap = s.strap ∧ (s.setHold h).age = s.age ∧
    (s.setHold h).sent = s.sent ∧ (s.setHold h).tables = s.tables ∧ (s.setHold h).slots = s.slots ∧ (s.setHold h).hsc = s.hsc ∧
    (s.setHold h).jobs = s.jobs ∧ (s.setHold h).lastNumber = s.lastNumber ∧ (s.setHold h).ru.queue = s.ru.queue ∧
    (s.setHold h).ru.saved = s.ru.saved ∧ (s.setHold h).ru.notices = s.ru.notices ∧ (s.setHold h).ru.hold = h ∧
    (s.setHold h).se = s.se ∧ (s.setHold h).cm = s.cm ∧ (s.setHold h).co = s.co ∧ (s.setHold h).slotRecords = s.slotRecords ∧
    (s.setHold h).mu = s.mu ∧ (s.setHold h).pending = s.pending ∧ (s.setHold h).between = s.between :=
  ⟨rfl, rfl, rfl, rfl, rfl, rfl, rfl, rfl, rfl, rfl, rfl, rfl, rfl, rfl, rfl, rfl, rfl, rfl, rfl, rfl, rfl⟩

@[simp] theorem State.leaveSaved_frame (s : State) (c : Fin 8) :
    (s.leaveSaved c).up = s.up ∧ (s.leaveSaved c).fp = s.fp ∧ (s.leaveSaved c).strap = s.strap ∧
    (s.leaveSaved c).age = s.age ∧ (s.leaveSaved c).sent = s.sent ∧ (s.leaveSaved c).tables = s.tables ∧
    (s.leaveSaved c).slots = s.slots ∧ (s.leaveSaved c).hsc = s.hsc ∧ (s.leaveSaved c).jobs = s.jobs ∧
    (s.leaveSaved c).lastNumber = s.lastNumber ∧ (s.leaveSaved c).ru.queue = s.ru.queue ∧
    (s.leaveSaved c).ru.notices = s.ru.notices ∧
    (s.leaveSaved c).ru.hold = s.ru.hold ∧ (s.leaveSaved c).se = s.se ∧ (s.leaveSaved c).cm = s.cm ∧
    (s.leaveSaved c).co = s.co ∧ (s.leaveSaved c).slotRecords = s.slotRecords ∧ (s.leaveSaved c).mu = s.mu ∧
    (s.leaveSaved c).pending = s.pending ∧
    (s.leaveSaved c).between = s.between :=
  ⟨rfl, rfl, rfl, rfl, rfl, rfl, rfl, rfl, rfl, rfl, rfl, rfl, rfl, rfl, rfl, rfl, rfl, rfl, rfl, rfl⟩

@[simp] theorem State.joinSaved_frame (s : State) (c : Fin 8) :
    (s.joinSaved c).up = s.up ∧ (s.joinSaved c).fp = s.fp ∧ (s.joinSaved c).strap = s.strap ∧ (s.joinSaved c).age = s.age ∧
    (s.joinSaved c).sent = s.sent ∧ (s.joinSaved c).tables = s.tables ∧ (s.joinSaved c).slots = s.slots ∧
    (s.joinSaved c).hsc = s.hsc ∧ (s.joinSaved c).jobs = s.jobs ∧ (s.joinSaved c).lastNumber = s.lastNumber ∧
    (s.joinSaved c).ru.queue = s.ru.queue ∧ (s.joinSaved c).ru.notices = s.ru.notices ∧
    (s.joinSaved c).ru.hold = s.ru.hold ∧ (s.joinSaved c).se = s.se ∧
    (s.joinSaved c).cm = s.cm ∧ (s.joinSaved c).co = s.co ∧ (s.joinSaved c).slotRecords = s.slotRecords ∧
    (s.joinSaved c).mu = s.mu ∧ (s.joinSaved c).pending = s.pending ∧
    (s.joinSaved c).between = s.between :=
  ⟨rfl, rfl, rfl, rfl, rfl, rfl, rfl, rfl, rfl, rfl, rfl, rfl, rfl, rfl, rfl, rfl, rfl, rfl, rfl, rfl⟩

@[simp] theorem State.unnameJob_frame (s : State) (n : Nat) :
    (s.unnameJob n).up = s.up ∧ (s.unnameJob n).fp = s.fp ∧ (s.unnameJob n).strap = s.strap ∧ (s.unnameJob n).age = s.age ∧
    (s.unnameJob n).sent = s.sent ∧ (s.unnameJob n).tables = s.tables ∧ (s.unnameJob n).slots = s.slots ∧
    (s.unnameJob n).hsc = s.hsc ∧ (s.unnameJob n).jobs = s.jobs ∧ (s.unnameJob n).lastNumber = s.lastNumber ∧
    (s.unnameJob n).ru = s.ru ∧ (s.unnameJob n).se.notices = s.se.notices ∧ (s.unnameJob n).cm = s.cm ∧
    (s.unnameJob n).co = s.co ∧ (s.unnameJob n).slotRecords = s.slotRecords ∧ (s.unnameJob n).mu = s.mu ∧
    (s.unnameJob n).pending = s.pending ∧
    (s.unnameJob n).between = s.between :=
  ⟨rfl, rfl, rfl, rfl, rfl, rfl, rfl, rfl, rfl, rfl, rfl, rfl, rfl, rfl, rfl, rfl, rfl, rfl⟩

@[simp] theorem State.discardWrites_frame (s : State) (n : Nat) :
    (s.discardWrites n).up = s.up ∧ (s.discardWrites n).fp = s.fp ∧ (s.discardWrites n).strap = s.strap ∧
    (s.discardWrites n).age = s.age ∧ (s.discardWrites n).sent = s.sent ∧ (s.discardWrites n).tables = s.tables ∧
    (s.discardWrites n).slots = s.slots ∧ (s.discardWrites n).hsc.links = s.hsc.links ∧
    (s.discardWrites n).hsc.poolHead = s.hsc.poolHead ∧ (s.discardWrites n).hsc.poolTail = s.hsc.poolTail ∧
    (s.discardWrites n).hsc.poolLength = s.hsc.poolLength ∧ (s.discardWrites n).hsc.reads = s.hsc.reads ∧
    (s.discardWrites n).hsc.op = s.hsc.op ∧ (s.discardWrites n).hsc.lastServed = s.hsc.lastServed ∧
    (s.discardWrites n).hsc.store = s.hsc.store ∧ (s.discardWrites n).hsc.epoch = s.hsc.epoch ∧
    (s.discardWrites n).jobs = s.jobs ∧ (s.discardWrites n).lastNumber = s.lastNumber ∧ (s.discardWrites n).ru = s.ru ∧
    (s.discardWrites n).se = s.se ∧ (s.discardWrites n).cm = s.cm ∧ (s.discardWrites n).co = s.co ∧
    (s.discardWrites n).slotRecords = s.slotRecords ∧ (s.discardWrites n).mu = s.mu ∧
    (s.discardWrites n).pending = s.pending ∧
    (s.discardWrites n).between = s.between :=
  ⟨rfl, rfl, rfl, rfl, rfl, rfl, rfl, rfl, rfl, rfl, rfl, rfl, rfl, rfl, rfl, rfl, rfl, rfl, rfl, rfl, rfl, rfl, rfl,
    rfl, rfl, rfl⟩

@[simp] theorem State.pushWrite_frame (s : State) (e : WriteEntry) :
    (s.pushWrite e).up = s.up ∧ (s.pushWrite e).fp = s.fp ∧ (s.pushWrite e).strap = s.strap ∧ (s.pushWrite e).age = s.age ∧
    (s.pushWrite e).sent = s.sent ∧ (s.pushWrite e).tables = s.tables ∧ (s.pushWrite e).slots = s.slots ∧
    (s.pushWrite e).hsc.links = s.hsc.links ∧ (s.pushWrite e).hsc.poolHead = s.hsc.poolHead ∧
    (s.pushWrite e).hsc.poolTail = s.hsc.poolTail ∧ (s.pushWrite e).hsc.poolLength = s.hsc.poolLength ∧
    (s.pushWrite e).hsc.reads = s.hsc.reads ∧ (s.pushWrite e).hsc.op = s.hsc.op ∧
    (s.pushWrite e).hsc.lastServed = s.hsc.lastServed ∧ (s.pushWrite e).hsc.store = s.hsc.store ∧
    (s.pushWrite e).hsc.epoch = s.hsc.epoch ∧ (s.pushWrite e).jobs = s.jobs ∧ (s.pushWrite e).lastNumber = s.lastNumber ∧
    (s.pushWrite e).ru = s.ru ∧ (s.pushWrite e).se = s.se ∧ (s.pushWrite e).cm = s.cm ∧ (s.pushWrite e).co = s.co ∧
    (s.pushWrite e).slotRecords = s.slotRecords ∧ (s.pushWrite e).mu = s.mu ∧ (s.pushWrite e).pending = s.pending ∧
    (s.pushWrite e).between = s.between :=
  ⟨rfl, rfl, rfl, rfl, rfl, rfl, rfl, rfl, rfl, rfl, rfl, rfl, rfl, rfl, rfl, rfl, rfl, rfl, rfl, rfl, rfl, rfl, rfl,
    rfl, rfl, rfl⟩

@[simp] theorem State.pushRead_frame (s : State) (e : ReadEntry) :
    (s.pushRead e).up = s.up ∧ (s.pushRead e).fp = s.fp ∧ (s.pushRead e).strap = s.strap ∧ (s.pushRead e).age = s.age ∧
    (s.pushRead e).sent = s.sent ∧ (s.pushRead e).tables = s.tables ∧ (s.pushRead e).slots = s.slots ∧
    (s.pushRead e).hsc.links = s.hsc.links ∧ (s.pushRead e).hsc.poolHead = s.hsc.poolHead ∧
    (s.pushRead e).hsc.poolTail = s.hsc.poolTail ∧ (s.pushRead e).hsc.poolLength = s.hsc.poolLength ∧
    (s.pushRead e).hsc.writes = s.hsc.writes ∧ (s.pushRead e).hsc.op = s.hsc.op ∧
    (s.pushRead e).hsc.lastServed = s.hsc.lastServed ∧ (s.pushRead e).hsc.store = s.hsc.store ∧
    (s.pushRead e).hsc.epoch = s.hsc.epoch ∧ (s.pushRead e).jobs = s.jobs ∧ (s.pushRead e).lastNumber = s.lastNumber ∧
    (s.pushRead e).ru = s.ru ∧ (s.pushRead e).se = s.se ∧ (s.pushRead e).cm = s.cm ∧ (s.pushRead e).co = s.co ∧
    (s.pushRead e).slotRecords = s.slotRecords ∧ (s.pushRead e).mu = s.mu ∧ (s.pushRead e).pending = s.pending ∧
    (s.pushRead e).between = s.between :=
  ⟨rfl, rfl, rfl, rfl, rfl, rfl, rfl, rfl, rfl, rfl, rfl, rfl, rfl, rfl, rfl, rfl, rfl, rfl, rfl, rfl, rfl, rfl, rfl,
    rfl, rfl, rfl⟩

@[simp] theorem State.removeReads_frame (s : State) (c : Fin 8) :
    (s.removeReads c).up = s.up ∧ (s.removeReads c).fp = s.fp ∧ (s.removeReads c).strap = s.strap ∧
    (s.removeReads c).age = s.age ∧ (s.removeReads c).sent = s.sent ∧ (s.removeReads c).tables = s.tables ∧
    (s.removeReads c).slots = s.slots ∧ (s.removeReads c).hsc.links = s.hsc.links ∧
    (s.removeReads c).hsc.poolHead = s.hsc.poolHead ∧ (s.removeReads c).hsc.poolTail = s.hsc.poolTail ∧
    (s.removeReads c).hsc.poolLength = s.hsc.poolLength ∧ (s.removeReads c).hsc.writes = s.hsc.writes ∧
    (s.removeReads c).hsc.op = s.hsc.op ∧ (s.removeReads c).hsc.lastServed = s.hsc.lastServed ∧
    (s.removeReads c).hsc.store = s.hsc.store ∧ (s.removeReads c).hsc.epoch = s.hsc.epoch ∧
    (s.removeReads c).jobs = s.jobs ∧ (s.removeReads c).lastNumber = s.lastNumber ∧ (s.removeReads c).ru = s.ru ∧
    (s.removeReads c).se = s.se ∧ (s.removeReads c).cm = s.cm ∧ (s.removeReads c).co = s.co ∧
    (s.removeReads c).slotRecords = s.slotRecords ∧ (s.removeReads c).mu = s.mu ∧ (s.removeReads c).pending = s.pending ∧
    (s.removeReads c).between = s.between :=
  ⟨rfl, rfl, rfl, rfl, rfl, rfl, rfl, rfl, rfl, rfl, rfl, rfl, rfl, rfl, rfl, rfl, rfl, rfl, rfl, rfl, rfl, rfl, rfl,
    rfl, rfl, rfl⟩

@[simp] theorem State.setService_frame (s : State) (v : ServiceState) :
    (s.setService v).up = s.up ∧ (s.setService v).fp = s.fp ∧ (s.setService v).strap = s.strap ∧
    (s.setService v).age = s.age ∧ (s.setService v).sent = s.sent ∧ (s.setService v).tables = s.tables ∧
    (s.setService v).slots = s.slots ∧ (s.setService v).hsc = s.hsc ∧ (s.setService v).jobs = s.jobs ∧
    (s.setService v).lastNumber = s.lastNumber ∧ (s.setService v).ru = s.ru ∧ (s.setService v).se = s.se ∧
    (s.setService v).cm = s.cm ∧ (s.setService v).co = s.co ∧ (s.setService v).slotRecords = s.slotRecords ∧
    (s.setService v).mu.consoles = s.mu.consoles ∧ (s.setService v).mu.clock = s.mu.clock ∧
    (s.setService v).mu.rolloversDue = s.mu.rolloversDue ∧ (s.setService v).mu.reports = s.mu.reports ∧
    (s.setService v).mu.droppedAudits = s.mu.droppedAudits ∧ (s.setService v).mu.corrected = s.mu.corrected ∧
    (s.setService v).mu.uncorrectable = s.mu.uncorrectable ∧ (s.setService v).mu.overrun = s.mu.overrun ∧
    (s.setService v).mu.worst = s.mu.worst ∧ (s.setService v).mu.checkLevel = s.mu.checkLevel ∧
    (s.setService v).mu.resetWaits = s.mu.resetWaits ∧ (s.setService v).pending = s.pending ∧
    (s.setService v).between = s.between :=
  ⟨rfl, rfl, rfl, rfl, rfl, rfl, rfl, rfl, rfl, rfl, rfl, rfl, rfl, rfl, rfl, rfl, rfl, rfl, rfl, rfl, rfl, rfl, rfl,
    rfl, rfl, rfl, rfl, rfl⟩

@[simp] theorem State.setPrinter_printer (s : State) (p : Fin 64) (e : PrinterEntry) : (s.setPrinter p e).printer p = e := by
  simp [State.setPrinter, State.printer]

theorem State.setPrinter_printer_other (s : State) (p : Fin 64) (e : PrinterEntry) {k : Fin 64} (h : k ≠ p) : (s.setPrinter p e).printer k = s.printer k := by
  simp [State.setPrinter, State.printer, Table.get_set_other _ _ h]

@[simp] theorem State.setZone_zone (s : State) (p : Fin 16) (e : ZoneEntry) : (s.setZone p e).zone p = e := by
  simp [State.setZone, State.zone]

theorem State.setZone_zone_other (s : State) (p : Fin 16) (e : ZoneEntry) {k : Fin 16} (h : k ≠ p) : (s.setZone p e).zone k = s.zone k := by
  simp [State.setZone, State.zone, Table.get_set_other _ _ h]

@[simp] theorem State.setUser_user (s : State) (p : Fin 8192) (e : UserEntry) : (s.setUser p e).user p = e := by
  simp [State.setUser, State.user]

theorem State.setUser_user_other (s : State) (p : Fin 8192) (e : UserEntry) {k : Fin 8192} (h : k ≠ p) : (s.setUser p e).user k = s.user k := by
  simp [State.setUser, State.user, Table.get_set_other _ _ h]

@[simp] theorem State.setAccount_account (s : State) (p : Fin 1024) (e : AccountEntry) : (s.setAccount p e).account p = e := by
  simp [State.setAccount, State.account]

theorem State.setAccount_account_other (s : State) (p : Fin 1024) (e : AccountEntry) {k : Fin 1024} (h : k ≠ p) : (s.setAccount p e).account k = s.account k := by
  simp [State.setAccount, State.account, Table.get_set_other _ _ h]

@[simp] theorem State.setPlan_plan (s : State) (p : Fin 16) (e : RatePlan) : (s.setPlan p e).plan p = e := by
  simp [State.setPlan, State.plan]

theorem State.setPlan_plan_other (s : State) (p : Fin 16) (e : RatePlan) {k : Fin 16} (h : k ≠ p) : (s.setPlan p e).plan k = s.plan k := by
  simp [State.setPlan, State.plan, Table.get_set_other _ _ h]

@[simp] theorem State.setCondition_condition (s : State) (p : Fin 256) (e : ConditionEntry) : (s.setCondition p e).condition p = e := by
  simp [State.setCondition, State.condition]

theorem State.setCondition_condition_other (s : State) (p : Fin 256) (e : ConditionEntry) {k : Fin 256} (h : k ≠ p) : (s.setCondition p e).condition k = s.condition k := by
  simp [State.setCondition, State.condition, Table.get_set_other _ _ h]

@[simp] theorem State.setSupply_supply (s : State) (p : Fin 64) (e : SupplyEntry) : (s.setSupply p e).supply p = e := by
  simp [State.setSupply, State.supply]

theorem State.setSupply_supply_other (s : State) (p : Fin 64) (e : SupplyEntry) {k : Fin 64} (h : k ≠ p) : (s.setSupply p e).supply k = s.supply k := by
  simp [State.setSupply, State.supply, Table.get_set_other _ _ h]

@[simp] theorem State.setSlot_slot (s : State) (p : Fin 16) (e : UploadSlot) : (s.setSlot p e).slot p = e := by
  simp [State.setSlot, State.slot]

theorem State.setSlot_slot_other (s : State) (p : Fin 16) (e : UploadSlot) {k : Fin 16} (h : k ≠ p) : (s.setSlot p e).slot k = s.slot k := by
  simp [State.setSlot, State.slot, Table.get_set_other _ _ h]

@[simp] theorem State.setJob_job (s : State) (p : Fin 512) (e : JobRecord) : (s.setJob p e).job p = e := by
  simp [State.setJob, State.job]

theorem State.setJob_job_other (s : State) (p : Fin 512) (e : JobRecord) {k : Fin 512} (h : k ≠ p) : (s.setJob p e).job k = s.job k := by
  simp [State.setJob, State.job, Table.get_set_other _ _ h]

@[simp] theorem State.setContext_context (s : State) (p : Fin 8) (e : Context) : (s.setContext p e).context p = e := by
  simp [State.setContext, State.context]

theorem State.setContext_context_other (s : State) (p : Fin 8) (e : Context) {k : Fin 8} (h : k ≠ p) : (s.setContext p e).context k = s.context k := by
  simp [State.setContext, State.context, Table.get_set_other _ _ h]

@[simp] theorem State.setCond_cond (s : State) (p : Fin 64) (e : ConditionRecord) : (s.setCond p e).cond p = e := by
  simp [State.setCond, State.cond]

theorem State.setCond_cond_other (s : State) (p : Fin 64) (e : ConditionRecord) {k : Fin 64} (h : k ≠ p) : (s.setCond p e).cond k = s.cond k := by
  simp [State.setCond, State.cond, Table.get_set_other _ _ h]

@[simp] theorem State.setCallout_callout (s : State) (p : Fin 48) (e : CalloutEntry) : (s.setCallout p e).callout p = e := by
  simp [State.setCallout, State.callout]

theorem State.setCallout_callout_other (s : State) (p : Fin 48) (e : CalloutEntry) {k : Fin 48} (h : k ≠ p) : (s.setCallout p e).callout k = s.callout k := by
  simp [State.setCallout, State.callout, Table.get_set_other _ _ h]

@[simp] theorem State.setConsole_console (s : State) (p : Fin 4) (e : Option ConsoleEntry) : (s.setConsole p e).console p = e := by
  simp [State.setConsole, State.console]

theorem State.setConsole_console_other (s : State) (p : Fin 4) (e : Option ConsoleEntry) {k : Fin 4} (h : k ≠ p) : (s.setConsole p e).console k = s.console k := by
  simp [State.setConsole, State.console, Table.get_set_other _ _ h]

@[simp] theorem State.setResetWait_resetWait (s : State) (p : Fin 64) (e : Option ResetWait) : (s.setResetWait p e).resetWait p = e := by
  simp [State.setResetWait, State.resetWait]

theorem State.setResetWait_resetWait_other (s : State) (p : Fin 64) (e : Option ResetWait) {k : Fin 64} (h : k ≠ p) : (s.setResetWait p e).resetWait k = s.resetWait k := by
  simp [State.setResetWait, State.resetWait, Table.get_set_other _ _ h]

@[simp] theorem State.setLink_link (s : State) (p : Fin 4096) (e : Option (Fin 4096)) : (s.setLink p e).link p = e := by
  simp [State.setLink, State.link]

theorem State.setLink_link_other (s : State) (p : Fin 4096) (e : Option (Fin 4096)) {k : Fin 4096} (h : k ≠ p) : (s.setLink p e).link k = s.link k := by
  simp [State.setLink, State.link, Table.get_set_other _ _ h]

@[simp] theorem State.setSlotRecord_slotRecord (s : State) (p : Fin 64) (q : Consumable) (r : SlotRecord) :
    (s.setSlotRecord p q r).slotRecord p q = r := by
  simp [State.setSlotRecord, State.slotRecord]

/-- A slot record is left alone by a write of another slot. -/
theorem State.setSlotRecord_slotRecord_other (s : State) {p p' : Fin 64} {q q' : Consumable} (r : SlotRecord)
    (h : p' ≠ p ∨ q' ≠ q) : (s.setSlotRecord p q r).slotRecord p' q' = s.slotRecord p' q' := by
  by_cases e : p' = p
  · subst e
    have hq : q' ≠ q := by rcases h with h | h <;> [exact absurd rfl h; exact h]
    simp [State.setSlotRecord, State.slotRecord, PerSlot.get_set_other _ hq]
  · simp [State.setSlotRecord, State.slotRecord, Table.get_set_other _ _ e]

/-! ### Ports -/

@[simp] theorem State.setPort_frame (s : State) (p : Port) (x : PortState) :
    (s.setPort p x).strap = s.strap ∧ (s.setPort p x).age = s.age ∧ (s.setPort p x).sent = s.sent ∧
    (s.setPort p x).tables = s.tables ∧ (s.setPort p x).slots = s.slots ∧ (s.setPort p x).hsc = s.hsc ∧
    (s.setPort p x).jobs = s.jobs ∧ (s.setPort p x).lastNumber = s.lastNumber ∧ (s.setPort p x).ru = s.ru ∧
    (s.setPort p x).se = s.se ∧ (s.setPort p x).cm = s.cm ∧ (s.setPort p x).co = s.co ∧
    (s.setPort p x).slotRecords = s.slotRecords ∧ (s.setPort p x).mu = s.mu ∧ (s.setPort p x).pending = s.pending ∧
    (s.setPort p x).between = s.between := by
  cases p <;> exact ⟨rfl, rfl, rfl, rfl, rfl, rfl, rfl, rfl, rfl, rfl, rfl, rfl, rfl, rfl, rfl, rfl⟩

@[simp] theorem State.setPort_port (s : State) (p : Port) (x : PortState) : (s.setPort p x).port p = x := by cases p <;> rfl

theorem State.setPort_port_other (s : State) {p k : Port} (x : PortState) (h : k ≠ p) : (s.setPort p x).port k = s.port k := by
  cases p <;> cases k <;> first | rfl | exact absurd rfl h

@[simp] theorem State.send_frame (s : State) (p : Port) (a : Station) (f : OutFrame) :
    (s.send p a f).strap = s.strap ∧ (s.send p a f).sent = s.sent ∧ (s.send p a f).tables = s.tables ∧
    (s.send p a f).slots = s.slots ∧ (s.send p a f).hsc = s.hsc ∧ (s.send p a f).jobs = s.jobs ∧
    (s.send p a f).lastNumber = s.lastNumber ∧ (s.send p a f).ru = s.ru ∧ (s.send p a f).se = s.se ∧
    (s.send p a f).cm = s.cm ∧ (s.send p a f).co = s.co ∧ (s.send p a f).slotRecords = s.slotRecords ∧
    (s.send p a f).mu = s.mu ∧ (s.send p a f).pending = s.pending ∧
    (s.send p a f).between = s.between := by
  cases p <;> exact ⟨rfl, rfl, rfl, rfl, rfl, rfl, rfl, rfl, rfl, rfl, rfl, rfl, rfl, rfl, rfl⟩

/-- All a sending does: one frame at the tail of the port's transmit queue, and the next age stamp (R171). -/
theorem State.send_port (s : State) (p : Port) (a : Station) (f : OutFrame) :
    (s.send p a f).port p = { s.port p with tx := (s.port p).tx ++ [⟨s.age, a, f⟩] } ∧ (s.send p a f).age = s.age + 1 := by
  cases p <;> exact ⟨rfl, rfl⟩

theorem State.send_port_other (s : State) {p k : Port} (a : Station) (f : OutFrame) (h : k ≠ p) :
    (s.send p a f).port k = s.port k := by
  cases p <;> cases k <;> first | rfl | exact absurd rfl h

@[simp] theorem State.popRx_frame (s : State) (p : Port) :
    (s.popRx p).strap = s.strap ∧ (s.popRx p).age = s.age ∧ (s.popRx p).sent = s.sent ∧ (s.popRx p).tables = s.tables ∧
    (s.popRx p).slots = s.slots ∧ (s.popRx p).hsc = s.hsc ∧ (s.popRx p).jobs = s.jobs ∧
    (s.popRx p).lastNumber = s.lastNumber ∧ (s.popRx p).ru = s.ru ∧ (s.popRx p).se = s.se ∧ (s.popRx p).cm = s.cm ∧
    (s.popRx p).co = s.co ∧ (s.popRx p).slotRecords = s.slotRecords ∧ (s.popRx p).mu = s.mu ∧
    (s.popRx p).pending = s.pending ∧
    (s.popRx p).between = s.between := by
  cases p <;> exact ⟨rfl, rfl, rfl, rfl, rfl, rfl, rfl, rfl, rfl, rfl, rfl, rfl, rfl, rfl, rfl, rfl⟩

/-- All a taking of a frame does: the head leaves the receive buffer (R171). -/
theorem State.popRx_port (s : State) (p : Port) : (s.popRx p).port p = { s.port p with rx := (s.port p).rx.tail } := by
  cases p <;> rfl

theorem State.popRx_port_other (s : State) {p k : Port} (h : k ≠ p) : (s.popRx p).port k = s.port k := by
  cases p <;> cases k <;> first | rfl | exact absurd rfl h

/-- The console station list decides alike before and after a frame is taken. -/
@[simp] theorem State.popRx_accepts (s : State) (p : Port) (a : Station) : (s.popRx p).accepts a = s.accepts a := by
  cases p <;> rfl

end Sys2Proof.Machine
end

