-- ==== Sys2Proof/Laws/Ops.lean ====
section
/-! SUPPORT. What each shared operation can do, said once: the lemmas that proofs about commands cite in place of unfolding it. -/

namespace Sys2Proof.Machine

/-! ### Frames in and out -/

theorem State.send_up_eq (s : State) (a : Station) (f : OutFrame) : s.send .up a f = s.sentUp a f := rfl

theorem State.sendPrinter_eq (s : State) (p : Fin 64) (f : OutFrame) : s.sendPrinter p f = s.sentTo p f := rfl

theorem State.reply_eq (s : State) (f : CommandFrame) (c : Code) (x : Contents) : s.reply f c x = s.replied f c x := rfl

theorem State.popRx_up_eq (s : State) : s.popRx .up = s.tookUp := rfl

theorem State.popRx_fp_eq (s : State) : s.popRx .fp = s.tookFp := rfl

theorem State.refuseJob_eq (s : State) (r : JobRecord) (c : Code) :
    s.refuseJob r c = s.sentUp r.station (.refusedJob r.number c) := rfl

/-- A frame that is not at the head changes nothing (log entry 1). -/
theorem State.onFrame_none {s : State} {k : FrameKind} (h : s.headFrame k = none) (act : InFrame → State → State) :
    s.onFrame k act = s := by simp [State.onFrame, h]

theorem State.onFrame_some {s : State} {k : FrameKind} {f : InFrame} (h : s.headFrame k = some f) (act : InFrame → State → State) :
    s.onFrame k act = act f (s.popRx k.port) := by simp [State.onFrame, h]

theorem State.printerOf_popRx (s : State) (p : Port) (a : Station) : (s.popRx p).printerOf a = s.printerOf a := by
  cases p <;> rfl

/-- A frame from a DEFINED printer goes to its owner with the printer's slot (R41). -/
theorem FromPrinter.onPrinterFrame {s : State} {k : FrameKind} {p : Fin 64} {b : List Byte} (h : FromPrinter s k p b)
    (act : Fin 64 → List Byte → State → State) : s.onPrinterFrame k act = act p b s.tookFp := by
  obtain ⟨hk, f, hf, hb, hp⟩ := h
  rw [State.onPrinterFrame, State.onFrame_some hf, hk, State.popRx_fp_eq]
  have : s.tookFp.printerOf f.src = some p := by rw [← State.popRx_fp_eq, State.printerOf_popRx, hp]
  simp [this, hb]

/-- A command that is not at the head changes nothing (log entry 1). -/
theorem State.onCommand_none {α : Type} {s : State} {kind : Byte} (h : s.headCommand kind = none) (parse : List Byte → Option α)
    (act : CommandFrame → α → State → State) : s.onCommand kind parse act = s := by simp [State.onCommand, h]

/-- An accepted command whose body reads well has its effect (R165). -/
theorem Commanded.onCommand {α : Type} {s : State} {kind : Byte} {f : CommandFrame} {x : α} (h : Commanded s kind f)
    {parse : List Byte → Option α} (hx : parse f.body = some x) (act : CommandFrame → α → State → State) :
    s.onCommand kind parse act = act f x s.tookUp := by
  have ha : s.tookUp.accepts f.src = true := by rw [← State.popRx_up_eq, State.popRx_accepts]; exact h.2
  simp [State.onCommand, h.1, ha, hx, State.popRx_up_eq]

/-- An accepted command whose body does not read is answered RANGE (R177). -/
theorem Commanded.onCommand_range {α : Type} {s : State} {kind : Byte} {f : CommandFrame} (h : Commanded s kind f)
    {parse : List Byte → Option α} (hx : parse f.body = none) (act : CommandFrame → α → State → State) :
    s.onCommand kind parse act = s.tookUp.replied f .range .none := by
  have ha : s.tookUp.accepts f.src = true := by rw [← State.popRx_up_eq, State.popRx_accepts]; exact h.2
  simp [State.onCommand, h.1, ha, hx, State.popRx_up_eq, State.reply_eq]

/-- A command from a station that is not listed is answered REFUSED_STATION (R165). -/
theorem State.onCommand_refused {α : Type} {s : State} {kind : Byte} {f : CommandFrame} (h : s.headCommand kind = some f)
    (hs : s.accepts f.src = false) (parse : List Byte → Option α) (act : CommandFrame → α → State → State) :
    s.onCommand kind parse act = s.tookUp.replied f .refusedStation .none := by
  have ha : s.tookUp.accepts f.src = false := by rw [← State.popRx_up_eq, State.popRx_accepts, hs]
  simp [State.onCommand, h, ha, State.popRx_up_eq, State.reply_eq]

/-! ### Numbers in frames (R178) -/

theorem byteAt_u8 (n : Nat) (h : n ≤ 255) : byteAt (u8 n) 0 = n := by
  simp [byteAt, u8, Nat.mod_eq_of_lt (by omega : n < 256)]

theorem be16_u16 (n : Nat) (h : n ≤ 65535) (rest : List Byte) : be16 (u16 n ++ rest) 0 = n := by
  simp [be16, byteAt, u16]
  omega

theorem length_u8 (n : Nat) : (u8 n).length = 1 := rfl

theorem length_u16 (n : Nat) : (u16 n).length = 2 := rfl

theorem length_u32 (n : Nat) : (u32 n).length = 4 := rfl

/-! ### The report queue and the checks -/

/-- A JOB-AUDIT is enqueued, or dropped and counted (R168). -/
theorem State.offerAudit_cases (s : State) (a : JobAudit) :
    (s.mu.reports.length < 64 ∧ s.offerAudit a = s.pushReport (.audit a)) ∨
    (64 ≤ s.mu.reports.length ∧
      s.offerAudit a = { s with mu := { s.mu with droppedAudits := min (s.mu.droppedAudits + 1) 65535 } }) := by
  by_cases h : s.mu.reports.length < 64
  · exact .inl ⟨h, by simp [State.offerAudit, State.reportRoom, h]⟩
  · exact .inr ⟨by omega, by simp [State.offerAudit, State.reportRoom, h, satAdd]⟩

/-- A CHECK report is enqueued, or dropped (R168). -/
theorem State.offerCheck_cases (s : State) (c : CheckReport) :
    (s.mu.reports.length < 64 ∧ s.offerCheck c = s.pushReport (.check c)) ∨ (64 ≤ s.mu.reports.length ∧ s.offerCheck c = s) := by
  by_cases h : s.mu.reports.length < 64
  · exact .inl ⟨h, by simp [State.offerCheck, State.reportRoom, h]⟩
  · exact .inr ⟨by omega, by simp [State.offerCheck, State.reportRoom, h]⟩

/-- A RESOLVED notice is enqueued, owed, or dropped and counted (R146). -/
theorem State.offerResolved_cases (s : State) (n : ResolvedNotice) :
    (s.mu.reports.length < 64 ∧ s.offerResolved n = s.pushReport (.resolved n)) ∨
    (64 ≤ s.mu.reports.length ∧ s.co.owedResolved.length < 48 ∧
      s.offerResolved n = { s with co := { s.co with owedResolved := s.co.owedResolved ++ [n] } }) ∨
    (64 ≤ s.mu.reports.length ∧ 48 ≤ s.co.owedResolved.length ∧
      s.offerResolved n = { s with co := { s.co with dropped := min (s.co.dropped + 1) 65535 } }) := by
  by_cases h : s.mu.reports.length < 64
  · exact .inl ⟨h, by simp [State.offerResolved, State.reportRoom, h]⟩
  · by_cases h2 : s.co.owedResolved.length < 48
    · exact .inr (.inl ⟨by omega, h2, by simp [State.offerResolved, State.reportRoom, h, h2]⟩)
    · exact .inr (.inr ⟨by omega, by omega, by simp [State.offerResolved, State.reportRoom, h, h2, satAdd]⟩)

/-- A check changes the MU only, and there only its class's record, the worst-class field and the report queue (R169). -/
theorem State.noteCheck_frame (s : State) (c : CheckClass) (site : CheckSite) :
    { s.noteCheck c site with mu := s.mu } = s ∧
    { (s.noteCheck c site).mu with
      corrected := s.mu.corrected, uncorrectable := s.mu.uncorrectable, overrun := s.mu.overrun, worst := s.mu.worst,
      reports := s.mu.reports } = s.mu := by
  unfold State.noteCheck State.offerCheck
  cases c <;> dsimp only <;> repeat' split
  all_goals exact ⟨rfl, rfl⟩

/-- What a check writes: the count rises, at most to 255, and the worst class is the more severe (R169). -/
theorem State.noteCheck_record (s : State) (c : CheckClass) (site : CheckSite) :
    (s.noteCheck c site).checkRecord c = (s.checkRecord c).note site s.mu.clock ∧
    (s.noteCheck c site).mu.worst = worseOf s.mu.worst c := by
  unfold State.noteCheck State.offerCheck
  cases c <;> dsimp only <;> repeat' split
  all_goals exact ⟨rfl, rfl⟩

/-- A check record after one more check (R169). -/
theorem CheckRecord.note_eq (r : CheckRecord) (site : CheckSite) (now : Stamp) :
    r.note site now =
      { count := min (r.count + 1) 255, first := if r.count = 0 then some (site, now) else r.first, last := some now } := rfl

/-! ### Accounts -/

/-- RESERVE takes the amount from an OPEN account that covers it, and otherwise changes nothing (R95). -/
theorem State.reserve_cases (s : State) (i : Fin 1024) (x : Nat) :
    (reserveResult (s.account i) x = .reserved ∧ s.reserve i x = (s.setAccount i ((s.account i).reserve x), .reserved)) ∨
    (reserveResult (s.account i) x ≠ .reserved ∧ s.reserve i x = (s, reserveResult (s.account i) x)) := by
  unfold State.reserve
  cases h : reserveResult (s.account i) x <;> simp

theorem reserveResult_reserved {a : AccountEntry} {x : Nat} (h : reserveResult a x = .reserved) :
    a.state = .opened ∧ (x : Int) ≤ a.available ∧ a.reserved + x ≤ maxAmount := by
  unfold reserveResult at h
  split at h
  · cases h
  · split at h
    · cases h
    · split at h
      · cases h
      · split at h
        · cases h
        · refine ⟨?_, by omega, by omega⟩
          cases hs : a.state <;> simp_all

/-- Every settled, returned or taken reservation leaves its account covered (R94). -/
theorem AccountEntry.settle_covered {a : AccountEntry} (h : a.Covered) (c : Charge) (res : Nat) : (a.settle c res).Covered := by
  unfold AccountEntry.Covered AccountEntry.settle chargedAmount at *
  simp only
  omega

theorem AccountEntry.giveBack_covered {a : AccountEntry} (h : a.Covered) (res : Nat) : (a.giveBack res).Covered := by
  unfold AccountEntry.Covered AccountEntry.giveBack at *
  simp only
  omega

theorem AccountEntry.reserve_covered {a : AccountEntry} (h : a.Covered) {x : Nat} (hx : reserveResult a x = .reserved) :
    (a.reserve x).Covered := by
  have := (reserveResult_reserved hx).2.1
  unfold AccountEntry.Covered AccountEntry.reserve AccountEntry.available at *
  simp only
  omega

theorem State.settleJob_some {s : State} {j : Fin 512} {res : Nat} (h : (s.job j).reservation = some res) :
    s.settleJob j =
      (s.setAccount (s.job j).account ((s.account (s.job j).account).settle (s.settlementCharge (s.job j)) res)).setJob j
        { s.job j with reservation := none } := by simp [State.settleJob, h]

theorem State.settleJob_none {s : State} {j : Fin 512} (h : (s.job j).reservation = none) : s.settleJob j = s := by
  simp [State.settleJob, h]

theorem State.returnJob_some {s : State} {j : Fin 512} {res : Nat} (h : (s.job j).reservation = some res) :
    s.returnJob j =
      (s.setAccount (s.job j).account ((s.account (s.job j).account).giveBack res)).setJob j
        { s.job j with reservation := none } := by simp [State.returnJob, h]

theorem State.returnJob_none {s : State} {j : Fin 512} (h : (s.job j).reservation = none) : s.returnJob j = s := by
  simp [State.returnJob, h]

/-! ### The hold store -/

theorem SegPos.key_injective {a b : SegPos} (h : a.key = b.key) : a = b := by
  have hv : a.extent.val * 64 + a.slot.val = b.extent.val * 64 + b.slot.val := congrArg Fin.val h
  have h1 : a.extent = b.extent := Fin.ext (by omega)
  have h2 : a.slot = b.slot := Fin.ext (by omega)
  cases a; cases b; simp_all

@[simp] theorem State.stored_setStored (s : State) (p : SegPos) (x : StoredSegment) : (s.setStored p x).stored p = x := by
  simp [State.stored, State.setStored]

theorem State.stored_setStored_other (s : State) {p q : SegPos} (h : q ≠ p) (x : StoredSegment) :
    (s.setStored p x).stored q = s.stored q := by
  have hk : q.key ≠ p.key := fun e => h (SegPos.key_injective e)
  simp [State.stored, State.setStored, Table.get_set_other _ _ hk]

/-- The store keeps its canonical form when a slot is written. -/
theorem State.setStored_canonical {s : State} (h : s.StoreCanonical) (p : SegPos) (x : StoredSegment) :
    (s.setStored p x).StoreCanonical := Table.wf_set _ _ _ _ h

theorem State.reset_storeCanonical : State.reset.StoreCanonical := Table.wf_empty _

/-- The arbiter changes nothing, or moves the head of one queue into the operation in progress and notes the queue (R26). -/
theorem State.grant_cases (s : State) :
    s.grant = s ∨
    (∃ e rest, s.hsc.op = none ∧ s.hsc.writes = e :: rest ∧
      s.grant = { s with hsc := { s.hsc with writes := rest, op := some ⟨.write e, false⟩, lastServed := .writes } }) ∨
    (∃ e rest, s.hsc.op = none ∧ s.hsc.reads = e :: rest ∧
      s.grant = { s with hsc := { s.hsc with reads := rest, op := some ⟨.read e, false⟩, lastServed := .reads } }) := by
  unfold State.grant
  split
  · rename_i hop _
    split
    · rename_i e rest hw
      exact .inr (.inl ⟨e, rest, hop, hw, rfl⟩)
    · exact .inl rfl
  · rename_i hop _
    split
    · rename_i e rest hr
      exact .inr (.inr ⟨e, rest, hop, hr, rfl⟩)
    · exact .inl rfl
  · exact .inl rfl

/-- An extent leaves the pool for a chain, or the pool is empty (R22). -/
theorem State.allocateExtent_cases (s : State) (j : Fin 512) :
    (s.allocateExtent j = none ∧ (s.hsc.poolHead = none ∨ s.hsc.poolLength = 0)) ∨
    ∃ e, s.hsc.poolHead = some e ∧ s.hsc.poolLength ≠ 0 ∧ s.allocateExtent j = some ((s.popPool e).joinChain j e) := by
  unfold State.allocateExtent
  cases h : s.hsc.poolHead with
  | none => simp
  | some e =>
    by_cases h0 : s.hsc.poolLength = 0
    · simp [h0]
    · exact .inr ⟨e, rfl, h0, by simp [h0]⟩

/-- A chain joins the pool whole, or there is none (R23). -/
theorem State.freeChain_cases (s : State) (j : Fin 512) :
    s.freeChain j = s ∨
    ∃ h t, (s.job j).chainHead = some h ∧ (s.job j).chainTail = some t ∧
      s.freeChain j =
        (s.appendPool h t (s.job j).extents).setJob j { s.job j with chainHead := none, chainTail := none, extents := 0 } := by
  cases h1 : (s.job j).chainHead with
  | none => exact .inl (by simp [State.freeChain, h1])
  | some h =>
    cases h2 : (s.job j).chainTail with
    | none => exact .inl (by simp [State.freeChain, h1, h2])
    | some t => exact .inr ⟨h, t, rfl, rfl, by simp [State.freeChain, h1, h2]⟩

/-! ### Callouts and supplies -/

/-- The sending step makes the callout OWED, or enqueues it as SENT (R140). -/
theorem State.sendingStep_cases (s : State) (i : Fin 48) :
    (s.calloutHeld (s.callout i).printer = true ∧ s.sendingStep i = s.setCallout i { s.callout i with state := .owed, countdown := none }) ∨
    (s.calloutHeld (s.callout i).printer = false ∧ s.sendingStep i = s.sendCallout i { s.callout i with state := .sent }) := by
  cases h : s.calloutHeld (s.callout i).printer <;> simp [State.sendingStep, h]

/-- A callout is enqueued only where the report queue has room (R140, R168). -/
theorem State.calloutHeld_false {s : State} {p : Fin 64} (h : s.calloutHeld p = false) :
    s.zoneMuted (s.printer p).zone = false ∧ s.mu.reports.length < 64 := by
  simpa [State.calloutHeld, State.reportRoom] using h

/-- A reorder that becomes due changes one record, and the report queue at most (R159). -/
theorem State.reorderDue_frame (s : State) (p : Fin 64) (q : Consumable) (t : DueTrigger) :
    { s.reorderDue p q t with slotRecords := s.slotRecords, mu := s.mu } = s ∧
    { (s.reorderDue p q t).mu with reports := s.mu.reports } = s.mu ∧
    (∀ p' q', p' ≠ p ∨ q' ≠ q → (s.reorderDue p q t).slotRecord p' q' = s.slotRecord p' q') := by
  unfold State.reorderDue
  simp only
  split
  · split
    · refine ⟨rfl, rfl, fun p' q' h => ?_⟩
      exact State.setSlotRecord_slotRecord_other s _ h
    · refine ⟨rfl, rfl, fun p' q' h => ?_⟩
      exact State.setSlotRecord_slotRecord_other s _ h
  · exact ⟨rfl, rfl, fun _ _ _ => rfl⟩

/-- A fitting changes one record, and the report queue at most (R158). -/
theorem State.fitting_frame (s : State) (p : Fin 64) (q : Consumable) (t : Fin 64) (d : Detection) :
    { s.fitting p q t d with slotRecords := s.slotRecords, mu := s.mu } = s ∧
    { (s.fitting p q t d).mu with reports := s.mu.reports } = s.mu ∧
    (∀ p' q', p' ≠ p ∨ q' ≠ q → (s.fitting p q t d).slotRecord p' q' = s.slotRecord p' q') := by
  unfold State.fitting
  simp only
  split
  · exact ⟨rfl, rfl, fun p' q' h => State.setSlotRecord_slotRecord_other s _ h⟩
  · split
    · exact ⟨rfl, rfl, fun p' q' h => State.setSlotRecord_slotRecord_other s _ h⟩
    · exact ⟨rfl, rfl, fun p' q' h => State.setSlotRecord_slotRecord_other s _ h⟩

/-- Serving owed notices never overfills the report queue (R148, R168). -/
theorem State.serveOne_room {s t : State} (h : s.serveOne = some t) (hr : s.mu.reports.length < 64) : t.mu.reports.length ≤ 64 := by
  have key : t.mu.reports.length = s.mu.reports.length + 1 := by
    unfold State.serveOne State.serveCalloutUnit State.serveSupplyUnit at h
    split at h
    · rename_i u hu
      cases h
      split at hu
      · cases hu
        simp [State.sendOwed, State.sendCallout, State.setCallout, State.pushReport]
      · split at hu
        · cases hu
          simp [State.pushReport]
        · cases hu
    · dsimp only at h
      split at h
      · cases h
      · split at h
        · cases h
          simp [State.pushReport, State.setSlotRecord]
        · cases h
          simp [State.pushReport, State.setSlotRecord]
  omega

theorem State.serveOwed_room (fuel : Nat) (s : State) (h : s.mu.reports.length ≤ 64) :
    (State.serveOwed fuel s).mu.reports.length ≤ 64 := by
  induction fuel generalizing s with
  | zero => exact h
  | succ fuel ih =>
    unfold State.serveOwed
    split
    · rename_i hr
      split
      · rename_i t ht
        exact ih t (State.serveOne_room ht (by simpa [State.reportRoom] using hr))
      · exact h
    · exact h

/-! ### Conditions -/

/-- A new condition record, and notices to the SE and the RU when the view changes (R130). -/
theorem State.setView_cases (s : State) (p : Fin 64) (r : ConditionRecord) :
    (s.setView p r = s.setCond p r ∧ (viewChanged (s.cond p) r = false ∨ r.state = none)) ∨
    ∃ st, r.state = some st ∧ viewChanged (s.cond p) r = true ∧
      s.setView p r =
        { s.setCond p r with
          se := { s.se with notices := s.se.notices ++ [⟨p, st, if st = .degraded then r.loss else LossSet.none⟩] }
          ru := { s.ru with notices := s.ru.notices ++ [⟨p, st, if st = .degraded then r.loss else LossSet.none⟩] } } := by
  unfold State.setView
  cases h : r.state with
  | none => exact .inl ⟨rfl, .inr rfl⟩
  | some st =>
    cases hv : viewChanged (s.cond p) r with
    | false => exact .inl ⟨by simp, .inl rfl⟩
    | true => exact .inr ⟨st, rfl, rfl, by simp⟩

/-! ### Contexts -/

@[simp] theorem State.freeContext_context (s : State) (c : Fin 8) : (s.freeContext c).context c = Context.free := by
  simp [State.freeContext, State.context, State.leaveSaved, State.setContext]

theorem State.freeContext_context_other (s : State) {c d : Fin 8} (h : d ≠ c) : (s.freeContext c).context d = s.context d :=
  State.setContext_context_other s c _ h

@[simp] theorem State.saveContext_context (s : State) (c : Fin 8) (x : Context) :
    (s.saveContext c x).context c =
      { x with
        state := .saved, job := none, mode := none, step := none, credit := 0, stall := none, park := none,
        pendingEnd := none } := by
  simp [State.saveContext, State.context, State.joinSaved, State.setContext]

theorem State.saveContext_context_other (s : State) {c d : Fin 8} (h : d ≠ c) (x : Context) :
    (s.saveContext c x).context d = s.context d := State.setContext_context_other s c _ h

@[simp] theorem State.saveContext_saved (s : State) (c : Fin 8) (x : Context) : (s.saveContext c x).ru.saved = s.ru.saved ++ [c] := rfl

/-- With nothing queued a run of the arbiter changes nothing (R60). -/
theorem State.runArbiter_empty {s : State} (h : s.ru.queue = []) : s.runArbiter = s := by
  unfold State.runArbiter
  split <;> simp [h, State.arbiterFor]

/-- While the RU takes the candidates of an ask, a call of the arbiter hands out nothing: at most it is noted (R44). -/
theorem State.runArbiter_waits {s : State} (h : s.ru.hold ≠ .off) : s.runArbiter = s ∨ s.runArbiter = s.setHold .called := by
  unfold State.runArbiter
  split
  · contradiction
  · split
    · exact .inl rfl
    · exact .inr rfl
  · exact .inl rfl

/-- After the candidates of an ask the arbiter waits no longer, and what it does is a run of it (R44, R60). -/
theorem State.endHold_cases (s : State) : s.endHold = s.setHold .off ∨ s.endHold = (s.setHold .off).runArbiter := by
  unfold State.endHold
  split
  · exact .inr rfl
  · exact .inl rfl

/-! ### An ask's requests (R104) -/

/-- A command at the MU leaves the state as it was, answers and nothing else, or acts on the state after the frame is taken: what
holds of all three holds after it (R165). -/
theorem State.onCommand_induction {α : Type} {P : State → Prop} (s : State) (kind : Byte) (parse : List Byte → Option α)
    (act : CommandFrame → α → State → State) (stays : P s) (answers : ∀ f c, P (s.tookUp.replied f c .none))
    (acts : ∀ f x, s.headCommand kind = some f → parse f.body = some x → P (act f x s.tookUp)) :
    P (s.onCommand kind parse act) := by
  unfold State.onCommand
  split
  · exact stays
  · rename_i f hf
    dsimp only
    split
    · exact answers f _
    · split
      · rename_i x hx
        exact acts f x hf hx
      · exact answers f _

/-- A console's event at an account changes the upstream port, the accounts and the rate plans, and nothing else (R13, R14, R101,
R102). -/
theorem State.takeAccountEvent_frame (s : State) (e : AccountEvent) (h : e = .credit ∨ e = .debit ∨ e = .tableWrite) :
    { s.takeAccountEvent e with up := s.up, age := s.age, tables := s.tables } = s ∧
    { (s.takeAccountEvent e).tables with accounts := s.tables.accounts, plans := s.tables.plans } = s.tables := by
  rcases h with rfl | rfl | rfl
  · refine State.onCommand_induction (P := fun t => { t with up := s.up, age := s.age, tables := s.tables } = s ∧
      { t.tables with accounts := s.tables.accounts, plans := s.tables.plans } = s.tables) s 3 parseAmountCommand _
      ⟨rfl, rfl⟩ (fun _ _ => ⟨rfl, rfl⟩) (fun _ _ _ _ => ⟨rfl, rfl⟩)
  · refine State.onCommand_induction (P := fun t => { t with up := s.up, age := s.age, tables := s.tables } = s ∧
      { t.tables with accounts := s.tables.accounts, plans := s.tables.plans } = s.tables) s 4 parseAmountCommand _
      ⟨rfl, rfl⟩ (fun _ _ => ⟨rfl, rfl⟩) (fun _ _ _ _ => ?_)
    dsimp only
    split <;> exact ⟨rfl, rfl⟩
  · simp only [State.takeAccountEvent]
    split
    · rename_i ht
      refine State.onCommand_induction (P := fun t => { t with up := s.up, age := s.age, tables := s.tables } = s ∧
        { t.tables with accounts := s.tables.accounts, plans := s.tables.plans } = s.tables) s 1 parseTableWrite _
        ⟨rfl, rfl⟩ (fun _ _ => ⟨rfl, rfl⟩) (fun f x hf hx => ?_)
      obtain ⟨table, index, b⟩ := x
      have hh : s.headTable = some table := by
        unfold State.headTable
        rw [hf]
        simp [hx]
      have h34 : table = 3 ∨ table = 4 := by simpa [hh] using ht
      rcases h34 with rfl | rfl <;>
        simp only [State.writeTable, State.writeEntry, State.writeAccount] <;> repeat' split
      all_goals exact ⟨rfl, rfl⟩
    · exact ⟨rfl, rfl⟩

/-- An event that comes between leaves the state as it was, or is taken and leaves the release queue and every candidate's record as
they were (R41, 7.7). -/
theorem State.comeBetween_cases (own : List (Fin 512)) (s : State) (e : AccountEvent) :
    s.comeBetween own e = s ∨
      (s.comeBetween own e = s.takeAccountEvent e ∧ (s.takeAccountEvent e).ru.queue = s.ru.queue ∧
        ∀ j ∈ own, (s.takeAccountEvent e).job j = s.job j) := by
  simp only [State.comeBetween]
  split
  · exact .inr ⟨rfl, ‹_›⟩
  · exact .inl rfl

/-- What holds of a state and is kept by every event at an account, and by the lists of events, is kept by a request. -/
theorem State.request_induction {P : State → Prop} {own : List (Fin 512)} {s : State} (h : P s)
    (event : ∀ (t : State) (e : AccountEvent), P t → (t.takeAccountEvent e).ru.queue = t.ru.queue →
      (∀ j ∈ own, (t.takeAccountEvent e).job j = t.job j) → P (t.takeAccountEvent e))
    (rest : ∀ (t : State) (l : List (List AccountEvent)), P t → P { t with between := l }) : P (s.request own) := by
  unfold State.request
  split
  · exact h
  · rename_i events l hb
    clear hb
    refine rest _ _ ?_
    clear rest
    induction events generalizing s with
    | nil => exact h
    | cons e more ih =>
      rw [List.foldl_cons]
      refine ih (s := s.comeBetween own e) ?_
      rcases s.comeBetween_cases own e with e1 | ⟨e1, hq, hj⟩ <;> rw [e1]
      · exact h
      · exact event s e h hq hj

/-- A request leaves the record of every candidate as it was (7.7). -/
theorem State.request_job (s : State) {own : List (Fin 512)} {j : Fin 512} (h : j ∈ own) : (s.request own).job j = s.job j :=
  State.request_induction (P := fun t => t.job j = s.job j) rfl (fun _ _ e _ hj => (hj j h).trans e) (fun _ _ e => e)

/-- A request leaves the release queue as it was (R41, R44). -/
@[simp] theorem State.request_queue (s : State) (own : List (Fin 512)) : (s.request own).ru.queue = s.ru.queue :=
  State.request_induction (P := fun t => t.ru.queue = s.ru.queue) rfl (fun _ _ e hq _ => hq.trans e) (fun _ _ e => e)

/-- A request takes the events of the next list, if any is left (R104). -/
theorem State.request_eq (s : State) (own : List (Fin 512)) :
    s.request own = { (s.between.headD []).foldl (State.comeBetween own) s with between := s.between.tail } := by
  unfold State.request
  split <;> rename_i h <;> simp [h]
  cases s; simp_all

theorem State.request_nil {s : State} (h : s.between = []) (own : List (Fin 512)) : s.request own = s := by
  simp [State.request, h]

@[simp] theorem State.request_between (s : State) (own : List (Fin 512)) : (s.request own).between = s.between.tail := by
  simp [State.request_eq]

/-- An attempt makes two requests (R50, R82, R95). -/
theorem State.attempt_state (s : State) (own : List (Fin 512)) (r : JobRecord) (price : RatePlan → Nat) :
    let priced := s.request own
    let reserving := priced.request own
    (s.attempt own r price).state = reserving ∧ (s.attempt own r price).amount = price (priced.planOf r) ∧
    (s.attempt own r price).result = reserveResult (reserving.accountOf r) (s.attempt own r price).amount ∧
    (s.attempt own r price).available = (reserving.accountOf r).available := ⟨rfl, rfl, rfl, rfl⟩

end Sys2Proof.Machine
end

