-- ==== Sys2Proof/WellFormed.lean ====
section
/-! DEFINITION. Well-formed commands: the operands that the types of Syntax.lean do not already bound. -/

namespace Sys2Proof

/-- A job number is 1 to 65535 (R28, R29). -/
def wfJobNumber (n : Nat) : Bool := decide (1 ≤ n ∧ n ≤ 65535)

/-- The checks on a command's operands. Printer slots, zones, contexts, upload slots and callout entries are bounded by their
types; a frame may hold any bytes, since the part itself sorts out the malformed ones (R177). -/
def Instr.wellFormed : Instr → Bool
  | .parkHoldExpiry n => wfJobNumber n
  | .holdExpiry n => wfJobNumber n
  | _ => true

end Sys2Proof
end

