-- ==== Sys2Proof/Tests/Slice0.lean ====
section
/-! SUPPORT. Tests with expected results from the manual's own examples and encodings, the smoke test of WellFormed, and for each
statement that has hypotheses a witness: a concrete state and operands that meet them together. -/

namespace Sys2Proof.Tests

set_option Elab.async false

open Sys2Proof Sys2Proof.Machine

/-! ### The smoke test of WellFormed -/

theorem test_wf_refuses_job_zero : (Instr.parkHoldExpiry 0).wellFormed = false ∧ (Instr.holdExpiry 0).wellFormed = false := by decide

theorem test_wf_refuses_job_past_65535 :
    (Instr.parkHoldExpiry 65536).wellFormed = false ∧ (Instr.holdExpiry 65536).wellFormed = false := by decide

theorem test_wf_accepts_boundary_jobs :
    (Instr.parkHoldExpiry 1).wellFormed = true ∧ (Instr.holdExpiry 65535).wellFormed = true := by decide

/-! ### States built for the tests -/

/-- A console's station address. -/
def desk : Station := 0x020000000099

/-- The station address of printer 3. -/
def printerAddress : Station := 0x020000000003

/-- The station address of a workstation. -/
def workstation : Station := 0x020000000055

/-- A print-path frame of the kind byte `kind` and frame sequence 3 (R176), with no padding. -/
def framed (kind : Nat) (src : Station) (payload : List Byte) : EthFrame :=
  ⟨0x024A48362400, src, 0x88B5, [1] ++ u8 kind ++ u16 payload.length ++ [0, 3] ++ payload⟩

/-- Printer 3 DEFINED in zone 2, with a K slot fitted; supply type 1 is DEFINED for K; user 4 holds badge 77 on account 5, which
is OPEN with 100.00 on plan 6. -/
def office : State :=
  ((((((State.reset.setPrinter 3
    { PrinterEntry.powerOn with
      state := .defined, station := printerAddress, zone := 2,
      slotMap := PrinterEntry.powerOn.slotMap.set .k ⟨true, 1⟩ }).setCond 3
    { ConditionRecord.powerOn with state := some .ready, countdown := some ⟨120, false⟩ }).setSupply 1
    ⟨.defined, .k, 5000, 3, 100, 10, 0⟩).setUser 4 ⟨.defined, 77, 5, 2, true, true, true, 0⟩).setAccount 5
    ⟨.opened, 0, 6, 10000, 0, 0, 0, 0⟩).setPlan 6 ⟨4, 25, 10, 1, 15, 20⟩).setSlotRecord 3 .k (SlotRecord.resetTo 1)

/-- A state with one frame from printer 3 at the fleet port. -/
def hears (s : State) (kind : Nat) (payload : List Byte) : State :=
  { s with fp := { s.fp with rx := [framed kind printerAddress payload] } }

/-- A state with one frame from a workstation at the upstream port. -/
def uploads (s : State) (kind : Nat) (payload : List Byte) : State :=
  { s with up := { s.up with rx := [framed kind workstation payload] } }

/-- A state with one COMMAND from the desk at the upstream port, tag 9. -/
def told (s : State) (kind : Nat) (body : List Byte) : State :=
  { s with up := { s.up with rx := [framed 0x10 desk (u16 9 ++ u8 kind ++ body)] } }

/-- The command that `told` puts at the head. -/
def order (kind : Byte) (body : List Byte) : CommandFrame := ⟨desk, 9, kind, body⟩

/-- A job record of user 4, number 12. -/
def aJob : JobRecord :=
  { JobRecord.powerOn with
    number := 12, state := .held, user := 4, account := 5, station := workstation, zone := 2, pages := 10, copies := 2,
    segments := 3, bytes := 3000, chainHead := some 7, chainTail := some 7, extents := 1 }

/-- The office with job 12 in record 1, bound at printer 3 in context 2 whose contents are `x`. -/
def bound (r : JobRecord) (x : Context) : State :=
  (office.setJob 1 r).setContext 2 { x with owner := some 3, job := some 12 }

/-- A segment of sheet 1. -/
def aSegment : Segment := ⟨⟨2, true, 1⟩, [1, 2]⟩

/-! ### Amounts and charges -/

/-- The settlement example of 5.4: 37 mono and 12 colour faces, 20 duplex sheets and 4 large ones cost 3.98. -/
theorem test_charge_of_the_manual : (computeCharge ⟨37, 12, 20, 4⟩ ⟨4, 25, 10, 1, 15, 20⟩).amount = 398 := by decide

/-- The amounts of R179: 12.50 and minus 1.25. -/
theorem test_packed_bytes_of_the_manual :
    amountBytes 1250 = [0x00, 0x00, 0x01, 0x25, 0x0C] ∧ amountBytes (-125) = [0x00, 0x00, 0x00, 0x12, 0x5D] := by decide

/-- The sums of R91: −3.75 + 2.50 and 999,990.00 + 25.00. -/
theorem test_packed_sums_of_the_manual :
    ((Packed.ofInt 8 (-375)).add (Packed.ofInt 8 250)).value = -125 ∧
    ((Packed.ofInt 8 99999000).add (Packed.ofInt 8 2500)).value = 99999999 := by decide

/-- The sheet of 10.3: a large sheet of two faces with one colour face counts 4, 2, 2, 2, 4 and 1. -/
theorem test_sheet_units_of_the_manual :
    consumables.map (fun q => sheetUnits q 2 1 true) = [4, 2, 2, 2, 4, 1] := by decide

/-! ### Witnesses: the standing rules, the ports and the time base -/

theorem office_standing : office.Standing := by
  refine ⟨?_, ?_, ?_, ?_, ?_, rfl⟩
  · constructor <;> decide
  · exact ⟨by decide, by decide⟩
  · have h : ∀ i : Fin 1024, -(office.account i).overdraft ≤ (office.account i).balance - (office.account i).reserved ∧
        (office.account i).balance ≤ maxAmount := by decide +kernel
    exact h
  · constructor <;> decide +kernel
  · exact (by decide : office.hsc.store.wf (fun _ => none) = true)

/-- A step of a state that meets the standing rules, for StepKeepsStandingRules. -/
theorem test_witness_standing : office.Standing ∧ ∃ t, step office = .next t := ⟨office_standing, _, rfl⟩

theorem office_canonical : office.TablesCanonical := by constructor <;> decide

/-- For StepKeepsTablesCanonical, SecondTickLowersCountdowns and MinuteTickAdvances. -/
theorem test_witness_tables : office.TablesCanonical ∧ (∃ t, step office = .next t) ∧ office.mu.clock.minute < 1439 :=
  ⟨office_canonical, ⟨_, rfl⟩, by decide⟩

/-- The last minute of day 65535, for the other clause of MinuteTickAdvances. -/
theorem test_witness_last_minute :
    State.TablesCanonical { office with mu := { office.mu with clock := ⟨65535, 1439⟩ } } := by constructor <;> decide

/-- A frame that is not of the print path. -/
def foreigner : EthFrame := ⟨1, 2, 0x0800, [7]⟩

/-- Fifteen frames leave room for one and sixteen leave none, for ArrivalQueuesOrOverruns. -/
theorem test_witness_arrival :
    ({ office with up := ⟨List.replicate 15 foreigner, [], []⟩ }.port .up).rx.length < 16 ∧
    16 ≤ ({ office with up := ⟨List.replicate 16 foreigner, [], []⟩ }.port .up).rx.length := by decide

/-- A foreign frame before a pass-through buffer of 7 and of 8 frames, and a print-path frame of version 2, for
ClassifierTakesFrames. -/
theorem test_witness_classifier :
    (({ office with up := ⟨[foreigner], [], []⟩, fp := ⟨[], List.replicate 7 ⟨0, foreigner⟩, []⟩ }.port .up).rx = [foreigner] ∧
      foreigner.etherType ≠ 0x88B5 ∧
      ({ office with fp := ⟨[], List.replicate 7 ⟨0, foreigner⟩, []⟩ }.port (otherPort .up)).pass.length < 8 ∧
      8 ≤ ({ office with fp := ⟨[], List.replicate 8 ⟨0, foreigner⟩, []⟩ }.port (otherPort .up)).pass.length) ∧
    (framed 1 workstation []).etherType = 0x88B5 ∧ byteAt (2 :: (framed 1 workstation []).body.tail) 0 ≠ 1 ∧
    frameKindOf (byteAt (framed 0x30 workstation []).body 1) = none ∧ office.printerOf workstation = none := by decide

/-- Two waiting frames, the part's own the older, of equal age and the younger; one buffer empty, and both, for
TransmitterSendsOldest. -/
theorem test_witness_transmit :
    (∀ a ∈ [5, 4, 3], ({ office with up := ⟨[], [⟨a, foreigner⟩], [⟨4, desk, .dataAck 12 1⟩]⟩ }.port .up).tx = [⟨4, desk, .dataAck 12 1⟩] ∧
      ({ office with up := ⟨[], [⟨a, foreigner⟩], [⟨4, desk, .dataAck 12 1⟩]⟩ }.port .up).pass = [⟨a, foreigner⟩]) ∧ 4 < 5 ∧ 3 ≤ 4 ∧
    ({ office with up := ⟨[], [], [⟨4, desk, .dataAck 12 1⟩]⟩ }.port .up).pass = [] ∧
    ({ office with up := ⟨[], [⟨3, foreigner⟩], []⟩ }.port .up).tx = [] ∧ (office.port .up).tx = [] ∧ (office.port .up).pass = [] := by
  decide

/-- A CHECK report that waits for the desk. -/
def aReport : Report := ⟨⟨1, 2⟩, .check ⟨.overrun, .port .up, 1, some .overrun⟩⟩

/-- The office with the desk as report station and one report. -/
def reporting : State :=
  { office.setConsole 0 (some ⟨desk, true⟩) with
    mu := { (office.setConsole 0 (some ⟨desk, true⟩)).mu with reports := [aReport] } }

/-- A notice of printer `p` that its code 10 is resolved. -/
def aResolved (p : Fin 64) : ResolvedNotice := ⟨p, printerAddress, 2, 10, .service, ⟨0, 5⟩, 1, .sent, .cleared, ⟨0, 6⟩⟩

/-- As `reporting`, with a report queue that is full. -/
def brimming : State := { reporting with mu := { reporting.mu with reports := aReport :: List.replicate 63 aReport } }

/-- A full report queue, and an OWED callout in an OPEN zone with another whose escalation is owed and is younger. -/
def owingCallout : State :=
  (brimming.setCallout 4 ⟨.owed, 3, 10, ⟨0, 5⟩, .service, 1, none, false, 0⟩).setCallout 2
    ⟨.escalated, 3, 11, ⟨0, 6⟩, .service, 2, none, true, 0⟩

/-- A full report queue, and RESOLVED notices owed for printers 5, 3 and 3. -/
def owingResolved : State :=
  { brimming with co := { brimming.co with owedResolved := [aResolved 5, aResolved 3, { aResolved 3 with code := 12 }] } }

/-- A full report queue, and a FITTED or a REORDER notice owed for the K slot of printer 3. -/
def owingSlot (f : Option OwedFitted) : State :=
  brimming.setSlotRecord 3 .k { brimming.slotRecord 3 .k with owedFitted := f, owedReorder := true }

/-- For ReportLeavesForStation: no station, a frame waiting, no report; no notice owed; and one of each kind owed. -/
theorem test_witness_report :
    (reporting.setConsole 0 none).reportStation = none ∧ { reporting with up := ⟨[], [], [⟨4, desk, .dataAck 12 1⟩]⟩ }.up.tx ≠ [] ∧
    office.mu.reports = [] ∧
    (∀ s ∈ [reporting, brimming, owingCallout, owingResolved, owingSlot none, owingSlot (some ⟨.due, none, .serial, ⟨0, 1⟩⟩)],
      s.mu.reports = aReport :: s.mu.reports.tail ∧ s.reportStation = some desk ∧ s.up.tx = []) ∧
    (∀ s ∈ [reporting, owingResolved, owingSlot none], ∀ k, (s.callout k).waits = false) ∧
    reporting.co.owedResolved = [] ∧ brimming.mu.reports.tail.length = 63 ∧
    (owingCallout.callout 4).waits = true ∧ (owingCallout.zone (owingCallout.printer (owingCallout.callout 4).printer).zone).mute = none ∧
    (∀ m, m ≠ 4 → (owingCallout.callout m).waits = true → owingCallout.calloutBefore 4 m = true) ∧
    owingResolved.co.owedResolved = [aResolved 5] ++ aResolved 3 :: [{ aResolved 3 with code := 12 }] ∧
    (aResolved 3).printer < (aResolved 5).printer ∧ (owingSlot none).co.owedResolved = [] ∧
    (owingSlot (some ⟨.due, none, .serial, ⟨0, 1⟩⟩)).co.owedResolved = [] ∧
    ((owingSlot (some ⟨.due, none, .serial, ⟨0, 1⟩⟩)).slotRecord 3 .k).owedFitted = some ⟨.due, none, .serial, ⟨0, 1⟩⟩ ∧
    ((owingSlot none).slotRecord 3 .k).owedFitted = none ∧ ((owingSlot none).slotRecord 3 .k).owedReorder = true := by decide +kernel

/-- For ReportLeavesForStation: no slot record owes before the K record of printer 3, and none at all in `reporting`. -/
theorem test_witness_report_slots :
    (∀ p q, (reporting.slotRecord p q).owedFitted = none ∧ (reporting.slotRecord p q).owedReorder = false) ∧
    (∀ f, ∀ p' q', p' < 3 ∨ (p' = 3 ∧ q'.number < Consumable.k.number) →
      ((owingSlot f).slotRecord p' q').owedFitted = none ∧ ((owingSlot f).slotRecord p' q').owedReorder = false) := by
  refine ⟨fun p q => ?_, fun f p' q' h => ?_⟩
  · revert p
    cases q <;> decide +kernel
  · rcases h with h | ⟨-, h⟩
    · have hp : p' ≠ 3 := by omega
      have e : (owingSlot f).slotRecord p' q' = brimming.slotRecord p' q' := State.setSlotRecord_slotRecord_other brimming _ (.inl hp)
      rw [e]
      clear e hp h
      revert p'
      cases q' <;> decide +kernel
    · cases q' <;> exact absurd h (by decide)

/-- A day rollover is due and the K slot of printer 3 is live, that of printer 4 is not, for RolloverAveragesUsage. -/
theorem test_witness_rollover :
    1 ≤ ({ office with mu := { office.mu with rolloversDue := 1 } } : State).mu.rolloversDue ∧
    office.slotLive 3 .k = true ∧ office.slotLive 4 .k = false ∧ office.slotLive 3 .c = false := by decide

/-- For the clock of ServiceStateAndClockAreSet: today, a later day, and a minute past 1439. -/
theorem test_witness_timeSet :
    Commanded (told office 19 (u16 0 ++ u16 1439)) 19 (order 19 (u16 0 ++ u16 1439)) ∧ 0 ≤ office.mu.clock.day ∧
    Commanded (told office 19 (u16 1 ++ u16 1439)) 19 (order 19 (u16 1 ++ u16 1439)) ∧ office.mu.clock.day < 1 ∧
    Commanded (told office 19 (u16 0 ++ u16 1440)) 19 (order 19 (u16 0 ++ u16 1440)) := by
  unfold Commanded; decide

/-! ### Witnesses: intake -/

/-- A COMMAND padded with three bytes, for CommandIsDelivered. -/
theorem test_witness_command :
    ({ office with up := ⟨[⟨1, desk, 0x88B5, [1, 0x10] ++ u16 (3 + [5, 6].length) ++ [0, 0] ++ u16 (9 : Tag).toNat ++ [6] ++ [5, 6] ++
        List.replicate 3 0⟩], [], []⟩ } : State).up.rx =
      [⟨1, desk, 0x88B5, [1, 0x10] ++ u16 (3 + [5, 6].length) ++ [0, 0] ++ u16 (9 : Tag).toNat ++ [6] ++ [5, 6] ++
        List.replicate 3 0⟩] ∧ ([5, 6] : List Byte).length ≤ 1400 := by decide

/-- A JOB-OPEN of badge `badge`: home zone, 10 pages, 2 copies, SIDES two. -/
def openPayload (badge : Nat) : List Byte := u16 8 ++ u32 badge ++ u8 255 ++ u16 10 ++ u8 2 ++ u8 1 ++ u8 2 ++ u8 2

/-- The office in SERVING. -/
def serving : State := { office with mu := { office.mu with service := .serving } }

/-- For JobOpenCreatesJob: a JOB-OPEN that is taken, IDLE, and a badge that no user holds. -/
theorem test_witness_jobOpen :
    (uploads serving 1 (openPayload 77)).headFrame .jobOpen = some ⟨workstation, 3, openPayload 77⟩ ∧
    parseJobOpen (openPayload 77) = some ⟨8, 77, 255, 10, 2, some [⟨.sides, 2⟩]⟩ ∧ serving.mu.service = .serving ∧
    serving.findUser 77 = some (4, serving.user 4) ∧ (serving.account (serving.user 4).account).state ≠ .closed ∧
    (serving.user 4).liveJobs < 16 ∧ serving.freeJobIndex = some 0 ∧ serving.freeSlotIndex = some 0 ∧
    (serving.user 4).homeZone = 2 ∧ office.mu.service ≠ .serving ∧
    (uploads office 1 (openPayload 77)).headFrame .jobOpen = some ⟨workstation, 3, openPayload 77⟩ ∧
    (uploads serving 1 (openPayload 78)).headFrame .jobOpen = some ⟨workstation, 3, openPayload 78⟩ ∧
    serving.findUser 78 = none := by decide +kernel

/-- A JOB-OPEN of badge 77 whose ticket holds STAPLE 3, which is out of range. -/
def badTicket : List Byte := u16 8 ++ u32 77 ++ u8 255 ++ u16 10 ++ u8 2 ++ u8 1 ++ u8 5 ++ u8 3

/-- For the other refusals of JobOpenCreatesJob: NO_ACCOUNT, USER_LIMIT, INTAKE_BUSY and TICKET. -/
theorem test_witness_jobOpen_refused :
    (let s := serving.setAccount 5 { serving.account 5 with state := .closed }
     s.mu.service = .serving ∧ s.findUser 77 = some (4, s.user 4) ∧ (s.account (s.user 4).account).state = .closed) ∧
    (let s := serving.setUser 4 { serving.user 4 with liveJobs := 16 }
     s.mu.service = .serving ∧ s.findUser 77 = some (4, s.user 4) ∧ 16 ≤ (s.user 4).liveJobs ∧
      (s.account (s.user 4).account).state ≠ .closed) ∧
    (let s := { serving with slots := ⟨(List.finRange 16).map (fun i => (i, ⟨.opened, 12, 1, 0, 0, none, none⟩))⟩ }
     s.mu.service = .serving ∧ s.findUser 77 = some (4, s.user 4) ∧ s.freeJobIndex = some 0 ∧ ∀ i, (s.slot i).state ≠ .free) ∧
    (uploads serving 1 badTicket).headFrame .jobOpen = some ⟨workstation, 3, badTicket⟩ ∧
    (parseJobOpen badTicket).map (fun f => f.ticket) = some none := by decide +kernel

/-- Every job record is live. -/
def crowded : State := { serving with jobs := ⟨(List.finRange 512).map (fun j => (j, aJob))⟩ }

/-- For JobOpenCreatesJob: TABLE_FULL. -/
theorem test_witness_jobOpen_full : (∀ j, (crowded.job j).state ≠ .free) ∧ crowded.findUser 77 = some (4, crowded.user 4) := by
  decide +kernel

/-- Job 12 in upload slot 0, its sequence and counts as given. -/
def uploading (seq written : Nat) : State :=
  (office.setJob 1 { aJob with state := .receiving }).setSlot 0 ⟨.opened, 12, seq, written, 1, some ⟨60, false⟩, none⟩

/-- For the number of JobOpenCreatesJob: job 12 lives. -/
theorem test_witness_nextNumber : (uploading 3 1).jobs.wf (fun _ => JobRecord.powerOn) = true := by decide

/-- For JobDataQueuesWrite: the frame's sequence is 3, the slot's next is 3 and then 4. -/
theorem test_witness_jobData :
    let b := u16 12 ++ u8 1 ++ u16 2 ++ [5, 6]
    (uploads (uploading 3 1) 2 b).headFrame .jobData = some ⟨workstation, 3, b⟩ ∧
    (uploads (uploading 4 1) 2 b).headFrame .jobData = some ⟨workstation, 3, b⟩ ∧
    parseJobData b = some ⟨12, true, 2, [5, 6]⟩ ∧ (uploading 3 1).findSlot 12 = some 0 ∧
    (uploading 3 1).findJob 12 = some (1, (uploading 3 1).job 1) ∧ ((uploading 3 1).slot 0).state = .opened ∧
    ((uploading 3 1).job 1).station = workstation ∧ ((uploading 3 1).slot 0).nextSeq = 3 ∧
    ((uploading 3 1).job 1).segments - ((uploading 3 1).slot 0).written < 4 ∧ ((uploading 3 1).slot 0).lastSheet = 1 ∧
    ((uploading 3 1).job 1).segments % 64 ≠ 0 ∧
    (uploading 3 1).segmentPos ((uploading 3 1).job 1) (((uploading 3 1).job 1).segments + 1) = some ⟨7, 3⟩ ∧
    ((uploading 4 1).slot 0).nextSeq ≠ 3 ∧ (uploading 4 1).findSlot 12 = some 0 ∧
    (uploading 4 1).findJob 12 = some (1, (uploading 4 1).job 1) ∧ ((uploading 4 1).slot 0).state = .opened := by decide +kernel

/-- For the LENGTH clause of JobDataQueuesWrite: a payload of three bytes, and one of two, which stop before the data. -/
theorem test_witness_jobData_short :
    (∀ b ∈ [u16 12 ++ u8 1, u16 12], (uploads (uploading 3 1) 2 b).headFrame .jobData = some ⟨workstation, 3, b⟩ ∧
      (parseJobData b).map (fun f => (f.job, f.data)) = some (12, [])) := by decide +kernel

/-- Job 12 with `n` segments, `w` of them written, while its workstation offers a segment of `len` bytes that begins a sheet, or none. -/
def offering (n w len : Nat) (sheet : Option Nat) : State :=
  uploads
    ((office.setJob 1 { aJob with state := .receiving, segments := n }).setSlot 0 ⟨.opened, 12, 3, w, 1, some ⟨60, false⟩, none⟩) 2
    (u16 12 ++ u8 (if sheet.isSome then 1 else 0) ++ u16 (sheet.getD 0) ++ List.replicate len 7)

/-- The free pool without an extent. -/
def poolEmpty (s : State) : State := { s with hsc := { s.hsc with poolHead := none, poolTail := none, poolLength := 0 } }

/-- For the tests of JobDataQueuesWrite: 4 outstanding writes; 65536 segments; 0, 1, 1024 and 1025 data bytes; sheet 3 after sheet 1, and
no sheet-start in the first segment; an extent to be opened, from a pool with extents and from one without. -/
theorem test_witness_jobData_tests :
    (∀ x ∈ [(4, 0, 5, some 2), (65536, 65536, 5, some 2), (3, 1, 0, some 2), (3, 1, 1, some 2), (3, 1, 1024, some 2),
        (3, 1, 1025, some 2), (3, 1, 5, some 3), (0, 0, 5, none), (64, 64, 5, some 2)],
      let s := offering x.1 x.2.1 x.2.2.1 x.2.2.2
      ∀ t ∈ [s, poolEmpty s],
        (t.headFrame .jobData).map (fun fr => (fr.src, fr.seq)) = some (workstation, 3) ∧
        ((t.headFrame .jobData).bind (fun fr => parseJobData fr.payload)).map (fun f => (f.job, f.sheetStart, f.sheet, f.data.length)) =
          some (12, x.2.2.2.isSome, x.2.2.2.getD 0, x.2.2.1) ∧
        t.findSlot 12 = some 0 ∧ t.findJob 12 = some (1, t.job 1) ∧ (t.slot 0).state = .opened ∧ (t.slot 0).nextSeq = 3 ∧
        (t.job 1).station = workstation ∧ (t.job 1).segments = x.1 ∧ (t.slot 0).written = x.2.1 ∧ (t.slot 0).lastSheet = 1) ∧
    (poolEmpty (offering 64 64 5 (some 2))).hsc.poolHead = none ∧
    ((offering 64 64 5 (some 2)).tookUp.allocateExtent 1).bind (fun t => t.segmentPos (t.job 1) 65) = some ⟨0, 0⟩ := by
  decide +kernel

/-- R177 and R33: a JOB-DATA cut short in its sheet number abandons its job with LENGTH. -/
theorem test_short_jobData_is_abandoned :
    (match exec .jobData (uploads (uploading 3 1) 2 (u16 12 ++ u8 1 ++ [0])) with
     | .next t => t.up.tx.map (fun x => x.frame)
     | _ => []) = [.refusedJob 12 .length] := by decide +kernel

/-- For ExtentsMoveBetweenPoolAndChain: a full pool, an empty pool, and a chain. -/
theorem test_witness_extents :
    office.hsc.poolHead = some 0 ∧ office.link 0 = some 1 ∧ 2 ≤ office.hsc.poolLength ∧ (0 : Fin 4096) ≠ 1 ∧
    (office.job 1).chainTail = none ∧ ((uploading 3 1).job 1).chainTail = some 7 ∧ ((uploading 3 1).job 1).chainHead = some 7 ∧
    ({ office with hsc := { office.hsc with poolHead := none, poolTail := none, poolLength := 0 } } : State).hsc.poolHead = none := by
  decide +kernel

/-- For JobCloseSealsJob: counts that agree with a write outstanding and with none, a segment count and a byte count that differ. -/
theorem test_witness_jobClose :
    let b (n m : Nat) := u16 12 ++ u32 n ++ u32 m
    (∀ w : Fin 4, (∀ x ∈ [(3, 3000), (4, 3000), (3, 2999)],
        (uploads (uploading 3 w) 3 (b x.1 x.2)).headFrame .jobClose = some ⟨workstation, 3, b x.1 x.2⟩ ∧
        parseJobClose (b x.1 x.2) = some ⟨12, x.1, x.2⟩) ∧
      (uploading 3 w).findSlot 12 = some 0 ∧ (uploading 3 w).findJob 12 = some (1, (uploading 3 w).job 1) ∧
      ((uploading 3 w).slot 0).state = .opened ∧ ((uploading 3 w).job 1).station = workstation ∧
      ((uploading 3 w).job 1).segments = 3 ∧ ((uploading 3 w).job 1).bytes = 3000 ∧ ((uploading 3 w).slot 0).written = w) := by
  decide +kernel

/-- For JobCloseSealsJob: a job of no segments. -/
theorem test_witness_jobClose_empty :
    let s := (office.setJob 1 { aJob with state := .receiving, segments := 0, bytes := 0 }).setSlot 0
      ⟨.opened, 12, 1, 0, 0, some ⟨60, false⟩, none⟩
    (uploads s 3 (u16 12 ++ u32 0 ++ u32 0)).headFrame .jobClose = some ⟨workstation, 3, u16 12 ++ u32 0 ++ u32 0⟩ ∧
    s.findSlot 12 = some 0 ∧ s.findJob 12 = some (1, s.job 1) ∧ (s.job 1).segments = 0 ∧ (s.job 1).bytes = 0 := by decide +kernel

/-- For UploadIsAbandoned: a cancel from the job's workstation, and an idle countdown that has run out. -/
theorem test_witness_abandon :
    let quiet := (uploading 3 1).setSlot 0 { (uploading 3 1).slot 0 with idle := some ⟨0, true⟩ }
    (uploads quiet 4 (u16 12)).headFrame .jobCancel = some ⟨workstation, 3, u16 12⟩ ∧
    quiet.findJob 12 = some (1, quiet.job 1) ∧ quiet.findSlot 12 = some 0 ∧ (quiet.slot 0).state = .opened ∧
    (quiet.slot 0).job = 12 ∧ (quiet.job 1).state = .receiving ∧ (quiet.job 1).station = workstation ∧
    quiet.writeInProgress 12 = false ∧ (quiet.slot 0).idle = some ⟨0, true⟩ := by decide +kernel

/-! ### Witnesses: the hold store -/

/-- A write of job 12. -/
def aWrite : WriteEntry := ⟨12, 3, ⟨7, 2⟩, aSegment⟩

/-- A fetch of segment 1 of job 12 for context 2. -/
def aRead (kind : ReadKind) : ReadEntry := ⟨2, kind, 12, ⟨7, 0⟩, 1⟩

/-- Both queues hold an entry. -/
def queued (m : QueueMark) : State :=
  { office with hsc := { office.hsc with writes := [aWrite], reads := [aRead .fetch], lastServed := m } }

/-- For ArbiterAlternates. -/
theorem test_witness_grant :
    (queued .reads).hsc.op = none ∧ (queued .reads).hsc.writes = [aWrite] ∧ (queued .reads).hsc.lastServed = .reads ∧
    (queued .writes).hsc.op = none ∧ (queued .writes).hsc.reads = [aRead .fetch] ∧ (queued .writes).hsc.lastServed = .writes ∧
    office.hsc.writes = [] ∧ office.hsc.reads = [] ∧
    ({ office with hsc := { office.hsc with op := some ⟨.write aWrite, false⟩ } } : State).hsc.op ≠ none := by decide

/-- The operation in progress replaced. -/
def during (s : State) (r : DramRequest) : State := { s with hsc := { s.hsc with op := some ⟨r, false⟩ } }

/-- For WriteCompletionStoresAndAcks. -/
theorem test_witness_writeCompletion :
    (during (uploading 3 1) (.write aWrite)).hsc.op = some ⟨.write aWrite, false⟩ ∧ (uploading 3 1).findSlot aWrite.job = some 0 ∧
    (uploading 3 1).findJob aWrite.job = some (1, (uploading 3 1).job 1) ∧ ((uploading 3 1).slot 0).state = .opened := by
  decide +kernel

/-- For FetchFillsBuffer: the slot has been written, so it holds no free value. -/
theorem test_witness_fetch :
    let s := during ((bound aJob { Context.free with state := .halted, bufA := .fetching 1 }).setStored ⟨7, 0⟩
      ⟨aSegment, .clean, .clean⟩) (.read (aRead .fetch))
    s.hsc.op = some ⟨.read ⟨2, .fetch, 12, ⟨7, 0⟩, 1⟩, false⟩ ∧ (s.context 2).state = .halted ∧ (s.context 2).pendingEnd = none ∧
    (s.context 2).bufA = .fetching 1 ∧ (s.stored ⟨7, 0⟩).headerErrors = .clean ∧ (s.stored ⟨7, 0⟩).dataErrors = .clean ∧
    WordErrors.single ≠ .uncorrectable := by decide +kernel

/-- A FETCH for context 2 in a state of streaming, with job 12 reserved and bound there. -/
def fetching (st : ContextState) : State :=
  during (bound { aJob with state := .printing, reservation := some 500, boundPrinter := some 3, boundContext := some 2 }
    { Context.free with state := st, bufA := .fetching 1 }) (.read (aRead .fetch))

/-- For the FAILED clause of FetchFillsBuffer. -/
theorem test_witness_failed :
    (∀ st ∈ [ContextState.running, .halted],
      (fetching st).hsc.op = some ⟨.read ⟨2, .fetch, ((fetching st).job 1).number, ⟨7, 0⟩, 1⟩, false⟩ ∧
      ((fetching st).context 2).state = st ∧ ((fetching st).context 2).step = none ∧ ((fetching st).context 2).pendingEnd = none ∧
      ((fetching st).context 2).owner = some 3 ∧ ((fetching st).context 2).job = some ((fetching st).job 1).number ∧
      (fetching st).findJob ((fetching st).job 1).number = some (1, (fetching st).job 1) ∧
      ((fetching st).job 1).reservation = some 500 ∧ (fetching st).ru.queue = [] ∧ (fetching st).resetWait 3 = none ∧
      (fetching st).mu.reports.length < 63) := by decide +kernel

/-- Context 2 seeks sheet 1 of job 12, whose first segment is `x`. -/
def seeking (x : Segment) (st : PrinterState) : State :=
  (during ((bound { aJob with state := .seeking, resumeSheet := some 1, reservation := some 500 } { Context.free with state := .opening, step := some .seek }).setStored
    ⟨7, 0⟩ ⟨x, .clean, .clean⟩) (.read (aRead .header))).setCond 3 { office.cond 3 with state := some st }

/-- For SeekReadsHeaders: a header that does not begin the sheet, and one that does, at a BLOCKED printer. -/
theorem test_witness_seek :
    (let s := seeking ⟨⟨2, false, 0⟩, [1, 2]⟩ .ready
     s.hsc.op = some ⟨.read ⟨2, .header, (s.job 1).number, ⟨7, 0⟩, 1⟩, false⟩ ∧ (s.context 2).state = .opening ∧
      (s.context 2).step = some .seek ∧ (s.context 2).pendingEnd = none ∧ (s.context 2).owner = some 3 ∧
      (s.context 2).job = some (s.job 1).number ∧ s.findJob (s.job 1).number = some (1, s.job 1) ∧
      (s.job 1).resumeSheet = some 1 ∧ (s.stored ⟨7, 0⟩).headerErrors = .clean ∧
      (s.stored ⟨7, 0⟩).segment.header.sheetStart = false ∧ 1 < (s.job 1).segments ∧ s.nextPos ⟨7, 0⟩ = some ⟨7, 1⟩) ∧
    (let s := seeking aSegment .blocked
     s.hsc.op = some ⟨.read ⟨2, .header, (s.job 1).number, ⟨7, 0⟩, 1⟩, false⟩ ∧ (s.context 2).state = .opening ∧
      (s.context 2).step = some .seek ∧ (s.context 2).pendingEnd = none ∧ (s.context 2).owner = some 3 ∧
      (s.context 2).job = some (s.job 1).number ∧ s.findJob (s.job 1).number = some (1, s.job 1) ∧
      (s.job 1).resumeSheet = some 1 ∧ (s.stored ⟨7, 0⟩).headerErrors = .clean ∧
      (s.stored ⟨7, 0⟩).segment.header.sheetStart = true ∧ (s.stored ⟨7, 0⟩).segment.header.sheet = 1 ∧
      (s.cond 3).state = some .blocked) := by decide +kernel

/-- For SeekReadsHeaders: a header that begins another sheet; and the last segment without the sheet. -/
theorem test_witness_seek_past :
    (let s := seeking ⟨⟨2, true, 2⟩, [1, 2]⟩ .ready
     (s.stored ⟨7, 0⟩).segment.header.sheetStart = true ∧ (s.stored ⟨7, 0⟩).segment.header.sheet ≠ 1 ∧ 1 < (s.job 1).segments ∧
      s.nextPos ⟨7, 0⟩ = some ⟨7, 1⟩ ∧ (s.stored ⟨7, 0⟩).headerErrors = .clean) ∧
    (let s := (during (seeking ⟨⟨2, false, 0⟩, [1, 2]⟩ .ready) (.read ⟨2, .header, 12, ⟨7, 2⟩, 3⟩)).setStored ⟨7, 2⟩
      ⟨⟨⟨2, false, 0⟩, [1, 2]⟩, .clean, .clean⟩
     s.hsc.op = some ⟨.read ⟨2, .header, (s.job 1).number, ⟨7, 2⟩, 3⟩, false⟩ ∧
      (s.stored ⟨7, 2⟩).segment.header.sheetStart = false ∧ (s.stored ⟨7, 2⟩).headerErrors = .clean ∧ 3 = (s.job 1).segments ∧
      s.ru.queue = [] ∧ s.mu.reports.length < 64 ∧ (s.job 1).reservation = some 500 ∧
      s.findJob (s.job 1).number = some (1, s.job 1)) := by decide +kernel

/-! ### Witnesses: release and streams -/

/-- A frame that `hears` puts at the head is a frame from printer 3. -/
theorem heard {s : State} {k : FrameKind} {b : List Byte}
    (h : k.port = .fp ∧ s.headFrame k = some ⟨printerAddress, 3, b⟩ ∧ s.printerOf printerAddress = some 3) : FromPrinter s k 3 b :=
  ⟨h.1, _, h.2.1, rfl, h.2.2⟩

/-- Printer 3 in another state. -/
def viewed (s : State) (st : PrinterState) : State := s.setCond 3 { s.cond 3 with state := some st }

/-- A RELEASE-ASK of badge 77 for ALL. -/
def askPayload : List Byte := u16 (8 : Tag).toNat ++ u32 (77 : Code32).toNat ++ u16 0

/-- For ReleaseAskIsAnswered: in IDLE; at a BLOCKED printer; and with no job of the user. -/
theorem test_witness_releaseAsk :
    FromPrinter (hears office 0x21 askPayload) .releaseAsk 3 askPayload ∧
    FromPrinter (hears (viewed serving .blocked) 0x21 askPayload) .releaseAsk 3 askPayload ∧
    FromPrinter (hears serving 0x21 askPayload) .releaseAsk 3 askPayload ∧ office.mu.service = .idle ∧
    serving.mu.service ≠ .idle ∧ serving.findUser 77 = some (4, serving.user 4) ∧
    ((viewed serving .blocked).cond 3).state ≠ some .ready ∧ ((viewed serving .blocked).cond 3).state ≠ some .degraded ∧
    (serving.cond 3).state = some .ready ∧ ∀ c ∈ serving.jobs.cells, c.2.user ≠ 4 :=
  ⟨heard (by decide +kernel), heard (by decide +kernel), heard (by decide +kernel), by decide⟩

/-- R104: a credit that comes between the requests of an ask shows in the available amount of its answer. -/
theorem test_credit_comes_between :
    let s := hears (told serving 3 (u16 (5 : Fin 1024) ++ amountBytes (250 : Nat))) 0x21 askPayload
    (match exec .releaseAsk { s with between := [[.credit]] } with
     | .next t => t.fp.tx.map (fun x => x.frame)
     | _ => []) = [.releaseAnswer 8 77 .accepted [] (some 10250)] ∧
    (match exec .releaseAsk s with
     | .next t => t.fp.tx.map (fun x => x.frame)
     | _ => []) = [.releaseAnswer 8 77 .accepted [] (some 10000)] := by decide +kernel

/-- A vector of colour, as job 12 would resolve. -/
def colourVector : OptionVector := ⟨[⟨.colour, 1, false⟩], ⟨.one, .colour, .standard⟩⟩

/-- An account with `b` hundredths. -/
def holding (b : Int) : AccountEntry := ⟨.opened, 0, 6, b, 0, 0, 0, 0⟩

/-- The office with `b` hundredths on account 5. -/
def askingWith (b : Int) : State := office.setAccount 5 (holding b)

/-- For CascadeGrantsWhatItReserves: a whole job, one made MONO, one with a sheet cap, and one refused. -/
theorem test_witness_cascade :
    ((askingWith 10000).cascade [] (office.user 4) aJob colourVector noMarks = (askingWith 10000, .ok ⟨colourVector, noMarks, none, 425⟩)) ∧
    ((askingWith 100).cascade [] (office.user 4) aJob colourVector noMarks =
      (askingWith 100, .ok ⟨colourVector.toMono, { noMarks with colourToMono := true }, none, 68⟩)) ∧
    ((askingWith 30).cascade [] (office.user 4) aJob colourVector noMarks =
      (askingWith 30, .ok ⟨colourVector.toMono, { noMarks with colourToMono := true, partly := true }, some 8, 27⟩)) ∧
    ((askingWith 0).cascade [] (office.user 4) aJob colourVector noMarks = (askingWith 0, .error .quota)) := by decide +kernel

/-- R104: a credit of 4.00 that comes before the second RESERVE lets the ask reserve what the first could not have. -/
theorem test_credit_between_reserves :
    let s := told (office.setAccount 5 (holding 50)) 3 (u16 (5 : Fin 1024) ++ amountBytes (400 : Nat))
    ((State.cascade { s with between := [[], [], [], [.credit]] } [] (office.user 4) aJob colourVector noMarks).2 =
      .ok ⟨colourVector.toMono, { noMarks with colourToMono := true }, none, 68⟩) ∧
    ((State.cascade { s with between := [[], [.credit]] } [] (office.user 4) aJob colourVector noMarks).2 =
      .ok ⟨colourVector, noMarks, none, 425⟩) := by decide +kernel

/-- A grant of 68 hundredths without a cap. -/
def aGrant : Grant := ⟨colourVector.toMono, noMarks, none, 68⟩

/-- The office with the HELD job 12 in record 1. -/
def holdingJob : State := office.setJob 1 { aJob with countdown := some ⟨700, false⟩ }

/-- The office with job 12 PARKED. -/
def parkedJob : State :=
  office.setJob 1
    { aJob with
      state := .parked, countdown := some ⟨100, false⟩, reservation := some 500, vector := some colourVector, parkReason := some .stall,
      parkedAt := some ⟨0, 7⟩, resumeSheet := some 2 }

/-- For AdmissionIsUndone. -/
theorem test_witness_admission :
    (holdingJob.job 1).state = .held ∧ (holdingJob.job 1).countdown = some ⟨700, false⟩ ∧ (holdingJob.job 1).reservation = none ∧
    (holdingJob.job 1).vector = none ∧ (holdingJob.job 1).sheetCap = none ∧
    (∀ e ∈ holdingJob.ru.queue, e.job ≠ (holdingJob.job 1).number) ∧
    (holdingJob.queueHeld 3 1 aGrant).findJob (holdingJob.job 1).number = some (1, (holdingJob.queueHeld 3 1 aGrant).job 1) ∧
    (parkedJob.job 1).state = .parked ∧ (parkedJob.job 1).countdown = some ⟨100, false⟩ ∧ (parkedJob.job 1).parkReason = some .stall ∧
    (parkedJob.job 1).parkedAt = some ⟨0, 7⟩ ∧ (∀ e ∈ parkedJob.ru.queue, e.job ≠ (parkedJob.job 1).number) ∧
    (parkedJob.queueParked 3 1).findJob (parkedJob.job 1).number = some (1, (parkedJob.queueParked 3 1).job 1) := by
  decide +kernel

/-- The state in SERVING, with a RELEASE-ASK from printer 3. -/
def askedAt (s : State) : State := hears { s with mu := { s.mu with service := .serving } } 0x21 askPayload

/-- Printer 3 of the office with every capability. -/
def capable (s : State) : State := s.setPrinter 3 { s.printer 3 with caps := ⟨true, true, true, true⟩ }

/-- For AskAdmitsJob: a HELD job and a PARKED one. -/
theorem test_witness_admits :
    (∀ s ∈ [askedAt holdingJob, askedAt (capable parkedJob)],
      s.mu.service ≠ .idle ∧ s.findUser 77 = some (4, s.user 4) ∧ (s.cond 3).state = some .ready ∧
      s.jobs.cells.filter (fun x => decide (x.2.user = 4) && decide (x.2.zone = (s.printer 3).zone) &&
        (decide (x.2.state = .held) || decide (x.2.state = .parked))) = [(1, s.job 1)] ∧
      s.findJob (s.job 1).number = some (1, s.job 1) ∧ (s.job 1).account = (s.user 4).account ∧ s.ru.queue = [] ∧
      (∀ d, (s.context d).owner ≠ some 3) ∧ (s.context 0).state = .free ∧ s.between = []) ∧
    ((askedAt holdingJob).job 1).state = .held ∧
    (askedAt holdingJob).resolve 3 ((askedAt holdingJob).job 1) = .ok (⟨[], ⟨.one, .mono, .standard⟩⟩, noMarks) ∧
    ((askedAt holdingJob).account 5).state = .opened ∧
    estimate ((askedAt holdingJob).plan 6) ⟨.one, .mono, .standard⟩ 10 2 ≤ 10000 ∧
    ((askedAt (capable parkedJob)).job 1).state = .parked ∧
    ((askedAt (capable parkedJob)).losses 3 4).touches colourVector = false ∧
    ((askedAt (capable parkedJob)).job 1).reservation = some 500 ∧ ((askedAt (capable parkedJob)).job 1).sheetCap = none ∧
    ((askedAt (capable parkedJob)).job 1).chainHead = some 7 := by decide +kernel

theorem test_witness_admits_frames :
    FromPrinter (askedAt holdingJob) .releaseAsk 3 askPayload ∧ FromPrinter (askedAt (capable parkedJob)) .releaseAsk 3 askPayload ∧
    (askedAt holdingJob).TablesCanonical ∧ (askedAt (capable parkedJob)).TablesCanonical :=
  ⟨heard (by decide +kernel), heard (by decide +kernel), by constructor <;> decide +kernel, by constructor <;> decide +kernel⟩

/-- Job 12 QUEUED again for printer 3, whose SAVED context 2 names it with save-done set, and QUEUED behind a job of printer 5. -/
def continuing : State :=
  let s := office.setJob 1 { aJob with state := .queued, reservation := some 500, vector := some colourVector, resumeSheet := some 2 }
  let t := s.setContext 2 { Context.free with state := .saved, owner := some 3, saveDone := true, parkedJob := some 12, sent := 1, lastSheet := 1 }
  { t with ru := { t.ru with queue := [⟨12, 3, .parked .stall ⟨0, 7⟩, 100⟩], saved := [2] } }

/-- For ArbiterHandsOut: a hand-out in place, and none where the queue is empty. -/
theorem test_witness_handOut :
    continuing.handOutChoice = some (⟨12, 3, .parked .stall ⟨0, 7⟩, 100⟩, 2) ∧ office.handOutChoice = none ∧
    continuing.findJob 12 = some (1, continuing.job 1) ∧ (continuing.context 2).state = .saved ∧
    (continuing.context 2).owner = some 3 ∧ (continuing.context 2).saveDone = true ∧ (continuing.context 2).parkedJob = some 12 ∧
    (continuing.cond 3).state = some .ready ∧ (continuing.job 1).vector = some colourVector := by decide +kernel

theorem test_witness_handOut_canonical : continuing.TablesCanonical := by constructor <;> decide +kernel

/-- Job 12 as a stream has it: reserved 500, resolved. -/
def streamed : JobRecord :=
  { aJob with
    state := .printing, reservation := some 500, vector := some colourVector, boundPrinter := some 3, boundContext := some 2 }

/-- Context 2 in a state of streaming. -/
def flowing (st : ContextState) : Context := { Context.free with state := st, credit := 2, nextFetch := some 1, position := some ⟨7, 0⟩ }

theorem bound_isBound (r : JobRecord) (x : Context) (h : (bound r x).boundTo 3 r.number = some 2 ∧
    ((bound r x).context 2).owner = some 3 ∧ ((bound r x).context 2).job = some r.number ∧
    (bound r x).findJob r.number = some (1, r) ∧ (bound r x).job 1 = r) : BoundStream (bound r x) 2 3 1 r :=
  ⟨h.1, h.2.1, h.2.2.1, h.2.2.2.1, h.2.2.2.2⟩

/-- A notice that printer 3 is BLOCKED. -/
def blockedNotice : ViewNotice := ⟨3, .blocked, LossSet.none⟩

/-- Job 12 QUEUED for printer 3 with a colour vector, and a notice that the printer has lost colour. -/
def degradedQueue : State :=
  { office.setJob 1 { aJob with state := .queued, reservation := some 500, vector := some colourVector } with
    ru := ⟨[⟨12, 3, .held, 700⟩], [], [⟨3, .degraded, ⟨true, false, false, false⟩⟩], .off⟩ }

/-- For the first clause of ChangeOfViewIsTaken. -/
theorem test_witness_degraded :
    degradedQueue.ru.notices = [⟨3, .degraded, ⟨true, false, false, false⟩⟩] ∧ degradedQueue.ru.queue = [⟨12, 3, .held, 700⟩] ∧
    degradedQueue.entryTouched ⟨true, false, false, false⟩ ⟨12, 3, .held, 700⟩ = true := by decide +kernel

/-- For the other clauses of ChangeOfViewIsTaken. -/
theorem test_witness_blocked :
    let s := bound streamed (flowing .running)
    { s with se := { s.se with notices := [blockedNotice] } }.se.notices = [blockedNotice] ∧ s.boundAt 3 = some 2 ∧
    (s.context 2).job = some streamed.number ∧ s.findJob streamed.number = some (1, streamed) ∧
    (s.context 2).state = .running ∧ (s.context 2).pendingEnd = none ∧ office.boundAt 3 = none ∧
    { office with ru := { office.ru with notices := [blockedNotice] } }.ru.notices = [blockedNotice] := by decide +kernel

/-- A stream bound at step SENT with a START open, with the payload of a frame from its printer. -/
def opening : State := bound { streamed with state := .opening } { flowing .opening with step := some .sent, mode := some .start, credit := 0 }

/-- For StreamAcceptStartsStream and StreamRejectEndsOpen: the stream, the frames and the printer's states. -/
theorem test_witness_open :
    (∀ s ∈ [opening, viewed opening .degraded, viewed opening .blocked, viewed opening .silent, viewed opening .unknown],
      (hears s 0x22 (u16 12 ++ u8 9)).boundTo 3 12 = some 2 ∧ (s.context 2).state = .opening ∧ (s.context 2).step = some .sent) ∧
    BoundStream opening 2 3 1 { streamed with state := .opening } ∧
    FromPrinter (hears opening 0x22 (u16 12 ++ u8 9)) .streamAccept 3 (u16 12 ++ u8 9) ∧
    FromPrinter (hears (viewed opening .blocked) 0x22 (u16 12 ++ u8 9)) .streamAccept 3 (u16 12 ++ u8 9) ∧
    FromPrinter (hears opening 0x22 (u16 13 ++ u8 9)) .streamAccept 3 (u16 13 ++ u8 9) ∧
    FromPrinter (hears opening 0x23 (u16 12)) .streamReject 3 (u16 12) ∧
    (opening.context 2).mode = some .start ∧
    (opening.cond 3).state = some .ready ∧ ((viewed opening .blocked).cond 3).state = some .blocked ∧
    opening.boundTo 3 13 = none ∧ opening.ru.queue = [] :=
  ⟨by decide +kernel, bound_isBound _ _ (by decide +kernel), heard (by decide +kernel), heard (by decide +kernel),
    heard (by decide +kernel), heard (by decide +kernel), by decide +kernel⟩

/-- For StreamRejectEndsOpen: the open of a job that was PARKED, in each mode, when its printer rejects it; and a reject that binds to a
stream that runs. -/
theorem test_witness_reject :
    (∀ m ∈ [Mode.start, .continued, .restartAt 4],
      let r := { streamed with state := .opening, resumeSheet := some 4 }
      let s := hears (bound r { flowing .opening with step := some .sent, mode := some m, credit := 0 }) 0x23 (u16 12)
      FromPrinter s .streamReject 3 (u16 12) ∧ BoundStream s 2 3 1 r ∧ (s.context 2).state = .opening ∧
      (s.context 2).step = some .sent ∧ s.ru.queue = [] ∧ (s.context 2).mode = some m ∧ r.resumeSheet = some 4 ∧
      r.reservation = some 500) ∧
    FromPrinter (hears (bound streamed (flowing .running)) 0x23 (u16 12)) .streamReject 3 (u16 12) ∧
    (∀ c, (hears (bound streamed (flowing .running)) 0x23 (u16 12)).boundTo 3 12 = some c →
      ((bound streamed (flowing .running)).context c).state ≠ .opening) := by
  refine ⟨fun m h => ?_, heard (by decide +kernel), by decide +kernel⟩
  fin_cases h <;>
    exact ⟨heard (by decide +kernel),
      ⟨by decide +kernel, by decide +kernel, by decide +kernel, by decide +kernel, by decide +kernel⟩, by decide +kernel⟩

/-- A stream bound in a state at whose fleet port a frame of its printer stands. -/
theorem hears_bound {s : State} {kind : Nat} {b : List Byte} {r : JobRecord} (h : BoundStream s 2 3 1 r) :
    BoundStream (hears s kind b) 2 3 1 r := ⟨h.binds, h.owner, h.job, h.found, h.held⟩

/-- For StreamAcceptStartsStream: the stream and the frame in one state, at a READY and a BLOCKED printer; buffers EMPTY with two segments
to fetch; and an accept of a stream that runs. -/
theorem test_witness_accept :
    (BoundStream (hears opening 0x22 (u16 12 ++ u8 9)) 2 3 1 { streamed with state := .opening } ∧
      FromPrinter (hears opening 0x22 (u16 12 ++ u8 9)) .streamAccept 3 (u16 12 ++ u8 9)) ∧
    (BoundStream (hears (viewed opening .blocked) 0x22 (u16 12 ++ u8 9)) 2 3 1 { streamed with state := .opening } ∧
      FromPrinter (hears (viewed opening .blocked) 0x22 (u16 12 ++ u8 9)) .streamAccept 3 (u16 12 ++ u8 9)) ∧
    FromPrinter (hears (bound streamed (flowing .running)) 0x22 (u16 12 ++ u8 9)) .streamAccept 3 (u16 12 ++ u8 9) ∧
    (bound streamed (flowing .running)).boundTo 3 12 = some 2 ∧ ((bound streamed (flowing .running)).context 2).state ≠ .opening ∧
    (opening.context 2).bufA = .empty ∧ (opening.context 2).bufB = .empty ∧ (opening.context 2).pendingEnd = none ∧
    (opening.context 2).lastSent = false ∧ (opening.context 2).nextFetch = some 1 ∧ (opening.context 2).position = some ⟨7, 0⟩ ∧
    1 + 1 ≤ streamed.segments ∧ opening.nextPos ⟨7, 0⟩ = some ⟨7, 1⟩ :=
  ⟨⟨hears_bound (bound_isBound _ _ (by decide +kernel)), heard (by decide +kernel)⟩,
    ⟨⟨by decide +kernel, by decide +kernel, by decide +kernel, by decide +kernel, by decide +kernel⟩, heard (by decide +kernel)⟩,
    heard (by decide +kernel), by decide +kernel⟩

/-- The stream while its printer sends `payload`. -/
def midStream (st : ContextState) (kind : Nat) (payload : List Byte) : State := hears (bound streamed (flowing st)) kind payload

theorem heard_bound {st : ContextState} {kind : Nat} {b : List Byte}
    (h : (midStream st kind b).boundTo 3 12 = some 2 ∧ ((midStream st kind b).context 2).owner = some 3 ∧
      ((midStream st kind b).context 2).job = some 12 ∧ (midStream st kind b).findJob 12 = some (1, streamed) ∧
      (midStream st kind b).job 1 = streamed) : BoundStream (midStream st kind b) 2 3 1 streamed :=
  ⟨h.1, h.2.1, h.2.2.1, h.2.2.2.1, h.2.2.2.2⟩

/-- For CreditRaisesCredit. -/
theorem test_witness_credit :
    FromPrinter (midStream .halted 0x24 (u16 12 ++ u8 255)) .credit 3 (u16 12 ++ u8 255) ∧
    BoundStream (midStream .halted 0x24 (u16 12 ++ u8 255)) 2 3 1 streamed ∧
    ((midStream .halted 0x24 (u16 12 ++ u8 255)).context 2).state = .halted ∧
    ((midStream .halted 0x24 (u16 12 ++ u8 255)).context 2).pendingEnd = none :=
  ⟨heard (by decide +kernel), heard_bound (by decide +kernel), by decide +kernel⟩

/-- For SegmentIsSentUnderCredit: no cap; a cap of 1 with the next segment not there, beginning sheet 2, and beginning no sheet. -/
theorem test_witness_send :
    (∀ x ∈ [(none, Buffer.empty), (some 1, .empty), (some 1, .full 2 ⟨⟨2, true, 2⟩, [1, 2]⟩), (some 1, .full 2 ⟨⟨2, false, 0⟩, [1, 2]⟩)],
      let s := bound streamed { flowing .running with bufA := .full 1 aSegment, bufB := x.2, sheetCap := x.1 }
      (s.context 2).owner = some 3 ∧ (s.context 2).job = some streamed.number ∧ s.findJob streamed.number = some (1, streamed) ∧
      (s.context 2).state = .running ∧ (s.context 2).pendingEnd = none ∧ (s.context 2).lastSent = false ∧
      1 ≤ (s.context 2).credit ∧ (s.context 2).sheetCap = x.1 ∧ (s.context 2).sent + 1 < streamed.segments ∧
      (s.context 2).bufA = .full ((s.context 2).sent + 1) aSegment ∧ (s.context 2).bufB = x.2) := by decide +kernel

/-- For SheetIsTallied. -/
theorem test_witness_sheet :
    let b := u16 12 ++ u16 1 ++ u8 2 ++ u8 1 ++ flagByte true
    FromPrinter (midStream .halted 0x25 b) .sheetDone 3 b ∧ BoundStream (midStream .halted 0x25 b) 2 3 1 streamed ∧
    ((midStream .halted 0x25 b).context 2).state = .halted :=
  ⟨heard (by decide +kernel), heard_bound (by decide +kernel), by decide +kernel⟩

/-- For SheetCountsAgainstSlots: a live slot with units, one that is not live, and no units. -/
theorem test_witness_count :
    office.slotLive 3 .k = true ∧ 1 ≤ sheetUnits .k 2 1 true ∧ office.slotLive 4 .k = false ∧ sheetUnits .c 2 0 true = 0 := by
  decide

/-- For CompleteEndSettlesAndSaves. -/
theorem test_witness_complete :
    let b := u16 12 ++ u8 0 ++ u16 0
    FromPrinter (midStream .running 0x26 b) .streamEnd 3 b ∧ BoundStream (midStream .running 0x26 b) 2 3 1 streamed ∧
    ((midStream .running 0x26 b).context 2).state = .running ∧ ((midStream .running 0x26 b).context 2).pendingEnd = none ∧
    (midStream .running 0x26 b).readInFlight 2 = false ∧ (midStream .running 0x26 b).ru.queue = [] ∧
    (midStream .running 0x26 b).resetWait 3 = none ∧ streamed.reservation = some 500 :=
  ⟨heard (by decide +kernel), heard_bound (by decide +kernel), by decide +kernel⟩

/-- R104: the SETTLE of job 12 that comes after the QUOTA of an attempt for job 13 of the same account lets the ask reserve the whole
job made MONO; in an ask of which job 12 itself is a candidate it does not come (7.7), and the job is capped. -/
theorem test_settle_between_reserves :
    let s := (midStream .running 0x26 (u16 12 ++ u8 0 ++ u16 0)).setAccount 5 { holding 530 with reserved := 500, liveReservations := 1 }
    let r := { aJob with number := 13 }
    ((State.cascade { s with between := [[], [], [.streamEnd]] } [2] (office.user 4) r colourVector noMarks).2 =
      .ok ⟨colourVector.toMono, { noMarks with colourToMono := true }, none, 68⟩) ∧
    ((State.cascade { s with between := [[], [], [.streamEnd]] } [1] (office.user 4) r colourVector noMarks).2 =
      .ok ⟨colourVector.toMono, { noMarks with colourToMono := true, partly := true }, some 8, 27⟩) := by decide +kernel

/-- R44: the SETTLE of job 12 comes after job 13, a candidate of the ask, has been admitted; the context it frees is handed to job 13 only
when the candidates have been taken. -/
theorem test_arbiter_waits :
    let q := { aJob with number := 13, state := .queued, countdown := none, reservation := some 68, vector := some colourVector }
    let s := (((midStream .running 0x26 (u16 12 ++ u8 0 ++ u16 0)).setAccount 5
      { holding 5000 with reserved := 568, liveReservations := 2 }).setJob 2 q).pushEntry ⟨13, 3, .held, 100⟩
    let t := { s.setHold .on with between := [[.streamEnd]] }.request [2]
    (t.account 5).reserved = 68 ∧ (t.context 2).state = .saved ∧ t.ru.queue = s.ru.queue ∧ t.job 2 = q ∧ t.ru.hold = .called ∧
    t.endHold.ru.queue = [] ∧ (t.endHold.job 2).state = .opening ∧ t.endHold.ru.hold = .off := by decide +kernel

/-- For ArbiterHandsOut: the arbiter not waiting, waiting and called; a candidate list; a queue of 15 and of 16 entries. -/
theorem test_witness_hold :
    let full (n : Nat) : State := (List.replicate n (⟨13, 3, .held, 100⟩ : QueueEntry)).foldl State.pushEntry office
    office.ru.hold = .off ∧ (office.setHold .on).ru.hold ≠ .off ∧ (office.setHold .called).ru.hold = .called ∧
    (∀ j ∈ [(1 : Fin 512), 2], j ∈ [(2 : Fin 512), 1, 3]) ∧ (full 15).ru.queue.length ≤ 16 ∧ 16 ≤ (full 16).ru.queue.length := by
  decide +kernel

/-- For the STOPPED clause of CompleteEndSettlesAndSaves: sheets 4 and 65535, RUNNING and HALTED. -/
theorem test_witness_stopped :
    (∀ n ∈ [4, 65535], ∀ st ∈ [ContextState.running, .halted],
      let b := u16 12 ++ u8 1 ++ u16 n
      (midStream st 0x26 b).headFrame .streamEnd = some ⟨printerAddress, 3, b⟩ ∧ (midStream st 0x26 b).printerOf printerAddress = some 3 ∧
      (midStream st 0x26 b).boundTo 3 12 = some 2 ∧ ((midStream st 0x26 b).context 2).owner = some 3 ∧
      ((midStream st 0x26 b).context 2).job = some 12 ∧ (midStream st 0x26 b).findJob 12 = some (1, streamed) ∧
      (midStream st 0x26 b).job 1 = streamed ∧ ((midStream st 0x26 b).context 2).state = st ∧
      ((midStream st 0x26 b).context 2).pendingEnd = none ∧ (midStream st 0x26 b).readInFlight 2 = false ∧
      (midStream st 0x26 b).ru.queue = [] ∧ (midStream st 0x26 b).resetWait 3 = none) := by decide +kernel

/-! ### Witnesses: coherence -/

/-- The RUNNING stream of job 12 with the counts that go with it. -/
def coherentStream : State :=
  let s := ((bound streamed (flowing .running)).setUser 4 { office.user 4 with liveJobs := 1 }).setAccount 5
    { office.account 5 with reserved := 500, liveReservations := 1 }
  { s with hsc := { s.hsc with poolLength := 4095 } }

theorem coherentStream_live (j : Fin 512) : (coherentStream.job j).state ≠ .free → j = 1 := by revert j; decide +kernel

theorem coherentStream_context (c : Fin 8) : (coherentStream.context c).state ≠ .free → c = 2 := by revert c; decide +kernel

theorem coherentStream_context_job (c : Fin 8) : (coherentStream.context c).state = .free → (coherentStream.context c).job = none := by
  revert c; decide +kernel

theorem coherentStream_liveJobs : coherentStream.LiveJobsCounted := by
  intro u
  by_cases h : u = 4
  · subst h; exact ⟨by decide +kernel, by decide +kernel⟩
  · have e : coherentStream.user u = UserEntry.powerOn :=
      (State.setUser_user_other _ 4 _ h).trans (State.setUser_user_other _ 4 _ h)
    have l : coherentStream.jobs.cells = [(1, streamed)] := by decide +kernel
    have z : coherentStream.jobCount (fun r => decide (r.state ≠ .free) && decide (r.user = u)) = 0 := by
      simp [State.jobCount, l, show streamed.user = 4 from rfl, Ne.symm h]
    rw [e, z]
    exact ⟨rfl, by decide⟩

theorem coherentStream_coherent : coherentStream.Coherent where
  tables := by constructor <;> decide +kernel
  records := ⟨by decide +kernel, fun i j hi hj _ => (coherentStream_live i hi).trans (coherentStream_live j hj).symm⟩
  extents := ⟨by decide +kernel, by decide +kernel⟩
  liveJobs := coherentStream_liveJobs
  reservations := ⟨by decide +kernel, by decide +kernel, by decide +kernel⟩
  contexts :=
    { free := by decide +kernel
      owned := by decide +kernel
      unbound := by decide +kernel
      bound := fun c n h => by
        have hc : c = 2 := coherentStream_context c (fun e => by rw [coherentStream_context_job c e] at h; cases h)
        subst hc
        exact ⟨1, by have : (coherentStream.context 2).job = some 12 := by decide +kernel
                     rw [this] at h; cases h; decide +kernel⟩
      streams := fun j h => by
        have hj : j = 1 := coherentStream_live j (fun e => by rw [e] at h; cases h)
        subst hj
        exact ⟨2, by decide +kernel⟩
      others := by decide +kernel
      owners := by decide +kernel
      saved := by decide +kernel
      savedOnce := by decide +kernel }
  uploads := ⟨by decide +kernel, by decide +kernel⟩
  queue := ⟨by decide +kernel, by decide +kernel, by decide +kernel⟩
  reads := ⟨by decide +kernel, by decide +kernel, by decide +kernel, by decide +kernel⟩

/-- For StepKeepsCoherence: a state in which a job streams. -/
theorem test_witness_coherent : coherentStream.Coherent ∧ ∃ t, step coherentStream = .next t := ⟨coherentStream_coherent, _, rfl⟩

/-- Context 2 with a stall or a park countdown that has run out. -/
def expired (st : ContextState) : State :=
  bound streamed { flowing st with stall := some ⟨0, true⟩, park := some ⟨0, true⟩ }

/-- For ExpiryParksStream. -/
theorem test_witness_expiry :
    BoundStream (expired .running) 2 3 1 streamed ∧ BoundStream (expired .halted) 2 3 1 streamed ∧
    (∀ st ∈ [ContextState.running, .halted], ((expired st).context 2).pendingEnd = none ∧ (expired st).readInFlight 2 = false ∧
      (expired st).ru.queue = [] ∧ (expired st).resetWait 3 = none ∧ ((expired st).context 2).state = st) ∧
    streamed.confirmed < 65535 ∧ expiryDue ((expired .running).context 2).stall = true ∧
    expiryDue ((expired .halted).context 2).park = true :=
  ⟨bound_isBound _ _ (by decide +kernel), bound_isBound _ _ (by decide +kernel), by decide +kernel⟩

/-- A job whose countdown has run out. -/
def overdue (st : JobState) (fm : Nat) : State :=
  office.setJob 1 { aJob with state := st, countdown := some ⟨0, true⟩, reservation := some 500, tallies := ⟨fm, 0, 0, 0⟩ }

/-- For CountdownExpiryEndsJob: HELD, PARKED and tallied, PARKED and not tallied. -/
theorem test_witness_jobExpiry :
    (∀ x ∈ [(JobState.held, 0), (.parked, 1), (.parked, 0)],
      (overdue x.1 x.2).findJob 12 = some (1, (overdue x.1 x.2).job 1) ∧
      ((overdue x.1 x.2).job 1).countdown = some ⟨0, true⟩ ∧ ((overdue x.1 x.2).job 1).state = x.1 ∧
      ((overdue x.1 x.2).job 1).tallies.fm + ((overdue x.1 x.2).job 1).tallies.fc = x.2) := by decide +kernel

/-! ### Witnesses: conditions, callouts and slots -/

/-- A slot report of an unknown level, no serial and the default type. -/
def quietSlot : List Byte := u8 255 ++ u32 0 ++ u8 255

/-- A STATUS with the codes 10 and 20, whose K slot is at 5 percent. -/
def statusPayload : List Byte :=
  u8 2 ++ [10, 20, 0, 0, 0, 0] ++ (u8 5 ++ u32 900 ++ u8 255) ++ quietSlot ++ quietSlot ++ quietSlot ++ quietSlot ++ quietSlot ++ u8 0

/-- Zone 2 muted. -/
def muted (s : State) : State := s.setZone 2 { s.zone 2 with mute := some ⟨3, false⟩ }

/-- Code 10 is a FAULT that blocks. -/
def faulty : State := office.setCondition 10 ⟨.fault, .block, LossSet.none, 0, 30, .service⟩

/-- For StatusRebuildsConditions. -/
theorem test_witness_status :
    FromPrinter (hears faulty 0x20 statusPayload) .status 3 statusPayload ∧ (parseStatus statusPayload).isSome = true ∧
    (faulty.cond 3).state ≠ some .blocked ∧ (faulty.condition 10).effect = .block :=
  ⟨heard (by decide +kernel), by decide +kernel⟩

/-- A STATUS with these codes whose K slot reports a level, a serial and a type. -/
def statusOf (codes : List Byte) (level serial supply : Nat) : List Byte :=
  u8 codes.length ++ codes ++ List.replicate (6 - codes.length) 0 ++ (u8 level ++ u32 serial ++ u8 supply) ++
    (List.replicate 5 quietSlot).flatten ++ u8 0

/-- Every callout entry is taken. -/
def calledOut (s : State) : State :=
  { s with co := { s.co with entries := ⟨(List.finRange 48).map (fun i => (i, ⟨.sent, 5, 30, ⟨0, 5⟩, .service, 1, none, false, 0⟩))⟩ } }

/-- As `faulty`, with grace minutes. -/
def graced : State := office.setCondition 10 ⟨.fault, .block, LossSet.none, 5, 30, .service⟩

/-- For the callouts of StatusRebuildsConditions: FAULT code 10 enters an empty list, with grace minutes, in a MUTED zone with none, and
with no FREE entry. -/
theorem test_witness_status_enters :
    (parseStatus (statusOf [10] 255 0 255)).map (fun f => f.codes) = some [10] ∧
    (∀ s ∈ [graced, muted faulty, calledOut faulty],
      (hears s 0x20 (statusOf [10] 255 0 255)).headFrame .status = some ⟨printerAddress, 3, statusOf [10] 255 0 255⟩ ∧
      s.printerOf printerAddress = some 3 ∧ (s.cond 3).list = [] ∧ (s.condition 10).cls = .fault) ∧
    (graced.callout 0).state = .free ∧ (graced.condition 10).grace ≠ 0 ∧ ((muted faulty).condition 10).grace = 0 ∧
    ((muted faulty).callout 0).state = .free ∧ ((muted faulty).zone ((muted faulty).printer 3).zone).mute.isSome = true ∧
    (∀ i, ((calledOut faulty).callout i).state ≠ .free) := by decide +kernel

/-- The item of code 10 in a list since minute 5. -/
def anItem : CondItem := ⟨10, .fault, .block, LossSet.none, ⟨0, 5⟩, false⟩

/-- The FAULT code 10 stands alone in the list of printer 3, its callout in a state, with these reports queued. -/
def clearing (st : CalloutState) (reports : List Report) : State :=
  let s := (faulty.setCallout 0 ⟨st, 3, 10, ⟨0, 5⟩, .service, 1, none, false, 0⟩).setCond 3
    { office.cond 3 with state := some .blocked, list := [anItem] }
  { s with mu := { s.mu with reports := reports } }

/-- For the callouts of StatusRebuildsConditions: the one FAULT code goes; its desk was told, with room and without, and not told. -/
theorem test_witness_status_clears :
    (parseStatus (statusOf [] 255 0 255)).map (fun f => f.codes) = some [] ∧
    (∀ s ∈ [clearing .sent [], clearing .sent (List.replicate 64 aReport), clearing .grace []],
      (hears s 0x20 (statusOf [] 255 0 255)).headFrame .status = some ⟨printerAddress, 3, statusOf [] 255 0 255⟩ ∧
      s.printerOf printerAddress = some 3 ∧ (s.cond 3).list = [anItem] ∧ s.findCallout 3 10 = some 0 ∧
      s.co.owedResolved.length < 48 ∧ (∀ p', p' ≠ 3 → ∀ other ∈ (s.cond p').list, other.calloutWanted = false)) ∧
    64 ≤ (clearing .sent (List.replicate 64 aReport)).mu.reports.length := by decide +kernel

/-- The K record of printer 3 with a last level and serial, and other fields as given. -/
def sighted (f : SlotRecord → SlotRecord) : State :=
  office.setSlotRecord 3 .k (f { office.slotRecord 3 .k with lastLevel := some 30, lastSerial := some 900 })

/-- For StatusReportsSlots: a first sighting where a reorder was told; the command-fit mark; another serial with an unknown type; a level
rise without a serial; and a low level of the cartridge that is known. -/
theorem test_witness_status_slots :
    (∀ x ∈ [(office.setSlotRecord 3 .k { office.slotRecord 3 .k with reorder := .due }, 50, 900, 1),
        (sighted (fun r => { r with commandFit := true }), 50, 901, 1), (sighted id, 50, 901, 9),
        (sighted (fun r => { r with lastSerial := none }), 70, 0, 255), (sighted id, 10, 900, 255)],
      let b := statusOf [20] x.2.1 x.2.2.1 x.2.2.2
      (hears x.1 0x20 b).headFrame .status = some ⟨printerAddress, 3, b⟩ ∧ x.1.printerOf printerAddress = some 3 ∧
      (parseStatus b).isSome = true ∧ (parseStatus b).map (fun f => f.codes) = some [20] ∧ (x.1.cond 3).list = [] ∧
      (x.1.condition 20).cls ≠ .fault ∧ x.1.mu.reports.length ≤ 52 ∧ x.1.slotLive 3 .k = true ∧ x.1.slotLive 3 .c = false) := by
  decide +kernel

/-- For RebuiltListIsSound: code 10 stays, code 20 is new and code 30 is of class IGNORE. -/
theorem test_witness_rebuilt :
    let s := faulty.setCondition 20 ⟨.notice, .none, LossSet.none, 0, 0, .service⟩
    ([10, 20, 30, 40, 50, 60] : List (Fin 256)).length ≤ 6 ∧ ([anItem].map (fun it => it.code)).Nodup ∧
    (s.rebuiltList [10, 20, 30, 40, 50, 60] [anItem]).map (fun it => (it.code, it.firstSeen)) = [(10, ⟨0, 5⟩), (20, ⟨0, 0⟩)] := by
  decide +kernel

/-- The status countdown of printer 3 has run out; code 255 is of this class and grace, and this is the printer's list. -/
def dark (cls : CondClass) (grace : Nat) (l : List CondItem) : State :=
  (office.setCondition 255 ⟨cls, .block, LossSet.none, grace, 30, .service⟩).setCond 3
    { office.cond 3 with list := l, countdown := some ⟨0, true⟩ }

/-- A report queue of 64 reports. -/
def reportsFull (s : State) : State := { s with mu := { s.mu with reports := List.replicate 64 aReport } }

/-- For TimeoutSilencesPrinter: each class of code 255 with and without it in the list, the graces 0, 1 and 240; a MUTED zone, a full
report queue and a full callout table. -/
theorem test_witness_timeout :
    (∀ cls ∈ [CondClass.ignore, .notice, .fault], ∀ grace ∈ [0, 1, 240], ∀ l ∈ [[], [anItem], [{ anItem with code := 255 }]],
      let s := dark cls grace l
      (∀ t ∈ [s, muted s, reportsFull s, calledOut s], (t.printer 3).state = .defined ∧ expiryDue (t.cond 3).countdown = true ∧
        (t.condition 255).cls = cls ∧ (t.condition 255).grace = grace ∧ (t.cond 3).list = l) ∧
      (s.callout 0).state = .free ∧ (s.zone (s.printer 3).zone).mute = none ∧ s.mu.reports.length < 64 ∧
      ((muted s).zone (s.printer 3).zone).mute.isSome = true ∧ 64 ≤ (reportsFull s).mu.reports.length ∧
      (∀ i, ((calledOut s).callout i).state ≠ .free)) := by decide +kernel

/-- Callout entry 0 for code 10 of printer 3 in a state and level, its countdown run out. -/
def calling (st : CalloutState) (level : Nat) : State :=
  faulty.setCallout 0 ⟨st, 3, 10, ⟨0, 5⟩, .service, level, some ⟨0, true⟩, false, 0⟩

/-- For CalloutIsSentOrOwed: the two OPEN clauses and the two MUTED ones. -/
theorem test_witness_callout :
    (∀ x ∈ [(CalloutState.grace, 1), (.sent, 1), (.escalated, 2)],
      ((calling x.1 x.2).callout 0).countdown = some ⟨0, true⟩ ∧ ((calling x.1 x.2).callout 0).state = x.1 ∧
      ((calling x.1 x.2).callout 0).level = x.2 ∧ ((calling x.1 x.2).zone 2).mute = none ∧
      ((calling x.1 x.2).printer 3).zone = 2 ∧ (calling x.1 x.2).mu.reports.length < 64 ∧
      ((muted (calling x.1 x.2)).zone 2).mute.isSome = true ∧ ((muted (calling x.1 x.2)).callout 0).state = x.1 ∧
      ((muted (calling x.1 x.2)).callout 0).countdown = some ⟨0, true⟩) := by decide +kernel

/-- For the zones of DeskCommandsAreTaken: minutes 1, 720, 0 and 721; an unmute of a MUTED and of an OPEN zone; a mute that has run out. -/
theorem test_witness_mute :
    (∀ n ∈ [1, 720, 0, 721], Commanded (told office 10 (u8 (2 : Fin 16) ++ u16 n)) 10 (order 10 (u8 (2 : Fin 16) ++ u16 n))) ∧
    Commanded (told (muted office) 11 (u8 (2 : Fin 16))) 11 (order 11 (u8 (2 : Fin 16))) ∧
    Commanded (told office 11 (u8 (2 : Fin 16))) 11 (order 11 (u8 (2 : Fin 16))) ∧
    ((muted office).zone 2).mute.isSome = true ∧ (∀ i, ((muted office).callout i).waits = false) ∧ (office.zone 2).mute = none ∧
    expiryDue ((office.setZone 2 { office.zone 2 with mute := some ⟨0, true⟩ }).zone 2).mute = true := by
  unfold Commanded
  decide +kernel

/-- For the callouts of DeskCommandsAreTaken: every state. -/
theorem test_witness_acknowledge :
    (∀ st ∈ [CalloutState.sent, .escalated, .grace, .owed, .acked, .suppressed],
      (calling st 1).findCallout 3 10 = some 0 ∧ ((calling st 1).callout 0).state = st ∧
      Commanded (told (calling st 1) 7 (u8 (3 : Fin 64) ++ u8 (10 : Fin 256))) 7 (order 7 (u8 (3 : Fin 64) ++ u8 (10 : Fin 256))) ∧
      Commanded (told (calling st 1) 8 (u8 (3 : Fin 64) ++ u8 (10 : Fin 256))) 8 (order 8 (u8 (3 : Fin 64) ++ u8 (10 : Fin 256)))) := by
  unfold Commanded
  decide +kernel

/-- For the callouts of DeskCommandsAreTaken: no entry, and a condition that waits for one or none. -/
theorem test_witness_acknowledge_none :
    (∀ w ∈ [false, true],
      let s := faulty.setCond 3 { office.cond 3 with list := [{ anItem with calloutWanted := w }] }
      s.findCallout 3 10 = none ∧ (∀ it ∈ (s.cond 3).list, it.code = 10 ∧ it.calloutWanted = w) ∧
      Commanded (told s 7 (u8 (3 : Fin 64) ++ u8 (10 : Fin 256))) 7 (order 7 (u8 (3 : Fin 64) ++ u8 (10 : Fin 256))) ∧
      Commanded (told s 8 (u8 (3 : Fin 64) ++ u8 (10 : Fin 256))) 8 (order 8 (u8 (3 : Fin 64) ++ u8 (10 : Fin 256)))) := by
  unfold Commanded
  decide +kernel

/-- The K record of printer 3 DUE. -/
def dueOffice : State := office.setSlotRecord 3 .k { office.slotRecord 3 .k with reorder := .due, trigger := some .floor }

/-- For the orders of DeskCommandsAreTaken. -/
theorem test_witness_order :
    (∀ s ∈ [office, dueOffice],
      Commanded (told s 12 (u8 (3 : Fin 64) ++ u8 Consumable.k.number ++ u32 (4444 : Code32).toNat)) 12
        (order 12 (u8 (3 : Fin 64) ++ u8 Consumable.k.number ++ u32 (4444 : Code32).toNat)) ∧
      (s.printer 3).state = .defined ∧ ((s.printer 3).slotMap.get .k).fitted = true) ∧
    (dueOffice.slotRecord 3 .k).reorder ≠ .quiet ∧ (office.slotRecord 3 .k).reorder = .quiet := by
  unfold Commanded
  decide +kernel

/-- For FittingIsDeclared: types 1, DEFINED for K; 2, EMPTY; 255, the default; 64 and 254, no type; and a printer that is EMPTY, a slot
that is not fitted. -/
theorem test_witness_fitting :
    (∀ x ∈ [(3, Consumable.k, 1), (3, .k, 2), (3, .k, 255), (3, .k, 64), (3, .k, 254), (4, .k, 255), (3, .c, 255)],
      Commanded (told dueOffice 13 (u8 x.1 ++ u8 x.2.1.number ++ u8 x.2.2)) 13 (order 13 (u8 x.1 ++ u8 x.2.1.number ++ u8 x.2.2))) ∧
    (dueOffice.supply 1).state = .defined ∧ (dueOffice.supply 1).kind = .k ∧ (dueOffice.printer 3).state = .defined ∧
    ((dueOffice.printer 3).slotMap.get .k).fitted = true ∧ (dueOffice.supply 2).state = .empty ∧
    (dueOffice.printer 4).state = .empty ∧ ((dueOffice.printer 3).slotMap.get .c).fitted = false ∧
    dueOffice.slotRecords.wf (fun _ => slotRecordsPowerOn) = true ∧ dueOffice.mu.reports.length < 64 ∧
    (dueOffice.slotRecord 3 .k).reorder ≠ .quiet ∧ (dueOffice.slotRecord 3 .k).owedReorder = false ∧
    (office.slotRecord 3 .k).reorder = .quiet ∧
    64 ≤ ({ dueOffice with mu := { dueOffice.mu with reports := List.replicate 64 aReport } } : State).mu.reports.length := by
  unfold Commanded
  decide +kernel

/-! ### Witnesses: tables, accounts and the management link -/

/-- The body of a TABLE-WRITE of zone 2 with hold time `h`. -/
def zoneBody (h : Nat) : List Byte := u8 1 ++ u16 (2 : Fin 16) ++ u16 h ++ u8 30 ++ u16 60 ++ u16 600 ++ [0] ++ u16 0

/-- An account with a reserved amount. -/
def reservedOffice : State := office.setAccount 5 { office.account 5 with reserved := 500 }

/-- The body of a TABLE-WRITE of account 5 with state `k`, overdraft `o`, rate plan `plan` and balance `b`. -/
def accountBody (k : Nat) (b : Int) (o : Int := 0) (plan : Nat := 6) : List Byte :=
  u8 3 ++ u16 (5 : Fin 1024) ++ (u8 k ++ amountBytes o ++ u8 plan ++ amountBytes b ++ List.replicate 18 0)

/-- The body of a TABLE-WRITE of rate plan 6 with mono rate `rm` and discount `d`. -/
def planBody (d : Nat) (rm : Int := 4) : List Byte :=
  u8 4 ++ u16 (6 : Fin 16) ++ (amountBytes rm ++ amountBytes 25 ++ amountBytes 10 ++ amountBytes 1 ++ u8 d ++ amountBytes 20)

/-- The body of a TABLE-WRITE of condition 10 with loss set `l`, class, effect, kind and times as given. -/
def conditionBody (l : LossSet) (cls : Nat := 1) (effect : Nat := 1) (kind : Nat := 0) (g : Nat := 240) (x : Nat := 480) : List Byte :=
  u8 5 ++ u16 (10 : Fin 256) ++ (u8 cls ++ u8 effect ++ lossBits l ++ u8 g ++ u16 x ++ u8 kind)

/-- The body of a TABLE-WRITE of supply type `i` with slot kind `kind`. -/
def supplyBody (i : Fin 64) (kind : Nat) (y : Nat) : List Byte :=
  u8 6 ++ u16 i ++ (u8 1 ++ u8 kind ++ u32 y ++ u8 60 ++ u32 100 ++ u8 50 ++ u8 20)

/-- The body of a TABLE-WRITE of user 4. -/
def userBody (badge : Code32) (a z : Nat) : List Byte :=
  u8 2 ++ u16 (4 : Fin 8192) ++
    (u8 1 ++ u32 badge.toNat ++ u16 a ++ u8 z ++ flagByte true ++ flagByte false ++ flagByte true ++ [0])

theorem told_canonical {s : State} {k : Nat} {b : List Byte} (h : s.TablesCanonical) : (told s k b).TablesCanonical :=
  ⟨h.printers, h.zones, h.users, h.accounts, h.plans, h.conditions, h.supplies, h.slots, h.links, h.jobs, h.contexts, h.cm, h.callouts,
    h.slotRecords, h.consoles, h.resetWaits⟩

/-- The office with a live job of user 4, and a user 6 with badge 78. -/
def staffed : State := (office.setUser 4 { office.user 4 with liveJobs := 1 }).setUser 6 { office.user 4 with badge := 78 }

/-- For TableWriteIsChecked: entry indices, zone times, account states, overdrafts, rate plans and balances, rates and discounts, classes,
effects, kinds and loss sets, yields and supply kinds, state bytes, badges, accounts and zones at and past their limits. -/
theorem test_witness_tableWrite :
    (∀ b ∈ [u8 7 ++ u16 0 ++ [0], u8 0 ++ u16 64 ++ [0], u8 3 ++ u16 1024 ++ [0], zoneBody 60, zoneBody 4320, zoneBody 59, zoneBody 4321,
        accountBody 0 500, accountBody 1 500, accountBody 1 499, accountBody 2 500, accountBody 3 500, accountBody 1 500 999999 15,
        accountBody 1 500 1000000, accountBody 1 500 (-1), accountBody 1 500 0 16, accountBody 1 (-999999) 999999,
        accountBody 1 (-1000000) 999999, planBody 99, planBody 100, planBody 99 9999, planBody 99 10000, planBody 99 (-1),
        conditionBody ⟨true, false, false, false⟩, conditionBody LossSet.none, conditionBody LossSet.none 2 2 1,
        conditionBody LossSet.none 3 2, conditionBody LossSet.none 2 3, conditionBody LossSet.none 2 2 2,
        conditionBody LossSet.none 2 2 1 241, conditionBody LossSet.none 2 2 1 240 481, u8 6 ++ u16 (1 : Fin 64) ++ u8 0,
        u8 6 ++ u16 (2 : Fin 64) ++ u8 0, u8 6 ++ u16 (2 : Fin 64) ++ (u8 2 ++ []), supplyBody 1 0 1000, supplyBody 1 0 999,
        supplyBody 1 1 250000, supplyBody 2 1 250001, supplyBody 2 5 250000, supplyBody 2 6 250000, u8 2 ++ u16 (4 : Fin 8192) ++ u8 0,
        u8 2 ++ u16 (4 : Fin 8192) ++ (u8 2 ++ []), userBody 77 5 15, userBody 0 5 15, userBody 78 5 15, userBody 77 1024 15,
        userBody 77 1023 16, userBody 77 1023 15],
      Commanded (told office 1 b) 1 (order 1 b)) ∧
    (reservedOffice.account 5).reserved ≠ 0 ∧ (499 : Int) - (reservedOffice.account 5).reserved < -0 ∧
    -0 ≤ 500 - (reservedOffice.account 5).reserved ∧ (office.account 5).reserved = 0 ∧
    (office.printer 3).state = .defined ∧ (office.slotRecord 3 .k).supply = 1 ∧ (office.supply 1).kind = .k ∧
    (office.user 4).liveJobs = 0 ∧ (staffed.user 4).liveJobs ≠ 0 ∧ (staffed.user 4).account = 5 ∧
    (staffed.user 6).state = .defined ∧ (staffed.user 6).badge = 78 := by
  unfold Commanded
  decide +kernel

/-- For TableWriteIsChecked: the tables are canonical, and supply type 2 is not in use. -/
theorem test_witness_tableWrite_canonical :
    (∀ b, (told office 1 b).TablesCanonical ∧ (told reservedOffice 1 b).TablesCanonical ∧ (told staffed 1 b).TablesCanonical) ∧
    (∀ b p q, ((told office 1 b).printer p).state = .defined → ((told office 1 b).slotRecord p q).supply ≠ 2 ∧
      ((((told office 1 b).printer p).slotMap.get q).fitted = true →
        (((told office 1 b).printer p).slotMap.get q).defaultType ≠ 2)) := by
  refine ⟨fun b => ⟨told_canonical office_canonical, told_canonical (by constructor <;> decide +kernel),
    told_canonical (by constructor <;> decide +kernel)⟩, fun b p q => ?_⟩
  show (office.printer p).state = .defined → (office.slotRecord p q).supply ≠ 2 ∧
    (((office.printer p).slotMap.get q).fitted = true → ((office.printer p).slotMap.get q).defaultType ≠ 2)
  revert p
  cases q <;> decide +kernel

/-- A printer entry with a K slot fitted. -/
def anEntry (station : Station) (supply : Fin 64) : PrinterEntry :=
  ⟨.defined, station, 2, ⟨true, false, false, false⟩, [⟨.sides, 2⟩], PrinterEntry.powerOn.slotMap.set .k ⟨true, supply⟩, 600⟩

/-- An entry of the station of printer 3 with no slot fitted. -/
def withoutK : PrinterEntry := { anEntry printerAddress 1 with slotMap := PrinterEntry.powerOn.slotMap }

/-- Printer 3 owns the SAVED context 2, which names no job. -/
def savedOffice : State :=
  let s := office.setContext 2 { Context.free with state := .saved, owner := some 3, saveDone := true }
  { s with ru := { s.ru with saved := [2] } }

theorem savedOffice_contexts : savedOffice.ContextsAgree where
  free := by decide +kernel
  owned := by decide +kernel
  unbound := by decide +kernel
  bound := fun c n h => by
    have : ∀ c, (savedOffice.context c).job = none := by decide +kernel
    rw [this c] at h; cases h
  streams := fun j h => by
    have : ∀ j, (savedOffice.job j).state.streams = false := by decide +kernel
    rw [this j] at h; cases h
  others := by decide +kernel
  owners := by decide +kernel
  saved := by decide +kernel
  savedOnce := by decide +kernel

/-- For PrinterEntryIsWritten: a good entry over EMPTY printer 4 and DEFINED printer 3, one whose supply type is not DEFINED, one whose
station printer 3 holds, and EMPTY ones; a stream bound at printer 3. -/
theorem test_witness_printerWrite :
    (∀ x ∈ [((4 : Fin 64), anEntry 0x020000000004 1), (4, anEntry 0x020000000004 2), (4, anEntry printerAddress 1), (3, withoutK),
        (3, anEntry 0x020000000004 1)],
      Commanded (told savedOffice 1 (u8 0 ++ u16 x.1 ++ x.2.bytes)) 1 (order 1 (u8 0 ++ u16 x.1 ++ x.2.bytes)) ∧
      x.2.state = .defined ∧ x.2.station ≠ 0 ∧ x.2.station.getLsbD 40 = false ∧ x.2.options.length ≤ 8 ∧
      (x.2.options.map (fun o => o.code)).Nodup ∧ (∀ o ∈ x.2.options, o.code.inRange o.value = true) ∧ x.2.statusTimeout = 600) ∧
    (∀ p ∈ [(3 : Fin 64), 4], Commanded (told savedOffice 1 (u8 0 ++ u16 p ++ u8 0)) 1 (order 1 (u8 0 ++ u16 p ++ u8 0))) ∧
    (savedOffice.printer 4).state = .empty ∧ (savedOffice.printer 3).state = .defined ∧ savedOffice.boundAt 3 = none ∧
    savedOffice.ru.queue = [] ∧ (savedOffice.printer 3).station = withoutK.station ∧
    (savedOffice.printer 3).station ≠ (anEntry 0x020000000004 1).station ∧ (savedOffice.supply 1).state = .defined ∧
    (savedOffice.supply 1).kind = .k ∧ (savedOffice.supply 2).state = .empty ∧
    (∀ k, k ≠ 4 → (savedOffice.printer k).state = .defined → (savedOffice.printer k).station ≠ 0x020000000004) ∧
    (bound streamed (flowing .running)).boundAt 3 ≠ none := by
  unfold Commanded
  decide +kernel

theorem test_witness_printerWrite_canonical :
    (∀ b, (told savedOffice 1 b).TablesCanonical ∧ (told (bound streamed (flowing .running)) 1 b).TablesCanonical) ∧
    (∀ b, (told savedOffice 1 b).ContextsAgree) :=
  ⟨fun _ => ⟨told_canonical (by constructor <;> decide +kernel), told_canonical (by constructor <;> decide +kernel)⟩,
    fun _ => ⟨savedOffice_contexts.free, savedOffice_contexts.owned, savedOffice_contexts.unbound, savedOffice_contexts.bound,
      savedOffice_contexts.streams, savedOffice_contexts.others, savedOffice_contexts.owners, savedOffice_contexts.saved,
      savedOffice_contexts.savedOnce⟩⟩

/-- For CreditAndDebitMoveBalance: a credit within the limit and past it, a debit within the available amount and past it. -/
theorem test_witness_amounts :
    (∀ x ∈ [99989999, 99990000], Commanded (told office 3 (u16 (5 : Fin 1024) ++ amountBytes (x : Nat))) 3
      (order 3 (u16 (5 : Fin 1024) ++ amountBytes (x : Nat)))) ∧
    (∀ x ∈ [10000, 10001], Commanded (told office 4 (u16 (5 : Fin 1024) ++ amountBytes (x : Nat))) 4
      (order 4 (u16 (5 : Fin 1024) ++ amountBytes (x : Nat)))) ∧
    (office.account 5).balance + (99989999 : Nat) ≤ 99999999 ∧ 99999999 < (office.account 5).balance + (99990000 : Nat) ∧
    0 ≤ (office.account 5).balance - (office.account 5).reserved + (office.account 5).overdraft - (10000 : Nat) ∧
    (office.account 5).balance - (office.account 5).reserved + (office.account 5).overdraft - (10001 : Nat) < 0 := by
  unfold Commanded
  decide +kernel

/-- For ReservationIsTakenAndReleased: an OPEN, a CLOSED and a FROZEN account, an amount past the available one, one past the reserved
amount's limit, and a job with a reservation. -/
theorem test_witness_reserve :
    (office.account 5).state = .opened ∧
    ((10000 : Nat) : Int) ≤ (office.account 5).balance - (office.account 5).reserved + (office.account 5).overdraft ∧
    (office.account 5).reserved + (10000 : Nat) ≤ 99999999 ∧ (office.account 6).state = .closed ∧
    ((office.setAccount 6 { office.account 6 with state := .frozen }).account 6).state = .frozen ∧
    (office.account 5).balance - (office.account 5).reserved + (office.account 5).overdraft < (10001 : Nat) ∧
    (let a : AccountEntry := ⟨.opened, 100, 6, 99999999, 99999950, 0, 0, 1⟩
     ((office.setAccount 5 a).account 5).state = .opened ∧ ((50 : Nat) : Int) ≤ a.balance - a.reserved + a.overdraft ∧
      99999999 < a.reserved + (50 : Nat)) ∧
    ((bound streamed (flowing .running)).job 1).reservation = some 500 := by decide +kernel

/-- For ChargeFollowsStages: the manual's plan, with no face printed, with a charge below the minimum, and with one above it. -/
theorem test_witness_charge :
    (office.plan 6).discount ≤ 99 ∧ (office.plan 6).minimum ≤ 9999 ∧ discountedOf ⟨1, 0, 0, 0⟩ (office.plan 6) < (office.plan 6).minimum ∧
    (office.plan 6).minimum ≤ discountedOf ⟨37, 12, 20, 4⟩ (office.plan 6) := by decide +kernel

/-- For PackedAdditionIsExact. -/
theorem test_witness_packed : (375 : Int).natAbs < 10 ^ 8 ∧ (-375 : Int).natAbs < 10 ^ 8 := by decide

/-- For ReadsChangeNothing: each reading command, a read of each table, and a JOB-READ of a HELD and of a QUEUED job. -/
theorem test_witness_reads :
    (∀ b ∈ [u8 0 ++ u16 (3 : Fin 64), u8 1 ++ u16 (2 : Fin 16), u8 2 ++ u16 (4 : Fin 8192), u8 3 ++ u16 (5 : Fin 1024),
        u8 4 ++ u16 (6 : Fin 16), u8 5 ++ u16 (10 : Fin 256), u8 6 ++ u16 (1 : Fin 64)],
      Commanded (told office 2 b) 2 (order 2 b)) ∧
    Commanded (told office 6 (u8 (3 : Fin 64))) 6 (order 6 (u8 (3 : Fin 64))) ∧
    Commanded (told office 9 (u8 (3 : Fin 64))) 9 (order 9 (u8 (3 : Fin 64))) ∧
    Commanded (told office 14 (u8 (3 : Fin 64))) 14 (order 14 (u8 (3 : Fin 64))) ∧
    Commanded (told office 21 []) 21 (order 21 []) ∧ Commanded (told holdingJob 23 (u16 12)) 23 (order 23 (u16 12)) ∧
    Commanded (told continuing 23 (u16 12)) 23 (order 23 (u16 12)) ∧
    Commanded (told office 24 []) 24 (order 24 []) ∧ (office.printer 3).state = .defined ∧
    holdingJob.findJob 12 = some (1, holdingJob.job 1) ∧ (∀ e ∈ holdingJob.ru.queue, e.job ≠ 12) ∧
    continuing.findJob 12 = some (1, continuing.job 1) ∧
    continuing.ru.queue = [] ++ ⟨12, 3, .parked .stall ⟨0, 7⟩, 100⟩ :: [] := by
  unfold Commanded
  decide +kernel

/-- R172 and R182: the queue entry of a JOB-READ stands before its place. -/
theorem test_queue_entry_before_place :
    queueEntryBytes (1, ⟨12, 3, .parked .stall ⟨0, 7⟩, 100⟩) =
      u16 12 ++ u8 3 ++ (u8 1 ++ u16 100 ++ u8 ParkReason.stall.number ++ (u16 0 ++ u16 7)) ++ u8 1 := by decide +kernel

/-- The office with the desk in console entry 1. -/
def listed : State := office.setConsole 1 (some ⟨desk, true⟩)

/-- For ConsoleSetKeepsOneReportStation: an address no entry holds, one that entry 1 holds, and none. -/
theorem test_witness_console :
    Commanded (told listed 15 (u8 (0 : Fin 4) ++ flagByte true)) 15 (order 15 (u8 (0 : Fin 4) ++ flagByte true)) ∧
    Commanded (told listed 15 (u8 (0 : Fin 4) ++ stationBytes workstation ++ flagByte true)) 15
      (order 15 (u8 (0 : Fin 4) ++ stationBytes workstation ++ flagByte true)) ∧
    Commanded (told listed 15 (u8 (0 : Fin 4) ++ stationBytes desk ++ flagByte true)) 15
      (order 15 (u8 (0 : Fin 4) ++ stationBytes desk ++ flagByte true)) ∧
    workstation ≠ 0 ∧ workstation.getLsbD 40 = false ∧ desk ≠ 0 ∧ desk.getLsbD 40 = false ∧
    listed.console 1 = some ⟨desk, true⟩ ∧
    (∀ k, k ≠ (0 : Fin 4) → ∀ e ∈ (listed.console k).toList, e.station ≠ workstation) := by
  unfold Commanded
  decide +kernel

/-- A service state. -/
def inService (s : State) (v : ServiceState) : State := { s with mu := { s.mu with service := v } }

/-- For the service states of ServiceStateAndClockAreSet. -/
theorem test_witness_service :
    (∀ v ∈ [ServiceState.idle, .serving, .intakeClosed], ∀ k ∈ [(16 : Nat), 17, 18],
      Commanded (told (inService office v) k []) (BitVec.ofNat 8 k) (order (BitVec.ofNat 8 k) []) ∧
      (inService office v).mu.service = v) ∧
    (inService office .idle).mayServe = true ∧ State.reset.mayServe = false ∧ (∀ i, (office.slot i).state = .free) := by
  unfold Commanded
  decide +kernel

/-- For ChecksAreSetAndCleared: levels 3 and 4. -/
theorem test_witness_checks :
    Commanded (told office 20 (u8 3)) 20 (order 20 (u8 3)) ∧ Commanded (told office 20 (u8 4)) 20 (order 20 (u8 4)) ∧
    Commanded (told office 21 []) 21 (order 21 []) ∧ Commanded (told office 22 []) 22 (order 22 []) := by
  unfold Commanded
  decide +kernel

/-- For the unknown kinds of CommandIsDelivered: 0 and 27, from an accepted and from a refused station. -/
theorem test_witness_unknown :
    (∀ k ∈ [(0 : Nat), 27], (told office k []).headFrame .command = some ⟨desk, 3, u16 9 ++ u8 k⟩ ∧
      parseCommand ⟨desk, 3, u16 9 ++ u8 k⟩ = some (order (BitVec.ofNat 8 k) [])) ∧
    office.accepts desk = true ∧ (office.setConsole 0 (some ⟨workstation, false⟩)).accepts desk = false := by decide +kernel

/-- For RecallTakesJob: job 0, a number no job holds, and the HELD job 12; its upload in each state of its slot. -/
theorem test_witness_recall :
    (∀ n ∈ [0, 13, 12], Commanded (told holdingJob 5 (u16 n)) 5 (order 5 (u16 n))) ∧ holdingJob.findJob 13 = none ∧
    holdingJob.findJob 12 = some (1, holdingJob.job 1) ∧ (holdingJob.job 1).state = .held ∧
    (∀ x ∈ [(JobState.receiving, UploadState.opened, none), (.sealing, .sealing, none), (.sealing, .sealing, some Code.cancelled),
        (.sealing, .ending, some .cancelled)],
      let s := (office.setJob 1 { aJob with state := x.1 }).setSlot 0 ⟨x.2.1, 12, 3, 1, 1, none, x.2.2⟩
      Commanded (told s 5 (u16 12)) 5 (order 5 (u16 12)) ∧ s.findJob 12 = some (1, s.job 1) ∧ s.findSlot 12 = some 0) := by
  unfold Commanded
  decide +kernel

/-- Job 12 QUEUED for printer 3, tallied or not, with job 13 behind it, and SAVED context 4 naming it. -/
def queuedJob (tallies : Tallies) : State :=
  let s := ((office.setJob 1 { aJob with state := .queued, reservation := some 500, tallies := tallies }).setJob 2
    { aJob with number := 13, state := .queued, reservation := some 500, vector := some colourVector }).setContext 4
    { Context.free with state := .saved, owner := some 3, parkedJob := some 12, saveDone := true }
  { s with ru := ⟨[⟨12, 3, .held, 7⟩, ⟨13, 3, .held, 7⟩], [4], [], .off⟩ }

/-- For RecallTakesJob: the job PARKED, and QUEUED with tallies and without, with room in the report queue and without. -/
theorem test_witness_recall_unbound :
    (∀ x ∈ [(parkedJob, JobState.parked), (queuedJob ⟨0, 0, 0, 0⟩, .queued), (queuedJob ⟨1, 0, 0, 0⟩, .queued),
        (reportsFull parkedJob, .parked)],
      Commanded (told x.1 5 (u16 12)) 5 (order 5 (u16 12)) ∧ x.1.findJob 12 = some (1, x.1.job 1) ∧ (x.1.job 1).state = x.2 ∧
      (x.1.job 1).reservation = some 500) ∧
    (told parkedJob 5 (u16 12)).TablesCanonical ∧ (∀ n : Fin 2, (told (queuedJob ⟨n, 0, 0, 0⟩) 5 (u16 12)).TablesCanonical) := by
  refine ⟨by unfold Commanded; decide +kernel, told_canonical (by constructor <;> decide +kernel), fun n => told_canonical ?_⟩
  fin_cases n <;> (constructor <;> decide +kernel)

/-- The stream of job 12 in a state of its context, its step and its pending end. -/
def recallable (st : ContextState) (step : Option OpenStep) (k : Option EndKind) : State :=
  bound streamed { flowing st with step := step, pendingEnd := k }

/-- The stream runs, and a read of its context is in flight. -/
def recallReading : State := during (recallable .running none none) (.read ⟨2, .fetch, 12, ⟨7, 0⟩, 1⟩)

/-- For RecallTakesJob: a context RUNNING, and OPENING at SENT and at WAIT; a read in flight; and each kind of pending end. -/
theorem test_witness_recall_bound :
    (∀ s ∈ [recallable .running none none, recallable .opening (some .sent) none, recallable .opening (some .wait) none,
        recallable .running none (some .recall), recallable .running none (some .complete), recallReading],
      Commanded (told s 5 (u16 12)) 5 (order 5 (u16 12)) ∧ s.findJob 12 = some (1, s.job 1) ∧ (s.job 1).state = .printing ∧
      s.boundContextOf 12 = some 2 ∧ (s.context 2).owner = some 3 ∧ (s.job 1).recallPending = false ∧ s.resetWait 3 = none ∧
      (s.job 1).reservation = some 500) ∧
    (recallable .running none none).readInFlight 2 = false ∧ recallReading.readInFlight 2 = true ∧
    (told (recallable .running none none) 5 (u16 12)).TablesCanonical :=
  ⟨by unfold Commanded; decide +kernel, by decide +kernel, by decide +kernel, told_canonical (by constructor <;> decide +kernel)⟩

/-- For PrinterResetRenewsPrinter: no reset waits at printer 3, and then one does. -/
theorem test_witness_printerReset :
    (∀ s ∈ [office, office.setResetWait 3 (some ⟨desk, 1⟩)], Commanded (told s 25 (u8 (3 : Fin 64))) 25 (order 25 (u8 (3 : Fin 64))) ∧
      (s.printer 3).state = .defined) ∧
    office.resetWait 3 = none ∧ (∀ c, (office.context c).owner ≠ some 3) ∧ office.ru.queue = [] ∧
    (office.setResetWait 3 (some ⟨desk, 1⟩)).resetWait 3 ≠ none := by
  unfold Commanded
  decide +kernel

/-- For RestartClearsLiveWork: a RESTART with a job at hand. -/
theorem test_witness_restart :
    Commanded (told (bound streamed (flowing .running)) 26 []) 26 (order 26 []) ∧
    (∀ p, (told (bound streamed (flowing .running)) 26 []).resetWait p = none) ∧
    (told (bound streamed (flowing .running)) 26 []).TablesCanonical := by
  refine ⟨by unfold Commanded; decide +kernel, by decide +kernel, ?_⟩
  constructor <;> decide +kernel

theorem told_coherent {s : State} {k : Nat} {b : List Byte} (h : s.Coherent) : (told s k b).Coherent :=
  ⟨told_canonical h.tables, ⟨h.records.free, h.records.numbers⟩, ⟨h.extents.total, h.extents.chains⟩, h.liveJobs,
    ⟨h.reservations.held, h.reservations.reserved, h.reservations.count⟩,
    ⟨h.contexts.free, h.contexts.owned, h.contexts.unbound, h.contexts.bound, h.contexts.streams, h.contexts.others, h.contexts.owners,
      h.contexts.saved, h.contexts.savedOnce⟩,
    ⟨h.uploads.named, h.uploads.apart⟩, ⟨h.queue.queued, h.queue.apart, h.queue.listed⟩,
    ⟨h.reads.headers, h.reads.fetches, h.reads.single, h.reads.pending⟩⟩

/-- For the accounts and the pool of RestartClearsLiveWork: records that agree. -/
theorem test_witness_restart_coherent :
    (told coherentStream 26 []).Coherent ∧ Commanded (told coherentStream 26 []) 26 (order 26 []) ∧
    (∀ p, (told coherentStream 26 []).resetWait p = none) :=
  ⟨told_coherent coherentStream_coherent, by unfold Commanded; decide +kernel, by decide +kernel⟩

end Sys2Proof.Tests
end

