-- ==== Sys2Proof/Proofs/Release/StandingRules.lean ====
section
/-! SUPPORT. StepKeepsStandingRules fails: the standing rules speak of the entries that a read of a table finds, and without canonical
tables a tick can uncover an entry that no read found before. -/

namespace Sys2Proof.Machine.Release

/-- A job table that is not in canonical form: record 0 is listed twice. A read finds the first listing, a power-on value; the second
has counted more mono faces than R28 allows. -/
def shadowedJobs : Table 512 JobRecord :=
  ⟨[(0, JobRecord.powerOn), (0, { JobRecord.powerOn with tallies := ⟨maxTally + 1, 0, 0, 0⟩ })]⟩

/-- The part after reset but for this job table, with a minute tick waiting. -/
def shadowing : State := { State.reset with jobs := shadowedJobs, pending := [.minuteTick] }

theorem shadowing_job (j : Fin 512) : shadowing.job j = JobRecord.powerOn := by
  by_cases h : j = 0
  · subst h
    rfl
  · simp [State.job, shadowing, shadowedJobs, Table.get, Ne.symm h]

theorem shadowing_account (i : Fin 1024) : shadowing.account i = AccountEntry.powerOn := rfl

theorem shadowing_context (c : Fin 8) : shadowing.context c = Context.free := rfl

/-- Every read of the shadowing state gives what it gives after reset, so the standing rules hold of it. -/
theorem shadowing_standing : shadowing.Standing where
  room := by constructor <;> decide
  clock := by unfold State.ClockLegal; decide
  accounts := fun i => by
    rw [shadowing_account]
    unfold AccountEntry.Covered
    decide
  counts := {
    checks := by decide
    dropped := by decide
    credit := fun c => by rw [shadowing_context]; decide
    tallies := fun j => by rw [shadowing_job]; decide }
  store := Table.wf_empty _
  hold := rfl

/-- The tick takes the power-on value off the list of the job table, and with it what hid the second listing. -/
theorem shadowing_uncovered :
    (State.minuteTick { shadowing with pending := [] }).job 0 =
      { JobRecord.powerOn with tallies := ⟨maxTally + 1, 0, 0, 0⟩ } := by decide

/-- Refutes O3: `State.Standing` does not ask for canonical tables (`State.TablesCanonical`), and from a job table that lists a record
twice a minute tick uncovers a mono-face tally of 10,000,000, past the limit of R28. -/
theorem not_stepKeepsStandingRules : ¬ Obligations.StepKeepsStandingRules := by
  intro h
  have hstep : step shadowing = .next (State.minuteTick { shadowing with pending := [] }) := rfl
  obtain ⟨hfm, -⟩ := (h _ _ shadowing_standing hstep).counts.tallies 0
  rw [shadowing_uncovered] at hfm
  exact absurd hfm (by decide)

end Sys2Proof.Machine.Release
end

