-- ==== Sys2Proof/Proofs/Release/Answer.lean ====
section
/-! SUPPORT. The reading of a RELEASE-ASK for ALL, and the asks that no candidate answers (R41 to R43, R54). -/

namespace Sys2Proof.Machine.Release

/-! ### The frame (R178, R181) -/

/-- A four-byte number reads back after a two-byte one. -/
theorem be32_u16_u32 (m n : Nat) (h : n < 4294967296) (rest : List Byte) : be32 (u16 m ++ u32 n ++ rest) 2 = n := by
  simp [be32, be16, byteAt, u32, u16]
  omega

/-- The payload of a RELEASE-ASK for ALL reads as its tag, its badge code and selection 0 (R41, R181). -/
theorem parseReleaseAsk_all (tag : Tag) (badge : Code32) :
    parseReleaseAsk (u16 tag.toNat ++ u32 badge.toNat ++ u16 0) = some ⟨tag, badge, 0⟩ := by
  have htag : be16 (u16 tag.toNat ++ u32 badge.toNat ++ u16 0) 0 = tag.toNat := by
    rw [List.append_assoc]
    exact be16_u16 _ (by omega) _
  have hbadge : be32 (u16 tag.toNat ++ u32 badge.toNat ++ u16 0) 2 = badge.toNat :=
    be32_u16_u32 _ _ (by omega) _
  have hall : be16 (u16 tag.toNat ++ u32 badge.toNat ++ u16 0) 6 = 0 := by simp [be16, byteAt, u16, u32]
  have hlen : (u16 tag.toNat ++ u32 badge.toNat ++ u16 0).length = 8 := by
    simp [length_u16, length_u32]
  rw [parseReleaseAsk, if_pos hlen, htag, hbadge, hall, BitVec.ofNat_toNat, BitVec.ofNat_toNat, BitVec.setWidth_eq,
    BitVec.setWidth_eq]

/-- A RELEASE-ASK for ALL at the head of the receive buffer is taken out of it and answered by the RU (R41). -/
theorem execReleaseAsk_all {s : State} {p : Fin 64} {tag : Tag} {badge : Code32}
    (h : FromPrinter s .releaseAsk p (u16 tag.toNat ++ u32 badge.toNat ++ u16 0)) :
    exec .releaseAsk s = .next (s.tookFp.releaseAsk p ⟨tag, badge, 0⟩) := by
  have harm : exec .releaseAsk s = execReleaseAsk s := rfl
  rw [harm, execReleaseAsk, h.onPrinterFrame, parseReleaseAsk_all]

/-! ### The test of an ask (R42) -/

theorem askTest_idle {s : State} (p : Fin 64) (badge : Code32) (h : s.mu.service = .idle) :
    s.askTest p badge = .error .notServing := by
  simp [State.askTest, h]

theorem askTest_unavailable {s : State} {p : Fin 64} {badge : Code32} {u : Fin 8192} {e : UserEntry} (hs : s.mu.service ≠ .idle)
    (hu : s.findUser badge = some (u, e)) (hr : (s.cond p).state ≠ some .ready) (hd : (s.cond p).state ≠ some .degraded) :
    s.askTest p badge = .error .printerUnavailable := by
  simp [State.askTest, hs, hu, hr, hd]

theorem askTest_ok {s : State} {p : Fin 64} {badge : Code32} {u : Fin 8192} {e : UserEntry} (hs : s.mu.service ≠ .idle)
    (hu : s.findUser badge = some (u, e)) (hp : (s.cond p).state = some .ready ∨ (s.cond p).state = some .degraded) :
    s.askTest p badge = .ok u := by
  simp [State.askTest, hs, hu, hp]

/-- An ask that fails a test is answered with its code and nothing else (R42, R54). -/
theorem releaseAsk_error {s : State} {p : Fin 64} {f : ReleaseAsk} {c : Code} (h : s.askTest p f.badge = .error c) :
    s.releaseAsk p f = s.sentTo p (.releaseAnswer f.tag f.badge c [] none) := by
  simp only [State.releaseAsk, h, State.sendPrinter_eq]

/-- What an ask for ALL of a user who passes the tests does: the candidates are taken while the arbiter waits, then the available amount
is asked for, the answer goes out, and the arbiter runs (R43, R44, R54). -/
theorem releaseAsk_all {s : State} {p : Fin 64} {tag : Tag} {badge : Code32} {u : Fin 8192} (h : s.askTest p badge = .ok u) :
    s.releaseAsk p ⟨tag, badge, 0⟩ =
      let own := (s.candidates u (s.printer p).zone).map (fun c => c.1)
      let taken := (s.setHold .on).takeCandidates own p own
      let last := taken.1.request own
      let answered := last.sentTo p
        (.releaseAnswer tag badge .accepted taken.2 (some (last.account (last.user u).account).available))
      (if taken.2.any AnswerEntry.queuedNow then answered.runArbiter else answered).endHold := by
  simp only [State.releaseAsk, h, State.askedFor, if_true, List.append_nil, State.sendPrinter_eq]

/-- A user with no job record has no candidate (R43). -/
theorem candidates_nil {s : State} {u : Fin 8192} (z : Fin 16) (h : ∀ c ∈ s.jobs.cells, c.2.user ≠ u) : s.candidates u z = [] := by
  have hnone (st : JobState) (stamp : JobRecord → Stamp) : s.jobsInOrder u z st stamp = [] := by
    have : s.jobs.cells.filter (fun c => decide (c.2.user = u) && decide (c.2.zone = z) && decide (c.2.state = st)) = [] :=
      List.filter_eq_nil_iff.2 fun c hc => by simp [h c hc]
    rw [State.jobsInOrder, this, sortBy]
  simp [State.candidates, hnone]

/-- Settles O25: the three answers are the branches of `askTest`, and with no candidate the one request is that of the available
amount. -/
theorem releaseAskIsAnswered : Obligations.ReleaseAskIsAnswered := by
  intro s p tag badge hf
  rw [execReleaseAsk_all hf]
  refine ⟨fun hidle => ?_, fun u e hs hu hr hd => ?_, fun u e hs hu hp hnone => ?_⟩
  · rw [releaseAsk_error (askTest_idle (s := s.tookFp) p badge hidle)]
  · have htest := askTest_unavailable (s := s.tookFp) hs hu hr hd
    rw [releaseAsk_error htest]
  · have hall := releaseAsk_all (tag := tag) (askTest_ok (s := s.tookFp) hs hu hp)
    rw [hall, candidates_nil (s := s.tookFp) _ hnone]
    simp [State.takeCandidates, State.request_eq, AccountEntry.available, State.setHold, State.tookFp]

end Sys2Proof.Machine.Release
end

