-- ==== Sys2Proof/Proofs/Release/Cascade.lean ====
section
/-! SUPPORT. The decision cascade: what each of its steps grants and refuses, in the requests that it has made so far (R50 to R53, R104). -/

namespace Sys2Proof.Machine.Release

/-! ### Requests -/

/-- The state after `n` requests of an ask whose candidates are `own` (R104). -/
def requests (own : List (Fin 512)) (n : Nat) (s : State) : State := (fun x => State.request x own)^[n] s

theorem requests_add (own : List (Fin 512)) (m n : Nat) (s : State) : requests own m (requests own n s) = requests own (m + n) s :=
  (Function.iterate_add_apply _ m n s).symm

theorem requests_of_between_nil {s : State} (h : s.between = []) (own : List (Fin 512)) (n : Nat) : requests own n s = s := by
  induction n with
  | zero => rfl
  | succ n ih => rw [requests, Function.iterate_succ_apply', ← requests, ih, State.request_nil h]

/-- The grant `g` comes with the last of `k` requests: its amount is the price under the plan of the request before, and the account
then reserves it (R82, R95). -/
structure GrantedAfter (s : State) (own : List (Fin 512)) (r : JobRecord) (k : Nat) (price : RatePlan → Nat) (t : State) (g : Grant) :
    Prop where
  state    : t = requests own k s
  amount   : g.amount = price ((requests own (k - 1) s).planOf r)
  reserves : reserveResult ((requests own k s).accountOf r) g.amount = .reserved

/-- Requests made before are counted with those after. -/
theorem GrantedAfter.shift {s : State} {own : List (Fin 512)} {r : JobRecord} {k n : Nat} {price : RatePlan → Nat} {t : State} {g : Grant}
    (h : GrantedAfter (requests own n s) own r k price t g) (hk : k ≠ 0) : GrantedAfter s own r (k + n) price t g := by
  obtain ⟨ht, ha, hr⟩ := h
  have hpred : k - 1 + n = k + n - 1 := by omega
  rw [requests_add] at ht ha hr
  rw [hpred] at ha
  exact ⟨ht, ha, hr⟩

/-! ### An attempt (R50) -/

theorem attempt_state_eq (s : State) (own : List (Fin 512)) (r : JobRecord) (price : RatePlan → Nat) :
    (s.attempt own r price).state = requests own 2 s := rfl

theorem attempt_granted {s : State} {own : List (Fin 512)} {r : JobRecord} {price : RatePlan → Nat}
    (h : (s.attempt own r price).result = .reserved) (v : OptionVector) (m : AnswerMarks) (cap : Option Nat) :
    GrantedAfter s own r 2 price (s.attempt own r price).state ⟨v, m, cap, (s.attempt own r price).amount⟩ :=
  ⟨rfl, rfl, h⟩

/-! ### The cap search (R89) -/

theorem capSearchTo_pos {plan : RatePlan} {v : ChargeValues} {pages : Nat} {limit : Int} {k n : Nat}
    (h : capSearchTo plan v pages limit k = some n) : 1 ≤ n := by
  induction k with
  | zero => cases h
  | succ k ih =>
    rw [capSearchTo] at h
    split at h
    · cases h
      exact Nat.le_add_left 1 k
    · exact ih h

/-! ### What the steps grant (R50 to R52) -/

/-- COLOUR is tried as MONO (R51). -/
def triesMono (u : UserEntry) (v : OptionVector) : Prop := v.charge.colour = .colour ∧ u.mayDowngrade = true

theorem toMono_ne {v : OptionVector} (h : v.charge.colour = .colour) : v.toMono ≠ v := by
  intro e
  have hc : v.toMono.charge.colour = .mono := rfl
  rw [e, h] at hc
  cases hc

/-- The partial step grants a sheet cap, with its three requests (R52). -/
theorem partialStep_ok {w : Attempt} {own : List (Fin 512)} {u : UserEntry} {r : JobRecord} {v : OptionVector} {m : AnswerMarks}
    {t : State} {g : Grant} (h : w.partialStep own u r v m = (t, .ok g)) :
    u.mayPartial = true ∧ ∃ n, 1 ≤ n ∧ n ≤ 65535 ∧ g.vector = v ∧ g.marks = { m with partly := true } ∧ g.cap = some n ∧
      GrantedAfter w.state own r 3 (fun plan => cappedEstimate plan v.charge r.pages n) t g := by
  unfold Attempt.partialStep at h
  split at h
  · cases h
  · rename_i hpart
    dsimp only at h
    split at h
    · cases h
    · rename_i n hn
      split at h
      · rename_i hres
        cases h
        have hpos := capSearchTo_pos hn
        exact ⟨by simpa using hpart, min n 65535, by omega, by omega, rfl, rfl, rfl,
          (attempt_granted (s := requests own 1 w.state) hres v _ _).shift (by decide)⟩
      · cases h

/-- The colour step grants the whole job as MONO with two requests, or what the partial step grants (R51). -/
theorem colourStep_ok {w : Attempt} {own : List (Fin 512)} {u : UserEntry} {r : JobRecord} {v : OptionVector} {m : AnswerMarks}
    {t : State} {g : Grant} (h : w.colourStep own u r v m = (t, .ok g)) :
    (triesMono u v ∧ g.vector = v.toMono ∧ g.marks = { m with colourToMono := true } ∧ g.cap = none ∧
      GrantedAfter w.state own r 2 (fun plan => estimate plan v.toMono.charge r.pages r.copies) t g) ∨
    (triesMono u v ∧ ∃ w' : Attempt, w'.state = requests own 2 w.state ∧
      w'.partialStep own u r v.toMono { m with colourToMono := true } = (t, .ok g)) ∨
    (¬triesMono u v ∧ w.partialStep own u r v m = (t, .ok g)) := by
  unfold Attempt.colourStep at h
  split at h
  · rename_i hmono
    dsimp only at h
    split at h
    · rename_i hres
      cases h
      exact .inl ⟨hmono, rfl, rfl, rfl, attempt_granted hres _ _ _⟩
    · exact .inr (.inl ⟨hmono, _, attempt_state_eq .., h⟩)
    · cases h
  · rename_i hmono
    exact .inr (.inr ⟨hmono, h⟩)

/-- The four ways to a grant: the job as it is, the job as MONO, a cap of the job as it is, and a cap of the job as MONO, with the
requests that each makes (R50 to R52). -/
theorem cascade_ok {s t : State} {own : List (Fin 512)} {u : UserEntry} {r : JobRecord} {v : OptionVector} {m : AnswerMarks} {g : Grant}
    (h : s.cascade own u r v m = (t, .ok g)) :
    (g.vector = v ∧ g.marks = m ∧ g.cap = none ∧
      GrantedAfter s own r 2 (fun plan => estimate plan v.charge r.pages r.copies) t g) ∨
    (triesMono u v ∧ g.vector = v.toMono ∧ g.marks = { m with colourToMono := true } ∧ g.cap = none ∧
      GrantedAfter s own r 4 (fun plan => estimate plan v.toMono.charge r.pages r.copies) t g) ∨
    (u.mayPartial = true ∧ ¬triesMono u v ∧ ∃ n, 1 ≤ n ∧ n ≤ 65535 ∧ g.vector = v ∧ g.marks = { m with partly := true } ∧
      g.cap = some n ∧ GrantedAfter s own r 5 (fun plan => cappedEstimate plan v.charge r.pages n) t g) ∨
    (u.mayPartial = true ∧ triesMono u v ∧ ∃ n, 1 ≤ n ∧ n ≤ 65535 ∧ g.vector = v.toMono ∧
      g.marks = { m with colourToMono := true, partly := true } ∧ g.cap = some n ∧
      GrantedAfter s own r 7 (fun plan => cappedEstimate plan v.toMono.charge r.pages n) t g) := by
  unfold State.cascade at h
  dsimp only at h
  split at h
  · rename_i hres
    cases h
    exact .inl ⟨rfl, rfl, rfl, attempt_granted hres _ _ _⟩
  · rcases colourStep_ok h with ⟨hm, hv, hmarks, hcap, hg⟩ | ⟨hm, w', hw, hp⟩ | ⟨hm, hp⟩
    · rw [attempt_state_eq] at hg
      exact .inr (.inl ⟨hm, hv, hmarks, hcap, hg.shift (by decide)⟩)
    · obtain ⟨hpart, n, h1, hn, hv, hmarks, hcap, hg⟩ := partialStep_ok hp
      rw [hw, attempt_state_eq] at hg
      exact .inr (.inr (.inr ⟨hpart, hm, n, h1, hn, hv, hmarks, hcap, (hg.shift (by decide)).shift (by decide)⟩))
    · obtain ⟨hpart, n, h1, hn, hv, hmarks, hcap, hg⟩ := partialStep_ok hp
      rw [attempt_state_eq] at hg
      exact .inr (.inr (.inl ⟨hpart, hm, n, h1, hn, hv, hmarks, hcap, hg.shift (by decide)⟩))
  · cases h

/-! ### What the steps refuse (R50 to R53) -/

/-- The codes that a cascade refuses with. -/
def IsRefusal (c : Code) : Prop := c = .accountFrozen ∨ c = .noAccount ∨ c = .quota

theorem refusalOf_isRefusal (x : ReserveResult) : IsRefusal (refusalOf x) := by
  cases x <;> simp [refusalOf, IsRefusal]

theorem partialStep_error {w : Attempt} {own : List (Fin 512)} {u : UserEntry} {r : JobRecord} {v : OptionVector} {m : AnswerMarks}
    {t : State} {c : Code} (h : w.partialStep own u r v m = (t, .error c)) : IsRefusal c ∧ ∃ k, t = requests own k w.state := by
  unfold Attempt.partialStep at h
  split at h
  · cases h
    exact ⟨.inr (.inr rfl), 0, rfl⟩
  · dsimp only at h
    split at h
    · cases h
      exact ⟨.inr (.inr rfl), 1, rfl⟩
    · split at h
      · cases h
      · cases h
        exact ⟨refusalOf_isRefusal _, 3, rfl⟩

theorem colourStep_error {w : Attempt} {own : List (Fin 512)} {u : UserEntry} {r : JobRecord} {v : OptionVector} {m : AnswerMarks}
    {t : State} {c : Code} (h : w.colourStep own u r v m = (t, .error c)) : IsRefusal c ∧ ∃ k, t = requests own k w.state := by
  unfold Attempt.colourStep at h
  split at h
  · dsimp only at h
    split at h
    · cases h
    · obtain ⟨hc, k, ht⟩ := partialStep_error h
      rw [attempt_state_eq, requests_add] at ht
      exact ⟨hc, _, ht⟩
    · cases h
      exact ⟨refusalOf_isRefusal _, 2, rfl⟩
  · exact partialStep_error h

/-- A refusal comes after some requests, the first attempt not having reserved its estimate (R50). -/
theorem cascade_error {s t : State} {own : List (Fin 512)} {u : UserEntry} {r : JobRecord} {v : OptionVector} {m : AnswerMarks} {c : Code}
    (h : s.cascade own u r v m = (t, .error c)) :
    IsRefusal c ∧ (∃ k, t = requests own k s) ∧
      (s.attempt own r (fun plan => estimate plan v.charge r.pages r.copies)).result ≠ .reserved := by
  unfold State.cascade at h
  dsimp only at h
  split at h
  · cases h
  · rename_i hres
    obtain ⟨hc, k, ht⟩ := colourStep_error h
    rw [attempt_state_eq, requests_add] at ht
    exact ⟨hc, ⟨_, ht⟩, by simp [hres]⟩
  · rename_i hres _
    cases h
    exact ⟨refusalOf_isRefusal _, ⟨2, rfl⟩, hres⟩

/-! ### The grant (R82, R95) -/

/-- Settles O28: each way to a grant (`cascade_ok`) makes the number of requests that its vector and its cap tell. -/
theorem cascadeGrantsWhatItReserves : Obligations.CascadeGrantsWhatItReserves := by
  intro s t own u r v m
  refine ⟨fun g h => ?_, fun code h => ?_⟩
  · rcases cascade_ok h with ⟨hv, hm, hc, ht, ha, hr⟩ | ⟨hmono, hv, hm, hc, ht, ha, hr⟩ |
      ⟨hpart, hmono, n, h1, hn, hv, hm, hc, ht, ha, hr⟩ | ⟨hpart, hmono, n, h1, hn, hv, hm, hc, ht, ha, hr⟩
    · rw [hv, hm, hc]
      simp only [if_true]
      exact ⟨ht, hr, fun _ => ha, fun n hn => (by cases hn), fun hne => absurd rfl hne, by simp⟩
    · have hne := toMono_ne hmono.1
      rw [hv, hm, hc]
      simp only [if_neg hne, if_true]
      exact ⟨ht, hr, fun _ => ha, fun n hn => (by cases hn), fun _ => ⟨hmono.2, hmono.1, trivial, rfl⟩, by simp [hne]⟩
    · rw [hv, hm, hc]
      simp only [if_true, reduceCtorEq, if_false]
      refine ⟨ht, hr, fun e => (by cases e), fun k hk => ?_, fun hne => absurd rfl hne, by simp⟩
      cases hk
      exact ⟨hpart, hn, h1, ha, fun hcol hdown => absurd ⟨hcol, hdown⟩ hmono⟩
    · have hne := toMono_ne hmono.1
      rw [hv, hm, hc]
      simp only [if_neg hne, reduceCtorEq, if_false]
      refine ⟨ht, hr, fun e => (by cases e), fun k hk => ?_, fun _ => ⟨hmono.2, hmono.1, trivial, rfl⟩, by simp [hne]⟩
      cases hk
      exact ⟨hpart, hn, h1, ha, fun _ _ => trivial⟩
  · obtain ⟨hcode, ⟨k, ht⟩, hres⟩ := cascade_error h
    refine ⟨hcode, fun hb => ?_⟩
    rw [requests_of_between_nil hb] at ht
    refine ⟨ht, fun hr => hres ?_⟩
    simp only [State.attempt, State.request_nil hb]
    exact hr

end Sys2Proof.Machine.Release
end

