-- ==== Sys2Proof/Proofs/Release/Admission.lean ====
section
/-! SUPPORT. Admission to the release queue and the undo of an entry: what each writes (R55, R57). -/

namespace Sys2Proof.Machine.Release

/-! ### The queue -/

/-- Taking the entry of job `n` off a queue that it has just joined gives the queue back. -/
theorem removeEntry_append {q : List QueueEntry} {n : Nat} (h : ∀ e ∈ q, e.job ≠ n) (e : QueueEntry) (he : e.job = n) :
    (q ++ [e]).filter (fun x => x.job != n) = q := by
  rw [List.filter_append, List.filter_eq_self.2 fun x hx => by simpa using h x hx]
  simp [he]

/-! ### Accounts (R95, R98) -/

/-- A return gives back what a reservation took. -/
theorem giveBack_reserve (a : AccountEntry) (x : Nat) : (a.reserve x).giveBack x = a := by
  simp [AccountEntry.reserve, AccountEntry.giveBack]

/-! ### Admission of a HELD candidate (R55) -/

/-- The record of a HELD job after its admission. -/
def admittedHeld (r : JobRecord) (g : Grant) : JobRecord :=
  { r with
    state := .queued, countdown := none, reservation := some g.amount, sheetCap := g.cap, vector := some g.vector,
    releases := min (r.releases + 1) 255 }

/-- The entry of a HELD job. -/
def heldEntry (r : JobRecord) (p : Fin 64) : QueueEntry := ⟨r.number, p, .held, countLeft r.countdown⟩

/-- All an admission of a HELD candidate does: its account, the queue and its record. -/
theorem queueHeld_eq (s : State) (p : Fin 64) (j : Fin 512) (g : Grant) :
    s.queueHeld p j g =
      ((s.setAccount (s.job j).account ((s.account (s.job j).account).reserve g.amount)).pushEntry (heldEntry (s.job j) p)).setJob j
        (admittedHeld (s.job j) g) := rfl

theorem queueHeld_job (s : State) (p : Fin 64) (j : Fin 512) (g : Grant) :
    (s.queueHeld p j g).job j = admittedHeld (s.job j) g := by
  rw [queueHeld_eq, State.setJob_job]

theorem queueHeld_job_other (s : State) (p : Fin 64) {j i : Fin 512} (g : Grant) (h : i ≠ j) :
    (s.queueHeld p j g).job i = s.job i := by
  rw [queueHeld_eq, State.setJob_job_other _ _ _ h]
  rfl

theorem queueHeld_queue (s : State) (p : Fin 64) (j : Fin 512) (g : Grant) :
    (s.queueHeld p j g).ru.queue = s.ru.queue ++ [heldEntry (s.job j) p] := rfl

theorem queueHeld_account (s : State) (p : Fin 64) (j : Fin 512) (g : Grant) :
    (s.queueHeld p j g).account (s.job j).account = (s.account (s.job j).account).reserve g.amount :=
  State.setAccount_account s _ _

/-! ### Admission of a PARKED candidate (R55) -/

/-- The record of a PARKED job after its admission. -/
def admittedParked (r : JobRecord) : JobRecord :=
  { r with state := .queued, countdown := none, parkReason := none, parkedAt := none, releases := min (r.releases + 1) 255 }

/-- The entry of a PARKED job. -/
def parkedEntry (s : State) (r : JobRecord) (p : Fin 64) : QueueEntry :=
  ⟨r.number, p, .parked (r.parkReason.getD .blocked) (r.parkedAt.getD s.mu.clock), countLeft r.countdown⟩

/-- All an admission of a PARKED candidate does: the queue and its record. -/
theorem queueParked_eq (s : State) (p : Fin 64) (j : Fin 512) :
    s.queueParked p j = (s.pushEntry (parkedEntry s (s.job j) p)).setJob j (admittedParked (s.job j)) := rfl

theorem queueParked_job (s : State) (p : Fin 64) (j : Fin 512) : (s.queueParked p j).job j = admittedParked (s.job j) := by
  rw [queueParked_eq, State.setJob_job]

theorem queueParked_job_other (s : State) (p : Fin 64) {j i : Fin 512} (h : i ≠ j) : (s.queueParked p j).job i = s.job i := by
  rw [queueParked_eq, State.setJob_job_other _ _ _ h]
  rfl

/-! ### The undo (R57) -/

/-- The undo of an entry whose job held a reservation and came from HELD: a return, and the record as it was. -/
theorem undo_held {s : State} {e : QueueEntry} {j : Fin 512} {r : JobRecord} {x : Nat} (hf : s.findJob e.job = some (j, r))
    (ho : e.origin = .held) (hx : (s.job j).reservation = some x) :
    s.undo e =
      (((s.removeEntry e.job).setAccount (s.job j).account ((s.account (s.job j).account).giveBack x)).setJob j
        { s.job j with reservation := none }).setJob j (undoneRecord { s.job j with reservation := none } e) := by
  have hret := State.returnJob_some (s := s.removeEntry e.job) (j := j) hx
  simp only [State.undo, hf, ho, if_true, hret, State.setJob_job]
  rfl

/-- The undo of an entry whose job came from PARKED touches no account. -/
theorem undo_parked {s : State} {e : QueueEntry} {j : Fin 512} {r : JobRecord} (hf : s.findJob e.job = some (j, r))
    (ho : e.origin ≠ .held) : s.undo e = (s.removeEntry e.job).setJob j (undoneRecord (s.job j) e) := by
  simp only [State.undo, hf, if_neg ho]
  rfl

/-- The undo of a HELD job's admission gives its record back, but for the count of releases (R28, R57). -/
theorem undoneRecord_admittedHeld {r : JobRecord} {g : Grant} {p : Fin 64} {k : Nat} (hs : r.state = .held)
    (hc : r.countdown = some ⟨k, false⟩) (hr : r.reservation = none) (hv : r.vector = none) (hcap : r.sheetCap = none) :
    undoneRecord { admittedHeld r g with reservation := none } (heldEntry r p) = { r with releases := min (r.releases + 1) 255 } := by
  cases r
  simp_all [undoneRecord, heldEntry, admittedHeld, countLeft, Countdown.load]

/-- The undo of a PARKED job's admission gives its record back, but for the count of releases (R28, R57). -/
theorem undoneRecord_admittedParked {s : State} {r : JobRecord} {p : Fin 64} {k : Nat} {reason : ParkReason} {since : Stamp}
    (hs : r.state = .parked) (hc : r.countdown = some ⟨k, false⟩) (hr : r.parkReason = some reason) (ht : r.parkedAt = some since) :
    undoneRecord (admittedParked r) (parkedEntry s r p) = { r with releases := min (r.releases + 1) 255 } := by
  cases r
  simp_all [undoneRecord, parkedEntry, admittedParked, countLeft, Countdown.load]

/-- The first half of AdmissionIsUndone, with the entry that the admission makes. -/
theorem queueHeld_undo {s : State} {p : Fin 64} {j : Fin 512} {g : Grant} {k : Nat} (hs : (s.job j).state = .held)
    (hc : (s.job j).countdown = some ⟨k, false⟩) (hr : (s.job j).reservation = none) (hv : (s.job j).vector = none)
    (hcap : (s.job j).sheetCap = none) (hq : ∀ e ∈ s.ru.queue, e.job ≠ (s.job j).number)
    (hf : (s.queueHeld p j g).findJob (s.job j).number = some (j, (s.queueHeld p j g).job j)) :
    let u := (s.queueHeld p j g).undo (heldEntry (s.job j) p)
    u.job j = { s.job j with releases := min ((s.job j).releases + 1) 255 } ∧ u.ru.queue = s.ru.queue ∧
      u.account (s.job j).account = s.account (s.job j).account := by
  have hx : ((s.queueHeld p j g).job j).reservation = some g.amount := by rw [queueHeld_job]; rfl
  have hundo := undo_held (e := heldEntry (s.job j) p) hf rfl hx
  dsimp only
  rw [hundo, State.setJob_job, queueHeld_job, undoneRecord_admittedHeld hs hc hr hv hcap]
  refine ⟨rfl, removeEntry_append hq _ rfl, ?_⟩
  calc
    _ = (((s.queueHeld p j g).removeEntry _).setAccount (s.job j).account
          (((s.queueHeld p j g).account (s.job j).account).giveBack g.amount)).account (s.job j).account := rfl
    _ = s.account (s.job j).account := by
      rw [State.setAccount_account, queueHeld_account, giveBack_reserve]

/-- The second half of AdmissionIsUndone, with the entry that the admission makes. -/
theorem queueParked_undo {s : State} {p : Fin 64} {j : Fin 512} {k : Nat} {reason : ParkReason} {since : Stamp}
    (hs : (s.job j).state = .parked) (hc : (s.job j).countdown = some ⟨k, false⟩) (hr : (s.job j).parkReason = some reason)
    (ht : (s.job j).parkedAt = some since) (hq : ∀ e ∈ s.ru.queue, e.job ≠ (s.job j).number)
    (hf : (s.queueParked p j).findJob (s.job j).number = some (j, (s.queueParked p j).job j)) :
    let u := (s.queueParked p j).undo (parkedEntry s (s.job j) p)
    u.job j = { s.job j with releases := min ((s.job j).releases + 1) 255 } ∧ u.ru = s.ru ∧ u.tables = s.tables := by
  have hundo := undo_parked (e := parkedEntry s (s.job j) p) hf (by simp [parkedEntry])
  have hqueue : (s.ru.queue ++ [parkedEntry s (s.job j) p]).filter (fun x => x.job != (s.job j).number) = s.ru.queue :=
    removeEntry_append hq _ rfl
  dsimp only
  rw [hundo, State.setJob_job, queueParked_job, undoneRecord_admittedParked hs hc hr ht]
  refine ⟨rfl, ?_, rfl⟩
  calc
    _ = { s.ru with
          queue := (s.ru.queue ++ [parkedEntry s (s.job j) p]).filter (fun x => x.job != (s.job j).number) } := rfl
    _ = s.ru := by rw [hqueue]

/-- Settles O29, from what an admission and an undo write. -/
theorem admissionIsUndone : Obligations.AdmissionIsUndone := by
  refine ⟨fun s p j g k hs hc hr hv hcap hq hf => ?_, fun s p j k reason since hs hc hr ht hq => ?_⟩
  · have hentry : (⟨(s.job j).number, p, .held, k⟩ : QueueEntry) = heldEntry (s.job j) p := by simp [heldEntry, hc, countLeft]
    rw [hentry, queueHeld_queue, queueHeld_account, queueHeld_job]
    exact ⟨rfl, rfl, rfl, rfl, rfl, queueHeld_undo hs hc hr hv hcap hq hf⟩
  · have hentry : (⟨(s.job j).number, p, .parked reason since, k⟩ : QueueEntry) = parkedEntry s (s.job j) p := by
      simp [parkedEntry, hc, hr, ht, countLeft]
    intro t e hf
    have he : e = parkedEntry s (s.job j) p := hentry
    rw [he]
    exact ⟨rfl, rfl, queueParked_job s p j, queueParked_undo hs hc hr ht hq hf⟩

end Sys2Proof.Machine.Release
end

