-- ==== Sys2Proof/Proofs/Release/Arbiter.lean ====
section
/-! SUPPORT. The context arbiter: which entry and which context it chooses, that a hand-out takes its entry off the queue and touches no
other, and that a run ends where no hand-out is possible (R56, R60). -/

namespace Sys2Proof.Machine.Release

/-! ### What leaves the Release Unit as it was -/

theorem returnJob_ru (s : State) (j : Fin 512) : (s.returnJob j).ru = s.ru := by
  cases h : (s.job j).reservation with
  | none => rw [State.returnJob_none h]
  | some x =>
    rw [State.returnJob_some h]
    rfl

theorem settleJob_ru (s : State) (j : Fin 512) : (s.settleJob j).ru = s.ru := by
  cases h : (s.job j).reservation with
  | none => rw [State.settleJob_none h]
  | some x =>
    rw [State.settleJob_some h]
    rfl

theorem offerAudit_ru (s : State) (a : JobAudit) : (s.offerAudit a).ru = s.ru := by
  rcases s.offerAudit_cases a with ⟨-, h⟩ | ⟨-, h⟩ <;> simp [h]

theorem dropJob_ru (s : State) (j : Fin 512) : (s.dropJob j).ru = s.ru := by
  have hchain : (s.freeChain j).ru = s.ru := by
    rcases s.freeChain_cases j with h | ⟨a, b, -, -, h⟩ <;> rw [h]
    unfold State.appendPool
    cases s.hsc.poolTail <;> rfl
  exact hchain

theorem abort_ru (s : State) (x : Context) (k : AbortKind) : (s.abort x k).ru = s.ru := by
  unfold State.abort
  split <;> rfl

theorem backToHeld_ru (s : State) (j : Fin 512) : (s.backToHeld j).ru = s.ru := returnJob_ru s j

/-! ### What leaves the release queue as it was -/

/-- The release queue, and whether the arbiter waits, are as they were. -/
def KeepsQueue (s t : State) : Prop := t.ru.queue = s.ru.queue ∧ t.ru.hold = s.ru.hold

theorem KeepsQueue.refl (s : State) : KeepsQueue s s := ⟨rfl, rfl⟩

theorem KeepsQueue.of_ru {s t : State} (h : t.ru = s.ru) : KeepsQueue s t := by
  unfold KeepsQueue
  rw [h]
  exact ⟨rfl, rfl⟩

theorem KeepsQueue.trans {s t u : State} (h : KeepsQueue s t) (k : KeepsQueue t u) : KeepsQueue s u :=
  ⟨k.1.trans h.1, k.2.trans h.2⟩

theorem freeContext_keepsQueue (s : State) (c : Fin 8) : KeepsQueue s (s.freeContext c) := ⟨rfl, rfl⟩

theorem endOpen_keepsQueue (s : State) (c : Fin 8) (reason : ParkReason) (kept : Bool) : KeepsQueue s (s.endOpen c reason kept) := by
  unfold State.endOpen
  dsimp only
  split
  · exact .refl s
  · split
    · exact .refl s
    · split
      · exact (KeepsQueue.of_ru (backToHeld_ru s _)).trans (freeContext_keepsQueue _ c)
      · exact ⟨rfl, rfl⟩

theorem withdraw_keepsQueue (s : State) (c : Fin 8) : KeepsQueue s (s.withdraw c) := by
  unfold State.withdraw
  dsimp only
  split
  · exact (KeepsQueue.of_ru (abort_ru s _ _)).trans (endOpen_keepsQueue _ c _ _)
  · exact endOpen_keepsQueue s c _ _

theorem sendOpen_keepsQueue (s : State) (c : Fin 8) : KeepsQueue s (s.sendOpen c) := by
  unfold State.sendOpen
  dsimp only
  split
  · split
    · exact .refl s
    · exact ⟨rfl, rfl⟩
  · exact .refl s

theorem waitTest_keepsQueue (s : State) (c : Fin 8) : KeepsQueue s (s.waitTest c) := by
  unfold State.waitTest
  dsimp only
  split
  · split
    · split
      · exact .refl s
      · split
        · exact sendOpen_keepsQueue s c
        · split
          · exact withdraw_keepsQueue s c
          · exact sendOpen_keepsQueue s c
        · exact .refl s
    · exact .refl s
  · exact .refl s

theorem seekNotFound_keepsQueue (s : State) (c : Fin 8) (j : Fin 512) : KeepsQueue s (s.seekNotFound c j) := by
  have hsettle : (s.settleWithAudit j .completeBySeek).ru = s.ru := (offerAudit_ru _ _).trans (settleJob_ru s j)
  exact (KeepsQueue.of_ru ((dropJob_ru _ j).trans hsettle)).trans (freeContext_keepsQueue _ c)

theorem beginSeek_keepsQueue (s : State) (c : Fin 8) (j : Fin 512) : KeepsQueue s (s.beginSeek c j) := by
  unfold State.beginSeek
  split
  · exact seekNotFound_keepsQueue s c j
  · unfold State.firstHeader
    split
    · exact ⟨rfl, rfl⟩
    · exact .refl s

/-- A hand-out takes the entries of its job off the queue, and no other (R60). -/
theorem handOut_keepsQueue (s : State) (e : QueueEntry) (c : Fin 8) : KeepsQueue (s.removeEntry e.job) (s.handOut e c) := by
  unfold State.handOut
  split
  · exact .refl _
  · dsimp only
    split
    · refine KeepsQueue.trans ?_ (waitTest_keepsQueue _ c)
      simp [KeepsQueue]
    · split
      · refine KeepsQueue.trans ?_ (waitTest_keepsQueue _ c)
        simp [KeepsQueue]
      · refine KeepsQueue.trans ?_ (beginSeek_keepsQueue _ c _)
        simp [KeepsQueue]

theorem handOut_hold (s : State) (e : QueueEntry) (c : Fin 8) : (s.handOut e c).ru.hold = s.ru.hold := (handOut_keepsQueue s e c).2

theorem handOut_length_lt {s : State} {e : QueueEntry} (h : e ∈ s.ru.queue) (c : Fin 8) :
    (s.handOut e c).ru.queue.length < s.ru.queue.length := by
  rw [(handOut_keepsQueue s e c).1]
  exact List.length_filter_lt_length_iff_exists.2 ⟨e, h, by simp⟩

/-! ### Eligible entries (R56) -/

/-- The printer has no bound context, and an entry of the queue names it: its oldest entry is eligible (R56). -/
def Asks (s : State) (q : Fin 64) : Prop := s.boundAt q = none ∧ ∃ x ∈ s.ru.queue, x.printer = q

theorem any_eligibleAfter (s : State) (q : Fin 64) (l : List QueueEntry) (seen : List (Fin 64)) :
    (s.eligibleAfter seen l).any (fun e => decide (e.printer = q)) = true ↔
      s.boundAt q = none ∧ q ∉ seen ∧ ∃ x ∈ l, x.printer = q := by
  induction l generalizing seen with
  | nil => simp [State.eligibleAfter]
  | cons y rest ih =>
    rw [State.eligibleAfter]
    by_cases hq : y.printer = q
    · subst hq
      split
      · rename_i h
        rw [ih]
        refine ⟨fun ⟨_, hs, _⟩ => absurd List.mem_cons_self hs, fun ⟨hb, hs, _⟩ => ?_⟩
        simp [hb, hs] at h
      · rename_i h
        rw [not_or] at h
        simp [h.2, Option.not_isSome_iff_eq_none.1 h.1]
    · have hne : q ≠ y.printer := fun h => hq h.symm
      split
      · rw [ih]
        simp [hq, hne]
      · rw [List.any_cons, decide_eq_false hq, Bool.false_or, ih]
        simp [hq, hne]

theorem any_eligible (s : State) (q : Fin 64) : s.eligible.any (fun e => decide (e.printer = q)) = true ↔ Asks s q := by
  rw [State.eligible, any_eligibleAfter]
  simp [Asks]

/-! ### Obtainable contexts (R60) -/

/-- Context `c` is SAVED and printer `q` owns it. -/
def SavedFor (s : State) (q : Fin 64) (c : Fin 8) : Prop := (s.context c).owner = some q ∧ (s.context c).state = .saved

/-- No owner of context `c` has an eligible entry. -/
def Spare (s : State) (c : Fin 8) : Prop := ∀ q, (s.context c).owner = some q → ¬Asks s q

/-- Context `c` is the one that the rules of R60 give to printer `q`. -/
def Obtains (s : State) (q : Fin 64) (c : Fin 8) : Prop :=
  SavedFor s q c ∨
  ((∀ d, ¬SavedFor s q d) ∧ (s.context c).state = .free ∧ ∀ d, d < c → (s.context d).state ≠ .free) ∨
  ((∀ d, ¬SavedFor s q d) ∧ (∀ d, (s.context d).state ≠ .free) ∧
    ∃ near far, s.ru.saved = near ++ c :: far ∧ Spare s c ∧ ∀ d ∈ near, ¬Spare s d)

/-- The rules of R60 give printer `q` no context. -/
def ObtainsNone (s : State) (q : Fin 64) : Prop :=
  (∀ d, ¬SavedFor s q d) ∧ (∀ d, (s.context d).state ≠ .free) ∧ ∀ d ∈ s.ru.saved, ¬Spare s d

theorem savedAt_some {s : State} {q : Fin 64} {c : Fin 8} (h : s.savedAt q = some c) : SavedFor s q c := by
  simpa [SavedFor] using (firstIndex_some h).1

theorem savedAt_none {s : State} {q : Fin 64} (h : s.savedAt q = none) (d : Fin 8) : ¬SavedFor s q d := by
  simpa [SavedFor] using firstIndex_none h d

theorem lowestFreeContext_some {s : State} {c : Fin 8} (h : s.lowestFreeContext = some c) :
    (s.context c).state = .free ∧ ∀ d, d < c → (s.context d).state ≠ .free := by
  simpa using firstIndex_some h

theorem lowestFreeContext_none {s : State} (h : s.lowestFreeContext = none) (d : Fin 8) : (s.context d).state ≠ .free := by
  simpa using firstIndex_none h d

/-- The test that `State.spareSaved` makes of a context. -/
def isSpare (s : State) (c : Fin 8) : Bool := (s.context c).owner.all (fun q => !s.eligible.any (fun e => decide (e.printer = q)))

theorem spareSaved_eq (s : State) : s.spareSaved = s.ru.saved.find? (isSpare s) := by
  unfold State.spareSaved isSpare
  congr 1
  funext c
  cases (s.context c).owner <;> rfl

theorem isSpare_iff (s : State) (c : Fin 8) : isSpare s c = true ↔ Spare s c := by
  simp only [isSpare, Option.all_eq_true, Bool.not_eq_true', ← Bool.not_eq_true, any_eligible, Spare]

theorem spareSaved_some {s : State} {c : Fin 8} (h : s.spareSaved = some c) :
    ∃ near far, s.ru.saved = near ++ c :: far ∧ Spare s c ∧ ∀ d ∈ near, ¬Spare s d := by
  rw [spareSaved_eq] at h
  obtain ⟨hc, near, far, hs, hnear⟩ := List.find?_eq_some_iff_append.1 h
  refine ⟨near, far, hs, (isSpare_iff s c).1 hc, fun d hd hspare => ?_⟩
  simpa [(isSpare_iff s d).2 hspare] using hnear d hd

theorem spareSaved_none {s : State} (h : s.spareSaved = none) (d : Fin 8) (hd : d ∈ s.ru.saved) : ¬Spare s d := by
  rw [spareSaved_eq] at h
  exact fun hspare => List.find?_eq_none.1 h d hd ((isSpare_iff s d).2 hspare)

theorem obtainable_some {s : State} {q : Fin 64} {c : Fin 8} (h : s.obtainable q = some c) : Obtains s q c := by
  unfold State.obtainable at h
  split at h
  · rename_i hsaved
    cases h
    exact .inl (savedAt_some hsaved)
  · rename_i hsaved
    split at h
    · rename_i hfree
      cases h
      exact .inr (.inl ⟨savedAt_none hsaved, lowestFreeContext_some hfree⟩)
    · rename_i hfree
      exact .inr (.inr ⟨savedAt_none hsaved, lowestFreeContext_none hfree, spareSaved_some h⟩)

theorem obtainable_none {s : State} {q : Fin 64} (h : s.obtainable q = none) : ObtainsNone s q := by
  unfold State.obtainable at h
  split at h
  · cases h
  · rename_i hsaved
    split at h
    · cases h
    · rename_i hfree
      exact ⟨savedAt_none hsaved, lowestFreeContext_none hfree, spareSaved_none h⟩

/-! ### The choice (R60) -/

/-- The choice among the eligible entries of a queue: the chosen entry is the first of its printer, its printer has no bound context, and
no entry before it could have been chosen. -/
theorem choice_some {s : State} {l : List QueueEntry} {seen : List (Fin 64)} {e : QueueEntry} {c : Fin 8}
    (h : (s.eligibleAfter seen l).findSome? (fun e => (s.obtainable e.printer).map (fun c => (e, c))) = some (e, c)) :
    s.boundAt e.printer = none ∧ s.obtainable e.printer = some c ∧ e.printer ∉ seen ∧
      ∃ older newer, l = older ++ e :: newer ∧ (∀ x ∈ older, x.printer ≠ e.printer) ∧
        ∀ x ∈ older, x.printer ∉ seen → s.boundAt x.printer = none → s.obtainable x.printer = none := by
  induction l generalizing seen with
  | nil => cases h
  | cons y rest ih =>
    rw [State.eligibleAfter] at h
    have later (hskip : y.printer ∉ seen → s.boundAt y.printer = none → s.obtainable y.printer = none)
        (h' : (s.eligibleAfter (y.printer :: seen) rest).findSome?
          (fun e => (s.obtainable e.printer).map (fun c => (e, c))) = some (e, c)) :
        s.boundAt e.printer = none ∧ s.obtainable e.printer = some c ∧ e.printer ∉ seen ∧
          ∃ older newer, y :: rest = older ++ e :: newer ∧ (∀ x ∈ older, x.printer ≠ e.printer) ∧
            ∀ x ∈ older, x.printer ∉ seen → s.boundAt x.printer = none → s.obtainable x.printer = none := by
      obtain ⟨hb, ho, hseen, older, newer, rfl, hne, hnone⟩ := ih h'
      rw [List.mem_cons, not_or] at hseen
      refine ⟨hb, ho, hseen.2, y :: older, newer, rfl, ?_, ?_⟩
      · rw [List.forall_mem_cons]
        exact ⟨fun he => hseen.1 he.symm, hne⟩
      · rw [List.forall_mem_cons]
        refine ⟨hskip, fun x hx hxs hxb => ?_⟩
        by_cases hxy : x.printer = y.printer
        · rw [hxy] at hxs hxb ⊢
          exact hskip hxs hxb
        · exact hnone x hx (by simp [hxy, hxs]) hxb
    split at h
    · rename_i hout
      refine later (fun hs hb => ?_) h
      simp [hs, hb] at hout
    · rename_i hin
      rw [not_or] at hin
      rw [List.findSome?_cons] at h
      cases ho : s.obtainable y.printer with
      | none =>
        rw [ho] at h
        exact later (fun _ _ => ho) h
      | some c' =>
        rw [ho] at h
        cases h
        exact ⟨Option.not_isSome_iff_eq_none.1 hin.1, ho, hin.2, [], rest, rfl, by simp, by simp⟩

theorem choice_none {s : State} {l : List QueueEntry} {seen : List (Fin 64)}
    (h : (s.eligibleAfter seen l).findSome? (fun e => (s.obtainable e.printer).map (fun c => (e, c))) = none) :
    ∀ x ∈ l, x.printer ∉ seen → s.boundAt x.printer = none → s.obtainable x.printer = none := by
  induction l generalizing seen with
  | nil => simp
  | cons y rest ih =>
    rw [State.eligibleAfter] at h
    have later (hskip : y.printer ∉ seen → s.boundAt y.printer = none → s.obtainable y.printer = none)
        (h' : (s.eligibleAfter (y.printer :: seen) rest).findSome?
          (fun e => (s.obtainable e.printer).map (fun c => (e, c))) = none) :
        ∀ x ∈ y :: rest, x.printer ∉ seen → s.boundAt x.printer = none → s.obtainable x.printer = none := by
      rw [List.forall_mem_cons]
      refine ⟨hskip, fun x hx hxs hxb => ?_⟩
      by_cases hxy : x.printer = y.printer
      · rw [hxy] at hxs hxb ⊢
        exact hskip hxs hxb
      · exact ih h' x hx (by simp [hxy, hxs]) hxb
    split at h
    · rename_i hout
      refine later (fun hs hb => ?_) h
      simp [hs, hb] at hout
    · rw [List.findSome?_cons] at h
      cases ho : s.obtainable y.printer with
      | none =>
        rw [ho] at h
        exact later (fun _ _ => ho) h
      | some c' =>
        rw [ho] at h
        cases h

theorem handOutChoice_some {s : State} {e : QueueEntry} {c : Fin 8} (h : s.handOutChoice = some (e, c)) :
    s.boundAt e.printer = none ∧ s.obtainable e.printer = some c ∧
      ∃ older newer, s.ru.queue = older ++ e :: newer ∧ (∀ x ∈ older, x.printer ≠ e.printer) ∧
        ∀ x ∈ older, s.boundAt x.printer = none → s.obtainable x.printer = none := by
  obtain ⟨hb, ho, -, older, newer, hq, hne, hnone⟩ := choice_some (l := s.ru.queue) h
  exact ⟨hb, ho, older, newer, hq, hne, fun x hx => hnone x hx (by simp)⟩

theorem handOutChoice_mem {s : State} {e : QueueEntry} {c : Fin 8} (h : s.handOutChoice = some (e, c)) : e ∈ s.ru.queue := by
  obtain ⟨-, -, older, newer, hq, -⟩ := handOutChoice_some h
  rw [hq]
  simp

theorem handOutChoice_none {s : State} (h : s.handOutChoice = none) {x : QueueEntry} (hx : x ∈ s.ru.queue)
    (hb : s.boundAt x.printer = none) : s.obtainable x.printer = none := choice_none (l := s.ru.queue) h x hx (by simp) hb

theorem handOutChoice_empty {s : State} (h : s.ru.queue = []) : s.handOutChoice = none := by
  simp [State.handOutChoice, State.eligible, h, State.eligibleAfter]

/-! ### Runs (R60) -/

theorem arbiterFor_none {s : State} (h : s.handOutChoice = none) (n : Nat) : State.arbiterFor n s = s := by
  cases n with
  | zero => rfl
  | succ n => simp only [State.arbiterFor, h]

theorem arbiterFor_some {s : State} {e : QueueEntry} {c : Fin 8} (h : s.handOutChoice = some (e, c)) (n : Nat) :
    State.arbiterFor (n + 1) s = State.arbiterFor n (s.handOut e c) := by
  simp only [State.arbiterFor, h]

theorem arbiterFor_hold (n : Nat) (s : State) : (State.arbiterFor n s).ru.hold = s.ru.hold := by
  induction n generalizing s with
  | zero => rfl
  | succ n ih =>
    cases h : s.handOutChoice with
    | none => rw [arbiterFor_none h]
    | some ec => rw [arbiterFor_some h, ih, handOut_hold]

/-- With as many rounds as the queue has entries, no hand-out is left at the end. -/
theorem arbiterFor_done (n : Nat) (s : State) (hn : s.ru.queue.length ≤ n) : (State.arbiterFor n s).handOutChoice = none := by
  induction n generalizing s with
  | zero => exact handOutChoice_empty (s := s) (List.length_eq_zero_iff.1 (by omega))
  | succ n ih =>
    cases h : s.handOutChoice with
    | none => rw [arbiterFor_none h, h]
    | some ec =>
      have := handOut_length_lt (handOutChoice_mem h) ec.2
      rw [arbiterFor_some h]
      exact ih _ (by omega)

/-- Rounds past the number of entries do nothing. -/
theorem arbiterFor_fuel (n m : Nat) (s : State) (hn : s.ru.queue.length ≤ n) (hm : s.ru.queue.length ≤ m) :
    State.arbiterFor n s = State.arbiterFor m s := by
  induction n generalizing s m with
  | zero =>
    have hnone := handOutChoice_empty (s := s) (List.length_eq_zero_iff.1 (by omega))
    rw [arbiterFor_none hnone, arbiterFor_none hnone]
  | succ n ih =>
    cases h : s.handOutChoice with
    | none => rw [arbiterFor_none h, arbiterFor_none h]
    | some ec =>
      have hlt := handOut_length_lt (handOutChoice_mem h) ec.2
      obtain ⟨k, rfl⟩ : ∃ k, m = k + 1 := ⟨m - 1, by omega⟩
      rw [arbiterFor_some h, arbiterFor_some h]
      exact ih k _ (by omega) (by omega)

theorem runArbiter_off {s : State} (h : s.ru.hold = .off) : s.runArbiter = State.arbiterFor s.ru.queue.length s := by
  simp only [State.runArbiter, h]

/-- A run is a hand-out to the choice, and then a run (R60). -/
theorem runArbiter_some {s : State} {e : QueueEntry} {c : Fin 8} (hoff : s.ru.hold = .off) (h : s.handOutChoice = some (e, c)) :
    s.runArbiter = (s.handOut e c).runArbiter := by
  have hlt := handOut_length_lt (handOutChoice_mem h) c
  obtain ⟨n, hn⟩ : ∃ n, s.ru.queue.length = n + 1 := ⟨s.ru.queue.length - 1, by omega⟩
  rw [runArbiter_off hoff, runArbiter_off ((handOut_hold s e c).trans hoff), hn, arbiterFor_some h]
  exact arbiterFor_fuel _ _ _ (by omega) (Nat.le_refl _)

theorem runArbiter_none {s : State} (hoff : s.ru.hold = .off) (h : s.handOutChoice = none) : s.runArbiter = s := by
  rw [runArbiter_off hoff, arbiterFor_none h]

theorem runArbiter_done {s : State} (hoff : s.ru.hold = .off) : s.runArbiter.handOutChoice = none := by
  rw [runArbiter_off hoff]
  exact arbiterFor_done _ s (Nat.le_refl _)

theorem endHold_hold (s : State) : s.endHold.ru.hold = .off := by
  rcases s.endHold_cases with h | h <;> rw [h]
  · rfl
  · rw [runArbiter_off rfl, arbiterFor_hold]
    rfl

theorem endHold_called {s : State} (h : s.ru.hold = .called) : s.endHold = (s.setHold .off).runArbiter := by
  rw [State.endHold, if_pos h]

end Sys2Proof.Machine.Release
end

