-- ==== Sys2Proof/Proofs/Release/Candidates.lean ====
section
/-! SUPPORT. Taking candidates: which of them join the release queue, and that nothing else of it changes (R44). -/

namespace Sys2Proof.Machine.Release

/-! ### What requests and refusals leave as they were -/

theorem requests_queue (own : List (Fin 512)) (n : Nat) (s : State) : (requests own n s).ru.queue = s.ru.queue := by
  induction n with
  | zero => rfl
  | succ n ih => rw [requests, Function.iterate_succ_apply', State.request_queue, ← requests, ih]

theorem requests_job {own : List (Fin 512)} {j : Fin 512} (h : j ∈ own) (n : Nat) (s : State) : (requests own n s).job j = s.job j := by
  induction n with
  | zero => rfl
  | succ n ih => rw [requests, Function.iterate_succ_apply', State.request_job _ h, ← requests, ih]

/-- All a cascade does to the state is to make requests (R104). -/
theorem cascade_state {s t : State} {own : List (Fin 512)} {u : UserEntry} {r : JobRecord} {v : OptionVector} {m : AnswerMarks}
    {x : Except Code Grant} (h : s.cascade own u r v m = (t, x)) : ∃ k, t = requests own k s := by
  cases x with
  | error c => exact (cascade_error h).2.1
  | ok g =>
    rcases cascade_ok h with ⟨-, -, -, hg⟩ | ⟨-, -, -, -, hg⟩ | ⟨-, -, n, -, -, -, -, -, hg⟩ |
      ⟨-, -, n, -, -, -, -, -, hg⟩ <;> exact ⟨_, hg.state⟩

/-- A code that refuses a candidate: neither QUEUED nor RESUMING. -/
def Refuses (c : Code) : Prop := c ≠ .queued ∧ c ≠ .resuming

theorem IsRefusal.refuses {c : Code} (h : IsRefusal c) : Refuses c := by
  rcases h with rfl | rfl | rfl <;> simp [Refuses]

/-- Losses refuse with COLOUR_UNAVAILABLE or SIZE_UNAVAILABLE (R48). -/
theorem applyLosses_refuses {l : LossSet} {b : Bool} {vs : List PrinterValue} {c : Code} (h : applyLosses l b vs = .error c) :
    Refuses c := by
  unfold applyLosses at h
  extract_lets colourLost at h
  split at h
  · cases h
    simp [Refuses]
  · split at h
    · cases h
      simp [Refuses]
    · cases h

theorem resolve_refuses {s : State} {p : Fin 64} {r : JobRecord} {c : Code} (h : s.resolve p r = .error c) : Refuses c := by
  unfold State.resolve at h
  split at h
  · cases h
  · rename_i hloss
    cases h
    exact applyLosses_refuses hloss

theorem queuedNow_refusedEntry {c : Code} (h : Refuses c) (r : JobRecord) : (refusedEntry r c).queuedNow = false := by
  simp [AnswerEntry.queuedNow, refusedEntry, h.1, h.2]

/-! ### One candidate (R44) -/

/-- A candidate that finds 16 entries is answered QUEUE_FULL, and changes nothing. -/
theorem takeCandidate_full {s : State} (h : 16 ≤ s.ru.queue.length) (own : List (Fin 512)) (p : Fin 64) (j : Fin 512) :
    s.takeCandidate own p j = (s, refusedEntry (s.job j) .queueFull) := if_pos h

/-- One that finds fewer is refused, the queue kept, or its entry joins the tail of the queue. -/
theorem takeCandidate_cases {s : State} (h : s.ru.queue.length < 16) {own : List (Fin 512)} {j : Fin 512} (hj : j ∈ own) (p : Fin 64) :
    ((s.takeCandidate own p j).2.queuedNow = false ∧ (s.takeCandidate own p j).1.ru.queue = s.ru.queue) ∨
    ((s.takeCandidate own p j).2.queuedNow = true ∧ ∃ e : QueueEntry, e.printer = p ∧ e.job = (s.takeCandidate own p j).2.job ∧
      (s.takeCandidate own p j).1.ru.queue = s.ru.queue ++ [e]) := by
  have hnot : ¬16 ≤ s.ru.queue.length := by omega
  unfold State.takeCandidate
  dsimp only
  rw [if_neg hnot]
  split
  · split
    · exact .inl ⟨queuedNow_refusedEntry (by simp [Refuses]) _, rfl⟩
    · exact .inr ⟨rfl, parkedEntry s (s.job j) p, rfl, rfl, rfl⟩
  · split
    · rename_i hres
      exact .inl ⟨queuedNow_refusedEntry (resolve_refuses hres) _, rfl⟩
    · split
      · rename_i hcas
        obtain ⟨k, rfl⟩ := cascade_state hcas
        exact .inl ⟨queuedNow_refusedEntry (cascade_error hcas).1.refuses _, requests_queue own k s⟩
      · rename_i hcas
        obtain ⟨k, rfl⟩ := cascade_state hcas
        refine .inr ⟨rfl, heldEntry (s.job j) p, rfl, rfl, ?_⟩
        rw [queueHeld_queue, requests_queue, requests_job hj]

/-! ### All candidates (R44) -/

theorem takeCandidates_cons (s : State) (own : List (Fin 512)) (p : Fin 64) (j : Fin 512) (rest : List (Fin 512)) :
    s.takeCandidates own p (j :: rest) =
      (((s.takeCandidate own p j).1.takeCandidates own p rest).1,
        (s.takeCandidate own p j).2 :: ((s.takeCandidate own p j).1.takeCandidates own p rest).2) := rfl

/-- From a candidate that finds 16 entries on, every one is answered QUEUE_FULL. -/
theorem takeCandidates_full {s : State} (h : 16 ≤ s.ru.queue.length) (own : List (Fin 512)) (p : Fin 64) (l : List (Fin 512)) :
    s.takeCandidates own p l = (s, l.map (fun j => refusedEntry (s.job j) .queueFull)) := by
  induction l with
  | nil => rfl
  | cons j rest ih => rw [takeCandidates_cons, takeCandidate_full h, ih, List.map_cons]

/-- The entries that join the tail of the queue are those of the jobs answered as queued, in the order of the answer. -/
theorem takeCandidates_joins {own l : List (Fin 512)} (hl : ∀ j ∈ l, j ∈ own) (s : State) (p : Fin 64) :
    ∃ more, (s.takeCandidates own p l).1.ru.queue = s.ru.queue ++ more ∧ (∀ e ∈ more, e.printer = p) ∧
      more.map (fun e => e.job) = ((s.takeCandidates own p l).2.filter AnswerEntry.queuedNow).map (fun a => a.job) := by
  induction l generalizing s with
  | nil => exact ⟨[], by simp [State.takeCandidates]⟩
  | cons j rest ih =>
    rw [List.forall_mem_cons] at hl
    by_cases hfull : 16 ≤ s.ru.queue.length
    · rw [takeCandidates_full hfull]
      refine ⟨[], by simp, by simp, ?_⟩
      rw [List.filter_eq_nil_iff.2]
      · rfl
      · intro a ha
        obtain ⟨i, -, rfl⟩ := List.mem_map.1 ha
        rw [queuedNow_refusedEntry (by simp [Refuses])]
        simp
    · have hroom : s.ru.queue.length < 16 := by omega
      rw [takeCandidates_cons]
      obtain ⟨more, hq, hp, hjobs⟩ := ih hl.2 (s.takeCandidate own p j).1
      rcases takeCandidate_cases hroom hl.1 p with ⟨ha, hkeep⟩ | ⟨ha, e, hep, hej, hjoin⟩
      · exact ⟨more, by rw [hq, hkeep], hp, by rw [hjobs, List.filter_cons_of_neg (by simp [ha])]⟩
      · refine ⟨e :: more, by rw [hq, hjoin, List.append_assoc, List.singleton_append], ?_, ?_⟩
        · rw [List.forall_mem_cons]
          exact ⟨hep, hp⟩
        · rw [List.filter_cons_of_pos ha, List.map_cons, List.map_cons, hjobs, hej]

/-- The queue does not grow past 16 (R55). -/
theorem takeCandidates_room {own l : List (Fin 512)} (hl : ∀ j ∈ l, j ∈ own) {s : State} (h : s.ru.queue.length ≤ 16) (p : Fin 64) :
    (s.takeCandidates own p l).1.ru.queue.length ≤ 16 := by
  induction l generalizing s with
  | nil => exact h
  | cons j rest ih =>
    rw [List.forall_mem_cons] at hl
    rw [takeCandidates_cons]
    refine ih hl.2 ?_
    by_cases hfull : 16 ≤ s.ru.queue.length
    · rw [takeCandidate_full hfull]
      exact h
    · have hroom : s.ru.queue.length < 16 := by omega
      rcases takeCandidate_cases hroom hl.1 p with ⟨-, hkeep⟩ | ⟨-, e, -, -, hjoin⟩
      · rw [hkeep]
        exact h
      · rw [hjoin, List.length_append, List.length_singleton]
        omega

end Sys2Proof.Machine.Release
end

