-- ==== Sys2Proof/Proofs/Release/HandOuts.lean ====
section
/-! SUPPORT. What a hand-out writes: the open of a READY printer, in mode START and in place, and the start of a resume seek (R61, R65,
R66, R110, R111). -/

namespace Sys2Proof.Machine.Release

/-! ### Finding a record that has been written -/

/-- A write at a listed index replaces its cell in place. -/
theorem insertCell_replaces {n : Nat} {α : Type} {i : Fin n} {x v : α} {near far : List (Fin n × α)} (h : ∀ a ∈ near, a.1 < i) :
    insertCell i v (near ++ (i, x) :: far) = near ++ (i, v) :: far := by
  induction near with
  | nil => simp [insertCell]
  | cons a near ih =>
    rw [List.forall_mem_cons] at h
    rw [List.cons_append, insertCell, if_neg (not_lt.2 (le_of_lt h.1)), if_neg (ne_of_gt h.1), ih h.2, List.cons_append]

/-- In a canonical table a search finds the entry that it found before, with what has been written to it. -/
theorem findListed_set {n : Nat} {α : Type} [DecidableEq α] {d : Fin n → α} {t : Table n α} {q : α → Bool} {i : Fin n} {x v : α}
    (hw : t.wf d = true) (h : t.findListed q = some (i, x)) (hq : q v = true) (hd : v ≠ d i) :
    (t.set d i v).findListed q = some (i, v) := by
  obtain ⟨-, near, far, hcells, hnear⟩ := List.find?_eq_some_iff_append.1 h
  have hlt : ∀ a ∈ near, a.1 < i := by
    have hsorted := ((Table.wf_iff d t).1 hw).1
    rw [hcells, List.pairwise_append] at hsorted
    exact fun a ha => hsorted.2.2 a ha (i, x) List.mem_cons_self
  have hset : (t.set d i v).cells = near ++ (i, v) :: far := by
    simp only [Table.set, if_neg hd, hcells, insertCell_replaces hlt]
  rw [Table.findListed, List.find?_eq_some_iff_append]
  exact ⟨hq, near, far, hset, hnear⟩

/-- The live record of a number stays the one found when it is written and stays live (R28). -/
theorem findJob_setJob {s : State} {n : Nat} {j : Fin 512} {r v : JobRecord} (hw : s.jobs.wf (fun _ => JobRecord.powerOn) = true)
    (h : s.findJob n = some (j, r)) (hlive : v.state ≠ .free) (hn : v.number = n) : (s.setJob j v).findJob n = some (j, v) := by
  refine findListed_set hw h (by simp [hlive, hn]) (fun e => hlive ?_)
  rw [e]
  rfl

theorem findJob_congr {s t : State} (h : t.jobs = s.jobs) (n : Nat) : t.findJob n = s.findJob n := by
  simp only [State.findJob, h]

theorem findJob_number {s : State} {n : Nat} {j : Fin 512} {r : JobRecord} (h : s.findJob n = some (j, r)) : r.number = n := by
  have := List.find?_some h
  simp only [Bool.and_eq_true, decide_eq_true_eq] at this
  exact this.2

/-! ### Contexts that stop naming a job (R110) -/

theorem unnameJob_context {s : State} (h : s.se.contexts.wf (fun _ => Context.free) = true) (n : Nat) (c : Fin 8) :
    (s.unnameJob n).context c = (s.context c).unname n :=
  Table.get_mapListed _ _ _ h c rfl

theorem unname_of_ne {x : Context} (h : x.state ≠ .saved) (n : Nat) : x.unname n = x := if_neg fun e => h e.1

/-! ### The open of a READY printer (R66) -/

/-- The options of a STREAM-OPEN come from the loaded tables, the printer's conditions and its slots (R47, R49). -/
theorem fillOptions_congr {s t : State} (htables : t.tables = s.tables) (hcm : t.cm = s.cm) (hslots : t.slotRecords = s.slotRecords)
    (p : Fin 64) (u : Fin 8192) (v : OptionVector) : t.fillOptions p u v = s.fillOptions p u v := by
  obtain ⟨⟩ := s
  obtain ⟨⟩ := t
  dsimp only at htables hcm hslots
  subst htables hcm hslots
  rfl

/-- The STREAM-OPEN of job `r` in mode `m` from context `x`, with options `o` (R66). -/
def streamOpenOf (x : Context) (m : Mode) (r : JobRecord) (o : List OptionEntry) : OutFrame :=
  .streamOpen r.number m (if m = .continued then x.sent else 0) (if m = .continued then x.lastSheet else 0) x.sheetCap r.pages r.copies o

/-- An open that waits for a READY printer goes out at once (R66). -/
theorem waitTest_ready {s : State} {c : Fin 8} {p : Fin 64} {m : Mode} {j : Fin 512} {r : JobRecord} {v : OptionVector}
    (hstate : (s.context c).state = .opening) (hstep : (s.context c).step = some .wait) (howner : (s.context c).owner = some p)
    (hjob : (s.context c).job = some r.number) (hmode : (s.context c).mode = some m) (hf : s.findJob r.number = some (j, r))
    (hready : (s.cond p).state = some .ready) (hv : r.vector = some v) :
    s.waitTest c =
      ((s.sentTo p (streamOpenOf (s.context c) m r (s.fillOptions p r.user v))).setContext c
        { s.context c with step := some .sent }).setJob j { r with state := .opening } := by
  simp only [State.waitTest, hstate, hstep, howner, hjob, hf, hready, and_self, if_true, State.sendOpen, hmode, hv,
    State.sendPrinter_eq, decide_eq_true_eq, streamOpenOf]

/-- The record of a job to which context `c` is handed, for printer `p` (R65). -/
def boundRecord (r : JobRecord) (p : Fin 64) (c : Fin 8) (st : JobState) : JobRecord :=
  { r with state := st, boundPrinter := some p, boundContext := some c }

/-- The state when the STREAM-OPEN `f` of job record `j`, which now holds `r`, has gone out to printer `p` from context `c`, which now holds
`x` (R66). -/
def opened (s : State) (c : Fin 8) (p : Fin 64) (j : Fin 512) (x : Context) (r : JobRecord) (f : OutFrame) : State :=
  (((s.setJob j r).sentTo p f).setContext c x).setJob j r

section opened
variable (s : State) (c : Fin 8) (p : Fin 64) (j : Fin 512) (x : Context) (r : JobRecord) (f : OutFrame)

theorem opened_context : (opened s c p j x r f).context c = x := State.setContext_context _ c x

theorem opened_context_other {d : Fin 8} (h : d ≠ c) : (opened s c p j x r f).context d = s.context d :=
  State.setContext_context_other _ c x h

theorem opened_job : (opened s c p j x r f).job j = r := State.setJob_job _ j r

theorem opened_job_other {i : Fin 512} (h : i ≠ j) : (opened s c p j x r f).job i = s.job i :=
  (State.setJob_job_other _ j r h).trans (State.setJob_job_other s j r h)

theorem opened_fp : (opened s c p j x r f).fp = { s.fp with tx := s.fp.tx ++ [⟨s.age, (s.printer p).station, f⟩] } := rfl

end opened

/-- Two states have the same job table, loaded tables, conditions and slots: what an open reads. -/
structure OpensAlike (s t : State) : Prop where
  jobs   : t.jobs = s.jobs
  tables : t.tables = s.tables
  cm     : t.cm = s.cm
  slots  : t.slotRecords = s.slotRecords

/-- A job that is handed a context in step WAIT, at a READY printer: its STREAM-OPEN goes out in the same event (R65, R66). -/
theorem opensAtOnce {s t : State} (h : OpensAlike s t) {c : Fin 8} {p : Fin 64} {m : Mode} {j : Fin 512} {r : JobRecord}
    {v : OptionVector} {x : Context} (hx : t.context c = x) (hstate : x.state = .opening) (hstep : x.step = some .wait)
    (howner : x.owner = some p) (hjob : x.job = some r.number) (hmode : x.mode = some m)
    (hw : s.jobs.wf (fun _ => JobRecord.powerOn) = true) (hf : s.findJob r.number = some (j, r))
    (hready : (s.cond p).state = some .ready) (hv : r.vector = some v) :
    (t.setJob j (boundRecord r p c .opening)).waitTest c =
      opened t c p j { x with step := some .sent } (boundRecord r p c .opening) (streamOpenOf x m r (s.fillOptions p r.user v)) := by
  subst hx
  have hfound : (t.setJob j (boundRecord r p c .opening)).findJob r.number = some (j, boundRecord r p c .opening) := by
    refine findJob_setJob (r := r) ?_ ?_ (by simp [boundRecord]) rfl
    · rw [h.jobs, hw]
    · rw [findJob_congr h.jobs, hf]
  have hcond : ((t.setJob j (boundRecord r p c .opening)).cond p).state = some .ready := by
    rw [← hready]
    simp [State.cond, h.cm]
  have hopt : (t.setJob j (boundRecord r p c .opening)).fillOptions p r.user v = s.fillOptions p r.user v :=
    fillOptions_congr h.tables h.cm h.slots p r.user v
  rw [← hopt]
  exact waitTest_ready (s := t.setJob j (boundRecord r p c .opening)) (r := boundRecord r p c .opening) hstate hstep howner hjob hmode
    hfound hcond hv

/-- The start of a seek that the sheet cap does not end: the cursor at the first segment, whose header is asked for (R111). -/
theorem beginSeek_eq {s : State} {c : Fin 8} {j : Fin 512} {r : JobRecord} {x : Context} {h : Fin 4096} (hr : s.job j = r)
    (hx : s.context c = x) (hpast : r.pastCap = false) (hchain : r.chainHead = some h) :
    s.beginSeek c j =
      (s.pushRead ⟨c, .header, r.number, ⟨h, 0⟩, 1⟩).setContext c { x with nextFetch := some 1, position := some ⟨h, 0⟩ } := by
  subst hr hx
  simp only [State.beginSeek, hpast, Bool.false_eq_true, if_false, State.firstHeader, hchain]

/-! ### Hand-outs (R61, R65) -/

/-- The state when an entry has left the queue, its context the saved list, and the context holds `x` (R60, R65). -/
def handed (s : State) (e : QueueEntry) (c : Fin 8) (x : Context) : State :=
  ((s.removeEntry e.job).leaveSaved c).setContext c x

theorem handed_context (s : State) (e : QueueEntry) (c : Fin 8) (x : Context) : (handed s e c x).context c = x :=
  State.setContext_context _ c x

theorem handed_context_other (s : State) (e : QueueEntry) {c d : Fin 8} (h : d ≠ c) (x : Context) :
    (handed s e c x).context d = s.context d := State.setContext_context_other _ c x h

theorem handed_unname_other {s : State} (h : s.se.contexts.wf (fun _ => Context.free) = true) (e : QueueEntry) {c d : Fin 8} (hd : d ≠ c)
    (x : Context) (n : Nat) : ((handed s e c x).unnameJob n).context d = (s.context d).unname n := by
  rw [unnameJob_context (Table.wf_set _ _ _ _ h), handed_context_other s e hd]

theorem handed_alike (s : State) (e : QueueEntry) (c : Fin 8) (x : Context) : OpensAlike s (handed s e c x) := ⟨rfl, rfl, rfl, rfl⟩

theorem OpensAlike.unnameJob {s t : State} (h : OpensAlike s t) (n : Nat) : OpensAlike s (t.unnameJob n) :=
  ⟨h.jobs, h.tables, h.cm, h.slots⟩

theorem handed_contexts_wf {s : State} (h : s.se.contexts.wf (fun _ => Context.free) = true) (e : QueueEntry) (c : Fin 8) (x : Context) :
    (handed s e c x).se.contexts.wf (fun _ => Context.free) = true := Table.wf_set _ _ _ _ h

/-- A hand-out to a job that came from HELD, at a READY printer (R61, R65, R66). -/
theorem handOut_start {s : State} {e : QueueEntry} {c : Fin 8} {j : Fin 512} {r : JobRecord} {v : OptionVector}
    (hw : s.jobs.wf (fun _ => JobRecord.powerOn) = true) (hf : s.findJob e.job = some (j, r)) (ho : e.origin = .held)
    (hready : (s.cond e.printer).state = some .ready) (hv : r.vector = some v) :
    s.handOut e c =
      opened (handed s e c (startContext e r)) c e.printer j { startContext e r with step := some .sent }
        (boundRecord r e.printer c .opening) (streamOpenOf (startContext e r) .start r (s.fillOptions e.printer r.user v)) := by
  have hn := findJob_number hf
  have hcase : s.handOut e c =
      ((handed s e c (startContext e r)).setJob j (boundRecord r e.printer c .opening)).waitTest c := by
    simp only [State.handOut, hf, ho, if_true, handed, boundRecord]
  rw [hcase]
  exact opensAtOnce (handed_alike ..) (handed_context ..) rfl rfl rfl (by rw [hn]; rfl) rfl hw (by rw [hn]; exact hf) hready hv

/-- A hand-out in place, at a READY printer (R61, R65, R66, R110). -/
theorem handOut_continue {s : State} {e : QueueEntry} {c : Fin 8} {j : Fin 512} {r : JobRecord} {v : OptionVector}
    (hw : s.jobs.wf (fun _ => JobRecord.powerOn) = true) (hcw : s.se.contexts.wf (fun _ => Context.free) = true)
    (hf : s.findJob e.job = some (j, r)) (hcont : (s.context c).continues e = true)
    (hready : (s.cond e.printer).state = some .ready) (hv : r.vector = some v) :
    s.handOut e c =
      opened ((handed s e c (continueContext (s.context c) e r)).unnameJob e.job) c e.printer j
        { continueContext (s.context c) e r with step := some .sent } (boundRecord r e.printer c .opening)
        (streamOpenOf (continueContext (s.context c) e r) .continued r (s.fillOptions e.printer r.user v)) := by
  have hn := findJob_number hf
  have ho : e.origin ≠ .held := by
    intro ho
    simp [Context.continues, ho] at hcont
  have hcase : s.handOut e c =
      (((handed s e c (continueContext (s.context c) e r)).unnameJob e.job).setJob j (boundRecord r e.printer c .opening)).waitTest
        c := by
    simp only [State.handOut, hf, if_neg ho, hcont, if_true, handed, boundRecord]
  have hx : ((handed s e c (continueContext (s.context c) e r)).unnameJob e.job).context c = continueContext (s.context c) e r := by
    rw [unnameJob_context (handed_contexts_wf hcw ..), handed_context, unname_of_ne (by simp [continueContext])]
  rw [hcase]
  exact opensAtOnce ((handed_alike ..).unnameJob _) hx rfl rfl rfl (by rw [hn]; rfl) rfl hw (by rw [hn]; exact hf) hready hv

/-- A hand-out for a resume seek: it asks for the first header (R61, R65, R110, R111). -/
theorem handOut_seek {s : State} {e : QueueEntry} {c : Fin 8} {j : Fin 512} {r : JobRecord} {h : Fin 4096}
    (hcw : s.se.contexts.wf (fun _ => Context.free) = true) (hf : s.findJob e.job = some (j, r)) (ho : e.origin ≠ .held)
    (hcont : (s.context c).continues e = false) (hpast : r.pastCap = false) (hchain : r.chainHead = some h) :
    s.handOut e c =
      ((((handed s e c (seekContext e r)).unnameJob e.job).setJob j (boundRecord r e.printer c .seeking)).pushRead
        ⟨c, .header, r.number, ⟨h, 0⟩, 1⟩).setContext c
        { seekContext e r with nextFetch := some 1, position := some ⟨h, 0⟩ } := by
  have hx : ((handed s e c (seekContext e r)).unnameJob e.job).context c = seekContext e r := by
    rw [unnameJob_context (handed_contexts_wf hcw ..), handed_context, unname_of_ne (by simp [seekContext])]
  have hcase : s.handOut e c =
      (((handed s e c (seekContext e r)).unnameJob e.job).setJob j (boundRecord r e.printer c .seeking)).beginSeek c j := by
    simp only [State.handOut, hf, if_neg ho, hcont, Bool.false_eq_true, if_false, handed, boundRecord]
  rw [hcase]
  exact beginSeek_eq (r := boundRecord r e.printer c .seeking) (State.setJob_job ..) hx hpast hchain

end Sys2Proof.Machine.Release
end

