-- ==== Sys2Proof/Proofs/Release/ArbiterHandsOut.lean ====
section
/-! SUPPORT. ArbiterHandsOut, from the choice of the arbiter, its runs, the taking of candidates and the hand-out in place. -/

namespace Sys2Proof.Machine.Release

/-- The last part of ArbiterHandsOut, clause by clause from `handOut_continue`. -/
theorem handOut_inPlace {s : State} {e : QueueEntry} {c : Fin 8} {j : Fin 512} {r : JobRecord} {v : OptionVector}
    (hcanon : s.TablesCanonical) (hf : s.findJob e.job = some (j, r)) (ho : e.origin ≠ .held) (hsaved : (s.context c).state = .saved)
    (howner : (s.context c).owner = some e.printer) (hdone : (s.context c).saveDone = true)
    (hparked : (s.context c).parkedJob = some e.job) (hready : (s.cond e.printer).state = some .ready) (hv : r.vector = some v) :
    let x := s.context c
    let t := s.handOut e c
    t.context c = { x with
      state := .opening, job := some e.job, parkedJob := none, saveDone := false, mode := some .continued, step := some .sent,
      sheetCap := r.sheetCap, credit := 0, stall := none, park := none, pendingEnd := none } ∧
    (∀ d, d ≠ c → t.context d = (s.context d).unname e.job) ∧
    t.job j = boundRecord r e.printer c .opening ∧ (∀ i, i ≠ j → t.job i = s.job i) ∧ t.se.notices = s.se.notices ∧
    t.ru = { s.ru with queue := s.ru.queue.filter (fun y => y.job != e.job), saved := s.ru.saved.filter (fun y => y != c) } ∧
    t.fp = { s.fp with
      tx := s.fp.tx ++
        [⟨s.age, (s.printer e.printer).station,
          .streamOpen e.job .continued x.sent x.lastSheet r.sheetCap r.pages r.copies (s.fillOptions e.printer r.user v)⟩] } ∧
    { t with fp := s.fp, age := s.age, jobs := s.jobs, se := s.se, ru := s.ru } = s := by
  have hcont : (s.context c).continues e = true := by simp [Context.continues, ho, hsaved, howner, hdone, hparked]
  intro x t
  have ht : t = _ := handOut_continue hcanon.jobs hcanon.contexts hf hcont hready hv
  rw [ht]
  refine ⟨?_, fun d hd => ?_, opened_job .., fun i hi => opened_job_other _ _ _ _ _ _ _ hi, rfl, rfl, ?_, ?_⟩
  · rw [opened_context, continueContext, ← howner]
  · rw [opened_context_other _ _ _ _ _ _ _ hd, handed_unname_other hcanon.contexts e hd]
  · rw [opened_fp, ← findJob_number hf]
    rfl
  · simp only [opened, handed, State.setJob, State.sentTo, State.unnameJob, State.setContext, State.leaveSaved, State.removeEntry]

/-- Settles O27: the choice (`handOutChoice_some`, `handOutChoice_none`), the runs (`runArbiter_some`, `runArbiter_done`), the waiting
arbiter, the candidates (`takeCandidates_joins`) and the hand-out in place. -/
theorem arbiterHandsOut : Obligations.ArbiterHandsOut := by
  refine ⟨fun s hoff => ⟨fun e c h => ?_, fun h => ⟨runArbiter_none hoff h, ?_⟩, runArbiter_done hoff⟩, fun s hon => ?_,
    fun s own l p hl => ?_, fun s e c j r v hcanon hf _ ho hsaved howner hdone hparked hready hv => ?_⟩
  · obtain ⟨hb, hobt, older, newer, hq, hne, hnone⟩ := handOutChoice_some h
    exact ⟨runArbiter_some hoff h, obtainable_some hobt, hb, older, newer, hq, hne, fun x hx hxb => obtainable_none (hnone x hx hxb)⟩
  · rintro q ⟨hb, x, hx, rfl⟩
    exact obtainable_none (handOutChoice_none h hx hb)
  · exact ⟨State.runArbiter_waits hon, endHold_hold s, endHold_called⟩
  · refine ⟨takeCandidates_joins hl s p, fun h => takeCandidates_room hl h p, fun h => ?_⟩
    rw [takeCandidates_full h]
    refine ⟨rfl, List.length_map _, fun a ha => ?_⟩
    obtain ⟨i, -, rfl⟩ := List.mem_map.1 ha
    rfl
  · exact handOut_inPlace hcanon hf ho hsaved howner hdone hparked hready hv

end Sys2Proof.Machine.Release
end

