-- ==== Sys2Proof/Proofs/Release/AskAdmits.lean ====
section
/-! SUPPORT. AskAdmitsJob: an ask of a user with one job waiting, from the taking of the candidate to the hand-out (R43 to R46, R50, R54 to
R56, R60, R61, R65, R66, R95, R110, R111). -/

namespace Sys2Proof.Machine.Release

/-! ### The one candidate (R43) -/

/-- The record waits for user `u` in zone `z`: HELD or PARKED. -/
def waitsFor (u : Fin 8192) (z : Fin 16) (x : Fin 512 × JobRecord) : Bool :=
  decide (x.2.user = u) && decide (x.2.zone = z) && (decide (x.2.state = .held) || decide (x.2.state = .parked))

theorem jobsInOrder_of_waitsFor (s : State) (u : Fin 8192) (z : Fin 16) {st : JobState} (h : st = .held ∨ st = .parked)
    (stamp : JobRecord → Stamp) :
    s.jobsInOrder u z st stamp =
      sortBy (jobBefore stamp) ((s.jobs.cells.filter (waitsFor u z)).filter (fun x => decide (x.2.state = st))) := by
  rw [State.jobsInOrder, List.filter_filter]
  congr 2
  funext x
  rcases h with rfl | rfl <;> cases hx : x.2.state <;> simp [waitsFor, hx]

/-- The one record that waits for a user in a zone is the one candidate of an ask for ALL. -/
theorem candidates_single {s : State} {u : Fin 8192} {z : Fin 16} {j : Fin 512} {r : JobRecord}
    (h : s.jobs.cells.filter (waitsFor u z) = [(j, r)]) : s.candidates u z = [(j, r)] := by
  have hw : waitsFor u z (j, r) = true := by
    have hmem : (j, r) ∈ s.jobs.cells.filter (waitsFor u z) := by simp [h]
    exact (List.mem_filter.1 hmem).2
  have hst : r.state = .held ∨ r.state = .parked := by
    simp only [waitsFor, Bool.and_eq_true, Bool.or_eq_true, decide_eq_true_eq] at hw
    exact hw.2
  rw [State.candidates, jobsInOrder_of_waitsFor s u z (.inr rfl), jobsInOrder_of_waitsFor s u z (.inl rfl), h]
  rcases hst with hst | hst <;> simp [hst, sortBy, insertBy]

/-! ### The one request of the arbiter (R56, R60) -/

theorem firstIndex_eq_some {n : Nat} {q : Fin n → Bool} {i : Fin n} (h : q i = true) (hlow : ∀ k, k < i → q k = false) :
    firstIndex n q = some i := by
  cases hf : firstIndex n q with
  | none => simp [firstIndex_none hf i] at h
  | some k =>
    obtain ⟨hk, hbelow⟩ := firstIndex_some hf
    rcases lt_trichotomy k i with hlt | rfl | hgt
    · simp [hlow k hlt] at hk
    · rfl
    · simp [hbelow i hgt] at h

theorem firstIndex_eq_none {n : Nat} {q : Fin n → Bool} (h : ∀ k, q k = false) : firstIndex n q = none := by
  cases hf : firstIndex n q with
  | none => rfl
  | some k =>
    have hk := (firstIndex_some hf).1
    rw [h k] at hk
    cases hk

/-- With one entry in the queue, whose printer owns no context, the arbiter hands it the lowest FREE context. -/
theorem runArbiter_single {s : State} {e : QueueEntry} {c : Fin 8} (hoff : s.ru.hold = .off) (hq : s.ru.queue = [e])
    (hown : ∀ d, (s.context d).owner ≠ some e.printer) (hfree : (s.context c).state = .free)
    (hlow : ∀ d, d < c → (s.context d).state ≠ .free) : s.runArbiter = s.handOut e c := by
  have hbound : s.boundAt e.printer = none := firstIndex_eq_none fun d => by simp [hown d]
  have hsaved : s.savedAt e.printer = none := firstIndex_eq_none fun d => by simp [hown d]
  have hlowest : s.lowestFreeContext = some c := firstIndex_eq_some (by simp [hfree]) fun d hd => by simp [hlow d hd]
  have hobt : s.obtainable e.printer = some c := by simp only [State.obtainable, hsaved, hlowest]
  have hchoice : s.handOutChoice = some (e, c) := by
    simp [State.handOutChoice, State.eligible, hq, State.eligibleAfter, hbound, hobt]
  rw [runArbiter_off hoff, hq, List.length_singleton, arbiterFor_some hchoice, State.arbiterFor]

/-! ### An ask with one candidate (R44, R54) -/

/-- The state in which the candidates of the ask at the head are taken. -/
def asking (s : State) : State := s.tookFp.setHold .on

theorem asking_losses (s : State) (p : Fin 64) (u : Fin 8192) : (asking s).losses p u = s.losses p u := by
  cases s
  rfl

theorem asking_resolve (s : State) (p : Fin 64) (r : JobRecord) : (asking s).resolve p r = s.resolve p r := by
  cases s
  rfl

/-- The state when the one candidate of an ask, admitted with answer entry `x`, has left the state `t`, and the answer has been sent. -/
def answered (t : State) (p : Fin 64) (tag : Tag) (badge : Code32) (x : AnswerEntry) (left : Int) : State :=
  (t.sentTo p (.releaseAnswer tag badge .accepted [x] (some left))).setHold .off

/-- An ask whose one candidate is admitted: the answer goes out, and then the arbiter runs. -/
theorem releaseAsk_single {s t : State} {p : Fin 64} {tag : Tag} {badge : Code32} {u : Fin 8192} {j : Fin 512} {r : JobRecord}
    {x : AnswerEntry} (htest : s.tookFp.askTest p badge = .ok u)
    (hcand : s.jobs.cells.filter (waitsFor u (s.printer p).zone) = [(j, r)])
    (htake : (asking s).takeCandidate [j] p j = (t, x)) (hx : x.queuedNow = true) (hb : t.between = []) (hhold : t.ru.hold = .on)
    (hq : t.ru.queue ≠ []) :
    s.tookFp.releaseAsk p ⟨tag, badge, 0⟩ = (answered t p tag badge x (t.account (t.user u).account).available).runArbiter := by
  have hone : s.tookFp.candidates u (s.tookFp.printer p).zone = [(j, r)] := candidates_single (s := s.tookFp) hcand
  have htakes : (s.tookFp.setHold .on).takeCandidates [j] p [j] = (t, [x]) := by
    rw [takeCandidates_cons, show s.tookFp.setHold .on = asking s from rfl, htake]
    rfl
  have hcalled : ∀ f, (t.sentTo p f).runArbiter = (t.sentTo p f).setHold .called := fun f => by
    have hon : (t.sentTo p f).ru.hold = .on := hhold
    have hne : (t.sentTo p f).ru.queue ≠ [] := hq
    simp only [State.runArbiter, hon, if_neg hne]
  rw [releaseAsk_all htest, hone]
  simp only [List.map_cons, List.map_nil, htakes, State.request_nil hb, List.any_cons, hx, Bool.true_or, if_true, hcalled]
  rw [endHold_called rfl]
  rfl

/-! ### Admission of the one candidate (R44, R50, R55) -/

theorem reserveResult_eq_reserved {a : AccountEntry} {n : Nat} (hs : a.state = .opened) (hn : (n : Int) ≤ a.available)
    (hmax : a.reserved + n ≤ maxAmount) : reserveResult a n = .reserved := by
  simp [reserveResult, hs, not_lt.2 hn, not_lt.2 hmax]

/-- A HELD candidate whose estimate its account covers is admitted with it, no event coming between. -/
theorem takeCandidate_held {s : State} {own : List (Fin 512)} {p : Fin 64} {j : Fin 512} {v : OptionVector} {m : AnswerMarks}
    (hb : s.between = []) (hq : s.ru.queue = []) (hstate : (s.job j).state = .held) (hres : s.resolve p (s.job j) = .ok (v, m))
    (hcover : reserveResult (s.accountOf (s.job j)) (estimate (s.planOf (s.job j)) v.charge (s.job j).pages (s.job j).copies) = .reserved) :
    let n := estimate (s.planOf (s.job j)) v.charge (s.job j).pages (s.job j).copies
    s.takeCandidate own p j =
      (s.queueHeld p j ⟨v, m, none, n⟩,
        ⟨(s.job j).number, .queued, m, none, some n, some ((s.job j).pages, (s.job j).copies)⟩) := by
  have hcas : s.cascade own (s.user (s.job j).user) (s.job j) v m =
      (s, .ok ⟨v, m, none, estimate (s.planOf (s.job j)) v.charge (s.job j).pages (s.job j).copies⟩) := by
    simp only [State.cascade, State.attempt, State.request_nil hb, hcover]
  simp [State.takeCandidate, hq, hstate, hres, hcas]

/-- A PARKED candidate that no loss touches is admitted. -/
theorem takeCandidate_parked {s : State} {own : List (Fin 512)} {p : Fin 64} {j : Fin 512} (hq : s.ru.queue = [])
    (hstate : (s.job j).state = .parked) (hloss : (s.job j).touchedBy (s.losses p (s.job j).user) = false) :
    s.takeCandidate own p j =
      (s.queueParked p j,
        ⟨(s.job j).number, .resuming, noMarks, none, (s.job j).reservation, some ((s.job j).pages, (s.job j).copies)⟩) := by
  simp [State.takeCandidate, hq, hstate, hloss]

/-! ### The ask of AskAdmitsJob -/

/-- What AskAdmitsJob supposes of the ask at the head and of the one job that waits: record `j` with contents `r`, for the user
`u` who holds the badge, at the READY printer `p`, with context `c` the lowest FREE one. -/
structure OneWaits (s : State) (p : Fin 64) (tag : Tag) (badge : Code32) (u : Fin 8192) (e : UserEntry) (j : Fin 512) (r : JobRecord)
    (c : Fin 8) : Prop where
  frame   : FromPrinter s .releaseAsk p (u16 tag.toNat ++ u32 badge.toNat ++ u16 0)
  canon   : s.TablesCanonical
  serving : s.mu.service ≠ .idle
  badged  : s.findUser badge = some (u, e)
  user    : s.user u = e
  ready   : (s.cond p).state = some .ready
  waits   : s.jobs.cells.filter (waitsFor u (s.printer p).zone) = [(j, r)]
  job     : s.job j = r
  found   : s.findJob r.number = some (j, r)
  account : r.account = e.account
  queue   : s.ru.queue = []
  owners  : ∀ d, (s.context d).owner ≠ some p
  free    : (s.context c).state = .free
  lowest  : ∀ d, d < c → (s.context d).state ≠ .free
  between : s.between = []

section oneWaits
variable {s : State} {p : Fin 64} {tag : Tag} {badge : Code32} {u : Fin 8192} {e : UserEntry} {j : Fin 512} {r : JobRecord} {c : Fin 8}

theorem OneWaits.user_eq (h : OneWaits s p tag badge u e j r c) : r.user = u := by
  have hmem : (j, r) ∈ s.jobs.cells.filter (waitsFor u (s.printer p).zone) := by simp [h.waits]
  have hw := (List.mem_filter.1 hmem).2
  simp only [waitsFor, Bool.and_eq_true, decide_eq_true_eq] at hw
  exact hw.1.1

/-- The ask is answered once its candidate has been taken, and the arbiter hands the lowest FREE context to the entry that has joined the
queue. -/
theorem OneWaits.exec_eq (h : OneWaits s p tag badge u e j r c) {t : State} {x : AnswerEntry} {q : QueueEntry}
    (htake : (asking s).takeCandidate [j] p j = (t, x)) (hx : x.queuedNow = true) (hb : t.between = s.between)
    (hru : t.ru = { (asking s).ru with queue := (asking s).ru.queue ++ [q] }) (hq : q.printer = p) (hse : t.se = s.se) :
    exec .releaseAsk s =
      .next ((answered t p tag badge x (t.account (t.user u).account).available).handOut q c) := by
  have htest : s.tookFp.askTest p badge = .ok u := askTest_ok (s := s.tookFp) h.serving h.badged (.inl h.ready)
  have hcontext : ∀ d y left, (answered t p tag badge y left).context d = s.context d := fun d y left => by
    simp only [State.context, answered, State.setHold, State.sentTo, hse]
  have hqueue : ∀ y left, (answered t p tag badge y left).ru.queue = [q] := fun y left => by
    have hnil : (asking s).ru.queue = [] := h.queue
    simp only [answered, State.setHold, State.sentTo, hru, hnil, List.nil_append]
  rw [execReleaseAsk_all h.frame, releaseAsk_single htest h.waits htake hx (hb.trans h.between) (by rw [hru]; rfl) (by simp [hru])]
  rw [runArbiter_single (c := c) rfl (hqueue ..)]
  · exact fun d => by rw [hcontext, hq]; exact h.owners d
  · rw [hcontext]
    exact h.free
  · exact fun d hd => by rw [hcontext]; exact h.lowest d hd

/-- The admission of the HELD job, with the amount its account covers. -/
theorem OneWaits.takes_held (h : OneWaits s p tag badge u e j r c) {v : OptionVector} {m : AnswerMarks} {n : Nat}
    (hstate : r.state = .held) (hres : s.resolve p r = .ok (v, m))
    (hn : n = estimate (s.plan (s.account e.account).plan) v.charge r.pages r.copies)
    (hcover : reserveResult (s.account e.account) n = .reserved) :
    (asking s).takeCandidate [j] p j =
      ((asking s).queueHeld p j ⟨v, m, none, n⟩, ⟨r.number, .queued, m, none, some n, some (r.pages, r.copies)⟩) := by
  have hjob : (asking s).job j = r := h.job
  have hplan : (asking s).planOf r = s.plan (s.account e.account).plan := by
    rw [← h.account]
    rfl
  have hacc : (asking s).accountOf r = s.account e.account := by
    rw [← h.account]
    rfl
  have htake := takeCandidate_held (s := asking s) (own := [j]) (p := p) (j := j) (v := v) (m := m) h.between h.queue
  rw [hjob, asking_resolve, hplan, hacc, ← hn] at htake
  exact htake hstate hres hcover

/-- The state when the HELD job has been admitted and the ask answered. -/
def heldAnswered (s : State) (p : Fin 64) (tag : Tag) (badge : Code32) (j : Fin 512) (g : Grant) (x : AnswerEntry) (left : Int) : State :=
  answered ((asking s).queueHeld p j g) p tag badge x left

/-- The HELD job is handed the context: START, and its STREAM-OPEN goes out. -/
theorem OneWaits.handOut_held (h : OneWaits s p tag badge u e j r c) (g : Grant) (x : AnswerEntry) (left : Int) :
    (heldAnswered s p tag badge j g x left).handOut (heldEntry r p) c =
      opened (handed (heldAnswered s p tag badge j g x left) (heldEntry r p) c (startContext (heldEntry r p) (admittedHeld r g))) c p j
        { startContext (heldEntry r p) (admittedHeld r g) with step := some .sent }
        (boundRecord (admittedHeld r g) p c .opening)
        (streamOpenOf (startContext (heldEntry r p) (admittedHeld r g)) .start r (s.fillOptions p u g.vector)) := by
  have hwf : (heldAnswered s p tag badge j g x left).jobs.wf (fun _ => JobRecord.powerOn) = true := Table.wf_set _ _ _ _ h.canon.jobs
  have hfound : (heldAnswered s p tag badge j g x left).findJob r.number = some (j, admittedHeld r g) := by
    rw [← h.job]
    exact findJob_setJob (s := s) (r := r) h.canon.jobs (by rw [h.job]; exact h.found) (by simp) rfl
  have hopt : (heldAnswered s p tag badge j g x left).fillOptions p (admittedHeld r g).user g.vector = s.fillOptions p u g.vector := by
    rw [← h.user_eq]
    cases s
    rfl
  have hout := handOut_start (e := heldEntry r p) (c := c) (r := admittedHeld r g) hwf hfound rfl h.ready rfl
  rw [hout, show (heldEntry r p).printer = p from rfl, hopt]
  rfl

/-- The HELD half of AskAdmitsJob. -/
theorem OneWaits.admits_held (h : OneWaits s p tag badge u e j r c) {v : OptionVector} {m : AnswerMarks} {n : Nat}
    (hstate : r.state = .held) (hres : s.resolve p r = .ok (v, m))
    (hn : n = estimate (s.plan (s.account e.account).plan) v.charge r.pages r.copies)
    (hcover : reserveResult (s.account e.account) n = .reserved) :
    let a := s.account e.account
    ∃ t, exec .releaseAsk s = .next t ∧
      t.job j = { r with
        state := .opening, countdown := none, reservation := some n, sheetCap := none, vector := some v,
        releases := min (r.releases + 1) 255, boundPrinter := some p, boundContext := some c } ∧
      (∀ i, i ≠ j → t.job i = s.job i) ∧
      t.account e.account = { a with reserved := a.reserved + n, liveReservations := a.liveReservations + 1 } ∧
      (∀ i, i ≠ e.account → t.account i = s.account i) ∧ { t.tables with accounts := s.tables.accounts } = s.tables ∧
      t.context c = { Context.free with
        state := .opening, owner := some p, job := some r.number, mode := some .start, step := some .sent, nextFetch := some 1,
        position := r.chainHead.map (fun h => ⟨h, 0⟩) } ∧
      (∀ d, d ≠ c → t.context d = s.context d) ∧ t.se.notices = s.se.notices ∧
      t.ru = { s.ru with saved := s.ru.saved.filter (fun x => x != c), hold := .off } ∧
      t.fp = { s.tookFp.fp with
        tx := s.fp.tx ++
          [⟨s.age, (s.printer p).station, .releaseAnswer tag badge .accepted
              [⟨r.number, .queued, m, none, some n, some (r.pages, r.copies)⟩] (some (a.balance - (a.reserved + n) + a.overdraft))⟩,
            ⟨s.age + 1, (s.printer p).station,
              .streamOpen r.number .start 0 0 none r.pages r.copies (s.fillOptions p u v)⟩] } ∧
      { t with fp := s.fp, age := s.age, tables := s.tables, jobs := s.jobs, se := s.se, ru := s.ru } = s := by
  intro a
  have hru : ((asking s).queueHeld p j ⟨v, m, none, n⟩).ru =
      { (asking s).ru with queue := (asking s).ru.queue ++ [heldEntry r p] } := by
    rw [← h.job]
    rfl
  have hexec := h.exec_eq (h.takes_held hstate hres hn hcover) rfl rfl hru rfl rfl
  have hacc : ((asking s).queueHeld p j ⟨v, m, none, n⟩).account e.account = a.reserve n := by
    have hheld := queueHeld_account (asking s) p j ⟨v, m, none, n⟩
    rw [show (asking s).job j = r from h.job, h.account] at hheld
    exact hheld
  have huser : ((asking s).queueHeld p j ⟨v, m, none, n⟩).user u = e := h.user
  rw [huser, hacc] at hexec
  refine ⟨_, hexec.trans (congrArg _ (h.handOut_held ⟨v, m, none, n⟩ _ _)), opened_job .., fun i hi => ?_, hacc, fun i hi => ?_, rfl,
    opened_context .., fun d hd => ?_, rfl, ?_, ?_, ?_⟩
  · rw [opened_job_other _ _ _ _ _ _ _ hi]
    exact queueHeld_job_other (asking s) p _ hi
  · rw [← h.account, ← h.job] at hi
    exact State.setAccount_account_other (asking s) _ _ hi
  · rw [opened_context_other _ _ _ _ _ _ _ hd, handed_context_other _ _ hd]
    rfl
  · have hqueue : (s.ru.queue ++ [heldEntry r p]).filter (fun x => x.job != r.number) = s.ru.queue :=
      removeEntry_append (by simp [h.queue]) _ rfl
    calc
      _ = { s.ru with
            queue := (s.ru.queue ++ [heldEntry r p]).filter (fun x => x.job != r.number)
            saved := s.ru.saved.filter (fun x => x != c), hold := .off } := by
        rw [← h.job]
        rfl
      _ = _ := by rw [hqueue]
  · exact congrArg (fun l => { s.tookFp.fp with tx := l }) (List.append_assoc _ _ _)
  · simp only [opened, handed, heldAnswered, answered, asking, State.queueHeld, State.setJob, State.sentTo, State.setContext,
      State.leaveSaved, State.removeEntry, State.setHold, State.pushEntry, State.setAccount, State.tookFp]

/-- The admission of the PARKED job, which no loss touches. -/
theorem OneWaits.takes_parked (h : OneWaits s p tag badge u e j r c) {v : OptionVector} {res : Nat} (hstate : r.state = .parked)
    (hv : r.vector = some v) (hloss : (s.losses p u).touches v = false) (hres : r.reservation = some res) :
    (asking s).takeCandidate [j] p j =
      ((asking s).queueParked p j, ⟨r.number, .resuming, noMarks, none, some res, some (r.pages, r.copies)⟩) := by
  have hjob : (asking s).job j = r := h.job
  have htouch : r.touchedBy (s.losses p u) = false := by
    simp only [JobRecord.touchedBy, hv, hloss]
  have htake := takeCandidate_parked (s := asking s) (own := [j]) (p := p) (j := j) h.queue
  rw [hjob, asking_losses, h.user_eq, hres] at htake
  exact htake hstate htouch

/-- The state when the PARKED job has been admitted and the ask answered. -/
def parkedAnswered (s : State) (p : Fin 64) (tag : Tag) (badge : Code32) (j : Fin 512) (x : AnswerEntry) (left : Int) : State :=
  answered ((asking s).queueParked p j) p tag badge x left

/-- The PARKED job is handed the context for a seek, which asks for the first header. -/
theorem OneWaits.handOut_parked (h : OneWaits s p tag badge u e j r c) {k : Fin 4096} (hcap : r.sheetCap = none)
    (hchain : r.chainHead = some k) (x : AnswerEntry) (left : Int) :
    (parkedAnswered s p tag badge j x left).handOut (parkedEntry s r p) c =
      ((((handed (parkedAnswered s p tag badge j x left) (parkedEntry s r p) c
          (seekContext (parkedEntry s r p) (admittedParked r))).unnameJob r.number).setJob j
            (boundRecord (admittedParked r) p c .seeking)).pushRead ⟨c, .header, r.number, ⟨k, 0⟩, 1⟩).setContext c
        { seekContext (parkedEntry s r p) (admittedParked r) with nextFetch := some 1, position := some ⟨k, 0⟩ } := by
  have hfound : (parkedAnswered s p tag badge j x left).findJob r.number = some (j, admittedParked r) := by
    rw [← h.job]
    exact findJob_setJob (s := s) (r := r) h.canon.jobs (by rw [h.job]; exact h.found) (by simp) rfl
  have hcont : ((parkedAnswered s p tag badge j x left).context c).continues (parkedEntry s r p) = false := by
    have hfree : ((parkedAnswered s p tag badge j x left).context c).state = .free := h.free
    simp [Context.continues, hfree]
  have hpast : (admittedParked r).pastCap = false := by
    have hcap' : (admittedParked r).sheetCap = none := hcap
    simp [JobRecord.pastCap, hcap']
  exact handOut_seek (e := parkedEntry s r p) (r := admittedParked r) h.canon.contexts hfound (by simp [parkedEntry]) hcont hpast hchain

/-- The PARKED half of AskAdmitsJob. -/
theorem OneWaits.admits_parked (h : OneWaits s p tag badge u e j r c) {v : OptionVector} {res : Nat} {k : Fin 4096}
    (hstate : r.state = .parked) (hv : r.vector = some v) (hloss : (s.losses p u).touches v = false) (hres : r.reservation = some res)
    (hcap : r.sheetCap = none) (hchain : r.chainHead = some k) :
    let a := s.account e.account
    ∃ t, exec .releaseAsk s = .next t ∧
      t.job j = { r with
        state := .seeking, countdown := none, parkReason := none, parkedAt := none, releases := min (r.releases + 1) 255,
        boundPrinter := some p, boundContext := some c } ∧
      (∀ i, i ≠ j → t.job i = s.job i) ∧
      t.context c = { Context.free with
        state := .opening, owner := some p, job := some r.number, step := some .seek, nextFetch := some 1,
        position := some ⟨k, 0⟩ } ∧
      (∀ d, d ≠ c → t.context d = (s.context d).unname r.number) ∧
      t.hsc = { s.hsc with reads := s.hsc.reads ++ [⟨c, .header, r.number, ⟨k, 0⟩, 1⟩] } ∧ t.se.notices = s.se.notices ∧
      t.ru = { s.ru with saved := s.ru.saved.filter (fun x => x != c), hold := .off } ∧
      t.fp = { s.tookFp.fp with
        tx := s.fp.tx ++
          [⟨s.age, (s.printer p).station, .releaseAnswer tag badge .accepted
              [⟨r.number, .resuming, ⟨false, false, false, false⟩, none, some res, some (r.pages, r.copies)⟩]
              (some (a.balance - a.reserved + a.overdraft))⟩] } ∧
      { t with fp := s.fp, age := s.age, jobs := s.jobs, se := s.se, ru := s.ru, hsc := s.hsc } = s := by
  intro a
  have hru : ((asking s).queueParked p j).ru = { (asking s).ru with queue := (asking s).ru.queue ++ [parkedEntry s r p] } := by
    rw [← h.job]
    rfl
  have hexec := h.exec_eq (h.takes_parked hstate hv hloss hres) rfl rfl hru rfl rfl
  have huser : ((asking s).queueParked p j).user u = e := h.user
  rw [huser] at hexec
  refine ⟨_, hexec.trans (congrArg _ (h.handOut_parked hcap hchain _ _)), State.setJob_job .., fun i hi => ?_, ?_, fun d hd => ?_, rfl,
    rfl, ?_, rfl, ?_⟩
  · exact (State.setJob_job_other _ _ _ hi).trans (queueParked_job_other (asking s) p hi)
  · rw [State.setContext_context, seekContext, show (admittedParked r).sheetCap = none from hcap]
    rfl
  · rw [State.setContext_context_other _ _ _ hd]
    exact handed_unname_other h.canon.contexts (parkedEntry s r p) hd _ _
  · have hqueue : (s.ru.queue ++ [parkedEntry s r p]).filter (fun x => x.job != r.number) = s.ru.queue :=
      removeEntry_append (by simp [h.queue]) _ rfl
    calc
      _ = { s.ru with
            queue := (s.ru.queue ++ [parkedEntry s r p]).filter (fun x => x.job != r.number)
            saved := s.ru.saved.filter (fun x => x != c), hold := .off } := by
        rw [← h.job]
        rfl
      _ = _ := by rw [hqueue]
  · simp only [handed, parkedAnswered, answered, asking, State.queueParked, State.setJob, State.sentTo, State.setContext, State.unnameJob,
      State.leaveSaved, State.removeEntry, State.setHold, State.pushEntry, State.pushRead, State.tookFp]

end oneWaits

/-- Settles O26: the admission, the answer and the hand-out of a HELD and of a PARKED job. -/
theorem askAdmitsJob : Obligations.AskAdmitsJob := by
  intro s p tag badge u e j r c v hframe hcanon hserving hbadged huser hready hwaits hjob hfound haccount hqueue howners hfree hlowest
    hbetween
  have h : OneWaits s p tag badge u e j r c :=
    ⟨hframe, hcanon, hserving, hbadged, huser, hready, hwaits, hjob, hfound, haccount, hqueue, howners, hfree, hlowest, hbetween⟩
  refine ⟨fun m hstate hres hopen hcover hmax => ?_, fun res k hstate hv hloss hres hcap hchain => ?_⟩
  · exact h.admits_held hstate hres rfl (reserveResult_eq_reserved hopen hcover hmax)
  · exact h.admits_parked hstate hv hloss hres hcap hchain

end Sys2Proof.Machine.Release
end

