-- ==== Sys2Proof/Proofs/Streams/Frames.lean ====
section
/-! SUPPORT. The frames that printers send about their streams, read and taken (R64, R178, R180, R181), and what a bound stream stays when
such a frame is taken. -/

namespace Sys2Proof.Machine.Streams

/-! ### Payloads (R178, R181) -/

/-- A stream tag and a byte read back: the payload of STREAM-ACCEPT and of CREDIT. -/
theorem parseTagByte_payload {tag n : Nat} (ht : tag ≤ 65535) (hn : n ≤ 255) : parseTagByte (u16 tag ++ u8 n) = some (tag, n) := by
  have hbyte : byteAt (u16 tag ++ u8 n) 2 = n := byteAt_u8 n hn
  simp [parseTagByte, length_u16, length_u8, be16_u16 tag ht, hbyte]

/-- A stream tag reads back: the payload of STREAM-REJECT. -/
theorem parseStreamReject_payload {tag : Nat} (ht : tag ≤ 65535) : parseStreamReject (u16 tag) = some tag := by
  have htag : be16 (u16 tag) 0 = tag := by simpa using be16_u16 tag ht []
  simp [parseStreamReject, length_u16, htag]

theorem flagAt_flagByte (b : Bool) : flagAt (flagByte b) 0 0 = b := by
  cases b <;> rfl

/-- The payload of a SHEET-DONE within the ranges of R73 reads back. -/
theorem parseSheetDone_payload {tag sheet faces colour : Nat} (large : Bool) (ht : tag ≤ 65535) (h1 : 1 ≤ sheet) (hs : sheet ≤ 65535)
    (hf : faces = 1 ∨ faces = 2) (hc : colour ≤ faces) :
    parseSheetDone (u16 tag ++ u16 sheet ++ u8 faces ++ u8 colour ++ flagByte large) = some ⟨tag, sheet, faces, colour, large⟩ := by
  have htag : be16 (u16 tag ++ u16 sheet ++ u8 faces ++ u8 colour ++ flagByte large) 0 = tag := be16_u16 tag ht _
  have hsheet : be16 (u16 tag ++ u16 sheet ++ u8 faces ++ u8 colour ++ flagByte large) 2 = sheet := be16_u16 sheet hs []
  have hfaces : byteAt (u16 tag ++ u16 sheet ++ u8 faces ++ u8 colour ++ flagByte large) 4 = faces := byteAt_u8 faces (by omega)
  have hcolour : byteAt (u16 tag ++ u16 sheet ++ u8 faces ++ u8 colour ++ flagByte large) 5 = colour := byteAt_u8 colour (by omega)
  have hlarge : flagAt (u16 tag ++ u16 sheet ++ u8 faces ++ u8 colour ++ flagByte large) 6 0 = large := flagAt_flagByte large
  have hlength : (u16 tag ++ u16 sheet ++ u8 faces ++ u8 colour ++ flagByte large).length = 7 := rfl
  unfold parseSheetDone
  rw [hlength, htag, hsheet, hfaces, hcolour, hlarge, if_pos ⟨rfl, h1, hf, hc⟩]

/-- The end kind of a STREAM-END by its kind byte and its sheet number (R74). -/
theorem parseStreamEnd_complete {tag n : Nat} (ht : tag ≤ 65535) : parseStreamEnd (u16 tag ++ u8 0 ++ u16 n) = some (tag, .complete) := by
  have htag : be16 (u16 tag ++ u8 0 ++ u16 n) 0 = tag := be16_u16 tag ht _
  have hkind : byteAt (u16 tag ++ u8 0 ++ u16 n) 2 = 0 := rfl
  have hlength : (u16 tag ++ u8 0 ++ u16 n).length = 5 := rfl
  simp only [parseStreamEnd, hlength, htag, hkind, if_true]

theorem parseStreamEnd_stopped {tag n : Nat} (ht : tag ≤ 65535) (hn : n ≤ 65535) :
    parseStreamEnd (u16 tag ++ u8 1 ++ u16 n) = some (tag, .stopped n) := by
  have htag : be16 (u16 tag ++ u8 1 ++ u16 n) 0 = tag := be16_u16 tag ht _
  have hkind : byteAt (u16 tag ++ u8 1 ++ u16 n) 2 = 1 := rfl
  have hsheet : be16 (u16 tag ++ u8 1 ++ u16 n) 3 = n := be16_u16 n hn []
  have hlength : (u16 tag ++ u8 1 ++ u16 n).length = 5 := rfl
  simp only [parseStreamEnd, hlength, htag, hkind, hsheet, if_true, one_ne_zero, if_false]

/-! ### Frames taken (R41, R64) -/

theorem execStreamAccept_eq {s : State} {p : Fin 64} {tag n : Nat} (h : FromPrinter s .streamAccept p (u16 tag ++ u8 n))
    (ht : tag ≤ 65535) (hn : n ≤ 255) : exec .streamAccept s = .next (s.tookFp.takeAccept p tag n) := by
  simp only [exec, execStreamAccept, h.onPrinterFrame, parseTagByte_payload ht hn]

theorem execStreamReject_eq {s : State} {p : Fin 64} {tag : Nat} (h : FromPrinter s .streamReject p (u16 tag)) (ht : tag ≤ 65535) :
    exec .streamReject s = .next (s.tookFp.takeReject p tag) := by
  simp only [exec, execStreamReject, h.onPrinterFrame, parseStreamReject_payload ht]

theorem execCredit_eq {s : State} {p : Fin 64} {tag n : Nat} (h : FromPrinter s .credit p (u16 tag ++ u8 n)) (ht : tag ≤ 65535)
    (hn : n ≤ 255) : exec .credit s = .next (s.tookFp.takeCredit p tag n) := by
  simp only [exec, execCredit, h.onPrinterFrame, parseTagByte_payload ht hn]

theorem execStreamEnd_eq {s : State} {p : Fin 64} {tag : Nat} {k : EndKind} {b : List Byte} (h : FromPrinter s .streamEnd p b)
    (hb : parseStreamEnd b = some (tag, k)) : exec .streamEnd s = .next (s.tookFp.takeEnd p tag k) := by
  simp only [exec, execStreamEnd, h.onPrinterFrame, hb]

/-- A bound stream stays bound where no record, no context and no number changes: a taken frame changes none of them. -/
theorem tookFp_bound {s : State} {c : Fin 8} {p : Fin 64} {j : Fin 512} {r : JobRecord} (h : BoundStream s c p j r) :
    BoundStream s.tookFp c p j r := ⟨h.binds, h.owner, h.job, h.found, h.held⟩

theorem streaming_iff (x : Context) : x.streaming = true ↔ x.state = .running ∨ x.state = .halted := by
  simp [Context.streaming]

end Sys2Proof.Machine.Streams
end

