-- ==== Sys2Proof/Proofs/Streams/Sending.lean ====
section
/-! SUPPORT. Fetching and sending at one context: what starts a fetch, which segment goes out and how, and what all of an event's fetches
and sends change together (R69 to R72). -/

namespace Sys2Proof.Machine.Streams

/-! ### Sending one segment (R71, R72) -/

theorem flowing_iff (x : Context) : x.flowing = true ↔ x.state = .running ∧ x.pendingEnd = none ∧ x.lastSent = false := by
  simp [Context.flowing, and_assoc]

theorem flowing_halted {x : Context} (h : x.state = .halted) : x.flowing = false := by
  simp [Context.flowing, h]

theorem fullWith_bufA {x : Context} {k : Nat} {seg : Segment} (h : x.bufA = .full k seg) : x.fullWith k = some (.a, seg) := by
  simp [Context.fullWith, h]

theorem fullWith_bufB {x : Context} {n k : Nat} {seg next : Segment} (hA : x.bufA = .full n seg) (hn : n ≠ k)
    (hB : x.bufB = .full k next) : x.fullWith k = some (.b, next) := by
  simp [Context.fullWith, hA, hn, hB]

theorem fullWith_none {x : Context} {k : Nat} (hA : ∀ seg, x.bufA ≠ .full k seg) (hB : ∀ seg, x.bufB ≠ .full k seg) :
    x.fullWith k = none := by
  unfold Context.fullWith
  split
  · rename_i n seg hfull
    rw [if_neg fun e : n = k => hA seg (e ▸ hfull)]
    split
    · rename_i n' seg' hfull'
      exact if_neg fun e : n' = k => hB seg' (e ▸ hfull')
    · rfl
  · split
    · rename_i n' seg' hfull'
      exact if_neg fun e : n' = k => hB seg' (e ▸ hfull')
    · rfl

/-- A flowing stream with credit and its next segment FULL sends it in the form that R72 gives, or waits where R72 gives none. -/
theorem trySend_eq {s : State} {c : Fin 8} {p : Fin 64} {j : Fin 512} {r : JobRecord} {i : BufferId} {seg : Segment}
    (howner : (s.context c).owner = some p) (hjob : (s.context c).job = some r.number) (hfound : s.findJob r.number = some (j, r))
    (hflow : (s.context c).flowing = true) (hcredit : 1 ≤ (s.context c).credit)
    (hfull : (s.context c).fullWith ((s.context c).sent + 1) = some (i, seg)) :
    s.trySend c = ((s.context c).sendForm r.segments ((s.context c).sent + 1)).map fun form =>
      (s.sentTo p (.streamData form.1 r.number ((s.context c).sent + 1) seg)).setContext c
        ((s.context c).afterSend i seg form.1 form.2) := by
  simp only [State.trySend, howner, hjob, hfound, hflow, hcredit, and_self, if_true, hfull, State.sendPrinter_eq]
  cases (s.context c).sendForm r.segments ((s.context c).sent + 1) <;> rfl

theorem trySend_none {s : State} {c : Fin 8}
    (h : (s.context c).flowing = false ∨ (s.context c).fullWith ((s.context c).sent + 1) = none) : s.trySend c = none := by
  unfold State.trySend
  dsimp only
  split
  · split
    · rfl
    · split
      · rename_i hif
        rcases h with h | h
        · exact absurd hif.1 (by simp [h])
        · rw [h]
      · rfl
  · rfl

/-- The final segment goes out as the last one, and nothing is discarded with it (R71). -/
theorem sendForm_final (x : Context) (k : Nat) : x.sendForm k k = some (true, false) := if_pos rfl

/-- Without a sheet cap a segment before the final one goes out at once (R71). -/
theorem sendForm_uncapped {x : Context} {segments k : Nat} (hk : k ≠ segments) (hcap : x.sheetCap = none) :
    x.sendForm segments k = some (false, false) := by
  simp [Context.sendForm, hk, hcap]

/-- Under a sheet cap it waits for the segment after it (R72). -/
theorem sendForm_waits {x : Context} {segments k cap : Nat} (hk : k ≠ segments) (hcap : x.sheetCap = some cap)
    (hnext : x.fullWith (k + 1) = none) : x.sendForm segments k = none := by
  simp [Context.sendForm, hk, hcap, hnext]

/-- The segment after it, once FULL, tells whether the cap is reached (R72). -/
theorem sendForm_capped {x : Context} {segments k cap : Nat} {i : BufferId} {next : Segment} (hk : k ≠ segments)
    (hcap : x.sheetCap = some cap) (hnext : x.fullWith (k + 1) = some (i, next)) :
    x.sendForm segments k =
      some (if next.header.sheetStart = true ∧ next.header.sheet = cap + 1 then (true, true) else (false, false)) := by
  simp only [Context.sendForm, if_neg hk, hcap, hnext]
  split <;> rfl

/-- Settles O34: the segment stands in buffer A, so `trySend_eq` sends it in the form that the sheet cap and buffer B give. -/
theorem segmentIsSentUnderCredit : Obligations.SegmentIsSentUnderCredit := by
  intro s c p j r seg howner hjob hfound hstate hpending hlast hcredit hsegments hA goes
  have hsend := trySend_eq howner hjob hfound ((flowing_iff _).2 ⟨hstate, hpending, hlast⟩) hcredit (fullWith_bufA hA)
  have goes_of {form : Bool × Bool} (h : (s.context c).sendForm r.segments ((s.context c).sent + 1) = some form) :
      s.trySend c = goes form.1 form.2 := by
    rw [hsend, h]
    obtain ⟨last, _ | _⟩ := form <;> rfl
  refine ⟨fun h => ?_, fun cap hcap hbefore => ⟨fun hB => ?_, fun next hB => ?_⟩⟩
  · by_cases hfinal : (s.context c).sent + 1 = r.segments
    · rw [decide_eq_true hfinal]
      exact goes_of (by rw [hfinal, sendForm_final])
    · rw [decide_eq_false hfinal]
      exact goes_of (sendForm_uncapped hfinal (h.resolve_right hfinal))
  · rw [hsend, sendForm_waits hbefore.ne hcap (fullWith_none (fun seg' e => by simp [hA] at e) hB)]
    rfl
  · have hform := sendForm_capped hbefore.ne hcap (fullWith_bufB hA (by omega) hB)
    refine ⟨fun hstart hsheet => ?_, fun hbelow => ?_⟩
    · rw [if_pos ⟨hstart, hsheet⟩] at hform
      exact goes_of hform
    · rw [if_neg fun e => hbelow.elim (fun f => by simp [f] at e) (fun f => f e.2)] at hform
      exact goes_of hform

/-! ### Starting a fetch (R69) -/

/-- The context after the fetch of segment `k` into buffer `i` has been asked for, `next` the position after it. -/
def fetchingInto (x : Context) (i : BufferId) (k : Nat) (next : Option SegPos) : Context :=
  { x.setBuffer i (.fetching k) with nextFetch := some (k + 1), position := next }

theorem startFetch_eq {s : State} {c : Fin 8} {i : BufferId} {n k : Nat} {pos : SegPos} {j : Fin 512} {r : JobRecord}
    (hjob : (s.context c).job = some n) (hfound : s.findJob n = some (j, r)) (hflow : (s.context c).flowing = true)
    (hempty : (s.context c).buffer i = .empty) (hk : (s.context c).nextFetch = some k) (hpos : (s.context c).position = some pos)
    (hle : k ≤ r.segments) :
    s.startFetch c i = (s.pushRead ⟨c, .fetch, n, pos, k⟩).setContext c
      (fetchingInto (s.context c) i k (if k + 1 ≤ r.segments then s.nextPos pos else none)) := by
  simp only [State.startFetch, hjob, hk, hpos, hfound, hflow, hempty, hle, and_self, if_true]
  rfl

/-- A fetch is started into an EMPTY buffer of a flowing stream, or nothing is (R69). -/
theorem startFetch_cases (s : State) (c : Fin 8) (i : BufferId) :
    s.startFetch c i = s ∨
    ∃ n k pos next, (s.context c).job = some n ∧ (s.context c).flowing = true ∧
      s.startFetch c i = (s.pushRead ⟨c, .fetch, n, pos, k⟩).setContext c (fetchingInto (s.context c) i k next) := by
  unfold State.startFetch
  dsimp only
  split
  · rename_i n k pos hjob _ _
    split
    · exact .inl rfl
    · split
      · rename_i hif
        exact .inr ⟨n, k, pos, _, hjob, hif.1, rfl⟩
      · exact .inl rfl
  · exact .inl rfl

/-- A stream that does not flow fetches and sends nothing (R69, R71). -/
theorem pump_idle {s : State} {c : Fin 8} (h : (s.context c).flowing = false) : s.pump c = s := by
  have hfetch (i : BufferId) : s.startFetch c i = s := by
    rcases startFetch_cases s c i with e | ⟨_, _, _, _, _, hflow, _⟩
    · exact e
    · simp [h] at hflow
  have hfetches : s.startFetches c = s := by
    rw [State.startFetches, hfetch, hfetch]
  simp only [State.pump, State.pumpFor, hfetches, trySend_none (.inl h)]

/-- Settles O33: a HALTED stream takes the credit, and then does not flow. -/
theorem creditRaisesCredit : Obligations.CreditRaisesCredit := by
  intro s c p j r n hnumber h1 hn hframe hbound hstate hpending
  have htaken : s.tookFp.takeCredit p r.number n = s.tookFp.addCredit c r n := by
    simp only [State.takeCredit, (tookFp_bound hbound).binds, (tookFp_bound hbound).found]
    exact if_pos ⟨(streaming_iff _).2 (.inr hstate), hpending, h1⟩
  rw [execCredit_eq hframe hnumber hn, htaken, State.addCredit]
  refine congrArg _ (pump_idle (flowing_halted ?_))
  rw [State.setContext_context]
  exact hstate

/-! ### All fetches and sends of one event (R69 to R72) -/

/-- Context `y` with the fields that fetching and sending write as they stand in `x`. -/
def withFlowOf (x y : Context) : Context :=
  { y with
    nextFetch := x.nextFetch, position := x.position, sent := x.sent, bufA := x.bufA, bufB := x.bufB, credit := x.credit,
    lastSheet := x.lastSheet, lastSent := x.lastSent }

/-- From `s` to `t`, context `c` of printer `p` and job `n` has sent the frames `sends`, each segment taking one of the credit, and has
asked for the reads `asked`; nothing else has changed. -/
structure Pumped (c : Fin 8) (p : Fin 64) (n : Nat) (s t : State) (sends : List TxFrame) (asked : List ReadEntry) : Prop where
  context  : withFlowOf (s.context c) (t.context c) = s.context c
  credit   : (t.context c).credit + sends.length = (s.context c).credit
  sent     : (t.context c).sent = (s.context c).sent + sends.length
  contexts : ∀ d, d ≠ c → t.context d = s.context d
  notices  : t.se.notices = s.se.notices
  fp       : t.fp = { s.fp with tx := s.fp.tx ++ sends }
  age      : t.age = s.age + sends.length
  frames   : ∀ x ∈ sends, x.dst = (s.printer p).station ∧ ∃ last k seg, x.frame = .streamData last n k seg
  hsc      : t.hsc = { s.hsc with reads := s.hsc.reads ++ asked }
  asks     : ∀ x ∈ asked, x.context = c ∧ x.kind = .fetch ∧ x.job = n
  rest     : { t with se := s.se, hsc := s.hsc, fp := s.fp, age := s.age } = s

section
variable {c : Fin 8} {p : Fin 64} {n : Nat} {s t u : State} {sends sends' : List TxFrame} {asked asked' : List ReadEntry}

theorem Pumped.refl : Pumped c p n s s [] [] where
  context := rfl
  credit := rfl
  sent := rfl
  contexts _ _ := rfl
  notices := rfl
  fp := by simp
  age := rfl
  frames := by simp
  hsc := by simp
  asks := by simp
  rest := rfl

theorem Pumped.owner (h : Pumped c p n s t sends asked) : (t.context c).owner = (s.context c).owner := by
  rw [← h.context]
  rfl

theorem Pumped.job (h : Pumped c p n s t sends asked) : (t.context c).job = (s.context c).job := by
  rw [← h.context]
  rfl

theorem Pumped.record (h : Pumped c p n s t sends asked) (i : Fin 512) : t.job i = s.job i :=
  (congrArg (fun x : State => x.job i) h.rest :)

theorem Pumped.printer (h : Pumped c p n s t sends asked) : t.printer p = s.printer p :=
  (congrArg (fun x : State => x.printer p) h.rest :)

theorem Pumped.trans (h : Pumped c p n s t sends asked) (h' : Pumped c p n t u sends' asked') :
    Pumped c p n s u (sends ++ sends') (asked ++ asked') where
  context := (congrArg (withFlowOf (s.context c)) h'.context).trans h.context
  credit := by
    have := h.credit
    have := h'.credit
    rw [List.length_append]
    omega
  sent := by rw [h'.sent, h.sent, List.length_append, Nat.add_assoc]
  contexts d hd := (h'.contexts d hd).trans (h.contexts d hd)
  notices := h'.notices.trans h.notices
  fp := by rw [h'.fp, h.fp, List.append_assoc]
  age := by rw [h'.age, h.age, List.length_append, Nat.add_assoc]
  frames x hx := (List.mem_append.1 hx).elim (h.frames x) fun hx' => h.printer ▸ h'.frames x hx'
  hsc := by rw [h'.hsc, h.hsc, List.append_assoc]
  asks x hx := (List.mem_append.1 hx).elim (h.asks x) (h'.asks x)
  rest := (congrArg (fun x : State => { x with se := s.se, hsc := s.hsc, fp := s.fp, age := s.age }) h'.rest).trans h.rest

theorem startFetch_pumped (hjob : (s.context c).job = some n) (i : BufferId) :
    ∃ asked, Pumped c p n s (s.startFetch c i) [] asked := by
  rcases startFetch_cases s c i with e | ⟨n', k, pos, next, hjob', -, e⟩
  · exact ⟨[], by rw [e]; exact .refl⟩
  · obtain rfl : n' = n := Option.some.inj (hjob'.symm.trans hjob)
    have hc : (s.startFetch c i).context c = fetchingInto (s.context c) i k next := by rw [e, State.setContext_context]
    refine ⟨[⟨c, .fetch, n', pos, k⟩], ?_⟩
    exact
      { context := by rw [hc]; cases i <;> rfl
        credit := by rw [hc]; cases i <;> rfl
        sent := by rw [hc]; cases i <;> rfl
        contexts := fun d hd => by rw [e, State.setContext_context_other _ _ _ hd]; rfl
        notices := by rw [e]; rfl
        fp := by rw [e]; simp
        age := by rw [e]; rfl
        frames := by simp
        hsc := by rw [e]; rfl
        asks := by simp
        rest := by rw [e]; rfl }

theorem startFetches_pumped (hjob : (s.context c).job = some n) : ∃ asked, Pumped c p n s (s.startFetches c) [] asked := by
  obtain ⟨asked, h⟩ := startFetch_pumped (p := p) hjob .a
  obtain ⟨asked', h'⟩ := startFetch_pumped (p := p) (h.job.trans hjob) .b
  exact ⟨asked ++ asked', h.trans h'⟩

/-- One segment that goes out is one frame to the printer and one off the credit (R71). -/
theorem trySend_pumped (howner : (s.context c).owner = some p) (hjob : (s.context c).job = some n) (h : s.trySend c = some t) :
    ∃ sends, Pumped c p n s t sends [] := by
  unfold State.trySend at h
  simp only [howner, hjob] at h
  split at h
  · cases h
  · split at h
    · rename_i hif
      split at h
      · rename_i i seg last discarding _ _
        obtain rfl := Option.some.inj h
        refine ⟨[⟨s.age, (s.printer p).station, .streamData last n ((s.context c).sent + 1) seg⟩], ?_⟩
        exact
          { context := by rw [State.setContext_context]; cases i <;> rfl
            credit := by rw [State.setContext_context]; exact Nat.sub_add_cancel hif.2
            sent := by rw [State.setContext_context]; rfl
            contexts := fun d hd => State.setContext_context_other _ _ _ hd
            notices := rfl
            fp := rfl
            age := rfl
            frames := by simp
            hsc := by rw [List.append_nil]; rfl
            asks := by simp
            rest := rfl }
      · cases h
    · cases h

theorem pumpFor_pumped (fuel : Nat) (howner : (s.context c).owner = some p) (hjob : (s.context c).job = some n) :
    ∃ sends asked, Pumped c p n s (State.pumpFor fuel c s) sends asked := by
  induction fuel generalizing s with
  | zero => exact ⟨[], startFetches_pumped hjob⟩
  | succ fuel ih =>
    obtain ⟨asked, h⟩ := startFetches_pumped (p := p) hjob
    unfold State.pumpFor
    dsimp only
    split
    · rename_i u hu
      obtain ⟨sends, h'⟩ := trySend_pumped (h.owner.trans howner) (h.job.trans hjob) hu
      obtain ⟨sends', asked', h''⟩ := ih (s := u) ((h.trans h').owner.trans howner) ((h.trans h').job.trans hjob)
      exact ⟨_, _, (h.trans h').trans h''⟩
    · exact ⟨[], asked, h⟩

end

/-! ### From empty buffers (R69) -/

/-- Neither buffer is FULL. -/
def NoneFull (x : Context) : Prop := (∀ k seg, x.bufA ≠ .full k seg) ∧ ∀ k seg, x.bufB ≠ .full k seg

theorem startFetch_noneFull {s : State} {c : Fin 8} (h : NoneFull (s.context c)) (i : BufferId) :
    NoneFull ((s.startFetch c i).context c) := by
  rcases startFetch_cases s c i with e | ⟨_, k, _, _, _, _, e⟩
  · rwa [e]
  · rw [e, State.setContext_context]
    obtain ⟨hA, hB⟩ := h
    cases i with
    | a => exact ⟨fun _ _ => Buffer.noConfusion, hB⟩
    | b => exact ⟨hA, fun _ _ => Buffer.noConfusion⟩

/-- With no buffer FULL an event starts fetches and sends nothing. -/
theorem pump_noneFull {s : State} {c : Fin 8} (h : NoneFull (s.context c)) : s.pump c = s.startFetches c := by
  obtain ⟨hA, hB⟩ : NoneFull ((s.startFetches c).context c) := startFetch_noneFull (startFetch_noneFull h .a) .b
  simp only [State.pump, State.pumpFor, trySend_none (.inr (fullWith_none (hA _) (hB _)))]

/-- From empty buffers the next two segments are asked for, buffer A first (R69, log entry 22). -/
theorem startFetches_both {s : State} {c : Fin 8} {n k : Nat} {pos next : SegPos} {j : Fin 512} {r : JobRecord}
    (hjob : (s.context c).job = some n) (hfound : s.findJob n = some (j, r)) (hflow : (s.context c).flowing = true)
    (hA : (s.context c).bufA = .empty) (hB : (s.context c).bufB = .empty) (hk : (s.context c).nextFetch = some k)
    (hpos : (s.context c).position = some pos) (hle : k + 1 ≤ r.segments) (hnext : s.nextPos pos = some next) :
    (s.startFetches c).hsc.reads = s.hsc.reads ++ [⟨c, .fetch, n, pos, k⟩, ⟨c, .fetch, n, next, k + 1⟩] ∧
    ((s.startFetches c).context c).bufA = .fetching k ∧ ((s.startFetches c).context c).bufB = .fetching (k + 1) ∧
    ((s.startFetches c).context c).nextFetch = some (k + 2) := by
  have hfirst : s.startFetch c .a = (s.pushRead ⟨c, .fetch, n, pos, k⟩).setContext c (fetchingInto (s.context c) .a k (some next)) := by
    rw [startFetch_eq (i := .a) hjob hfound hflow hA hk hpos (by omega), if_pos hle, hnext]
  have hcontext : (s.startFetch c .a).context c = fetchingInto (s.context c) .a k (some next) := by
    rw [hfirst, State.setContext_context]
  have hfound' : (s.startFetch c .a).findJob n = some (j, r) := by rw [hfirst]; exact hfound
  have hsecond := startFetch_eq (i := .b) (by rw [hcontext]; exact hjob) hfound' (by rw [hcontext]; exact hflow)
    (by rw [hcontext]; exact hB) (by rw [hcontext]; rfl) (by rw [hcontext]; rfl) hle
  rw [State.startFetches, hsecond, State.setContext_context, hcontext]
  refine ⟨?_, rfl, rfl, rfl⟩
  rw [hfirst]
  exact List.append_assoc _ _ _

end Sys2Proof.Machine.Streams
end

