-- ==== Sys2Proof/Proofs/Streams/Accept.lean ====
section
/-! SUPPORT. STREAM_ACCEPT: the stream starts with the credit of the frame, and fetches and sends what the event allows (R64, R67, R69,
R71). -/

namespace Sys2Proof.Machine.Streams

/-! ### Finding the record of a job that has been written -/

/-- A search finds the entry that it found before, with what has been written to it, whether or not the table is canonical. -/
theorem findListed_set {n : Nat} {α : Type} [DecidableEq α] {d : Fin n → α} {t : Table n α} {q : α → Bool} {i : Fin n} {x v : α}
    (h : t.findListed q = some (i, x)) (hv : v ≠ d i) (hq : q v = true) : (t.set d i v).findListed q = some (i, v) := by
  obtain ⟨cells⟩ := t
  simp only [Table.findListed, Table.set, if_neg hv] at h ⊢
  induction cells with
  | nil => cases h
  | cons a rest ih =>
    obtain ⟨k, y⟩ := a
    simp only [insertCell]
    split
    · simp [hq]
    · split
      · simp [hq]
      · rename_i hik
        cases hy : q y with
        | true => simp [hy, Ne.symm hik] at h
        | false =>
          rw [List.find?_cons_of_neg (by simp [hy])] at h ⊢
          exact ih h

/-- The live record of a number stays the one found when it is written and stays live (R28). -/
theorem findJob_setJob {s : State} {n : Nat} {j : Fin 512} {r v : JobRecord} (h : s.findJob n = some (j, r)) (hlive : v.state ≠ .free)
    (hnumber : v.number = n) : (s.setJob j v).findJob n = some (j, v) :=
  findListed_set h (fun e => hlive (by rw [e]; rfl)) (by simp [hlive, hnumber])

/-! ### The accepted stream (R67) -/

/-- The context of an accepted stream (R67). -/
def acceptedContext (s : State) (x : Context) (r : JobRecord) (credit : Nat) : Context :=
  { x with state := .running, step := none, credit := min credit 8, stall := some (s.stallLoad r) }

/-- The state when the job is PRINTING and its context RUNNING, before anything is fetched or sent (R67). -/
def accepted (s : State) (c : Fin 8) (j : Fin 512) (r : JobRecord) (credit : Nat) : State :=
  (s.setJob j { r with state := .printing }).setContext c (acceptedContext s (s.context c) r credit)

section
variable {s : State} {c : Fin 8} {p : Fin 64} {j : Fin 512} {r : JobRecord} {credit : Nat}

theorem takeAccept_eq (h : BoundStream s c p j r) (hopening : (s.context c).state = .opening) (hsent : (s.context c).step = some .sent)
    (credit : Nat) : s.takeAccept p r.number credit = s.acceptStream c p j r credit := by
  simp only [State.takeAccept, h.binds, h.found, hopening, hsent, and_self, if_true]

theorem acceptStream_ready (hready : (s.cond p).state = some .ready ∨ (s.cond p).state = some .degraded) :
    s.acceptStream c p j r credit = (accepted s c j r credit).pump c := if_pos hready

theorem accepted_context : (accepted s c j r credit).context c = acceptedContext s (s.context c) r credit :=
  State.setContext_context _ _ _

/-- From empty buffers an accepted stream sends nothing (R69). -/
theorem pump_accepted_empty (hA : (s.context c).bufA = .empty) (hB : (s.context c).bufB = .empty) :
    (accepted s c j r credit).pump c = (accepted s c j r credit).startFetches c := by
  refine pump_noneFull ?_
  rw [accepted_context]
  exact ⟨fun _ _ e => Buffer.noConfusion (hA.symm.trans e), fun _ _ e => Buffer.noConfusion (hB.symm.trans e)⟩

/-- From empty buffers it asks for its next two segments (R69). -/
theorem startFetches_accepted (h : BoundStream s c p j r) {k : Nat} {pos next : SegPos} (hA : (s.context c).bufA = .empty)
    (hB : (s.context c).bufB = .empty) (hpending : (s.context c).pendingEnd = none) (hlast : (s.context c).lastSent = false)
    (hk : (s.context c).nextFetch = some k) (hpos : (s.context c).position = some pos) (hle : k + 1 ≤ r.segments)
    (hnext : s.nextPos pos = some next) :
    ((accepted s c j r credit).startFetches c).hsc.reads =
      s.hsc.reads ++ [⟨c, .fetch, r.number, pos, k⟩, ⟨c, .fetch, r.number, next, k + 1⟩] ∧
    (((accepted s c j r credit).startFetches c).context c).bufA = .fetching k ∧
    (((accepted s c j r credit).startFetches c).context c).bufB = .fetching (k + 1) ∧
    (((accepted s c j r credit).startFetches c).context c).nextFetch = some (k + 2) := by
  have hfound : (accepted s c j r credit).findJob r.number = some (j, { r with state := .printing }) :=
    findJob_setJob h.found (by simp) rfl
  refine startFetches_both ?_ hfound ?_ ?_ ?_ ?_ ?_ hle hnext <;> rw [accepted_context]
  · exact h.job
  · exact (flowing_iff _).2 ⟨rfl, hpending, hlast⟩
  · exact hA
  · exact hB
  · exact hk
  · exact hpos

end

/-- What an accepted stream fetches and sends in the event, and what that is from empty buffers (R69, R71). -/
theorem accept_runs {s : State} {c : Fin 8} {p : Fin 64} {j : Fin 512} {r : JobRecord} {credit : Nat} (h : BoundStream s c p j r) :
    ∃ sends asked, Pumped c p r.number (accepted s c j r credit) ((accepted s c j r credit).pump c) sends asked ∧
      ((s.context c).bufA = .empty → (s.context c).bufB = .empty → sends = []) ∧
      ∀ (k : Nat) (pos next : SegPos), (s.context c).bufA = .empty → (s.context c).bufB = .empty →
        (s.context c).pendingEnd = none → (s.context c).lastSent = false → (s.context c).nextFetch = some k →
        (s.context c).position = some pos → k + 1 ≤ r.segments → s.nextPos pos = some next →
        asked = [⟨c, .fetch, r.number, pos, k⟩, ⟨c, .fetch, r.number, next, k + 1⟩] ∧
        (((accepted s c j r credit).pump c).context c).bufA = .fetching k ∧
        (((accepted s c j r credit).pump c).context c).bufB = .fetching (k + 1) ∧
        (((accepted s c j r credit).pump c).context c).nextFetch = some (k + 2) := by
  have howner : ((accepted s c j r credit).context c).owner = some p := by rw [accepted_context]; exact h.owner
  have hjob : ((accepted s c j r credit).context c).job = some r.number := by rw [accepted_context]; exact h.job
  by_cases hempty : (s.context c).bufA = .empty ∧ (s.context c).bufB = .empty
  · obtain ⟨asked, hpumped⟩ := startFetches_pumped (p := p) hjob
    rw [pump_accepted_empty hempty.1 hempty.2]
    refine ⟨[], asked, hpumped, fun _ _ => rfl, fun k pos next hA hB hpending hlast hk hpos hle hnext => ?_⟩
    obtain ⟨hreads, hbuffers⟩ := startFetches_accepted (credit := credit) h hA hB hpending hlast hk hpos hle hnext
    rw [hpumped.hsc] at hreads
    exact ⟨List.append_cancel_left hreads, hbuffers⟩
  · obtain ⟨sends, asked, hpumped⟩ := pumpFor_pumped 3 howner hjob
    exact ⟨sends, asked, hpumped, fun hA hB => absurd ⟨hA, hB⟩ hempty, fun _ _ _ hA hB => absurd ⟨hA, hB⟩ hempty⟩

/-- Settles O31: at a printer that is not READY or DEGRADED the stream is HALTED at once; at one that is, `accept_runs` gives what the
event fetches and sends. -/
theorem streamAcceptStartsStream : Obligations.StreamAcceptStartsStream := by
  intro s c p j r credit tag hcredit htag hframe
  rw [execStreamAccept_eq hframe htag hcredit]
  refine ⟨?_, fun hbinds hnot => ?_, fun hunbound => ⟨Config.unboundAbortSent, Config.unboundAbortSheet, ?_⟩⟩
  · rintro hbound rfl hopening hsent
    have hbound' : BoundStream s.tookFp c p j r := tookFp_bound hbound
    rw [takeAccept_eq hbound' hopening hsent]
    refine ⟨fun hready hdegraded => congrArg _ (if_neg ?_), fun hready => ?_⟩
    · exact fun e => e.elim hready hdegraded
    · rw [acceptStream_ready (s := s.tookFp) hready]
      obtain ⟨sends, asked, hpumped, hempty, hboth⟩ := accept_runs (credit := credit) hbound'
      have hcontext := hpumped.context
      have hsum := hpumped.credit
      have hsent' := hpumped.sent
      rw [accepted_context] at hcontext hsum hsent'
      refine ⟨_, sends, asked, rfl, hcontext, hsum, hsent', hpumped.fp, hpumped.age, hpumped.frames, hpumped.hsc, hpumped.asks, hempty,
        hboth, ?_, fun i hi => ?_, fun d hd => ?_, hpumped.notices, ?_⟩
      · exact (hpumped.record j).trans (State.setJob_job _ _ _)
      · exact (hpumped.record i).trans (State.setJob_job_other _ _ _ hi)
      · exact (hpumped.contexts d hd).trans (State.setContext_context_other _ _ _ hd)
      · exact congrArg (fun t : State => { t with jobs := s.jobs, se := s.se, hsc := s.hsc, fp := s.fp, age := s.age }) hpumped.rest
  · have hbinds' : s.tookFp.boundTo p tag = some c := hbinds
    simp only [State.takeAccept, hbinds']
    exact congrArg _ (if_neg fun e => hnot.elim (fun f => f e.1) (fun f => f e.2))
  · have hunbound' : s.tookFp.boundTo p tag = none := hunbound
    simp only [State.takeAccept, hunbound']
    rfl

end Sys2Proof.Machine.Streams
end

