-- ==== Sys2Proof/Proofs/Streams/JobEnds.lean ====
section
/-! SUPPORT. The end of a job and the park of a job, each said once: what is freed, settled and offered, what a park writes, and how an end
that need not wait comes to be carried out (R23, R28, R77, R78, R96, R99, R100, R107). -/

namespace Sys2Proof.Machine.Streams

/-! ### The chain and the record (R23, R28) -/

/-- The hold store with the links and the pool as they stand in `h`. -/
def withPoolOf (h x : HoldStore) : HoldStore :=
  { x with links := h.links, poolHead := h.poolHead, poolTail := h.poolTail, poolLength := h.poolLength }

/-- From `s` to `t` the chain of the job in record `j` has gone to the pool, or it had none: the record's chain fields, the links and the
pool are all that has changed. -/
structure ChainFreed (j : Fin 512) (s t : State) : Prop where
  record  : ∃ head tail n, t.job j = { s.job j with chainHead := head, chainTail := tail, extents := n }
  records : ∀ i, i ≠ j → t.job i = s.job i
  hsc     : withPoolOf s.hsc t.hsc = s.hsc
  rest    : { t with jobs := s.jobs, hsc := s.hsc } = s

theorem appendPool_frame (s : State) (head tail : Fin 4096) (n : Nat) :
    withPoolOf s.hsc (s.appendPool head tail n).hsc = s.hsc ∧ { s.appendPool head tail n with hsc := s.hsc } = s := by
  unfold State.appendPool
  cases s.hsc.poolTail <;> exact ⟨rfl, rfl⟩

theorem freeChain_freed (s : State) (j : Fin 512) : ChainFreed j s (s.freeChain j) := by
  rcases s.freeChain_cases j with e | ⟨head, tail, -, -, e⟩
  · rw [e]
    exact ⟨⟨_, _, _, rfl⟩, fun _ _ => rfl, rfl, rfl⟩
  · obtain ⟨hsc, rest⟩ := appendPool_frame s head tail (s.job j).extents
    rw [e]
    exact
      { record := ⟨none, none, 0, State.setJob_job _ _ _⟩
        records := fun i hi => (State.setJob_job_other _ _ _ hi).trans (congrArg (fun x => x.job i) rest)
        hsc := hsc
        rest := congrArg (fun x : State => { x with jobs := s.jobs }) rest }

/-- From `s` to `t` the job in record `j` has gone: its record is FREE, its chain is in the pool, and its user has one live job fewer. -/
structure JobDropped (j : Fin 512) (s t : State) : Prop where
  record  : t.job j = JobRecord.powerOn
  records : ∀ i, i ≠ j → t.job i = s.job i
  user    : t.user (s.job j).user = { s.user (s.job j).user with liveJobs := (s.user (s.job j).user).liveJobs - 1 }
  tables  : { t.tables with users := s.tables.users } = s.tables
  hsc     : withPoolOf s.hsc t.hsc = s.hsc
  rest    : { t with jobs := s.jobs, hsc := s.hsc, tables := s.tables } = s

theorem dropJob_dropped (s : State) (j : Fin 512) : JobDropped j s (s.dropJob j) := by
  obtain ⟨⟨head, tail, n, record⟩, records, hsc, rest⟩ := freeChain_freed s j
  have hfreed : s.dropJob j =
      ((s.freeChain j).setUser (s.job j).user
        { (s.freeChain j).user (s.job j).user with liveJobs := ((s.freeChain j).user (s.job j).user).liveJobs - 1 }).setJob j
        JobRecord.powerOn := by
    simp only [State.dropJob, State.freeRecord, record]
  have user (u : Fin 8192) : (s.freeChain j).user u = s.user u := (congrArg (fun x : State => x.user u) rest :)
  have tables : (s.freeChain j).tables = s.tables := (congrArg (fun x : State => x.tables) rest :)
  rw [hfreed, user]
  exact
    { record := State.setJob_job _ _ _
      records := fun i hi => (State.setJob_job_other _ _ _ hi).trans (records i hi)
      user := State.setUser_user _ _ _
      tables := congrArg (fun x => { x with users := s.tables.users }) tables
      hsc := hsc
      rest := congrArg (fun x : State => { x with tables := s.tables }) rest }

/-! ### Settled and dropped (R96, R99, R100) -/

/-- From `m` to `m'` the MU has taken the JOB-AUDIT `a` into its report queue, or dropped and counted it (R168). -/
def AuditOffered (a : JobAudit) (m m' : ManagementUnit) : Prop :=
  (m.reports.length < 64 ∧ m' = { m with reports := m.reports ++ [⟨m.clock, .audit a⟩] }) ∨
  (64 ≤ m.reports.length ∧ m' = { m with droppedAudits := min (m.droppedAudits + 1) 65535 })

theorem AuditOffered.frame {a : JobAudit} {m m' : ManagementUnit} (h : AuditOffered a m m') :
    { m' with reports := m.reports, droppedAudits := m.droppedAudits } = m := by
  rcases h with ⟨-, rfl⟩ | ⟨-, rfl⟩ <;> rfl

/-- A JOB-AUDIT that is offered changes the MU only. -/
theorem offerAudit_offered (s : State) (a : JobAudit) : ∃ m, AuditOffered a s.mu m ∧ s.offerAudit a = { s with mu := m } := by
  rcases s.offerAudit_cases a with ⟨hroom, e⟩ | ⟨hfull, e⟩
  · exact ⟨_, .inl ⟨hroom, rfl⟩, e⟩
  · exact ⟨_, .inr ⟨hfull, rfl⟩, e⟩

/-- The JOB-AUDIT of a settlement of job `r`, for its reason and with its reservation (R100). -/
def SettlementAudit (r : JobRecord) (res : Nat) (reason : EndReason) (a : JobAudit) : Prop :=
  a.job = r.number ∧ a.reason = reason ∧ a.disposition = .settled ∧ a.reservation = res

theorem settleAudit_settles {s : State} {j : Fin 512} {res : Nat} (hres : (s.job j).reservation = some res) (reason : EndReason) :
    SettlementAudit (s.job j) res reason (s.settleAudit j reason) := by
  simp [SettlementAudit, State.settleAudit, hres]

/-- From `s` to `t` the job `r` in record `j`, holding the reservation `res`, has been settled for `reason`, its JOB-AUDIT offered, and
dropped: what the job table, the loaded tables and the MU show of it. -/
structure JobSettled (j : Fin 512) (r : JobRecord) (res : Nat) (reason : EndReason) (s t : State) : Prop where
  record   : t.job j = JobRecord.powerOn
  records  : ∀ i, i ≠ j → t.job i = s.job i
  account  : t.account r.account = (s.account r.account).settle (computeCharge r.tallies (s.plan (s.account r.account).plan)) res
  accounts : ∀ i, i ≠ r.account → t.account i = s.account i
  user     : t.user r.user = { s.user r.user with liveJobs := (s.user r.user).liveJobs - 1 }
  tables   : { t.tables with accounts := s.tables.accounts, users := s.tables.users } = s.tables
  audit    : ∃ a, SettlementAudit r res reason a ∧ AuditOffered a s.mu t.mu

/-- The settled and dropped job, with the frame: the pool is all else that has changed. -/
theorem settleWithAudit_dropJob {s : State} {j : Fin 512} {r : JobRecord} {res : Nat} (hheld : s.job j = r)
    (hres : r.reservation = some res) (reason : EndReason) :
    JobSettled j r res reason s ((s.settleWithAudit j reason).dropJob j) ∧
    withPoolOf s.hsc ((s.settleWithAudit j reason).dropJob j).hsc = s.hsc ∧
    { (s.settleWithAudit j reason).dropJob j with jobs := s.jobs, hsc := s.hsc, tables := s.tables, mu := s.mu } = s := by
  subst hheld
  obtain ⟨m, hoffered, hsettled⟩ := offerAudit_offered (s.settleJob j) (s.settleAudit j reason)
  rw [← State.settleWithAudit, State.settleJob_some hres] at hsettled
  rw [State.settleJob_some hres] at hoffered
  have hj : (s.settleWithAudit j reason).job j = { s.job j with reservation := none } := by
    rw [hsettled]
    exact State.setJob_job _ _ _
  obtain ⟨record, records, user, tables, hsc, rest⟩ := dropJob_dropped (s.settleWithAudit j reason) j
  rw [hj] at user
  have accounts (i : Fin 1024) : ((s.settleWithAudit j reason).dropJob j).account i = (s.settleWithAudit j reason).account i :=
    (congrArg (fun x : Tables => x.accounts.get (fun _ => AccountEntry.powerOn) i) tables :)
  have mu : ((s.settleWithAudit j reason).dropJob j).mu = (s.settleWithAudit j reason).mu := (congrArg State.mu rest :)
  generalize (s.settleWithAudit j reason).dropJob j = t at *
  rw [hsettled] at records user tables hsc rest accounts mu
  refine ⟨?_, hsc, congrArg (fun x : State => { x with jobs := s.jobs, tables := s.tables, mu := s.mu }) rest⟩
  exact
    { record := record
      records := fun i hi => (records i hi).trans (State.setJob_job_other _ _ _ hi)
      account := (accounts _).trans (State.setAccount_account s _ _)
      accounts := fun i hi => (accounts i).trans (State.setAccount_account_other s _ _ hi)
      user := user
      tables := congrArg (fun x : Tables => { x with accounts := s.tables.accounts }) tables
      audit := ⟨_, settleAudit_settles hres reason, mu ▸ hoffered⟩ }

/-- What of a settlement is shown rests on the job table, the loaded tables and the MU alone. -/
theorem JobSettled.congr {j : Fin 512} {r : JobRecord} {res : Nat} {reason : EndReason} {s s' t t' : State}
    (h : JobSettled j r res reason s t) (hs : s'.jobs = s.jobs ∧ s'.tables = s.tables ∧ s'.mu = s.mu)
    (ht : t'.jobs = t.jobs ∧ t'.tables = t.tables ∧ t'.mu = t.mu) : JobSettled j r res reason s' t' := by
  obtain ⟨record, records, account, accounts, user, tables, audit⟩ := h
  obtain ⟨hjobs, htables, hmu⟩ := hs
  obtain ⟨hjobs', htables', hmu'⟩ := ht
  simp only [State.job, State.account, State.user, State.plan] at *
  constructor <;> simpa only [State.job, State.account, State.user, State.plan, hjobs, htables, hmu, hjobs', htables', hmu']

/-! ### Parks (R78, R107) -/

/-- From `s` to `t` the job `r` in record `j` has parked from context `c`, which is SAVED for its owner and names it. -/
structure ParkedFrom (c : Fin 8) (j : Fin 512) (r : JobRecord) (reason : ParkReason) (sheet : Nat) (s t : State) : Prop where
  record   : t.job j = { r with
    state := .parked, parkReason := some reason, resumeSheet := some sheet, parkedAt := some s.mu.clock,
    countdown := some ⟨(s.zone r.zone).parkHoldTime, false⟩, boundPrinter := none, boundContext := none }
  records  : ∀ i, i ≠ j → t.job i = s.job i
  context  : ∃ a b next pos, t.context c = { s.context c with
    state := .saved, job := none, mode := none, step := none, credit := 0, stall := none, park := none, pendingEnd := none,
    saveDone := true, parkedJob := some r.number, bufA := a, bufB := b, nextFetch := next, position := pos }
  contexts : ∀ d, d ≠ c → t.context d = s.context d
  notices  : t.se.notices = s.se.notices
  ru       : t.ru = { s.ru with saved := s.ru.saved ++ [c] }
  hsc      : t.hsc = { s.hsc with reads := s.hsc.reads.filter (fun x => x.context != c) }
  rest     : { t with jobs := s.jobs, hsc := s.hsc, se := s.se, ru := s.ru } = s

/-- The withdrawal of a context's reads changes the read queue, and of the contexts only its own buffers and next fetch (R77). -/
theorem withdrawReads_eq (s : State) (c : Fin 8) : ∃ a b next pos,
    s.withdrawReads c =
      (s.removeReads c).setContext c { s.context c with bufA := a, bufB := b, nextFetch := next, position := pos } := by
  unfold State.withdrawReads
  dsimp only
  split <;> exact ⟨_, _, _, _, rfl⟩

theorem endPark_parked {s : State} {c : Fin 8} {j : Fin 512} {r : JobRecord} (hheld : s.job j = r) (reason : ParkReason) (sheet : Nat) :
    ParkedFrom c j r reason sheet s ((s.withdrawReads c).endPark c j reason sheet) := by
  subst hheld
  obtain ⟨a, b, next, pos, e⟩ := withdrawReads_eq s c
  rw [e]
  exact
    { record := State.setJob_job _ _ _
      records := fun i hi => State.setJob_job_other _ _ _ hi
      context := ⟨a, b, next, pos, by rw [State.endPark, State.saveContext_context, State.setContext_context]; rfl⟩
      contexts := fun d hd => (State.saveContext_context_other _ hd _).trans (State.setContext_context_other _ _ _ hd)
      notices := rfl
      ru := rfl
      hsc := rfl
      rest := by simp [State.endPark, State.parkJob, State.saveContext, State.joinSaved] }

theorem ParkedFrom.resetWait {c : Fin 8} {j : Fin 512} {r : JobRecord} {reason : ParkReason} {sheet : Nat} {s t : State}
    (h : ParkedFrom c j r reason sheet s t) (p : Fin 64) : t.resetWait p = s.resetWait p :=
  (congrArg (fun x : State => x.resetWait p) h.rest :)

theorem ParkedFrom.queue {c : Fin 8} {j : Fin 512} {r : JobRecord} {reason : ParkReason} {sheet : Nat} {s t : State}
    (h : ParkedFrom c j r reason sheet s t) : t.ru.queue = s.ru.queue :=
  (congrArg ReleaseUnit.queue h.ru :)

/-- A park and a frame to a printer leave each other as they are. -/
theorem endPark_sentTo (s : State) (c : Fin 8) (j : Fin 512) (reason : ParkReason) (sheet : Nat) (p : Fin 64) (f : OutFrame) :
    (s.sentTo p f).endPark c j reason sheet = (s.endPark c j reason sheet).sentTo p f := rfl

/-! ### COMPLETE ends (R74) -/

/-- From `s` to `t` the job `r` in record `j` has been settled as COMPLETE from context `c`, which is SAVED for its owner and names no
job. -/
structure CompletedFrom (c : Fin 8) (j : Fin 512) (r : JobRecord) (res : Nat) (s t : State) : Prop where
  settled  : JobSettled j r res .complete s t
  context  : ∃ next pos, t.context c = { s.context c with
    state := .saved, job := none, mode := none, step := none, credit := 0, stall := none, park := none, pendingEnd := none,
    saveDone := true, parkedJob := none, bufA := .empty, bufB := .empty, nextFetch := next, position := pos }
  contexts : ∀ d, d ≠ c → t.context d = s.context d
  ru       : t.ru = { s.ru with saved := s.ru.saved ++ [c] }
  rest     : { t with jobs := s.jobs, tables := s.tables, hsc := s.hsc, se := s.se, ru := s.ru, mu := s.mu } = s

theorem endComplete_completed {s : State} {c : Fin 8} {j : Fin 512} {r : JobRecord} {res : Nat} (hheld : s.job j = r)
    (hres : r.reservation = some res) : CompletedFrom c j r res s ((s.withdrawReads c).endComplete c j) := by
  obtain ⟨a, b, next, pos, e⟩ := withdrawReads_eq s c
  obtain ⟨hsettled, -, hrest⟩ := settleWithAudit_dropJob (s := s.withdrawReads c) (by rw [e]; exact hheld) hres .complete
  rw [State.endComplete]
  generalize ((s.withdrawReads c).settleWithAudit j .complete).dropJob j = u at *
  rw [e] at hsettled hrest ⊢
  have hcontext (d : Fin 8) (hd : d ≠ c) : u.context d = s.context d :=
    (congrArg (fun x : State => x.context d) hrest :).trans (State.setContext_context_other _ _ _ hd)
  have hru : u.ru = s.ru := (congrArg State.ru hrest :)
  exact
    { settled := hsettled.congr ⟨rfl, rfl, rfl⟩ ⟨rfl, rfl, rfl⟩
      context := ⟨next, pos, by rw [State.saveContext_context, State.setContext_context]⟩
      contexts := fun d hd => (State.saveContext_context_other _ hd _).trans (hcontext d hd)
      ru := congrArg (fun x : ReleaseUnit => { x with saved := x.saved ++ [c] }) hru
      rest := congrArg (fun x : State => { x with jobs := s.jobs, hsc := s.hsc, se := s.se, ru := s.ru, mu := s.mu }) hrest }

/-! ### Ends that need not wait (R77) -/

/-- With no end pending and no read in flight an end is carried out at once, the context's queued reads withdrawn. -/
theorem raiseEnd_now {s : State} {c : Fin 8} {p : Fin 64} {j : Fin 512} {r : JobRecord} (howner : (s.context c).owner = some p)
    (hjob : (s.context c).job = some r.number) (hfound : s.findJob r.number = some (j, r)) (hpending : (s.context c).pendingEnd = none)
    (hread : s.readInFlight c = false) (k : EndKind) : s.raiseEnd c k = ((s.withdrawReads c).endAt c j k).afterEnd p := by
  obtain ⟨a, b, next, pos, e⟩ := withdrawReads_eq s c
  have hcontext : (s.withdrawReads c).context c = { s.context c with bufA := a, bufB := b, nextFetch := next, position := pos } := by
    rw [e, State.setContext_context]
  have hread' : (s.withdrawReads c).readInFlight c = false := by rw [e]; exact hread
  have hfound' : (s.withdrawReads c).findJob r.number = some (j, r) := by rw [e]; exact hfound
  simp only [State.raiseEnd, hpending, hread', State.carryOut, hcontext, howner, hjob, Option.bind_some, hfound',
    Bool.false_eq_true, if_false]

/-- Where no PRINTER-RESET and no queue entry waits, nothing follows an end. -/
theorem afterEnd_idle {s : State} {p : Fin 64} (hwait : s.resetWait p = none) (hqueue : s.ru.queue = []) : s.afterEnd p = s := by
  simp [State.afterEnd, hwait, State.runArbiter_empty hqueue]

theorem abort_eq {s : State} {x : Context} {p : Fin 64} {n : Nat} (howner : x.owner = some p) (hjob : x.job = some n)
    (kind : AbortKind) : s.abort x kind = s.sentTo p (.streamAbort n kind x.sent x.lastSheet) := by
  simp only [State.abort, howner, hjob, State.sendPrinter_eq]

theorem nextSheet_eq {r : JobRecord} (h : r.confirmed < 65535) : r.nextSheet = r.confirmed + 1 := if_pos h

end Sys2Proof.Machine.Streams
end

