-- ==== Sys2Proof/Proofs/Streams/Ends.lean ====
section
/-! SUPPORT. The ends of streams and opens: STREAM_END, the two expiries that park, and STREAM_REJECT (R64, R68, R74 to R78). -/

namespace Sys2Proof.Machine.Streams

/-! ### STREAM_END (R74) -/

/-- A STREAM-END of a bound stream that runs or is halted is carried out at once where no read is in flight. -/
theorem takeEnd_now {s : State} {c : Fin 8} {p : Fin 64} {j : Fin 512} {r : JobRecord} (h : BoundStream s c p j r)
    (hstate : (s.context c).state = .running ∨ (s.context c).state = .halted) (hpending : (s.context c).pendingEnd = none)
    (hread : s.readInFlight c = false) (k : EndKind) :
    s.takeEnd p r.number k = ((s.withdrawReads c).endAt c j k).afterEnd p := by
  have hraised : s.takeEnd p r.number k = s.raiseEnd c k := by
    simp only [State.takeEnd, h.binds]
    exact if_pos ((streaming_iff _).2 hstate)
  rw [hraised, raiseEnd_now h.owner h.job h.found hpending hread]

/-- An account after a settlement, its saturating fields as minima (R91, R96). -/
theorem settle_eq (a : AccountEntry) (c : Charge) (res : Nat) :
    a.settle c res = { a with
      balance := a.balance - (min c.amount res : Nat)
      reserved := a.reserved - res
      charged := min (a.charged + (min c.amount res : Nat)) 9999999999
      unbilled := min (a.unbilled + (c.amount - min c.amount res : Nat)) 99999999
      liveReservations := a.liveReservations - 1 } := by
  have sat (limit x y : Int) : satAddInt limit x y = min (x + y) limit := by
    unfold satAddInt
    split <;> omega
  simp only [AccountEntry.settle, sat, chargedAmount]
  rfl

/-- Settles O37: both ends are carried out at once, COMPLETE by settling and dropping the job (`JobSettled`) before its context is SAVED,
STOPPED by a park (`ParkedFrom`). -/
theorem completeEndSettlesAndSaves : Obligations.CompleteEndSettlesAndSaves := by
  refine ⟨fun s c p j r res hnumber hframe hbound hstate hpending hread hqueue hwait hres => ?_,
    fun s c p j r n hnumber hn hframe hbound hstate hpending hread hqueue hwait => ?_⟩
  · have hbound' : BoundStream s.tookFp c p j r := tookFp_bound hbound
    have h := endComplete_completed (c := c) hbound'.held hres
    rw [execStreamEnd_eq hframe (parseStreamEnd_complete hnumber), takeEnd_now hbound' hstate hpending hread]
    change ∃ t, Host.Outcome.next (State.afterEnd (State.endComplete _ _ _) _) = _ ∧ _
    generalize (s.tookFp.withdrawReads c).endComplete c j = t at h ⊢
    obtain ⟨next, pos, hcontext⟩ := h.context
    obtain ⟨audit, haudit, hoffered⟩ := h.settled.audit
    have hwait' : t.resetWait p = none :=
      (congrArg (fun m : ManagementUnit => m.resetWaits.get (fun _ => none) p) hoffered.frame :).trans hwait
    have hqueue' : t.ru.queue = [] := by rw [h.ru]; exact hqueue
    refine ⟨t, by rw [afterEnd_idle hwait' hqueue'], h.settled.record, h.settled.records, h.settled.account.trans (settle_eq _ _ _),
      h.settled.accounts, h.settled.user, ?_⟩
    rw [hcontext]
    refine ⟨rfl, hbound.owner, rfl, rfl, rfl, rfl, rfl, h.contexts, congrArg ReleaseUnit.saved h.ru, fun hroom => ?_, fun hfull => ?_,
      hoffered.frame, h.settled.tables, (congrArg State.fp h.rest :), ?_⟩
    · rcases hoffered with ⟨-, e⟩ | ⟨hfull, -⟩
      · exact ⟨audit, congrArg ManagementUnit.reports e, haudit⟩
      · exact absurd hroom (not_lt.2 hfull)
    · rcases hoffered with ⟨hroom, -⟩ | ⟨-, e⟩
      · exact absurd hroom (not_lt.2 hfull)
      · rw [e]
        exact ⟨rfl, rfl⟩
    · exact congrArg (fun x : State => { x with
        fp := s.fp, jobs := s.jobs, tables := s.tables, hsc := s.hsc, se := s.se, ru := s.ru, mu := s.mu }) h.rest
  · have hbound' : BoundStream s.tookFp c p j r := tookFp_bound hbound
    have h := endPark_parked hbound'.held .stall (stoppedSheet n) (c := c)
    rw [execStreamEnd_eq hframe (parseStreamEnd_stopped hnumber hn), takeEnd_now hbound' hstate hpending hread]
    change ∃ t, Host.Outcome.next (State.afterEnd (State.endPark _ _ _ _ _) _) = _ ∧ _
    generalize (s.tookFp.withdrawReads c).endPark c j .stall (stoppedSheet n) = t at h ⊢
    obtain ⟨a, b, next, pos, hcontext⟩ := h.context
    refine ⟨t, by rw [afterEnd_idle ((h.resetWait p).trans hwait) (h.queue.trans hqueue)], h.record, h.records, ?_⟩
    rw [hcontext]
    exact ⟨rfl, hbound.owner, rfl, rfl, rfl, rfl, rfl, rfl, rfl, rfl, h.contexts, h.notices, h.ru, h.hsc,
      (congrArg (fun x : State => x.fp) h.rest :),
      (congrArg (fun x : State => { x with fp := s.fp, jobs := s.jobs, hsc := s.hsc, se := s.se, ru := s.ru }) h.rest :)⟩

/-! ### Expiries (R75, R76) -/

/-- An end kind that parks the job at its next sheet, with the reason it parks for (R75, R76). -/
def ParksFor (k : EndKind) (reason : ParkReason) : Prop := (k = .stall ∧ reason = .stall) ∨ (k = .parkTimer ∧ reason = .blocked)

theorem ParksFor.endAt {k : EndKind} {reason : ParkReason} (h : ParksFor k reason) (s : State) (c : Fin 8) (j : Fin 512) :
    s.endAt c j k = (s.abort (s.context c) .park).endPark c j reason (s.job j).nextSheet := by
  rcases h with ⟨rfl, rfl⟩ | ⟨rfl, rfl⟩ <;> rfl

/-- A park that comes of an expiry, `a` and `b` the countdowns when it has been taken: STREAM-ABORT PARK goes out. -/
theorem raiseEnd_parks {s : State} {c : Fin 8} {p : Fin 64} {j : Fin 512} {r : JobRecord} {k : EndKind} {reason : ParkReason}
    (h : BoundStream s c p j r) (hpending : (s.context c).pendingEnd = none) (hread : s.readInFlight c = false)
    (hqueue : s.ru.queue = []) (hwait : s.resetWait p = none) (hconfirmed : r.confirmed < 65535) (hk : ParksFor k reason)
    (a b : Option Countdown) :
    ∃ t, ParkedFrom c j r reason (r.confirmed + 1) (s.setContext c { s.context c with stall := a, park := b }) t ∧
      (s.setContext c { s.context c with stall := a, park := b }).raiseEnd c k =
        t.sentTo p (.streamAbort r.number .park (s.context c).sent (s.context c).lastSheet) := by
  generalize hu : s.setContext c { s.context c with stall := a, park := b } = u
  have hcontext : u.context c = { s.context c with stall := a, park := b } := by rw [← hu, State.setContext_context]
  have hheld : u.job j = r := by rw [← hu]; exact h.held
  have hparked := endPark_parked (c := c) hheld reason (r.confirmed + 1)
  have hraised := raiseEnd_now (s := u) (k := k) (by rw [hcontext]; exact h.owner) (by rw [hcontext]; exact h.job)
    (by rw [← hu]; exact h.found) (by rw [hcontext]; exact hpending) (by rw [← hu]; exact hread)
  obtain ⟨buf, buf', next, pos, hwithdrawn⟩ := withdrawReads_eq u c
  have habort : (u.withdrawReads c).abort ((u.withdrawReads c).context c) .park =
      (u.withdrawReads c).sentTo p (.streamAbort r.number .park (s.context c).sent (s.context c).lastSheet) := by
    rw [hwithdrawn, State.setContext_context, hcontext]
    exact abort_eq h.owner h.job .park
  have hjob : (u.withdrawReads c).job j = r := by rw [hwithdrawn]; exact hheld
  have hwait' : u.resetWait p = none := by rw [← hu]; exact hwait
  have hqueue' : u.ru.queue = [] := by rw [← hu]; exact hqueue
  refine ⟨_, hparked, ?_⟩
  rw [hraised, hk.endAt, habort, hjob, nextSheet_eq hconfirmed, endPark_sentTo]
  exact afterEnd_idle ((hparked.resetWait p).trans hwait') (hparked.queue.trans hqueue')

/-- An expiry that is due in its state of the stream raises its end, the countdowns then as taken (R75, R76). -/
theorem execExpiry_raises {s : State} {c : Fin 8} {i : Instr} {reason : ParkReason}
    (h : (i = .stallExpiry c ∧ (s.context c).state = .running ∧ expiryDue (s.context c).stall = true ∧ reason = .stall) ∨
      (i = .parkTimerExpiry c ∧ (s.context c).state = .halted ∧ expiryDue (s.context c).park = true ∧ reason = .blocked)) :
    ∃ k a b, ParksFor k reason ∧
      exec i s = .next ((s.setContext c { s.context c with stall := a, park := b }).raiseEnd c k) := by
  rcases h with ⟨rfl, hstate, hdue, rfl⟩ | ⟨rfl, hstate, hdue, rfl⟩
  · refine ⟨.stall, taken (s.context c).stall, (s.context c).park, .inl ⟨rfl, rfl⟩, ?_⟩
    simp only [exec, execStallExpiry, hdue, hstate, if_true]
  · refine ⟨.parkTimer, (s.context c).stall, taken (s.context c).park, .inr ⟨rfl, rfl⟩, ?_⟩
    simp only [exec, execParkTimerExpiry, hdue, hstate, if_true]

/-- Settles O38: either expiry raises an end that parks the job from its context (`ParkedFrom`). -/
theorem expiryParksStream : Obligations.ExpiryParksStream := by
  intro s c p j r i reason hbound hpending hread hqueue hwait hconfirmed hexpiry
  obtain ⟨k, a, b, hk, hexec⟩ := execExpiry_raises hexpiry
  obtain ⟨t, h, hraised⟩ := raiseEnd_parks hbound hpending hread hqueue hwait hconfirmed hk a b
  obtain ⟨buf, buf', next, pos, hcontext⟩ := h.context
  rw [State.setContext_context] at hcontext
  have hrest : { t with jobs := s.jobs, hsc := s.hsc, se := s.se, ru := s.ru } = s :=
    congrArg (fun x : State => { x with se := s.se }) h.rest
  have htx : (t.sentTo p (.streamAbort r.number .park (s.context c).sent (s.context c).lastSheet)).fp.tx =
      s.fp.tx ++ [⟨s.age, (s.printer p).station, .streamAbort r.number .park (s.context c).sent (s.context c).lastSheet⟩] :=
    (congrArg (fun x : State =>
      (x.sentTo p (.streamAbort r.number .park (s.context c).sent (s.context c).lastSheet)).fp.tx) hrest :)
  refine ⟨_, hexec.trans (congrArg _ hraised), h.record, h.records, ?_⟩
  rw [show (t.sentTo p _).context c = t.context c from rfl, hcontext]
  exact ⟨rfl, hbound.owner, rfl, rfl, rfl, rfl, rfl, rfl, rfl,
    fun d hd => (h.contexts d hd).trans (State.setContext_context_other _ _ _ hd), congrArg ReleaseUnit.saved h.ru, htx,
    congrArg (fun x : HoldStore => { x with reads := s.hsc.reads }) h.hsc,
    congrArg (fun x : State => { x with fp := s.fp, age := s.age }) hrest⟩

/-! ### STREAM_REJECT (R68) -/

/-- Where no queue entry waits, a reject of an open at step SENT is the end of that open. -/
theorem takeReject_eq {s : State} {c : Fin 8} {p : Fin 64} {tag : Nat} (hbinds : s.boundTo p tag = some c)
    (hopening : (s.context c).state = .opening) (hsent : (s.context c).step = some .sent) (hqueue : s.ru.queue = []) :
    s.takeReject p tag = s.endOpen c .blocked false := by
  have hqueue' : (s.endOpen c .blocked false).ru.queue = [] := (Release.endOpen_keepsQueue s c _ _).1.trans hqueue
  simp only [State.takeReject, hbinds, hopening, hsent, and_self, if_true, State.runArbiter_empty hqueue']

/-- A reject that binds to no open at step SENT is discarded (R64, R68). -/
theorem takeReject_discarded {s : State} {p : Fin 64} {tag : Nat}
    (h : ∀ c, s.boundTo p tag = some c → (s.context c).state ≠ .opening ∨ (s.context c).step ≠ some .sent) :
    s.takeReject p tag = s := by
  unfold State.takeReject
  split
  · rename_i c hbinds
    exact if_neg fun e => (h c hbinds).elim (fun f => f e.1) (fun f => f e.2)
  · rfl

/-- The end of a START open returns the reservation (R68, R98). -/
theorem endOpen_start {s : State} {c : Fin 8} {j : Fin 512} {r : JobRecord} {res : Nat} (hjob : (s.context c).job = some r.number)
    (hfound : s.findJob r.number = some (j, r)) (hheld : s.job j = r) (hmode : (s.context c).mode = some .start)
    (hres : r.reservation = some res) (reason : ParkReason) (kept : Bool) :
    s.endOpen c reason kept =
      (((s.setAccount r.account ((s.account r.account).giveBack res)).setJob j { r with reservation := none }).setJob j
        { r with
          state := .held, reservation := none, sheetCap := none, vector := none,
          countdown := some ⟨(s.zone r.zone).holdTime, false⟩, boundPrinter := none, boundContext := none }).freeContext c := by
  subst hheld
  simp only [State.endOpen, hjob, hfound, hmode, if_true, State.backToHeld, State.returnJob_some hres, State.setJob_job]
  rfl

/-- The end of an open in another mode parks the job again at its resume sheet (R68, R107). -/
theorem endOpen_resumed {s : State} {c : Fin 8} {j : Fin 512} {r : JobRecord} {sheet : Nat} (hjob : (s.context c).job = some r.number)
    (hfound : s.findJob r.number = some (j, r)) (hheld : s.job j = r) (hmode : (s.context c).mode ≠ some .start)
    (hsheet : r.resumeSheet = some sheet) (reason : ParkReason) :
    s.endOpen c reason false =
      (s.setJob j { r with
        state := .parked, parkReason := some reason, resumeSheet := some sheet, parkedAt := some s.mu.clock,
        countdown := some ⟨(s.zone r.zone).parkHoldTime, false⟩, boundPrinter := none, boundContext := none }).saveContext c
        { s.context c with saveDone := false, parkedJob := none } := by
  subst hheld
  simp only [State.endOpen, hjob, hfound, hmode, if_false, hsheet, Option.getD_some]
  rfl

/-- Settles O32: a reject ends the open (`endOpen_start`, `endOpen_resumed`), or is discarded. -/
theorem streamRejectEndsOpen : Obligations.StreamRejectEndsOpen := by
  refine ⟨fun s p tag htag hframe hnone => ?_, fun s c p j r hnumber hframe hbound hopening hsent hqueue => ?_⟩
  · rw [execStreamReject_eq hframe htag]
    exact congrArg _ (takeReject_discarded (s := s.tookFp) hnone)
  · have hbound' : BoundStream s.tookFp c p j r := tookFp_bound hbound
    intro x elsewhere
    rw [execStreamReject_eq hframe hnumber, takeReject_eq hbound'.binds hopening hsent hqueue]
    refine ⟨fun res hmode hres => ?_, fun sheet hmode hsheet => ?_⟩
    · rw [endOpen_start hbound'.job hbound'.found hbound'.held hmode hres]
      refine ⟨_, rfl, State.setJob_job _ _ _, State.freeContext_context _ _, rfl, State.setAccount_account s _ _,
        fun i hi => State.setAccount_account_other s _ _ hi, rfl, fun k hk => ?_, fun d hd => State.freeContext_context_other _ hd,
        rfl, rfl, ?_⟩
      · exact (State.setJob_job_other _ _ _ hk).trans (State.setJob_job_other _ _ _ hk)
      · simp [State.freeContext, State.tookFp]
    · have hmode' : (s.context c).mode ≠ some .start := by
        rcases hmode with e | ⟨n, e⟩ <;> (rw [show (s.context c).mode = _ from e]; simp)
      rw [endOpen_resumed hbound'.job hbound'.found hbound'.held hmode' hsheet]
      refine ⟨_, rfl, ?_, State.saveContext_context _ _ _, rfl, rfl, fun k hk => State.setJob_job_other _ _ _ hk,
        fun d hd => State.saveContext_context_other _ hd _, rfl, rfl, ?_⟩
      · rw [← hsheet]
        exact State.setJob_job _ _ _
      · simp [State.saveContext, State.tookFp]

end Sys2Proof.Machine.Streams
end

