-- ==== Sys2Proof/Proofs/Streams/Fetch.lean ====
section
/-! SUPPORT. FETCH_COMPLETION: the errors of a read and their check, the buffer it fills, and the stream it ends as FAILED (R27, R70, R79,
R169). -/

namespace Sys2Proof.Machine.Streams

/-! ### Checks (R169) -/

/-- A CHECK report that is offered is one report in the queue, or none (R168). -/
theorem offerCheck_eq (s : State) (x : CheckReport) : ∃ reports : List Report, reports.length ≤ 1 ∧
    s.offerCheck x = { s with mu := { s.mu with reports := s.mu.reports ++ reports } } := by
  rcases s.offerCheck_cases x with ⟨-, e⟩ | ⟨-, e⟩
  · exact ⟨[_], le_rfl, e⟩
  · exact ⟨[], Nat.zero_le _, by rw [e, List.append_nil]⟩

/-- All a check does: its class's record, the worst-class field, and one report at most (R168, R169). -/
theorem noteCheck_eq (s : State) (c : CheckClass) (site : CheckSite) : ∃ reports : List Report, reports.length ≤ 1 ∧
    s.noteCheck c site = { s with mu :=
      { (s.setCheckRecord c ((s.checkRecord c).note site s.mu.clock)).mu with
        worst := worseOf s.mu.worst c, reports := s.mu.reports ++ reports } } := by
  unfold State.noteCheck
  dsimp only
  split
  · obtain ⟨reports, hlength, e⟩ := offerCheck_eq
      { s.setCheckRecord c ((s.checkRecord c).note site s.mu.clock) with
        mu := { (s.setCheckRecord c ((s.checkRecord c).note site s.mu.clock)).mu with worst := worseOf s.mu.worst c } }
      ⟨c, site, ((s.checkRecord c).note site s.mu.clock).count, worseOf s.mu.worst c⟩
    refine ⟨reports, hlength, e.trans ?_⟩
    cases c <;> rfl
  · refine ⟨[], Nat.zero_le _, ?_⟩
    rw [List.append_nil]
    cases c <;> rfl

/-- No class is worse than STORE-UNCORRECTABLE (R169). -/
theorem worseOf_uncorrectable (worst : Option CheckClass) : worseOf worst .uncorrectable = some .uncorrectable := by
  rcases worst with _ | _ | _ | _ <;> rfl

/-! ### The errors of a read (R27) -/

theorem worseErrors_clean (e : WordErrors) : worseErrors .clean e = e := by
  cases e <;> rfl

theorem worseErrors_uncorrectable (e : WordErrors) : worseErrors e .uncorrectable = .uncorrectable := by
  cases e <;> rfl

/-- The state when a read has left `x` in the slot at `pos`, and the MU as `m` (R27). -/
def afterRead (s : State) (pos : SegPos) (x : StoredSegment) (m : ManagementUnit) : State := { s.setStored pos x with mu := m }

section
variable (s : State) (c : Fin 8) (n k : Nat) (pos : SegPos)

/-- A read of a clean slot that finds no error beyond correction: the errors stay in the slot, and one that was corrected is a check
(R27). -/
theorem readErrors_corrected {worst : WordErrors} (hheader : (s.stored pos).headerErrors = .clean)
    (hdata : (s.stored pos).dataErrors = .clean) (hworst : worst ≠ .uncorrectable) : ∃ m,
    s.readErrors ⟨c, .fetch, n, pos, k⟩ .clean worst =
      (afterRead s pos ⟨(s.stored pos).segment, .clean, worst⟩ m, worst) ∧
    m.corrected.count = (if worst = .single then min (s.mu.corrected.count + 1) 255 else s.mu.corrected.count) ∧
    { m with corrected := s.mu.corrected, worst := s.mu.worst, reports := s.mu.reports } = s.mu := by
  cases worst with
  | clean =>
    refine ⟨s.mu, ?_, rfl, rfl⟩
    simp only [State.readErrors, hheader, hdata, worseErrors_clean]
    rfl
  | single =>
    obtain ⟨reports, -, hnoted⟩ :=
      noteCheck_eq (s.setStored pos ⟨(s.stored pos).segment, .clean, .single⟩) .corrected (.store n pos.extent)
    refine ⟨_, Eq.trans ?_ (congrArg (fun x => (x, WordErrors.single)) hnoted), rfl, rfl⟩
    simp only [State.readErrors, hheader, hdata, worseErrors_clean]
    rfl
  | uncorrectable => exact absurd rfl hworst

/-- A read that finds an error beyond correction counts one STORE-UNCORRECTABLE check (R27, R169). -/
theorem readErrors_uncorrectable {header data : WordErrors} (h : header = .uncorrectable ∨ data = .uncorrectable) : ∃ x m,
    s.readErrors ⟨c, .fetch, n, pos, k⟩ header data = (afterRead s pos x m, .uncorrectable) ∧
    m.uncorrectable.count = min (s.mu.uncorrectable.count + 1) 255 ∧ m.worst = some .uncorrectable ∧
    m.reports.length ≤ s.mu.reports.length + 1 ∧
    { m with uncorrectable := s.mu.uncorrectable, worst := s.mu.worst, reports := s.mu.reports } = s.mu := by
  have hworst : worseErrors (worseErrors (s.stored pos).headerErrors header) (worseErrors (s.stored pos).dataErrors data) =
      .uncorrectable := by
    rcases h with rfl | rfl
    · rw [worseErrors_uncorrectable]
      rfl
    · rw [worseErrors_uncorrectable, worseErrors_uncorrectable]
  generalize hx : (⟨(s.stored pos).segment, worseErrors (s.stored pos).headerErrors header,
    worseErrors (s.stored pos).dataErrors data⟩ : StoredSegment) = x
  have hread : s.readErrors ⟨c, .fetch, n, pos, k⟩ header data =
      ((s.setStored pos x).noteCheck .uncorrectable (.store n pos.extent), .uncorrectable) := by
    simp only [State.readErrors, hworst, hx]
    rfl
  obtain ⟨reports, hlength, hnoted⟩ := noteCheck_eq (s.setStored pos x) .uncorrectable (.store n pos.extent)
  refine ⟨x, _, hread.trans (congrArg (fun y => (y, WordErrors.uncorrectable)) hnoted), rfl, worseOf_uncorrectable _, ?_, rfl⟩
  have hlength' : (s.mu.reports ++ reports).length ≤ s.mu.reports.length + 1 := by
    rw [List.length_append]
    omega
  exact hlength'

end

/-! ### The completion at the SE (R70, R79) -/

theorem execFetchCompletion_eq {s t : State} {c : Fin 8} {n k : Nat} {pos : SegPos} {header data worst : WordErrors}
    (hop : s.hsc.op = some ⟨.read ⟨c, .fetch, n, pos, k⟩, false⟩)
    (hread : s.clearOp.readErrors ⟨c, .fetch, n, pos, k⟩ header data = (t, worst)) :
    exec (.fetchCompletion header data) s = .next (t.fetched c k (s.stored pos).segment worst) := by
  simp only [exec, execFetchCompletion, hop, hread]
  rfl

/-- At a HALTED stream a clean or corrected segment fills the buffer that waits for it, and nothing else is done (R70). -/
theorem fetched_halted {s : State} {c : Fin 8} {k : Nat} {worst : WordErrors} (hstate : (s.context c).state = .halted)
    (hpending : (s.context c).pendingEnd = none) (hA : (s.context c).bufA = .fetching k) (hworst : worst ≠ .uncorrectable)
    (seg : Segment) : s.fetched c k seg worst = s.setContext c { s.context c with bufA := .full k seg } := by
  have hfill : (s.context c).fill k seg = { s.context c with bufA := .full k seg } := if_pos hA
  simp only [State.fetched, hworst, if_false, hpending, hfill]
  exact pump_idle (flowing_halted (by rw [State.setContext_context]; exact hstate))

/-- With no end pending an uncorrectable read of a stream that has been opened ends it as FAILED, with STREAM-ABORT END (R79). -/
theorem fetched_fails {s : State} {c : Fin 8} {p : Fin 64} {j : Fin 512} {r : JobRecord} (hpending : (s.context c).pendingEnd = none)
    (howner : (s.context c).owner = some p) (hjob : (s.context c).job = some r.number) (hfound : s.findJob r.number = some (j, r))
    (hstep : (s.context c).step = none) (k : Nat) (seg : Segment) :
    s.fetched c k seg .uncorrectable =
      (((((s.sentTo p (.streamAbort r.number .ended (s.context c).sent (s.context c).lastSheet)).settleWithAudit j .failed).dropJob
        j).removeReads c).freeContext c).afterEnd p := by
  simp only [State.fetched, if_true, hpending, State.fail, howner, hjob, Option.bind_some, hfound, hstep, reduceCtorEq, if_false,
    abort_eq howner hjob]

/-- From `s` to `t` the stream at context `c` of printer `p` has ended as FAILED: STREAM-ABORT END has gone out, job `r` in record `j` is
settled and dropped, and the context is FREE. -/
structure FailedFrom (c : Fin 8) (p : Fin 64) (j : Fin 512) (r : JobRecord) (res : Nat) (s t : State) : Prop where
  settled  : JobSettled j r res .failed s t
  context  : t.context c = Context.free
  contexts : ∀ d, d ≠ c → t.context d = s.context d
  notices  : t.se.notices = s.se.notices
  ru       : t.ru = { s.ru with saved := s.ru.saved.filter (fun x => x != c) }
  fp       : t.fp = { s.fp with
    tx := s.fp.tx ++ [⟨s.age, (s.printer p).station, .streamAbort r.number .ended (s.context c).sent (s.context c).lastSheet⟩] }
  reads    : t.hsc.reads = s.hsc.reads.filter (fun e => e.context != c)
  hsc      : withPoolOf s.hsc { t.hsc with reads := s.hsc.reads } = s.hsc
  rest     : { t with
    fp := s.fp, jobs := s.jobs, tables := s.tables, hsc := s.hsc, se := s.se, ru := s.ru, mu := s.mu, age := s.age } = s

theorem fetched_failed {s : State} {c : Fin 8} {p : Fin 64} {j : Fin 512} {r : JobRecord} {res : Nat}
    (hpending : (s.context c).pendingEnd = none) (howner : (s.context c).owner = some p) (hjob : (s.context c).job = some r.number)
    (hfound : s.findJob r.number = some (j, r)) (hstep : (s.context c).step = none) (hheld : s.job j = r)
    (hres : r.reservation = some res) (hqueue : s.ru.queue = []) (hwait : s.resetWait p = none) (k : Nat) (seg : Segment) :
    FailedFrom c p j r res s (s.fetched c k seg .uncorrectable) := by
  rw [fetched_fails hpending howner hjob hfound hstep]
  generalize haborted : s.sentTo p (.streamAbort r.number .ended (s.context c).sent (s.context c).lastSheet) = u
  obtain ⟨hsettled, hhsc, hrest⟩ := settleWithAudit_dropJob (s := u) (by rw [← haborted]; exact hheld) hres .failed
  generalize (u.settleWithAudit j .failed).dropJob j = t at *
  rw [← haborted] at hsettled hhsc hrest
  obtain ⟨audit, -, hoffered⟩ := hsettled.audit
  have hru : t.ru = s.ru := (congrArg State.ru hrest :)
  have hse : t.se = s.se := (congrArg State.se hrest :)
  have hwait' : ((t.removeReads c).freeContext c).resetWait p = none :=
    (congrArg (fun m : ManagementUnit => m.resetWaits.get (fun _ => none) p) hoffered.frame :).trans hwait
  have hqueue' : ((t.removeReads c).freeContext c).ru.queue = [] := (congrArg ReleaseUnit.queue hru :).trans hqueue
  rw [afterEnd_idle hwait' hqueue']
  exact
    { settled := hsettled.congr ⟨rfl, rfl, rfl⟩ ⟨rfl, rfl, rfl⟩
      context := State.freeContext_context _ _
      contexts := fun d hd => (State.freeContext_context_other _ hd).trans
        (congrArg (fun x : StreamEngine => x.contexts.get (fun _ => Context.free) d) hse)
      notices := (congrArg StreamEngine.notices hse :)
      ru := congrArg (fun x : ReleaseUnit => { x with saved := x.saved.filter (fun d => d != c) }) hru
      fp := congrArg State.fp hrest
      reads := (congrArg (fun x : HoldStore => x.reads.filter (fun e : ReadEntry => e.context != c)) hhsc :)
      hsc := congrArg (fun x : HoldStore => { x with reads := s.hsc.reads }) hhsc
      rest := congrArg (fun x : State => { x with fp := s.fp, hsc := s.hsc, se := s.se, ru := s.ru, age := s.age }) hrest }

/-- What a slot holds rests on the store and the epoch alone. -/
theorem stored_congr {s t : State} (hstore : t.hsc.store = s.hsc.store) (hepoch : t.hsc.epoch = s.hsc.epoch) (q : SegPos) :
    t.stored q = s.stored q := by
  simp only [State.stored, hstore, hepoch]

theorem afterRead_stored (s : State) (pos : SegPos) (x : StoredSegment) (m : ManagementUnit) : (afterRead s pos x m).stored pos = x :=
  (stored_congr rfl rfl pos).trans (State.stored_setStored s pos x)

theorem afterRead_stored_other (s : State) {pos q : SegPos} (h : q ≠ pos) (x : StoredSegment) (m : ManagementUnit) :
    (afterRead s pos x m).stored q = s.stored q :=
  (stored_congr rfl rfl q).trans (State.stored_setStored_other s h x)

/-- Settles O23: the read leaves the slot and the MU as `readErrors_corrected` and `readErrors_uncorrectable` tell, and then the buffer is
filled (`fetched_halted`) or the stream fails (`fetched_failed`). -/
theorem fetchFillsBuffer : Obligations.FetchFillsBuffer := by
  refine ⟨fun s c n k pos worst hop hstate hpending hA hheader hdata hworst => ?_,
    fun s c p j r k res pos header data hop _ hstep hpending howner hjob hfound hheld hres herrors hqueue hwait hroom => ?_⟩
  · obtain ⟨m, hread, hcount, hmu⟩ := readErrors_corrected s.clearOp c n k pos hheader hdata hworst
    have hfetched := fetched_halted (s := afterRead s.clearOp pos ⟨(s.stored pos).segment, .clean, worst⟩ m) hstate hpending hA hworst
      (s.stored pos).segment
    refine ⟨_, (execFetchCompletion_eq hop hread).trans (congrArg _ hfetched), State.setContext_context _ _ _,
      fun d hd => State.setContext_context_other _ _ _ hd, rfl, rfl, fun q hq => ?_, ?_, ?_, hcount, hmu, ?_⟩
    · exact (stored_congr rfl rfl q).trans (afterRead_stored_other s.clearOp hq _ m)
    · exact (stored_congr rfl rfl pos).trans (afterRead_stored s.clearOp pos _ m)
    · simp [afterRead]
    · simp [afterRead]
  · obtain ⟨x, m, hread, hcount, hworst, hreports, hmu⟩ := readErrors_uncorrectable s.clearOp c r.number k pos herrors
    have hwait' : (afterRead s.clearOp pos x m).resetWait p = none :=
      (congrArg (fun y : ManagementUnit => y.resetWaits.get (fun _ => none) p) hmu :).trans hwait
    have h := fetched_failed (s := afterRead s.clearOp pos x m) hpending howner hjob hfound hstep hheld hres hqueue hwait' k
      (s.stored pos).segment
    have hexec := execFetchCompletion_eq hop hread
    generalize (afterRead s.clearOp pos x m).fetched c k (s.stored pos).segment .uncorrectable = t at h hexec
    obtain ⟨audit, haudit, hoffered⟩ := h.settled.audit
    have hmu' : t.mu = { m with reports := m.reports ++ [⟨s.mu.clock, .audit audit⟩] } := by
      have hclock : m.clock = s.mu.clock := (congrArg ManagementUnit.clock hmu :)
      rcases hoffered with ⟨-, e⟩ | ⟨hfull, -⟩
      · rw [e, ← hclock]
        rfl
      · exact absurd (lt_of_le_of_lt hreports (Nat.succ_lt_succ hroom)) (not_lt.2 hfull)
    refine ⟨t, hexec, h.settled.record, h.settled.records, h.settled.account, h.settled.accounts, h.settled.user, h.context, h.contexts,
      congrArg ReleaseUnit.saved h.ru, (congrArg ReleaseUnit.queue h.ru :).trans hqueue, (congrArg ReleaseUnit.notices h.ru :),
      (congrArg HoldStore.op h.hsc :), h.reads, fun q hq => ?_, h.fp, ?_, ?_, ⟨audit, ?_, haudit⟩, ?_, h.settled.tables,
      h.notices, ?_⟩
    · exact (stored_congr (congrArg HoldStore.store h.hsc :) (congrArg HoldStore.epoch h.hsc :) q).trans
        (afterRead_stored_other s.clearOp hq x m)
    · exact (congrArg (fun y : ManagementUnit => y.uncorrectable.count) hmu' :).trans hcount
    · exact (congrArg ManagementUnit.worst hmu' :).trans hworst
    · exact (congrArg (fun y : ManagementUnit => y.reports.getLast?) hmu' :).trans List.getLast?_concat
    · exact (congrArg (fun y : ManagementUnit => { y with
        uncorrectable := s.mu.uncorrectable, worst := s.mu.worst, reports := s.mu.reports }) hmu' :).trans hmu
    · exact congrArg (fun y : State => { y with hsc := s.hsc, mu := s.mu }) h.rest

end Sys2Proof.Machine.Streams
end

