-- ==== Sys2Proof/Proofs/Streams/Views.lean ====
section
/-! SUPPORT. A change of view at the SE and at the RU, and a sheet that has been printed (R58, R73, R76). -/

namespace Sys2Proof.Machine.Streams

/-! ### Changes of view (R58, R76) -/

theorem execStateChangeAtRu_eq {s : State} {n : ViewNotice} {rest : List ViewNotice} (h : s.ru.notices = n :: rest) :
    exec .stateChangeAtRu s = .next ({ s with ru := { s.ru with notices := rest } }.takeViewAtRu n) := by
  simp only [exec, execStateChangeAtRu, h]

theorem execStateChangeAtSe_eq {s : State} {n : ViewNotice} {rest : List ViewNotice} (h : s.se.notices = n :: rest) :
    exec .stateChangeAtSe s = .next ({ s with se := { s.se with notices := rest } }.takeViewAtSe n) := by
  simp only [exec, execStateChangeAtSe, h]

/-- The undo of an entry takes the entries of its job off the queue (R57). -/
theorem undo_queue (s : State) (e : QueueEntry) : (s.undo e).ru.queue = s.ru.queue.filter (fun x => x.job != e.job) := by
  unfold State.undo
  split
  · rfl
  · dsimp only
    split
    · exact congrArg ReleaseUnit.queue (Release.returnJob_ru _ _)
    · rfl

/-- A degrade that touches the one entry that waits undoes it (R58). -/
theorem takeViewAtRu_undoes {s : State} {n : ViewNotice} {e : QueueEntry} (hstate : n.state = .degraded) (hqueue : s.ru.queue = [e])
    (hprinter : e.printer = n.printer) (htouched : s.entryTouched n.loss e = true) : s.takeViewAtRu n = s.undo e := by
  have hone : s.undoEntries n.printer (s.entryTouched n.loss) = s.undo e := by
    simp [State.undoEntries, hqueue, hprinter, htouched]
  have hempty : (s.undo e).ru.queue = [] := by
    rw [undo_queue, hqueue]
    simp
  have hany : s.ru.queue.any (fun x => decide (x.printer = n.printer) && s.entryTouched n.loss x) = true := by
    simp [hqueue, hprinter, htouched]
  rw [State.takeViewAtRu, if_pos ⟨hstate, hany⟩, hone, State.runArbiter_empty hempty]

/-- A change to any other state than DEGRADED leaves the queue (R58). -/
theorem takeViewAtRu_leaves {s : State} {n : ViewNotice} (hstate : n.state ≠ .degraded) : s.takeViewAtRu n = s :=
  if_neg fun h => hstate h.1

/-- A RUNNING stream halts when its printer becomes BLOCKED (R76). -/
theorem takeViewAtSe_halts {s : State} {n : ViewNotice} {c : Fin 8} {j : Fin 512} {r : JobRecord} (hblocked : n.state = .blocked)
    (hbound : s.boundAt n.printer = some c) (hjob : (s.context c).job = some r.number) (hfound : s.findJob r.number = some (j, r))
    (hstate : (s.context c).state = .running) (hpending : (s.context c).pendingEnd = none) : s.takeViewAtSe n = s.halt c r := by
  simp [State.takeViewAtSe, hbound, hjob, hfound, hpending, hstate, hblocked, runsIn]

/-- Settles O30: the RU undoes what a degrade touches, and the SE halts a RUNNING stream. -/
theorem changeOfViewIsTaken : Obligations.ChangeOfViewIsTaken := by
  refine ⟨fun s p n rest e hp hdegraded hnotices hqueue he htouched => ?_, fun s c p j r n rest hp hblocked => ?_⟩
  · subst hp
    rw [execStateChangeAtRu_eq hnotices]
    exact congrArg _ (takeViewAtRu_undoes (s := { s with ru := { s.ru with notices := rest } }) hdegraded hqueue he htouched)
  · subst hp
    refine ⟨fun hnotices hbound hjob hfound hstate hpending => ?_, fun hnotices hunbound => ?_, fun hnotices => ?_⟩
    · rw [execStateChangeAtSe_eq hnotices]
      exact congrArg _ (takeViewAtSe_halts (s := { s with se := { s.se with notices := rest } }) hblocked hbound hjob hfound hstate
        hpending)
    · have hunbound' : { s with se := { s.se with notices := rest } }.boundAt n.printer = none := hunbound
      rw [execStateChangeAtSe_eq hnotices, State.takeViewAtSe, hunbound']
    · rw [execStateChangeAtRu_eq hnotices]
      exact congrArg _ (takeViewAtRu_leaves (by simp [hblocked]))

/-! ### Sheets (R73) -/

/-- A sheet of a bound stream that runs or is halted is tallied and counted (R73). -/
theorem takeSheet_eq {s : State} {c : Fin 8} {p : Fin 64} {j : Fin 512} {r : JobRecord} (h : BoundStream s c p j r)
    (hstate : (s.context c).state = .running ∨ (s.context c).state = .halted) (f : SheetDoneFrame) (hf : f.job = r.number) :
    s.takeSheet p f = (s.setJob j (r.addSheet f)).countSheet p f.faces f.colourFaces f.large := by
  simp only [State.takeSheet, hf, h.binds, h.found, (streaming_iff _).2 hstate, if_true]

/-- Settles O35: the payload reads back within its ranges, and the sheet is the stream's own. -/
theorem sheetIsTallied : Obligations.SheetIsTallied := by
  intro s c p j r sheet faces colour large hnumber h1 hsheet hfaces hcolour hframe hbound hstate
  have htaken := takeSheet_eq (tookFp_bound hbound) hstate ⟨r.number, sheet, faces, colour, large⟩ rfl
  simp only [exec, execSheetDone, hframe.onPrinterFrame, parseSheetDone_payload large hnumber h1 hsheet hfaces hcolour, htaken]
  rfl

end Sys2Proof.Machine.Streams
end

