-- ==== Sys2Proof/Proofs/Streams/PrinterReset.lean ====
section
/-! SUPPORT. PRINTER_RESET of a printer that no stream and no queue entry uses: its conditions, its callouts and its slots start anew, and
the reply goes out (R80, R135, R149, R164, R173). -/

namespace Sys2Proof.Machine.Streams

/-! ### Callouts of other printers (R138, R139, R149) -/

/-- From `s` to `t` the CO has worked: condition records, callouts and reports may differ, but the condition record of printer `p` is as it
was. -/
def CalloutWork (p : Fin 64) (s t : State) : Prop :=
  ∃ cm co reports, t = { s with cm := cm, co := co, mu := { s.mu with reports := reports } } ∧ t.cond p = s.cond p

/-- No callout of printer `p` is live. -/
def NoCallout (p : Fin 64) (s : State) : Prop := ∀ i, (s.callout i).state ≠ .free → (s.callout i).printer ≠ p

section
variable {p : Fin 64} {s t u : State}

theorem CalloutWork.refl (p : Fin 64) (s : State) : CalloutWork p s s := ⟨s.cm, s.co, s.mu.reports, rfl, rfl⟩

theorem CalloutWork.trans (h : CalloutWork p s t) (h' : CalloutWork p t u) : CalloutWork p s u := by
  obtain ⟨cm, co, reports, rfl, hcond⟩ := h
  obtain ⟨cm', co', reports', rfl, hcond'⟩ := h'
  exact ⟨cm', co', reports', rfl, hcond'.trans hcond⟩

theorem setCallout_work (s : State) (i : Fin 48) (e : CalloutEntry) : CalloutWork p s (s.setCallout i e) :=
  ⟨_, _, _, rfl, rfl⟩

theorem offerResolved_work (s : State) (n : ResolvedNotice) :
    CalloutWork p s (s.offerResolved n) ∧ ∀ i, (s.offerResolved n).callout i = s.callout i := by
  rcases s.offerResolved_cases n with ⟨-, e⟩ | ⟨-, -, e⟩ | ⟨-, -, e⟩ <;> rw [e] <;>
    exact ⟨⟨_, _, _, rfl, rfl⟩, fun _ => rfl⟩

theorem freeCallout_work (s : State) (i : Fin 48) (cause : ResolvedCause) : CalloutWork p s (s.freeCallout i cause) := by
  unfold State.freeCallout
  dsimp only
  split
  · exact (offerResolved_work s _).1.trans (setCallout_work _ _ _)
  · exact setCallout_work _ _ _

theorem freeCallout_callout (s : State) (i k : Fin 48) (cause : ResolvedCause) :
    (s.freeCallout i cause).callout k = if k = i then CalloutEntry.free else s.callout k := by
  unfold State.freeCallout
  dsimp only
  by_cases hk : k = i
  · rw [if_pos hk, hk, State.setCallout_callout]
  · rw [if_neg hk, State.setCallout_callout_other _ _ _ hk]
    split
    · exact (offerResolved_work (p := 0) s _).2 k
    · rfl

/-- From `s` to `t` the CO has written callout entry `i`, which names printer `q`, and no other entry. -/
structure EntryWritten (p : Fin 64) (i : Fin 48) (q : Fin 64) (s t : State) : Prop where
  work    : CalloutWork p s t
  printer : (t.callout i).printer = q
  others  : ∀ k, k ≠ i → t.callout k = s.callout k

theorem EntryWritten.trans {i : Fin 48} {q q' : Fin 64} (h : EntryWritten p i q s t) (h' : EntryWritten p i q' t u) :
    EntryWritten p i q' s u :=
  ⟨h.work.trans h'.work, h'.printer, fun k hk => (h'.others k hk).trans (h.others k hk)⟩

theorem EntryWritten.named {i : Fin 48} {q q' : Fin 64} (h : EntryWritten p i q s t) (e : q = q') : EntryWritten p i q' s t := e ▸ h

theorem setCallout_written (s : State) (i : Fin 48) {e : CalloutEntry} {q : Fin 64} (he : e.printer = q) :
    EntryWritten p i q s (s.setCallout i e) where
  work := setCallout_work s i e
  printer := by rw [State.setCallout_callout, he]
  others _ hk := State.setCallout_callout_other s i e hk

theorem sendCallout_written (s : State) (i : Fin 48) {e : CalloutEntry} {q : Fin 64} (he : e.printer = q) :
    EntryWritten p i q s (s.sendCallout i e) where
  work := ⟨_, _, _, rfl, rfl⟩
  printer := by rw [State.sendCallout, State.setCallout_callout, he]
  others _ hk := State.setCallout_callout_other _ _ _ hk

/-- The sending step of entry `i` leaves the printer it names (R140). -/
theorem sendingStep_written (s : State) (i : Fin 48) : EntryWritten p i (s.callout i).printer s (s.sendingStep i) := by
  rcases s.sendingStep_cases i with ⟨-, e⟩ | ⟨-, e⟩ <;> rw [e]
  · exact setCallout_written s i rfl
  · exact sendCallout_written s i rfl

/-- A callout is created in entry `i` for its printer (R138). -/
theorem createCallout_written (s : State) (i : Fin 48) (q : Fin 64) (code : Fin 256) (seen : Stamp) :
    EntryWritten p i q s (s.createCallout i q code seen) := by
  unfold State.createCallout
  dsimp only
  split
  · refine (setCallout_written s i rfl).trans ((sendingStep_written _ i).named ?_)
    rw [State.setCallout_callout]
  · exact setCallout_written s i rfl

theorem setWanted_work {q : Fin 64} (hq : q ≠ p) (s : State) (code : Fin 256) (wanted : Bool) :
    CalloutWork p s (s.setWanted q code wanted) :=
  ⟨_, _, _, rfl, State.setCond_cond_other _ _ _ hq.symm⟩

/-- With no condition left at printer `p`, a freed entry serves another printer or none (R139). -/
theorem serveWaiting_work (hlist : (s.cond p).list = []) (i : Fin 48) :
    CalloutWork p s (s.serveWaiting i) ∧ (NoCallout p s → NoCallout p (s.serveWaiting i)) := by
  unfold State.serveWaiting
  split
  · exact ⟨.refl p s, id⟩
  · rename_i q hwaiting
    have hq : q ≠ p := by
      rintro rfl
      have := (firstIndex_some hwaiting).1
      simp [hlist] at this
    split
    · exact ⟨.refl p s, id⟩
    · rename_i it _
      obtain ⟨work, printer, others⟩ := createCallout_written (p := p) (s.setWanted q it.code false) i q it.code it.firstSeen
      refine ⟨(setWanted_work hq s _ _).trans work, fun hnone k hlive => ?_⟩
      by_cases hk : k = i
      · rw [hk, printer]
        exact hq
      · rw [others k hk] at hlive ⊢
        exact hnone k hlive

/-! ### The callouts of a printer that is reset (R149) -/

theorem foldl_freeCallout (l : List (Fin 48)) (s : State) :
    CalloutWork p s (l.foldl (fun t i => t.freeCallout i .reset) s) ∧
    ∀ k, (l.foldl (fun t i => t.freeCallout i .reset) s).callout k = if k ∈ l then CalloutEntry.free else s.callout k := by
  induction l generalizing s with
  | nil => exact ⟨.refl p s, fun _ => rfl⟩
  | cons i rest ih =>
    obtain ⟨work, freed⟩ := ih (s.freeCallout i .reset)
    refine ⟨(freeCallout_work s i .reset).trans work, fun k => (freed k).trans ?_⟩
    rw [freeCallout_callout]
    by_cases hk : k = i <;> simp [hk]

theorem foldl_serveWaiting (l : List (Fin 48)) (s : State) (hlist : (s.cond p).list = []) :
    CalloutWork p s (l.foldl (fun t i => t.serveWaiting i) s) ∧
    (NoCallout p s → NoCallout p (l.foldl (fun t i => t.serveWaiting i) s)) := by
  induction l generalizing s with
  | nil => exact ⟨.refl p s, id⟩
  | cons i rest ih =>
    obtain ⟨work, keeps⟩ := serveWaiting_work hlist i
    have hlist' : ((s.serveWaiting i).cond p).list = [] := by
      obtain ⟨_, _, _, -, hcond⟩ := work
      rw [hcond, hlist]
    obtain ⟨work', keeps'⟩ := ih (s.serveWaiting i) hlist'
    exact ⟨work.trans work', fun h => keeps' (keeps h)⟩

/-- The callouts of a printer whose condition list is empty are freed, and no new one is made for it (R149). -/
theorem resetCallouts_work (hlist : (s.cond p).list = []) :
    CalloutWork p s (s.resetCallouts p) ∧ NoCallout p (s.resetCallouts p) := by
  obtain ⟨work, freed⟩ := foldl_freeCallout (p := p) (s.calloutsOf p) s
  have hlist' : (((s.calloutsOf p).foldl (fun t i => t.freeCallout i .reset) s).cond p).list = [] := by
    obtain ⟨_, _, _, -, hcond⟩ := work
    rw [hcond, hlist]
  obtain ⟨work', keeps⟩ := foldl_serveWaiting (s.calloutsOf p) _ hlist'
  refine ⟨work.trans work', keeps fun k hlive hprinter => ?_⟩
  rw [freed k] at hlive hprinter
  split at hlive
  · exact hlive rfl
  · rename_i hnot
    rw [if_neg hnot] at hprinter
    exact hnot (List.mem_filter.2 ⟨List.mem_finRange k, by simp [hlive, hprinter]⟩)

end

/-! ### Conditions and slots (R135, R164) -/

/-- From `s` to `t` the conditions of printer `p` have started anew, its history kept, and its callouts have gone (R135, R149). -/
theorem resetConditions_renews (s : State) (p : Fin 64) : ∃ cm co reports seNotices ruNotices,
    s.resetConditions p = { s with
      cm := cm, co := co, mu := { s.mu with reports := reports }, se := { s.se with notices := seNotices },
      ru := { s.ru with notices := ruNotices } } ∧
    (s.resetConditions p).cond p = s.freshRecord p (s.cond p).history ∧ NoCallout p (s.resetConditions p) := by
  have hview : ∃ seNotices ruNotices, s.setView p (s.freshRecord p (s.cond p).history) =
      { s.setCond p (s.freshRecord p (s.cond p).history) with
        se := { s.se with notices := seNotices }, ru := { s.ru with notices := ruNotices } } := by
    rcases s.setView_cases p (s.freshRecord p (s.cond p).history) with ⟨e, -⟩ | ⟨_, -, -, e⟩
    · exact ⟨s.se.notices, s.ru.notices, e⟩
    · exact ⟨_, _, e⟩
  obtain ⟨seNotices, ruNotices, hview⟩ := hview
  have hcond : (s.setView p (s.freshRecord p (s.cond p).history)).cond p = s.freshRecord p (s.cond p).history := by
    rw [hview]
    exact State.setCond_cond _ _ _
  obtain ⟨⟨cm, co, reports, e, hkept⟩, hnone⟩ := resetCallouts_work (by rw [hcond]; rfl)
  refine ⟨cm, co, reports, seNotices, ruNotices, ?_, hkept.trans hcond, hnone⟩
  rw [State.resetConditions, e, hview]
  rfl

theorem foldl_resetSlot (p : Fin 64) (l : List Consumable) (s : State) :
    (∃ records, l.foldl (fun t q => t.resetSlot p q) s = { s with slotRecords := records }) ∧
    (∀ q, (l.foldl (fun t q => t.resetSlot p q) s).slotRecord p q =
      if q ∈ l then SlotRecord.resetTo ((s.printer p).slotMap.get q).defaultType else s.slotRecord p q) ∧
    ∀ p' q, p' ≠ p → (l.foldl (fun t q => t.resetSlot p q) s).slotRecord p' q = s.slotRecord p' q := by
  induction l generalizing s with
  | nil => exact ⟨⟨_, rfl⟩, fun _ => rfl, fun _ _ _ => rfl⟩
  | cons first rest ih =>
    obtain ⟨⟨records, e⟩, hreset, hothers⟩ := ih (s.resetSlot p first)
    refine ⟨⟨records, e⟩, fun q => (hreset q).trans ?_, fun p' q hp => (hothers p' q hp).trans ?_⟩
    · by_cases hq : q = first
      · subst hq
        simp [State.resetSlot, State.printer]
      · simp [hq, State.resetSlot, State.setSlotRecord_slotRecord_other _ _ (.inr hq), State.printer]
    · exact State.setSlotRecord_slotRecord_other _ _ (.inl hp)

/-- The six slot records of a printer take their reset values, and no other changes (R164). -/
theorem resetSlots_renews (s : State) (p : Fin 64) :
    (∃ records, s.resetSlots p = { s with slotRecords := records }) ∧
    (∀ q, (s.resetSlots p).slotRecord p q = SlotRecord.resetTo ((s.printer p).slotMap.get q).defaultType) ∧
    ∀ p' q, p' ≠ p → (s.resetSlots p).slotRecord p' q = s.slotRecord p' q := by
  obtain ⟨hrest, hreset, hothers⟩ := foldl_resetSlot p consumables s
  exact ⟨hrest, fun q => (hreset q).trans (if_pos (by cases q <;> decide)), hothers⟩

/-! ### PRINTER_RESET (R80, R173) -/

theorem headCommand_kind {s : State} {kind : Byte} {f : CommandFrame} (h : s.headCommand kind = some f) : f.kind = kind := by
  unfold State.headCommand at h
  split at h
  · split at h
    · rename_i hkind
      exact Option.some.inj h ▸ hkind
    · cases h
  · cases h

theorem parseByte_u8 (p : Fin 64) : parseByte (u8 p) = some p.val := by
  have hbyte : byteAt (u8 p) 0 = p := byteAt_u8 p (by omega)
  simp [parseByte, length_u8, hbyte]

/-- A command that names a DEFINED printer acts on it. -/
theorem forPrinter_defined {s : State} {p : Fin 64} (h : (s.printer p).state = .defined) (f : CommandFrame) (act : Fin 64 → State) :
    s.forPrinter f p act = act p := by
  have hp : fin? 64 p = some p := dif_pos p.isLt
  simp [State.forPrinter, hp, State.printerDefined, h]

theorem execPrinterReset_eq {s : State} {f : CommandFrame} {p : Fin 64} (hcommand : Commanded s 25 f) (hbody : f.body = u8 p)
    (hdefined : (s.printer p).state = .defined) :
    exec .printerReset s =
      .next (if (s.tookUp.resetWait p).isSome then s.tookUp.reply f .busy .none else s.tookUp.resetPrinter p f) := by
  have hparse : parseByte f.body = some p.val := by rw [hbody, parseByte_u8]
  rw [exec, execPrinterReset, hcommand.onCommand hparse, forPrinter_defined (s := s.tookUp) hdefined]

/-- All that the reset work of printer `p` does, where no queue entry waits: the state in which the reply `w` is sent, and what stands in it
of the printer (R80). -/
theorem resetWork_renews {s : State} {p : Fin 64} {w : ResetWait} (hwait : s.resetWait p = some w) (hqueue : s.ru.queue = []) :
    ∃ t cm co reports seNotices ruNotices records,
      s.resetWork p = (t.setResetWait p none).sentUp w.station (.reply w.tag 25 .done .none) ∧
      t = { s with
        cm := cm, co := co, mu := { s.mu with reports := reports }, se := { s.se with notices := seNotices },
        ru := { s.ru with notices := ruNotices }, slotRecords := records } ∧
      t.cond p = s.freshRecord p (s.cond p).history ∧ NoCallout p t ∧
      (∀ q, t.slotRecord p q = SlotRecord.resetTo ((s.printer p).slotMap.get q).defaultType) ∧
      ∀ p' q, p' ≠ p → t.slotRecord p' q = s.slotRecord p' q := by
  have hundone : s.undoEntries p (fun _ => true) = s := by
    simp [State.undoEntries, hqueue]
  obtain ⟨cm, co, reports, seNotices, ruNotices, hconditions, hcond, hnone⟩ := resetConditions_renews s p
  obtain ⟨⟨records, hslots⟩, hreset, hothers⟩ := resetSlots_renews (s.resetConditions p) p
  have hwait' : ((s.resetConditions p).resetSlots p).resetWait p = some w := by
    rw [hslots, hconditions]
    exact hwait
  refine ⟨(s.resetConditions p).resetSlots p, cm, co, reports, seNotices, ruNotices, records, ?_, ?_, ?_, ?_, ?_, fun p' q hp => ?_⟩
  · simp only [State.resetWork, hundone, hwait', State.send_up_eq, printerResetKind]
  · rw [hslots, hconditions]
  · rw [hslots]
    exact hcond
  · rw [hslots]
    exact hnone
  · rw [hconditions] at hreset ⊢
    exact hreset
  · rw [hothers p' q hp, hconditions]
    rfl

/-- Without a context of the printer the reset work follows at once (R80). -/
theorem resetPrinter_idle {s : State} {p : Fin 64} (howner : ∀ c, (s.context c).owner ≠ some p) (f : CommandFrame) :
    s.resetPrinter p f = ((s.setResetWait p (some ⟨f.src, f.tag⟩)).resetWork p).runArbiter := by
  have hsaved : (s.setResetWait p (some ⟨f.src, f.tag⟩)).savedAt p = none :=
    Release.firstIndex_eq_none fun c => by
      simp [show ((s.setResetWait p _).context c).owner ≠ some p from howner c]
  have hbound : (s.setResetWait p (some ⟨f.src, f.tag⟩)).boundAt p = none :=
    Release.firstIndex_eq_none fun c => by
      simp [show ((s.setResetWait p _).context c).owner ≠ some p from howner c]
  simp only [State.resetPrinter, hsaved, hbound]

/-- Settles O59: the reset work follows at once (`resetPrinter_idle`), and does what `resetWork_renews` tells. -/
theorem printerResetRenewsPrinter : Obligations.PrinterResetRenewsPrinter := by
  intro s f p hcommand hbody hdefined
  rw [execPrinterReset_eq hcommand hbody hdefined]
  refine ⟨fun hwait howner hqueue => ?_, fun hwait => ?_⟩
  · have hwait' : s.tookUp.resetWait p = none := hwait
    obtain ⟨t, cm, co, reports, seNotices, ruNotices, records, hwork, rfl, hcond, hnone, hreset, hothers⟩ :=
      resetWork_renews (s := s.tookUp.setResetWait p (some ⟨f.src, f.tag⟩)) (State.setResetWait_resetWait _ _ _) hqueue
    rw [hwait', if_neg (by simp), resetPrinter_idle (s := s.tookUp) howner, hwork, ← headCommand_kind hcommand.1]
    refine ⟨_, congrArg _ (State.runArbiter_empty hqueue), hcond, hreset, hothers, fun p' => ?_, hnone, rfl, rfl, hqueue, rfl, rfl, rfl⟩
    by_cases hp : p' = p
    · rw [hp, hwait]
      exact State.setResetWait_resetWait _ _ _
    · exact (State.setResetWait_resetWait_other _ _ _ hp).trans (State.setResetWait_resetWait_other s.tookUp _ _ hp)
  · have hwait' : (s.tookUp.resetWait p).isSome := Option.isSome_iff_ne_none.2 hwait
    rw [if_pos hwait']
    rfl

end Sys2Proof.Machine.Streams
end

