-- ==== Sys2Proof/Proofs/Charges/Stages.lean ====
section
/-! SUPPORT. The five stages of the charge: what each stage gives from the one before, and when a mark is set (R87, R88). -/

namespace Sys2Proof.Machine.Charges

section
variable (t : Tallies) (p : RatePlan)

/-! ### The stages (R87) -/

/-- Where the duplex credit exceeds the gross, nothing is left. -/
theorem netOf_floored {t : Tallies} {p : RatePlan} (h : grossOf t p < t.d * p.rd) : netOf t p = 0 :=
  Nat.sub_eq_zero_of_le h.le

/-- Rounding goes to the nearest hundredth, half up. -/
theorem discountedOf_rounds :
    netOf t p * (100 - p.discount) < 100 * discountedOf t p + 50 ∧
      100 * discountedOf t p ≤ netOf t p * (100 - p.discount) + 50 := by
  unfold discountedOf
  omega

theorem discountedOf_of_netOf_zero {t : Tallies} {p : RatePlan} (h : netOf t p = 0) : discountedOf t p = 0 := by
  simp [discountedOf, h]

/-! ### The minimum (R88) -/

variable {t p}

theorem minimumOf_blank (h : t.fm + t.fc = 0) : minimumOf t p = 0 := if_pos h

theorem minimumOf_printed (h : 1 ≤ t.fm + t.fc) : minimumOf t p = max p.minimum (discountedOf t p) := by
  rw [minimumOf, if_neg (by omega)]
  split <;> omega

/-- Only the discounted amount of a job that printed can exceed a limit that holds the minimum. -/
theorem lt_minimumOf_iff {limit : Nat} (h : p.minimum ≤ limit) :
    limit < minimumOf t p ↔ 1 ≤ t.fm + t.fc ∧ limit < discountedOf t p := by
  obtain hblank | hprinted := Nat.eq_zero_or_pos (t.fm + t.fc)
  · rw [minimumOf_blank hblank]
    omega
  · rw [minimumOf_printed hprinted]
    omega

/-! ### The charge and its marks (R82, R88) -/

theorem computeCharge_amount : (computeCharge t p).amount = min (minimumOf t p) maxCharge := rfl

theorem computeCharge_floored_iff : (computeCharge t p).floored = true ↔ grossOf t p < t.d * p.rd := decide_eq_true_iff

theorem computeCharge_minimum_iff : (computeCharge t p).minimum = true ↔ 1 ≤ t.fm + t.fc ∧ discountedOf t p < p.minimum := by
  simp [computeCharge]

theorem computeCharge_clamped_iff : (computeCharge t p).clamped = true ↔ maxCharge < minimumOf t p := decide_eq_true_iff

theorem computeCharge_amount_le : (computeCharge t p).amount ≤ maxCharge := Nat.min_le_right ..

/-- A job that printed is charged at least the minimum, where that is an amount of R14. -/
theorem minimum_le_amount (h : 1 ≤ t.fm + t.fc) (hmin : p.minimum ≤ maxCharge) : p.minimum ≤ (computeCharge t p).amount := by
  rw [computeCharge_amount, minimumOf_printed h]
  omega

/-- FLOORED and CLAMPED exclude each other: a floored net gives the discounted amount 0. -/
theorem not_floored_and_clamped (hmin : p.minimum ≤ maxCharge) :
    ¬((computeCharge t p).floored = true ∧ (computeCharge t p).clamped = true) := by
  rw [computeCharge_floored_iff, computeCharge_clamped_iff, lt_minimumOf_iff hmin]
  rintro ⟨hfloored, -, hlarge⟩
  rw [discountedOf_of_netOf_zero (netOf_floored hfloored)] at hlarge
  exact Nat.not_lt_zero _ hlarge

end

/-- Settles O51: a clause per stage, and the minimum split by whether a face was printed. -/
theorem chargeFollowsStages : Obligations.ChargeFollowsStages := by
  intro t p _ hmin
  have hmax : p.minimum ≤ maxCharge := hmin.trans (by decide)
  have hclamped := (computeCharge_clamped_iff (t := t) (p := p)).trans (lt_minimumOf_iff hmax)
  obtain ⟨hbelow, habove⟩ := discountedOf_rounds t p
  refine ⟨computeCharge_floored_iff, hbelow, habove, fun hblank => ⟨?_, ?_⟩, fun hprinted hless => ⟨?_, ?_⟩,
    fun hprinted hmore => ⟨?_, ?_⟩, hclamped, computeCharge_amount_le, not_floored_and_clamped hmax⟩
  · rw [computeCharge_amount, minimumOf_blank hblank, Nat.zero_min]
  · rw [Bool.eq_false_iff, Ne, computeCharge_minimum_iff]
    omega
  · rw [computeCharge_amount, minimumOf_printed hprinted, max_eq_left hless.le, min_eq_left hmax]
  · exact computeCharge_minimum_iff.2 ⟨hprinted, hless⟩
  · rw [computeCharge_amount, minimumOf_printed hprinted, max_eq_right hmore]
    rfl
  · rw [Bool.eq_false_iff, Ne, computeCharge_minimum_iff]
    omega

end Sys2Proof.Machine.Charges
end

