-- ==== Sys2Proof/Proofs/Charges/CapSearch.lean ====
section
/-! SUPPORT. The cap search: the search downward finds the largest count that fits, and the tallies of the first sheets (R84, R85, R89). -/

namespace Sys2Proof.Machine.Charges

/-! ### The search (R89) -/

section
variable {plan : RatePlan} {v : ChargeValues} {pages : Nat} {limit : Int}

theorem capSearchTo_fits {k : Nat} (h : (cappedEstimate plan v pages (k + 1) : Int) ≤ limit) :
    capSearchTo plan v pages limit (k + 1) = some (k + 1) := if_pos h

theorem capSearchTo_exceeds {k : Nat} (h : limit < (cappedEstimate plan v pages (k + 1) : Int)) :
    capSearchTo plan v pages limit (k + 1) = capSearchTo plan v pages limit k := if_neg h.not_ge

/-- What is found is a count that fits, and no larger one does. -/
theorem capSearchTo_sound {k n : Nat} (h : capSearchTo plan v pages limit k = some n) :
    1 ≤ n ∧ n ≤ k ∧ (cappedEstimate plan v pages n : Int) ≤ limit ∧
      ∀ m, n < m → m ≤ k → limit < (cappedEstimate plan v pages m : Int) := by
  refine ⟨Release.capSearchTo_pos h, ?_⟩
  induction k with
  | zero => cases h
  | succ k ih =>
    obtain hfits | hexceeds := le_or_gt (cappedEstimate plan v pages (k + 1) : Int) limit
    · rw [capSearchTo_fits hfits] at h
      cases h
      exact ⟨le_rfl, hfits, fun m hm hk => absurd hk hm.not_ge⟩
    · rw [capSearchTo_exceeds hexceeds] at h
      obtain ⟨hle, hn, hlarger⟩ := ih h
      refine ⟨Nat.le_succ_of_le hle, hn, fun m hm hk => ?_⟩
      obtain rfl | hk := Nat.eq_or_lt_of_le hk
      · exact hexceeds
      · exact hlarger m hm (Nat.le_of_lt_succ hk)

/-- Nothing is found only where no count fits. -/
theorem capSearchTo_none {k : Nat} (h : capSearchTo plan v pages limit k = none) :
    ∀ m, 1 ≤ m → m ≤ k → limit < (cappedEstimate plan v pages m : Int) := by
  induction k with
  | zero => omega
  | succ k ih =>
    obtain hfits | hexceeds := le_or_gt (cappedEstimate plan v pages (k + 1) : Int) limit
    · rw [capSearchTo_fits hfits] at h
      cases h
    · rw [capSearchTo_exceeds hexceeds] at h
      intro m hm hk
      obtain rfl | hk := Nat.eq_or_lt_of_le hk
      · exact hexceeds
      · exact ih h m hm (Nat.le_of_lt_succ hk)

theorem capSearchTo_eq_none_iff {k : Nat} : capSearchTo plan v pages limit k = none ↔
    ∀ m, 1 ≤ m → m ≤ k → limit < (cappedEstimate plan v pages m : Int) := by
  refine ⟨capSearchTo_none, fun hall => Option.eq_none_iff_forall_ne_some.2 fun n hn => ?_⟩
  obtain ⟨hpos, hle, hfits, -⟩ := capSearchTo_sound hn
  exact (hall n hpos hle).not_ge hfits

/-- There is one largest count that fits, so it is the one that is found. -/
theorem capSearchTo_eq_some_iff {k n : Nat} : capSearchTo plan v pages limit k = some n ↔
    1 ≤ n ∧ n ≤ k ∧ (cappedEstimate plan v pages n : Int) ≤ limit ∧
      ∀ m, n < m → m ≤ k → limit < (cappedEstimate plan v pages m : Int) := by
  refine ⟨capSearchTo_sound, fun ⟨hpos, hle, hfits, hlarger⟩ => ?_⟩
  cases hfound : capSearchTo plan v pages limit k with
  | none => exact absurd hfits (capSearchTo_none hfound n hpos hle).not_ge
  | some n' =>
    obtain ⟨-, hle', hfits', hlarger'⟩ := capSearchTo_sound hfound
    obtain hlt | rfl | hgt := Nat.lt_trichotomy n n'
    · exact absurd hfits' (hlarger n' hlt hle').not_ge
    · rfl
    · exact absurd hfits (hlarger' n hgt hle).not_ge

end

/-! ### The tallies of the first sheets (R84, R85) -/

theorem talliesOf_faces (v : ChargeValues) (faces d sheets : Nat) :
    (talliesOf v faces d sheets).fm + (talliesOf v faces d sheets).fc = faces := by
  cases hcolour : v.colour <;> simp [talliesOf, hcolour]

/-- The first sheet carries a face. -/
theorem cappedFaces_one_pos (sides : Sides) (pages : Nat) : 1 ≤ cappedFaces sides pages 1 := by
  cases sides with
  | one => exact le_rfl
  | two =>
    have hdiv : 1 / sheetsPerCopy .two pages ≤ 1 := Nat.div_le_self ..
    simp only [cappedFaces]
    split <;> omega

/-- The duplex sheets of a copy are its faces less its sheets. -/
theorem sheetsPerCopy_two_add (pages : Nat) : sheetsPerCopy .two pages + pages / 2 = pages := by
  simp only [sheetsPerCopy]
  split <;> omega

/-- All sheets together carry all faces: each copy of an odd number of pages has one sheet with an empty back. -/
theorem cappedFaces_totalSheets (sides : Sides) (pages copies : Nat) :
    cappedFaces sides pages (totalSheets sides pages copies) = pages * copies := by
  cases sides with
  | one => rfl
  | two =>
    have hsum := sheetsPerCopy_two_add pages
    simp only [cappedFaces, totalSheets]
    split
    next heven => rw [← Nat.mul_assoc, show 2 * sheetsPerCopy .two pages = pages by omega]
    next hodd =>
      rw [Nat.mul_div_cancel_left _ (by omega), ← Nat.mul_assoc, ← Nat.sub_one_mul,
        show 2 * sheetsPerCopy .two pages - 1 = pages by omega]

theorem cappedTallies_totalSheets (v : ChargeValues) (pages copies : Nat) :
    cappedTallies v pages (totalSheets v.sides pages copies) = wholeTallies v pages copies := by
  rw [cappedTallies, wholeTallies, cappedFaces_totalSheets]
  congr 1
  cases v.sides with
  | one => exact Nat.sub_self _
  | two =>
    have hduplex : pages - sheetsPerCopy .two pages = pages / 2 := by
      have := sheetsPerCopy_two_add pages
      omega
    rw [totalSheets, ← Nat.sub_mul, hduplex]

/-- Settles O52: the search of `capSearchTo_eq_some_iff` up to all sheets, and the tallies of one sheet and of all. -/
theorem capSearchIsLargest : Obligations.CapSearchIsLargest := by
  intro plan v pages copies limit
  refine ⟨fun n => capSearchTo_eq_some_iff, capSearchTo_eq_none_iff, fun hmin => ?_, ?_⟩
  · have hface : 1 ≤ (cappedTallies v pages 1).fm + (cappedTallies v pages 1).fc := by
      rw [cappedTallies, talliesOf_faces]
      exact cappedFaces_one_pos v.sides pages
    exact minimum_le_amount hface (hmin.trans (by decide))
  · rw [cappedEstimate, cappedTallies_totalSheets, estimate]

end Sys2Proof.Machine.Charges
end

