-- ==== Sys2Proof/Proofs/Charges/Decimal.lean ====
section
/-! SUPPORT. The decimal arithmetic of R91 on the digits of numbers: sums, differences and the largest magnitude of a field, and the signed
addition as that of integers (R90, R91; log entry 32). -/

namespace Sys2Proof.Machine.Charges

/-! ### Digits -/

/-- The digits of a field hold a number modulo its range. -/
theorem digitsValue_toDigits (w n : Nat) : digitsValue (toDigits w n) = n % 10 ^ w := by
  induction w generalizing n with
  | zero => exact (Nat.mod_one n).symm
  | succ w ih => rw [toDigits, digitsValue, ih, Nat.pow_succ', Nat.mod_mul]

theorem digitsValue_toDigits_of_lt {w n : Nat} (h : n < 10 ^ w) : digitsValue (toDigits w n) = n := by
  rw [digitsValue_toDigits, Nat.mod_eq_of_lt h]

/-- The digits all 9 are those of the largest magnitude. -/
theorem toDigits_nines (w n : Nat) : (toDigits w n).map (fun _ => 9) = toDigits w (10 ^ w - 1) := by
  induction w generalizing n with
  | zero => rfl
  | succ w ih =>
    have hpos : 0 < 10 ^ w := Nat.pow_pos (by decide)
    have hlast : (10 ^ (w + 1) - 1) % 10 = 9 := by omega
    have hrest : (10 ^ (w + 1) - 1) / 10 = 10 ^ w - 1 := by omega
    rw [toDigits, List.map_cons, ih, toDigits, hlast, hrest]

/-- The addition digit by digit gives the digits of the sum. -/
theorem addDigits_toDigits_fst (w m n c : Nat) : (addDigits (toDigits w m) (toDigits w n) c).1 = toDigits w (m + n + c) := by
  induction w generalizing m n c with
  | zero => rfl
  | succ w ih =>
    have hlast : (m % 10 + n % 10 + c) % 10 = (m + n + c) % 10 := by omega
    have hrest : m / 10 + n / 10 + (m % 10 + n % 10 + c) / 10 = (m + n + c) / 10 := by omega
    simp only [toDigits, addDigits, ih, hlast, hrest]

/-- The carry out of the top digit is what the sum has above the field. -/
theorem addDigits_toDigits_snd {w m n : Nat} (c : Nat) (hm : m < 10 ^ w) (hn : n < 10 ^ w) :
    (addDigits (toDigits w m) (toDigits w n) c).2 = (m + n + c) / 10 ^ w := by
  induction w generalizing m n c with
  | zero =>
    have hzero : m + n + c = c := by omega
    rw [hzero, Nat.pow_zero, Nat.div_one]
    rfl
  | succ w ih =>
    have hrest : m / 10 + n / 10 + (m % 10 + n % 10 + c) / 10 = (m + n + c) / 10 := by omega
    simp only [toDigits, addDigits]
    rw [ih _ (by omega) (by omega), hrest, Nat.div_div_eq_div_mul, Nat.pow_succ']

/-- The subtraction of the smaller from the larger gives the digits of the difference. -/
theorem subDigits_toDigits {m n c : Nat} (w : Nat) (hc : c ≤ 1) (h : n + c ≤ m) :
    (subDigits (toDigits w m) (toDigits w n) c).1 = toDigits w (m - (n + c)) := by
  induction w generalizing m n c with
  | zero => rfl
  | succ w ih =>
    simp only [toDigits, subDigits]
    split
    next hborrow =>
      have hlast : m % 10 + 10 - (n % 10 + c) = (m - (n + c)) % 10 := by omega
      have hrest : m / 10 - (n / 10 + 1) = (m - (n + c)) / 10 := by omega
      rw [ih le_rfl (by omega), hlast, hrest]
    next hplain =>
      have hlast : m % 10 - (n % 10 + c) = (m - (n + c)) % 10 := by omega
      have hrest : m / 10 - (n / 10 + 0) = (m - (n + c)) / 10 := by omega
      rw [ih (Nat.zero_le 1) (by omega), hlast, hrest]

/-! ### Signed amounts (R90) -/

/-- The number of a sign and a magnitude; `true` is MINUS. -/
def signed (minus : Bool) (n : Nat) : Int := if minus then -(n : Int) else n

@[simp] theorem signed_false (n : Nat) : signed false n = n := rfl

@[simp] theorem signed_true (n : Nat) : signed true n = -n := rfl

theorem signed_natAbs (x : Int) : signed (decide (x < 0)) x.natAbs = x := by
  simp only [signed, decide_eq_true_eq]
  split <;> omega

/-- Zero carries PLUS. -/
theorem ofInt_signed (w : Nat) (minus : Bool) (n : Nat) :
    Packed.ofInt w (signed minus n) = ⟨minus && decide (n ≠ 0), toDigits w n⟩ := by
  cases minus <;> simp [Packed.ofInt, signed, Nat.pos_iff_ne_zero]

theorem ofInt_value {w : Nat} {x : Int} (h : x.natAbs < 10 ^ w) : (Packed.ofInt w x).value = x := by
  rw [Packed.value, Packed.ofInt, digitsValue_toDigits_of_lt h]
  exact signed_natAbs x

/-! ### Signed addition (R91) -/

/-- A sum as a field of `w` digits holds it, no further from 0 than the largest magnitude (R91). -/
def saturated (w : Nat) (x : Int) : Int :=
  if (10 : Int) ^ w - 1 < x then (10 : Int) ^ w - 1 else if x < -((10 : Int) ^ w - 1) then -((10 : Int) ^ w - 1) else x

theorem saturated_natAbs_lt (w : Nat) (x : Int) : (saturated w x).natAbs < 10 ^ w := by
  have hcast : ((10 ^ w : Nat) : Int) = 10 ^ w := Nat.cast_pow 10 w
  have hpos : 0 < 10 ^ w := Nat.pow_pos (by decide)
  rw [saturated, ← hcast]
  omega

section
variable {w m n : Nat}

/-- Numbers of one sign may exceed the field together. -/
theorem saturated_same_sign (minus : Bool) (hm : m < 10 ^ w) (hn : n < 10 ^ w) :
    saturated w (signed minus m + signed minus n) = signed minus (min (m + n) (10 ^ w - 1)) := by
  have hcast : ((10 ^ w : Nat) : Int) = 10 ^ w := Nat.cast_pow 10 w
  rw [saturated, ← hcast]
  cases minus <;> simp only [signed_false, signed_true] <;> omega

/-- The sum of numbers of two signs stays in the field. -/
theorem saturated_other_sign {minus minus' : Bool} (hsign : minus ≠ minus') (hm : m < 10 ^ w) (hn : n < 10 ^ w) :
    saturated w (signed minus m + signed minus' n) = if n ≤ m then signed minus (m - n) else signed minus' (n - m) := by
  have hcast : ((10 ^ w : Nat) : Int) = 10 ^ w := Nat.cast_pow 10 w
  obtain rfl : minus' = !minus := Bool.eq_not.2 hsign.symm
  rw [saturated, ← hcast]
  cases minus <;> simp only [signed_false, signed_true, Bool.not_false, Bool.not_true] <;> omega

/-- Magnitudes of one sign are added, and a carry out of the top digit gives the largest magnitude. -/
theorem add_same_sign (minus : Bool) (hm : m < 10 ^ w) (hn : n < 10 ^ w) :
    (⟨minus, toDigits w m⟩ : Packed).add ⟨minus, toDigits w n⟩ = Packed.ofInt w (signed minus (min (m + n) (10 ^ w - 1))) := by
  rw [ofInt_signed]
  simp only [Packed.add, if_true, addDigits_toDigits_fst, addDigits_toDigits_snd 0 hm hn, Nat.add_zero, toDigits_nines]
  obtain hfits | hcarries := Nat.lt_or_ge (m + n) (10 ^ w)
  · rw [if_pos (Nat.div_eq_of_lt hfits), digitsValue_toDigits_of_lt hfits, min_eq_left (by omega)]
  · have hcarry : (m + n) / 10 ^ w ≠ 0 := (Nat.div_pos hcarries (by omega)).ne'
    have hlargest : 10 ^ w - 1 ≠ 0 := by omega
    rw [if_neg hcarry, min_eq_right (by omega), decide_eq_true hlargest, Bool.and_true]

/-- Of magnitudes of two signs the smaller is subtracted from the larger, whose sign the difference has. -/
theorem add_other_sign {minus minus' : Bool} (hsign : minus ≠ minus') (hm : m < 10 ^ w) (hn : n < 10 ^ w) :
    (⟨minus, toDigits w m⟩ : Packed).add ⟨minus', toDigits w n⟩ =
      Packed.ofInt w (if n ≤ m then signed minus (m - n) else signed minus' (n - m)) := by
  simp only [Packed.add, if_neg hsign, digitsValue_toDigits_of_lt hm, digitsValue_toDigits_of_lt hn]
  split
  next hle =>
    rw [subDigits_toDigits w (Nat.zero_le 1) hle, Nat.add_zero, ofInt_signed, digitsValue_toDigits_of_lt (by omega)]
  next hlt =>
    have hdiff : n - m ≠ 0 := by omega
    rw [subDigits_toDigits w (Nat.zero_le 1) (by omega), Nat.add_zero, ofInt_signed, decide_eq_true hdiff, Bool.and_true]

end

/-- The packed amount of the saturated sum is the sum of the packed amounts. -/
theorem add_ofInt {w : Nat} {x y : Int} (hx : x.natAbs < 10 ^ w) (hy : y.natAbs < 10 ^ w) :
    (Packed.ofInt w x).add (Packed.ofInt w y) = Packed.ofInt w (saturated w (x + y)) := by
  by_cases hsign : decide (x < 0) = decide (y < 0)
  · have hsum := saturated_same_sign (decide (y < 0)) hx hy
    rw [signed_natAbs y, ← hsign, signed_natAbs x] at hsum
    rw [hsum, Packed.ofInt, Packed.ofInt, ← hsign, add_same_sign _ hx hy]
  · have hsum := saturated_other_sign hsign hx hy
    rw [signed_natAbs x, signed_natAbs y] at hsum
    rw [hsum, Packed.ofInt, Packed.ofInt, add_other_sign hsign hx hy]

/-- Settles O53: the packed sum is that of the saturated integer sum (`add_ofInt`), which the field holds. -/
theorem packedAdditionIsExact : Obligations.PackedAdditionIsExact := by
  intro w x y hx hy
  rw [add_ofInt hx hy]
  refine ⟨ofInt_value (saturated_natAbs_lt w (x + y)), fun hzero => ?_⟩
  have hpos : (0 : Int) < 10 ^ w := by positivity
  have hplus : saturated w (x + y) = 0 := by
    rw [saturated]
    omega
  rw [hplus]
  rfl

end Sys2Proof.Machine.Charges
end

