-- ==== Sys2Proof/Proofs/Accounts/Amounts.lean ====
section
/-! SUPPORT. Amounts in command bodies: the five bytes of an amount, wherever they stand, read back as its sign and
magnitude (R90, R179). -/

namespace Sys2Proof.Machine.Accounts

variable {b : List Byte} {o : Nat}

/-! ### Half-bytes -/

theorem byteAt_append (front b : List Byte) (i : Nat) : byteAt (front ++ b) (front.length + i) = byteAt b i := by
  simp [byteAt, List.getElem?_append_right]

theorem nibbleAt_append (front b : List Byte) (o i : Nat) : nibbleAt (front ++ b) (front.length + o) i = nibbleAt b o i := by
  simp only [nibbleAt, Nat.add_assoc, byteAt_append]

/-- Two half-bytes on stand in the next byte. -/
theorem nibbleAt_cons_add_two (x : Byte) (b : List Byte) (i : Nat) : nibbleAt (x :: b) 0 (i + 2) = nibbleAt b 0 i := by
  simp [nibbleAt, byteAt]

/-- Half-bytes written in pairs read back one by one. -/
theorem nibbleAt_pairBytes (l : List Nat) (rest : List Byte) (heven : l.length % 2 = 0) (hlow : ∀ a ∈ l, a < 16) {i : Nat}
    (hi : i < l.length) : nibbleAt (pairBytes l ++ rest) 0 i = l[i] := by
  induction l using pairBytes.induct generalizing i with
  | case1 a c l ih =>
    have ha : a < 16 := hlow a (by simp)
    have hc : c < 16 := hlow c (by simp)
    have hrest : l.length % 2 = 0 := by simpa [Nat.add_assoc] using heven
    match i with
    | 0 =>
      simp [pairBytes, nibbleAt, byteAt]
      omega
    | 1 =>
      simp [pairBytes, nibbleAt, byteAt]
      omega
    | i + 2 =>
      rw [pairBytes, List.cons_append, nibbleAt_cons_add_two]
      exact ih hrest (fun x hx => hlow x (by simp [hx])) (by simpa using hi)
  | case2 l hnone =>
    match l with
    | [] => exact absurd hi (Nat.not_lt_zero i)
    | [a] => exact absurd heven Nat.one_ne_zero
    | a :: c :: l => exact absurd rfl (hnone a c l)

/-! ### Digits -/

theorem length_toDigits (w n : Nat) : (toDigits w n).length = w := by
  induction w generalizing n with
  | zero => rfl
  | succ w ih => rw [toDigits, List.length_cons, ih]

theorem getElem_toDigits {w n k : Nat} (h : k < (toDigits w n).length) : (toDigits w n)[k] = n / 10 ^ k % 10 := by
  induction w generalizing n k with
  | zero => exact absurd h (Nat.not_lt_zero k)
  | succ w ih =>
    cases k with
    | zero => simp [toDigits]
    | succ k => simp [toDigits, ih, Nat.div_div_eq_div_mul, Nat.pow_succ']

/-- Half-bytes that are the decimal digits of a number, most significant first, spell it. -/
theorem digits?_of_digits {w n i : Nat} (acc : Nat) (h : ∀ k < w, nibbleAt b o (i + k) = n / 10 ^ (w - 1 - k) % 10) :
    digits? b o w i acc = some (acc * 10 ^ w + n % 10 ^ w) := by
  induction w generalizing i acc with
  | zero => simp [digits?, Nat.mod_one]
  | succ w ih =>
    have htop : nibbleAt b o i = n / 10 ^ w % 10 := h 0 (Nat.succ_pos w)
    have hrest : ∀ k < w, nibbleAt b o (i + 1 + k) = n / 10 ^ (w - 1 - k) % 10 := by
      intro k hk
      rw [Nat.add_assoc, h (1 + k) (by omega)]
      congr 3
      omega
    rw [digits?, if_pos (by omega), ih _ hrest, htop, Nat.mod_pow_succ, Nat.pow_succ]
    congr 1
    ring

/-! ### Amounts (R90) -/

/-- The half-bytes of an amount: the pad digit, eight digits, most significant first, and the sign. -/
def amountNibbles (x : Int) : List Nat := 0 :: ((toDigits 8 x.natAbs).reverse ++ [if x < 0 then 13 else 12])

theorem amountBytes_eq (x : Int) : amountBytes x = pairBytes (amountNibbles x) := by
  simp [amountBytes, packedBytes, amountNibbles, Packed.ofInt]

theorem length_amountNibbles (x : Int) : (amountNibbles x).length = 10 := by
  simp [amountNibbles, length_toDigits]

theorem amountNibbles_lt (x : Int) : ∀ a ∈ amountNibbles x, a < 16 := by
  intro a ha
  simp only [amountNibbles, List.mem_cons, List.mem_append, List.mem_reverse, List.not_mem_nil, or_false] at ha
  rcases ha with rfl | hdigit | rfl
  · decide
  · obtain ⟨k, hk, rfl⟩ := List.getElem_of_mem hdigit
    rw [getElem_toDigits]
    omega
  · split <;> decide

theorem amountNibbles_digit (x : Int) {k : Nat} (hk : k < 8) :
    (amountNibbles x)[1 + k]'(by rw [length_amountNibbles]; omega) = x.natAbs / 10 ^ (8 - 1 - k) % 10 := by
  have hlength := length_toDigits 8 x.natAbs
  simp only [amountNibbles, Nat.add_comm 1 k, List.getElem_cons_succ]
  rw [List.getElem_append_left (by simpa [hlength] using hk), List.getElem_reverse, getElem_toDigits, hlength]

/-- The half-bytes of an amount that eight digits hold are read as its sign and magnitude. -/
theorem amount?_of_nibbles {x : Int} (hx : x.natAbs < 10 ^ 8)
    (h : ∀ i (hi : i < (amountNibbles x).length), nibbleAt b o i = (amountNibbles x)[i]) :
    amount? b o = some (decide (x < 0), x.natAbs) := by
  have hlength := length_amountNibbles x
  have hpad : nibbleAt b o 0 = 0 := h 0 (by omega)
  have hdigits : digits? b o 8 1 0 = some x.natAbs := by
    rw [digits?_of_digits 0 fun k hk => (h (1 + k) (by omega)).trans (amountNibbles_digit x hk), Nat.zero_mul, Nat.zero_add,
      Nat.mod_eq_of_lt hx]
  have hsign : nibbleAt b o 9 = if x < 0 then 13 else 12 := h 9 (by omega)
  rw [amount?, if_neg (not_not.2 hpad), hdigits, hsign]
  by_cases hneg : x < 0 <;> simp [hneg]

/-- An amount that eight digits hold reads back as its sign and magnitude, between any other bytes (R179). -/
theorem amount?_amountBytes {x : Int} (front rest : List Byte) (h : x.natAbs < 10 ^ 8) :
    amount? (front ++ (amountBytes x ++ rest)) front.length = some (decide (x < 0), x.natAbs) := by
  refine amount?_of_nibbles h fun i hi => ?_
  rw [← Nat.add_zero front.length, nibbleAt_append, amountBytes_eq]
  exact nibbleAt_pairBytes _ _ (by rw [length_amountNibbles]) (amountNibbles_lt x) hi

/-- An amount within the limit of a field that may not be negative reads back (R90). -/
theorem positive?_amountBytes {x limit : Nat} (front rest : List Byte) (h : x < 10 ^ 8) (hlimit : x ≤ limit) :
    positive? (front ++ (amountBytes x ++ rest)) front.length limit = some x := by
  have hread := amount?_amountBytes front rest (x := x) (by simpa using h)
  have hplus : ¬ (x : Int) < 0 := by omega
  simp [positive?, hread, hplus, hlimit]

end Sys2Proof.Machine.Accounts
end

