-- ==== Sys2Proof/Proofs/Accounts/CreditDebit.lean ====
section
/-! SUPPORT. ACCOUNT-CREDIT and ACCOUNT-DEBIT: the body read, the command taken and answered, and the balance moved (R101, R102). -/

namespace Sys2Proof.Machine.Accounts

/-! ### The commands taken -/

/-- The body of an amount command reads back as its account and its amount. -/
theorem parseAmountCommand_body (i : Fin 1024) {x : Nat} (hx : x ≤ 99999999) :
    parseAmountCommand (u16 i ++ amountBytes x) = some (i, x) := by
  have haccount : be16 (u16 i ++ amountBytes x) 0 = i := be16_u16 i (by omega) _
  have hamount : positive? (u16 i ++ amountBytes x) 2 99999999 = some x := by
    simpa [length_u16] using positive?_amountBytes (u16 i) [] (by omega : x < 10 ^ 8) hx
  have hlength : (u16 i ++ amountBytes x).length = 7 := rfl
  simp [parseAmountCommand, hlength, haccount, hamount, fin?]

section
variable {s : State} {f : CommandFrame} {i : Fin 1024} {x : Nat}

theorem onCommand_amount {kind : Byte} (h : Commanded s kind f) (hx : x ≤ 99999999) (hbody : f.body = u16 i ++ amountBytes x)
    (act : CommandFrame → Fin 1024 × Nat → State → State) :
    s.onCommand kind parseAmountCommand act = act f (i, x) s.tookUp :=
  h.onCommand (hbody ▸ parseAmountCommand_body i hx) act

theorem tookUp_account (s : State) (i : Fin 1024) : s.tookUp.account i = s.account i := rfl

theorem balanceOf_setAccount (s : State) (i : Fin 1024) (a : AccountEntry) :
    (s.setAccount i a).balanceOf i = .balance i a.balance a.available := by
  rw [State.balanceOf, State.setAccount_account]

theorem execAccountCredit_eq (h : Commanded s 3 f) (hx : x ≤ 99999999) (hbody : f.body = u16 i ++ amountBytes x) :
    exec .accountCredit s = .next
      ((s.tookUp.setAccount i ((s.account i).credit x)).replied f
        (if maxAmount < (s.account i).balance + x then .saturated else .done)
        (.balance i ((s.account i).credit x).balance ((s.account i).credit x).available)) := by
  rw [exec, execAccountCredit, State.takeAccountCredit, onCommand_amount h hx hbody]
  dsimp only
  rw [balanceOf_setAccount, tookUp_account, State.reply_eq]

theorem execAccountDebit_covered (h : Commanded s 4 f) (hx : x ≤ 99999999) (hbody : f.body = u16 i ++ amountBytes x)
    (hcover : (x : Int) ≤ (s.account i).available) :
    exec .accountDebit s = .next
      ((s.tookUp.setAccount i ((s.account i).debit x)).replied f .done
        (.balance i ((s.account i).debit x).balance ((s.account i).debit x).available)) := by
  rw [exec, execAccountDebit, State.takeAccountDebit, onCommand_amount h hx hbody, tookUp_account, if_neg hcover.not_gt]
  dsimp only
  rw [balanceOf_setAccount, State.reply_eq]

theorem execAccountDebit_beyond (h : Commanded s 4 f) (hx : x ≤ 99999999) (hbody : f.body = u16 i ++ amountBytes x)
    (hbeyond : (s.account i).available < x) :
    exec .accountDebit s = .next
      (s.tookUp.replied f .range (.balance i (s.account i).balance (s.account i).available)) := by
  rw [exec, execAccountDebit, State.takeAccountDebit, onCommand_amount h hx hbody, tookUp_account, if_pos hbeyond,
    State.balanceOf, tookUp_account, State.reply_eq]

/-! ### The balance moved -/

theorem credit_within {a : AccountEntry} (h : a.balance + x ≤ maxAmount) : a.credit x = { a with balance := a.balance + x } := by
  rw [AccountEntry.credit, satAddInt, if_neg h.not_gt]

theorem credit_saturates {a : AccountEntry} (h : maxAmount < a.balance + x) : a.credit x = { a with balance := maxAmount } := by
  rw [AccountEntry.credit, satAddInt, if_pos h]

end

/-- Settles O49: a credit within and past the limit, a debit within and past the available amount. -/
theorem creditAndDebitMoveBalance : Obligations.CreditAndDebitMoveBalance := by
  intro s f i x hx hbody a
  refine ⟨fun hcommand hwithin => ?_, fun hcommand hpast => ?_, fun hcommand hcover => ?_, fun hcommand hbeyond => ?_⟩
  · have hcode : ¬ maxAmount < (s.account i).balance + x := not_lt.2 hwithin
    rw [execAccountCredit_eq hcommand hx hbody, credit_within hwithin, if_neg hcode]
    rfl
  · have hcode : maxAmount < (s.account i).balance + x := hpast
    rw [execAccountCredit_eq hcommand hx hbody, credit_saturates hpast, if_pos hcode]
    rfl
  · exact execAccountDebit_covered hcommand hx hbody (sub_nonneg.1 hcover)
  · exact execAccountDebit_beyond hcommand hx hbody (sub_neg.1 hbeyond)

end Sys2Proof.Machine.Accounts
end

