-- ==== Sys2Proof/Proofs/Accounts/Reservations.lean ====
section
/-! SUPPORT. RESERVE, SETTLE and RETURN: the tests of a reservation, and the job record and the account that release one (R94 to R98). -/

namespace Sys2Proof.Machine.Accounts

/-! ### RESERVE (R95) -/

section
variable {a : AccountEntry} {x : Nat}

theorem reserveResult_closed (h : a.state = .closed) : reserveResult a x = .closed := if_pos h

theorem reserveResult_frozen (h : a.state = .frozen) : reserveResult a x = .frozen := by
  simp [reserveResult, h]

/-- An OPEN account whose available amount or whose reserved amount is the obstacle answers QUOTA. -/
theorem reserveResult_quota (hopen : a.state = .opened) (h : a.available < x ∨ maxAmount < a.reserved + x) :
    reserveResult a x = .quota := by
  rw [reserveResult, hopen, if_neg (by decide), if_neg (by decide)]
  split
  · rfl
  next hcover => exact if_pos (h.resolve_left hcover)

end

theorem reserve_reserved {s : State} {i : Fin 1024} {x : Nat} (h : reserveResult (s.account i) x = .reserved) :
    s.reserve i x = (s.setAccount i ((s.account i).reserve x), .reserved) := by
  rw [State.reserve, h]

/-- What is not reserved changes nothing. -/
theorem reserve_refused {s : State} {i : Fin 1024} {x : Nat} {r : ReserveResult} (h : reserveResult (s.account i) x = r)
    (hr : r ≠ .reserved) : s.reserve i x = (s, r) := by
  rcases s.reserve_cases i x with ⟨hreserved, -⟩ | ⟨-, e⟩
  · exact absurd (h.symm.trans hreserved) hr
  · rw [e, h]

/-! ### SETTLE and RETURN (R96, R98) -/

/-- The job in record `j` has given up its reservation, and its account has become `a`. -/
def released (s : State) (j : Fin 512) (a : AccountEntry) : State :=
  (s.setAccount (s.job j).account a).setJob j { s.job j with reservation := none }

section
variable (s : State) (j : Fin 512) (a : AccountEntry)

theorem released_account : (released s j a).account (s.job j).account = a := State.setAccount_account s _ a

theorem released_account_other {i : Fin 1024} (h : i ≠ (s.job j).account) : (released s j a).account i = s.account i :=
  State.setAccount_account_other s _ a h

theorem released_job : (released s j a).job j = { s.job j with reservation := none } := State.setJob_job _ j _

theorem released_job_other {k : Fin 512} (h : k ≠ j) : (released s j a).job k = s.job k := State.setJob_job_other _ j _ h

theorem released_frame : { released s j a with tables := s.tables, jobs := s.jobs } = s := rfl

end

theorem settleJob_released {s : State} {j : Fin 512} {res : Nat} (h : (s.job j).reservation = some res) :
    s.settleJob j =
      released s j ((s.account (s.job j).account).settle (s.settlementCharge (s.job j)) res) := State.settleJob_some h

theorem returnJob_released {s : State} {j : Fin 512} {res : Nat} (h : (s.job j).reservation = some res) :
    s.returnJob j = released s j ((s.account (s.job j).account).giveBack res) := State.returnJob_some h

/-- No more than the reservation is charged, so a settlement does not lower the available amount (R94). -/
theorem available_le_settle (a : AccountEntry) (c : Charge) (res : Nat) : a.available ≤ (a.settle c res).available := by
  simp only [AccountEntry.available, AccountEntry.settle, chargedAmount]
  omega

theorem giveBack_available (a : AccountEntry) (res : Nat) : (a.giveBack res).available = a.available + res := by
  simp only [AccountEntry.available, AccountEntry.giveBack]
  omega

/-- Settles O50: the tests of RESERVE in turn, and the two ways a reservation is released. -/
theorem reservationIsTakenAndReleased : Obligations.ReservationIsTakenAndReleased := by
  refine ⟨fun s i x => ⟨fun hopen hcover hmax => ?_, fun hclosed => ?_, fun hfrozen => ?_, fun hopen hless => ?_,
    fun hopen _ hmax => ?_⟩, fun s j res hres => ?_⟩
  · exact reserve_reserved (Release.reserveResult_eq_reserved hopen hcover hmax)
  · exact reserve_refused (reserveResult_closed hclosed) (by decide)
  · exact reserve_refused (reserveResult_frozen hfrozen) (by decide)
  · exact reserve_refused (reserveResult_quota hopen (.inl hless)) (by decide)
  · exact reserve_refused (reserveResult_quota hopen (.inr hmax)) (by decide)
  · intro a t u charge
    have ht : t = released s j (a.settle (s.settlementCharge (s.job j)) res) := settleJob_released hres
    have hu : u = released s j (a.giveBack res) := returnJob_released hres
    rw [ht, hu, released_account, released_account]
    exact ⟨Streams.settle_eq a _ res, available_le_settle a _ res, released_job .., rfl, giveBack_available a res, released_job ..,
      fun i hi => ⟨released_account_other s j _ hi, released_account_other s j _ hi⟩,
      fun k hk => ⟨released_job_other s j _ hk, released_job_other s j _ hk⟩, released_frame .., released_frame ..⟩

end Sys2Proof.Machine.Accounts
end

