-- ==== Sys2Proof/Proofs/Parking/Expiry.lean ====
section
/-! SUPPORT. HOLD_EXPIRY and PARK_HOLD_EXPIRY: the expiry that is due ends the job that it finds (R99, R109, R115). -/

namespace Sys2Proof.Machine.Parking

/-! ### Settled or returned (R99) -/

theorem settleOrReturn_tallied {s : State} {j : Fin 512} (h : 1 ≤ (s.job j).tallies.fm + (s.job j).tallies.fc) (reason : EndReason) :
    s.settleOrReturn j reason = s.settleWithAudit j reason := if_pos (decide_eq_true h)

theorem settleOrReturn_untallied {s : State} {j : Fin 512} (h : (s.job j).tallies.fm + (s.job j).tallies.fc = 0)
    (reason : EndReason) : s.settleOrReturn j reason = s.returnWithAudit j reason :=
  if_neg (by simp [JobRecord.tallied, h])

/-! ### The expiries (R109, R115) -/

section
variable {s : State} {n : Nat} {j : Fin 512} {r : JobRecord}

theorem execHoldExpiry_due (hfound : s.findJob n = some (j, r)) (hheld : r.state = .held) (hdue : expiryDue r.countdown = true) :
    exec (.holdExpiry n) s = .next ((s.dropJob j).sentUp r.station (.refusedJob r.number .expired)) := by
  simp only [exec, execHoldExpiry, hfound, hheld, hdue, and_self, if_true, State.refuseJob_eq]

theorem execParkHoldExpiry_due (hfound : s.findJob n = some (j, r)) (hparked : r.state = .parked)
    (hdue : expiryDue r.countdown = true) : exec (.parkHoldExpiry n) s = .next (s.expireParked j r) := by
  simp only [exec, execParkHoldExpiry, hfound, hparked, hdue, and_self, if_true]

end

/-- Settles O39: the countdown is due, and a parked job takes the branch of R99 that its tallies choose. -/
theorem countdownExpiryEndsJob : Obligations.CountdownExpiryEndsJob := by
  intro s n k j r hfound hrecord hcountdown
  subst hrecord
  have hdue : expiryDue (s.job j).countdown = true := by rw [hcountdown]; rfl
  refine ⟨fun hheld => execHoldExpiry_due hfound hheld hdue, fun hparked htallied => ?_, fun hparked huntallied => ?_⟩
  · rw [execParkHoldExpiry_due hfound hparked hdue, State.expireParked, settleOrReturn_tallied htallied, State.refuseJob_eq]
  · rw [execParkHoldExpiry_due hfound hparked hdue, State.expireParked, settleOrReturn_untallied huntallied, State.refuseJob_eq]

end Sys2Proof.Machine.Parking
end

