-- ==== Sys2Proof/Proofs/Parking/Seek.lean ====
section
/-! SUPPORT. HEADER_COMPLETION at open step SEEK: a header read without error leaves the store as it was, and the seek goes on, finds its
sheet, or ends without it (R27, R66, R112, R113). -/

namespace Sys2Proof.Machine.Parking

/-! ### The read (R27) -/

/-- The state when the header read at `pos` has ended and no new error has come upon the slot: what was read is written back. -/
def headerTaken (s : State) (pos : SegPos) : State := s.clearOp.setStored pos (s.stored pos)

theorem headerTaken_stored (s : State) (pos q : SegPos) : (headerTaken s pos).stored q = s.stored q := by
  by_cases hq : q = pos
  · rw [hq]
    exact State.stored_setStored s.clearOp pos _
  · exact State.stored_setStored_other s.clearOp hq _

/-- A clean header is no check, and the errors of the data words stay as they stand. -/
theorem readErrors_header_clean {s : State} {pos : SegPos} (h : (s.stored pos).headerErrors = .clean) (c : Fin 8) (n k : Nat) :
    s.readErrors ⟨c, .header, n, pos, k⟩ .clean .clean = (s.setStored pos (s.stored pos), .clean) := by
  have hdata (e : WordErrors) : worseErrors e .clean = e := by cases e <;> rfl
  simp only [State.readErrors, h, hdata, checkOf]
  rw [← h]

theorem execHeaderCompletion_clean {s : State} {c : Fin 8} {n k : Nat} {pos : SegPos}
    (hop : s.hsc.op = some ⟨.read ⟨c, .header, n, pos, k⟩, false⟩) (hclean : (s.stored pos).headerErrors = .clean) :
    exec (.headerCompletion .clean) s =
      .next ((headerTaken s pos).headerRead c ⟨c, .header, n, pos, k⟩ (s.stored pos).segment.header .clean) := by
  have hread : s.clearOp.readErrors ⟨c, .header, n, pos, k⟩ .clean .clean = (headerTaken s pos, .clean) :=
    readErrors_header_clean (s := s.clearOp) hclean c n k
  simp only [exec, execHeaderCompletion, hop, hread, Bool.false_eq_true, if_false]

/-! ### What the SE does with the header (R112, R113) -/

/-- An open of printer `p` seeks sheet `sheet` of job `r`, held in record `j`, at context `c`, and no end of it is pending. -/
structure Seeks (s : State) (c : Fin 8) (p : Fin 64) (j : Fin 512) (r : JobRecord) (sheet : Nat) : Prop where
  opening : (s.context c).state = .opening
  pending : (s.context c).pendingEnd = none
  owner   : (s.context c).owner = some p
  job     : (s.context c).job = some r.number
  found   : s.findJob r.number = some (j, r)
  resume  : r.resumeSheet = some sheet

/-- The header begins another sheet than `sheet`, or none. -/
def Misses (h : Header) (sheet : Nat) : Prop := h.sheetStart = false ∨ h.sheet ≠ sheet

section
variable {s : State} {c : Fin 8} {p : Fin 64} {j : Fin 512} {r : JobRecord} {sheet : Nat} {e : ReadEntry} {h : Header}

theorem headerTaken_seeks (hs : Seeks s c p j r sheet) (pos : SegPos) : Seeks (headerTaken s pos) c p j r sheet :=
  ⟨hs.opening, hs.pending, hs.owner, hs.job, hs.found, hs.resume⟩

theorem headerRead_clean (hs : Seeks s c p j r sheet) :
    s.headerRead c e h .clean =
      if h.sheetStart = true ∧ h.sheet = sheet then s.sheetFound c e.segment h.sheet
      else if e.segment < r.segments then s.nextHeader c r.number e.segment e.pos
      else (s.seekNotFound c j).runArbiter := by
  simp only [State.headerRead, hs.pending, reduceCtorEq, if_false, hs.job, Option.bind_some, hs.found, hs.resume, Option.some.injEq]

theorem Misses.not_begins (hm : Misses h sheet) : ¬(h.sheetStart = true ∧ h.sheet = sheet) := by
  rintro ⟨hstart, hsheet⟩
  rcases hm with hclear | hother
  · simp [hstart] at hclear
  · exact hother hsheet

/-- Before the last segment the cursor moves on. -/
theorem headerRead_moves (hs : Seeks s c p j r sheet) (hm : Misses h sheet) (hlast : e.segment < r.segments) {next : SegPos}
    (hnext : s.nextPos e.pos = some next) :
    s.headerRead c e h .clean =
      (s.pushRead ⟨c, .header, r.number, next, e.segment + 1⟩).setContext c
        { s.context c with nextFetch := some (e.segment + 1), position := some next } := by
  rw [headerRead_clean hs, if_neg hm.not_begins, if_pos hlast, State.nextHeader, hnext]

/-- At the last segment the sheet has not been found. -/
theorem headerRead_ends (hs : Seeks s c p j r sheet) (hm : Misses h sheet) (hlast : e.segment = r.segments)
    (hqueue : s.ru.queue = []) : s.headerRead c e h .clean = s.seekNotFound c j := by
  have hqueue' : (s.seekNotFound c j).ru.queue = [] := (Release.seekNotFound_keepsQueue s c j).1.trans hqueue
  rw [headerRead_clean hs, if_neg hm.not_begins, if_neg (by omega), State.runArbiter_empty hqueue']

/-- An open at step WAIT stays there while its printer is BLOCKED (R66). -/
theorem waitTest_blocked (howner : (s.context c).owner = some p) (hblocked : (s.cond p).state = some .blocked) : s.waitTest c = s := by
  unfold State.waitTest
  dsimp only
  split
  · simp only [howner]
    cases hjob : (s.context c).job with
    | none => rfl
    | some n =>
      cases hfound : s.findJob n with
      | none => simp only [hfound]
      | some x => simp only [hfound, hblocked]
  · rfl

/-- A header that begins the sheet sets where the stream starts, and the open waits for its printer. -/
theorem headerRead_finds (hs : Seeks s c p j r sheet) (hstart : h.sheetStart = true) (hsheet : h.sheet = sheet)
    (hblocked : (s.cond p).state = some .blocked) :
    s.headerRead c e h .clean = s.setContext c
      { s.context c with
        sent := e.segment - 1, lastSheet := sheet - 1, mode := some (.restartAt sheet), step := some .wait } := by
  rw [headerRead_clean hs, if_pos ⟨hstart, hsheet⟩, hsheet, State.sheetFound, State.waitThenArbiter]
  generalize hu : s.setContext c _ = u
  have hcontext := congrArg (fun t : State => t.context c) hu
  rw [State.setContext_context] at hcontext
  have hwaits : u.waitTest c = u :=
    waitTest_blocked (p := p) (by rw [← hcontext]; exact hs.owner) (by rw [← hu]; exact hblocked)
  simp only [hwaits]
  exact if_pos (by rw [← hcontext]; exact hs.opening)

end

/-- From `s` to `t` the seek at context `c` for job `r` in record `j` has ended without its sheet: the job is settled and dropped, and the
context is FREE. -/
structure SeekEnded (c : Fin 8) (j : Fin 512) (r : JobRecord) (res : Nat) (s t : State) : Prop where
  settled  : Streams.JobSettled j r res .completeBySeek s t
  context  : t.context c = Context.free
  contexts : ∀ d, d ≠ c → t.context d = s.context d
  notices  : t.se.notices = s.se.notices
  ru       : t.ru = { s.ru with saved := s.ru.saved.filter (fun x => x != c) }
  hsc      : Streams.withPoolOf s.hsc t.hsc = s.hsc
  rest     : { t with jobs := s.jobs, tables := s.tables, hsc := s.hsc, se := s.se, ru := s.ru, mu := s.mu } = s

theorem seekNotFound_ended {s : State} {j : Fin 512} {r : JobRecord} {res : Nat} (hheld : s.job j = r) (hres : r.reservation = some res)
    (c : Fin 8) : SeekEnded c j r res s (s.seekNotFound c j) := by
  obtain ⟨hsettled, hhsc, hrest⟩ := Streams.settleWithAudit_dropJob hheld hres .completeBySeek
  rw [State.seekNotFound]
  generalize (s.settleWithAudit j .completeBySeek).dropJob j = t at *
  have hse : t.se = s.se := (congrArg State.se hrest :)
  have hru : t.ru = s.ru := (congrArg State.ru hrest :)
  exact
    { settled := hsettled.congr ⟨rfl, rfl, rfl⟩ ⟨rfl, rfl, rfl⟩
      context := State.freeContext_context _ _
      contexts := fun d hd => (State.freeContext_context_other _ hd).trans
        (congrArg (fun x : StreamEngine => x.contexts.get (fun _ => Context.free) d) hse)
      notices := (congrArg StreamEngine.notices hse :)
      ru := congrArg (fun x : ReleaseUnit => { x with saved := x.saved.filter (fun d => d != c) }) hru
      hsc := hhsc
      rest := congrArg (fun x : State => { x with se := s.se, ru := s.ru }) hrest }

/-- Settles O24: the read changes nothing of the store (`headerTaken_stored`), and the header moves the cursor on, ends the seek, or finds
the sheet. -/
theorem seekReadsHeaders : Obligations.SeekReadsHeaders := by
  intro s c p j r pos next k sheet hop hopening _ hpending howner hjob hfound hheld hresume hclean
  have hseeks : Seeks (headerTaken s pos) c p j r sheet :=
    headerTaken_seeks ⟨hopening, hpending, howner, hjob, hfound, hresume⟩ pos
  have hexec := execHeaderCompletion_clean hop hclean
  refine ⟨fun hmisses hlast hnext => ?_, fun hmisses hlast hqueue hroom res hres => ?_, fun hstart hsheet hblocked => ?_⟩
  · have hread := headerRead_moves (e := ⟨c, .header, r.number, pos, k⟩) hseeks hmisses hlast (next := next) hnext
    exact ⟨_, hexec.trans (congrArg _ hread), State.setContext_context _ _ _, rfl, rfl,
      fun d hd => State.setContext_context_other _ _ _ hd, headerTaken_stored s pos, rfl, by simp [headerTaken, State.clearOp]⟩
  · have hread := headerRead_ends (e := ⟨c, .header, r.number, pos, k⟩) hseeks hmisses hlast hqueue
    have h := seekNotFound_ended (s := headerTaken s pos) hheld hres c
    rw [hread] at hexec
    generalize (headerTaken s pos).seekNotFound c j = t at h hexec
    obtain ⟨audit, haudit, hoffered⟩ := h.settled.audit
    have hmu : t.mu = { s.mu with reports := s.mu.reports ++ [⟨s.mu.clock, .audit audit⟩] } := by
      rcases hoffered with ⟨-, e⟩ | ⟨hfull, -⟩
      · exact e
      · exact absurd hroom (not_lt.2 hfull)
    refine ⟨t, hexec, h.settled.record, h.settled.records, h.settled.account, h.settled.accounts, h.settled.user, h.context, h.contexts,
      (congrArg HoldStore.op h.hsc :), (congrArg HoldStore.reads h.hsc :), congrArg ReleaseUnit.saved h.ru,
      (congrArg ReleaseUnit.queue h.ru :).trans hqueue, (congrArg ReleaseUnit.notices h.ru :), fun q => ?_,
      ⟨audit, congrArg ManagementUnit.reports hmu, haudit⟩, ?_, h.settled.tables, h.notices, ?_⟩
    · exact (Streams.stored_congr (congrArg HoldStore.store h.hsc :) (congrArg HoldStore.epoch h.hsc :) q).trans
        (headerTaken_stored s pos q)
    · exact congrArg (fun m : ManagementUnit => { m with reports := s.mu.reports }) hmu
    · exact congrArg (fun x : State => { x with hsc := s.hsc }) h.rest
  · have hread := headerRead_finds (e := ⟨c, .header, r.number, pos, k⟩) hseeks hstart hsheet hblocked
    exact ⟨_, hexec.trans (congrArg _ hread), State.setContext_context _ _ _, rfl, rfl,
      fun d hd => State.setContext_context_other _ _ _ hd, headerTaken_stored s pos, rfl, by simp [headerTaken, State.clearOp]⟩

end Sys2Proof.Machine.Parking
end

