-- ==== Sys2Proof/Proofs/Parking/TakenJobs.lean ====
section
/-! SUPPORT. A recall carried out, said once for the jobs that hold a reservation: what it does at the account, the reports, the pool, the
records and the upstream port, and what it leaves (R23, R28, R99, R100, R117, R118, R119). -/

namespace Sys2Proof.Machine.Parking

/-! ### Settled or returned, with the JOB-AUDIT (R99, R100) -/

/-- The account of job `r` once its reservation `res` is settled, if the job is tallied, or else returned. -/
def accountAfter (s : State) (r : JobRecord) (res : Nat) : AccountEntry :=
  if r.tallied then (s.account r.account).settle (s.settlementCharge r) res else (s.account r.account).giveBack res

/-- `b` is the JOB-AUDIT of the end of job `r` for `reason`, its reservation `res` settled or returned in state `s`. -/
structure EndAudit (s : State) (r : JobRecord) (res : Nat) (reason : EndReason) (b : JobAudit) : Prop where
  job         : b.job = r.number
  reason      : b.reason = reason
  disposition : b.disposition = if r.tallied then .settled else .returned
  reservation : b.reservation = res
  charge      : b.charge = if r.tallied then (s.settlementCharge r).amount else 0
  charged     : b.charged = if r.tallied then min (s.settlementCharge r).amount res else 0

/-- All that SETTLE or RETURN with its JOB-AUDIT does: the reservation is released, and the MU is offered the JOB-AUDIT. -/
theorem settleOrReturn_eq {s : State} {j : Fin 512} {r : JobRecord} {res : Nat} (hheld : s.job j = r) (hres : r.reservation = some res)
    (reason : EndReason) : ∃ b m, EndAudit s r res reason b ∧ Streams.AuditOffered b s.mu m ∧
      s.settleOrReturn j reason = { Accounts.released s j (accountAfter s r res) with mu := m } := by
  subst hheld
  by_cases h : (s.job j).tallied = true
  · obtain ⟨m, hoffered, e⟩ := Streams.offerAudit_offered (s.settleJob j) (s.settleAudit j reason)
    rw [Accounts.settleJob_released hres] at hoffered e
    refine ⟨s.settleAudit j reason, m, ?_, hoffered, ?_⟩
    · constructor <;> simp [State.settleAudit, hres, h, chargedAmount]
    · rw [State.settleOrReturn, if_pos h, State.settleWithAudit, Accounts.settleJob_released hres, e, accountAfter, if_pos h]
  · obtain ⟨m, hoffered, e⟩ := Streams.offerAudit_offered (s.returnJob j) (s.returnAudit j reason)
    rw [Accounts.returnJob_released hres] at hoffered e
    refine ⟨s.returnAudit j reason, m, ?_, hoffered, ?_⟩
    · constructor <;> simp [State.returnAudit, hres, h]
    · rw [State.settleOrReturn, if_neg h, State.returnWithAudit, Accounts.returnJob_released hres, e, accountAfter, if_neg h]

/-- From `s` to `t` the reservation `res` of the job `r` in record `j` has been settled or returned for `reason`, and the MU offered the
JOB-AUDIT. Of the SE and the RU nothing is said. -/
structure ReservationEnded (j : Fin 512) (r : JobRecord) (res : Nat) (reason : EndReason) (s t : State) : Prop where
  record   : t.job j = { r with reservation := none }
  records  : ∀ i, i ≠ j → t.job i = s.job i
  account  : t.account r.account = accountAfter s r res
  accounts : ∀ i, i ≠ r.account → t.account i = s.account i
  tables   : { t.tables with accounts := s.tables.accounts } = s.tables
  audit    : ∃ b, EndAudit s r res reason b ∧ Streams.AuditOffered b s.mu t.mu
  rest     : { t with jobs := s.jobs, tables := s.tables, se := s.se, ru := s.ru, mu := s.mu } = s

section
variable {j : Fin 512} {r : JobRecord} {res : Nat} {reason : EndReason} {s t : State}

theorem settleOrReturn_ended (hheld : s.job j = r) (hres : r.reservation = some res) (reason : EndReason) :
    ReservationEnded j r res reason s (s.settleOrReturn j reason) := by
  obtain ⟨b, m, haudit, hoffered, e⟩ := settleOrReturn_eq hheld hres reason
  subst hheld
  rw [e]
  have record := Accounts.released_job s j (accountAfter s (s.job j) res)
  have records (i : Fin 512) := Accounts.released_job_other s j (accountAfter s (s.job j) res) (k := i)
  have account := Accounts.released_account s j (accountAfter s (s.job j) res)
  have accounts (i : Fin 1024) := Accounts.released_account_other s j (accountAfter s (s.job j) res) (i := i)
  have frame := Accounts.released_frame s j (accountAfter s (s.job j) res)
  have tables : { (Accounts.released s j (accountAfter s (s.job j) res)).tables with accounts := s.tables.accounts } = s.tables := rfl
  generalize Accounts.released s j (accountAfter s (s.job j) res) = t at *
  exact
    { record := record
      records := records
      account := account
      accounts := accounts
      tables := tables
      audit := ⟨b, haudit, hoffered⟩
      rest := congrArg (fun x : State => { x with se := s.se, ru := s.ru, mu := s.mu }) frame }

/-- SETTLE and RETURN do not touch the SE and the RU. -/
theorem settleOrReturn_engine (hheld : s.job j = r) (hres : r.reservation = some res) (reason : EndReason) :
    (s.settleOrReturn j reason).se = s.se ∧ (s.settleOrReturn j reason).ru = s.ru := by
  obtain ⟨b, m, -, -, e⟩ := settleOrReturn_eq hheld hres reason
  rw [e]
  exact ⟨rfl, rfl⟩

theorem ReservationEnded.unnameJob (h : ReservationEnded j r res reason s t) (n : Nat) :
    ReservationEnded j r res reason s (t.unnameJob n) :=
  ⟨h.record, h.records, h.account, h.accounts, h.tables, h.audit, h.rest⟩

theorem ReservationEnded.freeContext (h : ReservationEnded j r res reason s t) (c : Fin 8) :
    ReservationEnded j r res reason s (t.freeContext c) :=
  ⟨h.record, h.records, h.account, h.accounts, h.tables, h.audit, h.rest⟩

end

/-! ### The chain and the user of a dropped job (R10, R23) -/

/-- The chain of a dropped job ends the pool. -/
theorem dropJob_pool {s : State} {j : Fin 512} {head tail : Fin 4096} (hhead : (s.job j).chainHead = some head)
    (htail : (s.job j).chainTail = some tail) :
    (s.dropJob j).hsc.poolTail = some tail ∧ (s.dropJob j).hsc.poolLength = s.hsc.poolLength + (s.job j).extents := by
  have hhsc : (s.dropJob j).hsc = (s.appendPool head tail (s.job j).extents).hsc := by
    simp only [State.dropJob, State.freeRecord, State.setJob_frame, State.setUser_frame, State.freeChain, hhead, htail]
  rw [hhsc]
  exact ⟨rfl, rfl⟩

/-- Of the users a dropped job changes its own only. -/
theorem dropJob_user_other {s : State} {j : Fin 512} {u : Fin 8192} (h : u ≠ (s.job j).user) : (s.dropJob j).user u = s.user u := by
  obtain ⟨⟨head, tail, n, record⟩, -, -, rest⟩ := Streams.freeChain_freed s j
  simp only [State.dropJob, State.freeRecord, record]
  exact (State.setUser_user_other _ _ _ h).trans (congrArg (fun x : State => x.user u) rest :)

/-! ### The job taken away (R117, R118, R119) -/

/-- From `s` to `t` the job `r` in record `j`, holding the reservation `res`, has been taken away by a recall. Of the SE and the RU nothing
is said. -/
structure JobTaken (j : Fin 512) (r : JobRecord) (res : Nat) (s t : State) : Prop where
  record   : t.job j = JobRecord.powerOn
  records  : ∀ i, i ≠ j → t.job i = s.job i
  account  : t.account r.account = accountAfter s r res
  accounts : ∀ i, i ≠ r.account → t.account i = s.account i
  user     : t.user r.user = { s.user r.user with liveJobs := (s.user r.user).liveJobs - 1 }
  users    : ∀ u, u ≠ r.user → t.user u = s.user u
  tables   : { t.tables with accounts := s.tables.accounts, users := s.tables.users } = s.tables
  pool     : ∀ head tail, r.chainHead = some head → r.chainTail = some tail →
    t.hsc.poolTail = some tail ∧ t.hsc.poolLength = s.hsc.poolLength + r.extents
  hsc      : Streams.withPoolOf s.hsc t.hsc = s.hsc
  audit    : ∃ b, EndAudit s r res .recalled b ∧ Streams.AuditOffered b s.mu t.mu
  up       : t.up = { s.up with tx := s.up.tx ++ [⟨s.age, r.station, .refusedJob r.number .recalled⟩] }
  age      : t.age = s.age + 1
  rest     : { t with
    up := s.up, age := s.age, jobs := s.jobs, tables := s.tables, hsc := s.hsc, se := s.se, ru := s.ru, mu := s.mu } = s

theorem JobTaken.fp {j : Fin 512} {r : JobRecord} {res : Nat} {s t : State} (h : JobTaken j r res s t) : t.fp = s.fp :=
  (congrArg State.fp h.rest :)

theorem JobTaken.reads {j : Fin 512} {r : JobRecord} {res : Nat} {s t : State} (h : JobTaken j r res s t) :
    t.hsc.reads = s.hsc.reads := (congrArg HoldStore.reads h.hsc :)

theorem JobTaken.resetWait {j : Fin 512} {r : JobRecord} {res : Nat} {s t : State} (h : JobTaken j r res s t) (p : Fin 64) :
    t.resetWait p = s.resetWait p := by
  obtain ⟨b, -, hoffered⟩ := h.audit
  exact (congrArg (fun m : ManagementUnit => m.resetWaits.get (fun _ => none) p) hoffered.frame :)

/-- Once its reservation is settled or returned the job is dropped and JOB-REFUSED goes out: so every recall of such a job ends. -/
theorem ReservationEnded.taken {j : Fin 512} {r : JobRecord} {res : Nat} {s w : State} (h : ReservationEnded j r res .recalled s w) :
    JobTaken j r res s ((w.dropJob j).refuseJob r .recalled) ∧ ((w.dropJob j).refuseJob r .recalled).se = w.se ∧
      ((w.dropJob j).refuseJob r .recalled).ru = w.ru := by
  obtain ⟨b, haudit, hoffered⟩ := h.audit
  have hpool {head tail : Fin 4096} := dropJob_pool (s := w) (j := j) (head := head) (tail := tail)
  have husers {u : Fin 8192} := dropJob_user_other (s := w) (j := j) (u := u)
  obtain ⟨record, records, user, tables, hsc, rest⟩ := Streams.dropJob_dropped w j
  rw [h.record] at user hpool husers
  have whsc : w.hsc = s.hsc := (congrArg State.hsc h.rest :)
  have wusers (u : Fin 8192) : w.user u = s.user u :=
    (congrArg (fun x : Tables => x.users.get (fun _ => UserEntry.powerOn) u) h.tables :)
  rw [State.refuseJob_eq]
  generalize w.dropJob j = t at *
  have taccounts (i : Fin 1024) : t.account i = w.account i :=
    (congrArg (fun x : Tables => x.accounts.get (fun _ => AccountEntry.powerOn) i) tables :)
  have hmu : t.mu = w.mu := (congrArg State.mu rest :)
  have hup : t.up = s.up := (congrArg State.up rest :).trans (congrArg State.up h.rest :)
  have hage : t.age = s.age := (congrArg State.age rest :).trans (congrArg State.age h.rest :)
  have htables : { t.tables with accounts := s.tables.accounts, users := s.tables.users } = s.tables :=
    (congrArg (fun x : Tables => { x with accounts := s.tables.accounts, users := s.tables.users }) tables :).trans
      (congrArg (fun x : Tables => { x with users := s.tables.users }) h.tables)
  have hrest : { t with jobs := s.jobs, tables := s.tables, hsc := s.hsc, se := s.se, ru := s.ru, mu := s.mu } = s :=
    (congrArg (fun x : State => { x with
      jobs := s.jobs, tables := s.tables, hsc := s.hsc, se := s.se, ru := s.ru, mu := s.mu }) rest :).trans
      (congrArg (fun x : State => { x with hsc := s.hsc }) h.rest)
  rw [wusers] at user
  rw [whsc] at hsc hpool
  refine ⟨?_, (congrArg State.se rest :), (congrArg State.ru rest :)⟩
  exact
    { record := record
      records := fun i hi => (records i hi).trans (h.records i hi)
      account := (taccounts _).trans h.account
      accounts := fun i hi => (taccounts i).trans (h.accounts i hi)
      user := user
      users := fun u hu => (husers hu).trans (wusers u)
      tables := htables
      pool := fun head tail hhead htail => hpool hhead htail
      hsc := hsc
      audit := ⟨b, haudit, hmu ▸ hoffered⟩
      up := by simp only [State.sentUp, hup, hage]
      age := congrArg (· + 1) hage
      rest := congrArg (fun x : State => { x with up := s.up, age := s.age }) hrest }

end Sys2Proof.Machine.Parking
end

