-- ==== Sys2Proof/Proofs/Parking/Recall.lean ====
section
/-! SUPPORT. RECALL_JOB: the answer that R116 tables, the recall in each job state, and what is taken away with the job (R116 to R119). -/

namespace Sys2Proof.Machine.Parking

/-! ### The answer (R116) -/

theorem parseWord_u16 {n : Nat} (h : n ≤ 65535) : parseWord (u16 n) = some n := by
  have hword : be16 (u16 n) 0 = n := by simpa using be16_u16 n h []
  simp [parseWord, length_u16, hword]

theorem execRecallJob_eq {s t : State} {f : CommandFrame} {n : Nat} {c : Code} (hcommand : Commanded s 5 f) (hbody : f.body = u16 n)
    (hn : n ≤ 65535) (h : s.tookUp.recallNumber n = (t, c)) : exec .recallJob s = .next (t.replied f c .none) := by
  rw [exec, execRecallJob, hcommand.onCommand (hbody ▸ parseWord_u16 hn), h, State.reply_eq]

section
variable {s t : State} {n : Nat} {i : Fin 16} {j : Fin 512} {r : JobRecord}

theorem recallNumber_zero (s : State) : s.recallNumber 0 = (s, .range) := if_pos rfl

theorem recallNumber_unknown (h0 : n ≠ 0) (h : s.findJob n = none) : s.recallNumber n = (s, .tooLate) := by
  simp only [State.recallNumber, h0, h, if_false]

/-- An upload is cancelled, where no earlier code stands. -/
theorem recallNumber_upload (h0 : n ≠ 0) (hfound : s.findJob n = some (j, r)) (hstate : r.state = .receiving ∨ r.state = .sealing)
    (h : s.cancelUpload n = some t) : s.recallNumber n = (t, .done) := by
  simp only [State.recallNumber, h0, hfound, hstate, h, if_false, if_true]

theorem recallNumber_refused (h0 : n ≠ 0) (hfound : s.findJob n = some (j, r)) (hstate : r.state = .receiving ∨ r.state = .sealing)
    (h : s.cancelUpload n = none) : s.recallNumber n = (s, .state) := by
  simp only [State.recallNumber, h0, hfound, hstate, h, if_false, if_true]

/-- A job past SEALING is recalled. -/
theorem recallNumber_past (h0 : n ≠ 0) (hfound : s.findJob n = some (j, r)) (hstate : ¬(r.state = .receiving ∨ r.state = .sealing)) :
    s.recallNumber n = (s.recall j r, .done) := by
  simp only [State.recallNumber, h0, hfound, hstate, if_false]

/-! ### Uploads (R37, R116) -/

theorem cancelUpload_opened (hslot : s.findSlot n = some i) (h : (s.slot i).state = .opened) :
    s.cancelUpload n = some (s.abandon i .cancelled) := by
  simp only [State.cancelUpload, hslot, h]

theorem cancelUpload_sealing (hslot : s.findSlot n = some i) (h : (s.slot i).state = .sealing) (hpending : (s.slot i).pending = none) :
    s.cancelUpload n = some (s.setSlot i { s.slot i with pending := some .cancelled }) := by
  simp only [State.cancelUpload, hslot, h, hpending]

theorem cancelUpload_none (hslot : s.findSlot n = some i)
    (h : ((s.slot i).state = .sealing ∧ (s.slot i).pending ≠ none) ∨ (s.slot i).state = .ending) : s.cancelUpload n = none := by
  rcases h with ⟨hstate, hpending⟩ | hstate
  · obtain ⟨code, hcode⟩ := Option.ne_none_iff_exists'.1 hpending
    simp only [State.cancelUpload, hslot, hstate, hcode]
  · simp only [State.cancelUpload, hslot, hstate]

/-! ### The recall by job state (R117, R118) -/

theorem recall_held (h : r.state = .held) : s.recall j r = s.recallHeld j := by
  simp only [State.recall, h]

theorem recall_queued (h : r.state = .queued) : s.recall j r = s.recallQueued j := by
  simp only [State.recall, h]

theorem recall_parked (h : r.state = .parked) : s.recall j r = s.recallParked j := by
  simp only [State.recall, h]

/-- A job in this state is bound to a context. -/
def Bound (r : JobRecord) : Prop := r.state = .seeking ∨ r.state = .opening ∨ r.state = .printing

theorem recall_bound (h : Bound r) : s.recall j r = s.recallBound r := by
  rcases h with h | h | h <;> simp only [State.recall, h]

theorem Bound.past_sealing (h : Bound r) : ¬(r.state = .receiving ∨ r.state = .sealing) := by
  rcases h with h | h | h <;> simp [h]

end

/-! ### Bound jobs whose recall waits (R118) -/

section
variable {s : State} {c : Fin 8} {r : JobRecord}

theorem boundContextOf_job {n : Nat} (h : s.boundContextOf n = some c) : (s.context c).job = some n :=
  of_decide_eq_true (firstIndex_some h).1

/-- A first recall that still waits stands. -/
theorem recallBound_stands (hbound : s.boundContextOf r.number = some c)
    (h : (s.context c).pendingEnd = some .recall ∨ r.recallPending = true) : s.recallBound r = s := by
  simp only [State.recallBound, hbound, h, if_true]

theorem recallBound_raises (hbound : s.boundContextOf r.number = some c) (hpending : (s.context c).pendingEnd ≠ some .recall)
    (hfirst : r.recallPending = false) : s.recallBound r = s.raiseEnd c .recall := by
  simp [State.recallBound, hbound, hpending, hfirst]

/-- A first recall takes the place of the end that is pending. -/
theorem recallBound_replaces {k : EndKind} (hbound : s.boundContextOf r.number = some c) (hpending : (s.context c).pendingEnd = some k)
    (hk : k ≠ .recall) (hfirst : r.recallPending = false) :
    s.recallBound r = s.setContext c { s.context c with pendingEnd := some .recall } := by
  rw [recallBound_raises hbound (by simpa [hpending] using hk) hfirst]
  simp [State.raiseEnd, hpending]

/-- With a read in flight an end is held as the pending end, the context's queued reads withdrawn (R77). -/
theorem raiseEnd_waits (hpending : (s.context c).pendingEnd = none) (hread : s.readInFlight c = true) (k : EndKind) :
    ∃ a b next pos, s.raiseEnd c k =
      ((s.removeReads c).setContext c { s.context c with bufA := a, bufB := b, nextFetch := next, position := pos }).setContext c
        { s.context c with bufA := a, bufB := b, nextFetch := next, position := pos, pendingEnd := some k } := by
  obtain ⟨a, b, next, pos, e⟩ := Streams.withdrawReads_eq s c
  have hread' : (s.withdrawReads c).readInFlight c = true := by rw [e]; exact hread
  have hheld : s.raiseEnd c k = (s.withdrawReads c).setContext c { (s.withdrawReads c).context c with pendingEnd := some k } := by
    simp only [State.raiseEnd, hpending, hread', if_true]
  refine ⟨a, b, next, pos, ?_⟩
  rw [hheld, e, State.setContext_context]

/-- A first recall waits for the read in flight: all that it changes till then. -/
theorem recallBound_waits (hbound : s.boundContextOf r.number = some c) (hpending : (s.context c).pendingEnd = none)
    (hfirst : r.recallPending = false) (hread : s.readInFlight c = true) :
    ∃ t, s.recallBound r = t ∧
      (∃ a b next pos, t.context c =
        { s.context c with bufA := a, bufB := b, nextFetch := next, position := pos, pendingEnd := some .recall }) ∧
      (∀ d, d ≠ c → t.context d = s.context d) ∧ t.se.notices = s.se.notices ∧
      t.hsc = { s.hsc with reads := s.hsc.reads.filter (fun e => e.context != c) } ∧ { t with se := s.se, hsc := s.hsc } = s := by
  obtain ⟨a, b, next, pos, e⟩ := raiseEnd_waits hpending hread .recall
  refine ⟨_, (recallBound_raises hbound (by simp [hpending]) hfirst).trans e, ⟨a, b, next, pos, State.setContext_context _ _ _⟩,
    fun d hd => ?_, rfl, rfl, by simp⟩
  exact (State.setContext_context_other _ _ _ hd).trans (State.setContext_context_other _ _ _ hd)

end

/-! ### Jobs without a context (R117) -/

section
variable {s : State} {j : Fin 512} {r : JobRecord} {res : Nat}

/-- A PARKED job is taken away, and a SAVED context that names it stops naming it. -/
theorem recallParked_takes (hheld : s.job j = r) (hres : r.reservation = some res)
    (hwf : s.se.contexts.wf (fun _ => Context.free) = true) :
    JobTaken j r res s (s.recallParked j) ∧ (∀ d, (s.recallParked j).context d = (s.context d).unname r.number) ∧
      (s.recallParked j).se.notices = s.se.notices ∧ (s.recallParked j).ru = s.ru := by
  obtain ⟨hse, hru⟩ := settleOrReturn_engine hheld hres .recalled
  have hended := settleOrReturn_ended hheld hres .recalled
  simp only [State.recallParked, hheld]
  generalize s.settleOrReturn j .recalled = v at *
  obtain ⟨taken, hse', hru'⟩ := (hended.unnameJob r.number).taken
  refine ⟨taken, fun d => ?_, ?_, hru'.trans hru⟩
  · have hunnamed := Release.unnameJob_context (s := v) (by rw [hse]; exact hwf) r.number d
    simp only [State.context, hse', hse] at hunnamed ⊢
    exact hunnamed
  · rw [hse']
    exact (congrArg StreamEngine.notices hse :)

/-- The recall of a QUEUED job is that of a PARKED one whose entry has left the queue, and the arbiter is run. -/
theorem recallQueued_eq (hheld : s.job j = r) : s.recallQueued j = ((s.removeEntry r.number).recallParked j).runArbiter := by
  subst hheld
  rfl

end

/-! ### Bound jobs whose recall is carried out (R118) -/

/-- The state after STREAM-ABORT END for context `x` of printer `p`, where the printer was sent a STREAM-OPEN, and else the state. -/
def abortSent (s : State) (p : Fin 64) (x : Context) (n : Nat) : State :=
  { s with
    fp := if x.opened then
        { s.fp with tx := s.fp.tx ++ [⟨s.age, (s.printer p).station, .streamAbort n .ended x.sent x.lastSheet⟩] }
      else s.fp
    age := if x.opened then s.age + 1 else s.age }

theorem opened_eq (x : Context) :
    x.opened = decide (x.state = .running ∨ x.state = .halted ∨ (x.state = .opening ∧ x.step = some .sent)) := by
  simp [Context.opened, Bool.or_assoc]

section
variable {s : State} {c : Fin 8} {p : Fin 64} {j : Fin 512} {r : JobRecord} {res : Nat}

theorem freeContext_contexts_wf (h : s.se.contexts.wf (fun _ => Context.free) = true) (c : Fin 8) :
    (s.freeContext c).se.contexts.wf (fun _ => Context.free) = true := Table.wf_set _ _ _ _ h

theorem abort_opened_eq {x : Context} {n : Nat} (howner : x.owner = some p) (hjob : x.job = some n) :
    (if x.opened then s.abort x .ended else s) = abortSent s p x n := by
  unfold abortSent
  split
  · exact Streams.abort_eq howner hjob .ended
  · rfl

/-- A RECALL end takes the job away and frees its context, after the STREAM-ABORT END that is due. -/
theorem endRecall_takes (hheld : s.job j = r) (hres : r.reservation = some res) (howner : (s.context c).owner = some p)
    (hjob : (s.context c).job = some r.number) (hwf : s.se.contexts.wf (fun _ => Context.free) = true) :
    JobTaken j r res (abortSent s p (s.context c) r.number) (s.endRecall c j) ∧ (s.endRecall c j).context c = Context.free ∧
      (∀ d, d ≠ c → (s.endRecall c j).context d = (s.context d).unname r.number) ∧
      (s.endRecall c j).se.notices = s.se.notices ∧
      (s.endRecall c j).ru = { s.ru with saved := s.ru.saved.filter (fun d => d != c) } := by
  simp only [State.endRecall, hheld, abort_opened_eq howner hjob]
  have hheld' : (abortSent s p (s.context c) r.number).job j = r := hheld
  have hengine : (abortSent s p (s.context c) r.number).se = s.se ∧ (abortSent s p (s.context c) r.number).ru = s.ru := ⟨rfl, rfl⟩
  generalize abortSent s p (s.context c) r.number = u at hheld' hengine ⊢
  obtain ⟨hse, hru⟩ := settleOrReturn_engine hheld' hres .recalled
  have hended := settleOrReturn_ended hheld' hres .recalled
  rw [hengine.1] at hse
  rw [hengine.2] at hru
  generalize u.settleOrReturn j .recalled = v at *
  obtain ⟨taken, hse', hru'⟩ := ((hended.freeContext c).unnameJob r.number).taken
  have hunnamed (d : Fin 8) := Release.unnameJob_context (s := v.freeContext c)
    (freeContext_contexts_wf (by rw [hse]; exact hwf) c) r.number d
  simp only [State.context, hse'] at hunnamed ⊢
  refine ⟨taken, ?_, fun d hd => ?_, ?_, ?_⟩
  · exact (hunnamed c).trans (congrArg _ (State.freeContext_context _ c))
  · refine (hunnamed d).trans (congrArg _ ((State.freeContext_context_other _ hd).trans ?_))
    rw [State.context, hse]
  · exact (congrArg StreamEngine.notices hse :)
  · rw [hru']
    exact congrArg (fun x : ReleaseUnit => { x with saved := x.saved.filter (fun d => d != c) }) hru

/-- Where no PRINTER-RESET waits the arbiter is run after an end, and nothing else follows it. -/
theorem afterEnd_unwaited (h : s.resetWait p = none) : s.afterEnd p = s.runArbiter := by
  simp [State.afterEnd, h]

/-- The state in which a recall that need not wait is carried out at context `c` of printer `p`: the context's queued reads are withdrawn,
which has left `x` there, and the STREAM-ABORT END that is due has gone out. -/
def recallReady (s : State) (c : Fin 8) (p : Fin 64) (x : Context) (n : Nat) : State :=
  abortSent ((s.removeReads c).setContext c x) p (s.context c) n

/-- With no end pending and no read in flight the recall of a bound job is carried out at once. -/
theorem recallBound_now (hheld : s.job j = r) (hfound : s.findJob r.number = some (j, r)) (hres : r.reservation = some res)
    (hwf : s.se.contexts.wf (fun _ => Context.free) = true) (hbound : s.boundContextOf r.number = some c)
    (howner : (s.context c).owner = some p) (hpending : (s.context c).pendingEnd = none) (hfirst : r.recallPending = false)
    (hread : s.readInFlight c = false) (hwait : s.resetWait p = none) :
    ∃ x t, s.recallBound r = t.runArbiter ∧ JobTaken j r res (recallReady s c p x r.number) t ∧ t.context c = Context.free ∧
      (∀ d, d ≠ c → t.context d = (s.context d).unname r.number) ∧ t.se.notices = s.se.notices ∧
      t.ru = { s.ru with saved := s.ru.saved.filter (fun d => d != c) } := by
  have hjob := boundContextOf_job hbound
  obtain ⟨a, b, next, pos, e⟩ := Streams.withdrawReads_eq s c
  generalize hx : { s.context c with bufA := a, bufB := b, nextFetch := next, position := pos } = x at e
  have hraised : s.recallBound r = ((s.withdrawReads c).endRecall c j).afterEnd p :=
    (recallBound_raises hbound (by rw [hpending]; simp) hfirst).trans
      (Streams.raiseEnd_now howner hjob hfound hpending hread .recall)
  rw [e] at hraised
  have hcontext := State.setContext_context (s.removeReads c) c x
  obtain ⟨taken, hfree, hothers, hnotices, hru⟩ :=
    endRecall_takes (s := (s.removeReads c).setContext c x) (c := c) (p := p) hheld hres (by rw [hcontext, ← hx]; exact howner)
      (by rw [hcontext, ← hx]; exact hjob) (Table.wf_set _ _ _ _ hwf)
  have hready : abortSent ((s.removeReads c).setContext c x) p (((s.removeReads c).setContext c x).context c) r.number =
      recallReady s c p x r.number := by
    rw [hcontext, ← hx]
    rfl
  rw [hready] at taken
  have hwait' : (((s.removeReads c).setContext c x).endRecall c j).resetWait p = none := (taken.resetWait p).trans hwait
  exact ⟨x, _, hraised.trans (afterEnd_unwaited hwait'), taken, hfree,
    fun d hd => (hothers d hd).trans (congrArg _ (State.setContext_context_other _ _ _ hd)), hnotices, hru⟩

end

/-! ### RECALL_JOB -/

/-- State `s` but for the fleet port, the age stamp, the read queue, the SE and the RU: what a recall may have changed before the job's
reservation is settled or returned. -/
def goneOn (s : State) (fp : PortState) (age : Nat) (reads : List ReadEntry) (se : StreamEngine) (ru : ReleaseUnit) : State :=
  { s with fp := fp, age := age, hsc := { s.hsc with reads := reads }, se := se, ru := ru }

/-- Settles O58: the answers one by one, and for a job with a reservation `JobTaken` of the recall by its state. -/
theorem recallTakesJob : Obligations.RecallTakesJob := by
  intro s f n hcommand hbody hn answers done
  have hanswer {t : State} {c : Code} (h : s.tookUp.recallNumber n = (t, c)) : exec .recallJob s = .next (t.replied f c .none) :=
    execRecallJob_eq hcommand hbody hn h
  refine ⟨fun h0 => ?_, fun h0 hnone => hanswer (recallNumber_unknown (s := s.tookUp) h0 hnone), fun j r h0 hfound hheld => ?_⟩
  · subst h0
    exact hanswer (recallNumber_zero s.tookUp)
  obtain rfl := Release.findJob_number hfound
  have hfound' : s.tookUp.findJob r.number = some (j, r) := hfound
  have hpast (hstate : ¬(r.state = .receiving ∨ r.state = .sealing)) : done (s.tookUp.recall j r) :=
    hanswer (recallNumber_past h0 hfound' hstate)
  have hbound (hstate : Bound r) : done (s.tookUp.recallBound r) :=
    recall_bound (s := s.tookUp) (j := j) hstate ▸ hpast hstate.past_sealing
  refine ⟨fun i hstate hslot => ⟨fun hopened => ?_, fun hsealing hclear => ?_, fun hcode => ?_⟩, fun hstate => ?_,
    fun c hstate hcontext => ⟨fun hstands => ?_, fun k hpending hk hfirst => ?_, fun hpending hfirst hread => ?_⟩,
    fun res hcanonical hres => ?_⟩
  · exact hanswer (recallNumber_upload h0 hfound' hstate (cancelUpload_opened (s := s.tookUp) hslot hopened))
  · exact hanswer (recallNumber_upload h0 hfound' hstate (cancelUpload_sealing (s := s.tookUp) hslot hsealing hclear))
  · exact hanswer (recallNumber_refused h0 hfound' hstate (cancelUpload_none (s := s.tookUp) hslot hcode))
  · have h := hpast (by simp [hstate])
    rw [recall_held hstate, State.recallHeld, State.refuseJob_eq, show s.tookUp.job j = r from hheld] at h
    exact h
  · have h := hbound hstate
    rw [recallBound_stands (s := s.tookUp) hcontext hstands] at h
    exact h
  · have h := hbound hstate
    rw [recallBound_replaces (s := s.tookUp) hcontext hpending hk hfirst] at h
    exact h
  · obtain ⟨t, e, ⟨a, b, next, pos, hwaits⟩, hothers, hnotices, hhsc, hrest⟩ :=
      recallBound_waits (s := s.tookUp) hcontext hpending hfirst hread
    have hclear : (s.context c).pendingEnd = none := hpending
    refine ⟨t, e ▸ hbound hstate, ?_, ?_, hothers, hnotices, hhsc, hrest⟩
    · rw [hwaits]
    · rw [hwaits, ← hclear]
      rfl
  · intro a tallied charge paid unnamed recalled
    have hrecalled (fp : PortState) (age : Nat) (reads : List ReadEntry) (se : StreamEngine) (ru : ReleaseUnit) (t : State)
        (h : JobTaken j r res (goneOn s.tookUp fp age reads se ru) t) (hnotices : t.se.notices = s.se.notices) : recalled t age := by
      obtain ⟨b, haudit, hoffered⟩ := h.audit
      refine ⟨h.record, h.records, ?_, h.accounts, h.user, h.users, h.tables, h.pool, ?_, fun hroom => ?_, fun hfull => ?_, h.up, h.age,
        hnotices, ?_⟩
      · rw [h.account, accountAfter, Streams.settle_eq]
        rfl
      · exact congrArg (fun x : HoldStore => { x with reads := s.hsc.reads }) h.hsc
      · rcases hoffered with ⟨-, e⟩ | ⟨hfull, -⟩
        · exact ⟨b, e, haudit.job, haudit.reason, haudit.disposition, haudit.reservation, haudit.charge, haudit.charged⟩
        · exact absurd hroom (not_lt.2 hfull)
      · rcases hoffered with ⟨hroom, -⟩ | ⟨-, e⟩
        · exact absurd hroom (not_lt.2 hfull)
        · exact e
      · exact congrArg (fun x : State => { x with
          up := s.up, age := s.age, fp := s.fp, hsc := s.hsc, se := s.se, ru := s.ru }) h.rest
    refine ⟨fun hstate => ?_, fun hstate => ?_, fun c p hstate hcontext howner hpending hfirst hread hwait => ?_⟩
    · obtain ⟨taken, hcontexts, hnotices, hru⟩ := recallParked_takes (s := s.tookUp) hheld hres hcanonical.contexts
      exact ⟨_, recall_parked hstate ▸ hpast (by simp [hstate]), hrecalled _ _ _ _ _ _ taken hnotices, hcontexts, hru, taken.reads,
        taken.fp⟩
    · obtain ⟨taken, hcontexts, hnotices, hru⟩ :=
        recallParked_takes (s := s.tookUp.removeEntry r.number) hheld hres hcanonical.contexts
      have h := hpast (by simp [hstate])
      rw [recall_queued hstate, recallQueued_eq (s := s.tookUp) hheld] at h
      exact ⟨_, h, hrecalled _ _ _ _ _ _ taken hnotices, hcontexts, hru, taken.reads, taken.fp⟩
    · intro x opened
      obtain ⟨y, t, hnow, taken, hfree, hothers, hnotices, hru⟩ := recallBound_now (s := s.tookUp) hheld hfound' hres
        hcanonical.contexts hcontext howner hpending hfirst hread hwait
      have hopened : (s.context c).opened = opened := opened_eq _
      have h := hbound hstate
      rw [hnow] at h
      refine ⟨t, h, ?_, hfree, hothers, hru, taken.reads, ?_⟩
      · rw [← hopened]
        exact hrecalled _ _ _ _ _ _ taken hnotices
      · rw [← hopened]
        exact taken.fp

end Sys2Proof.Machine.Parking
end

