-- ==== Sys2Proof/Proofs/Conditions/RebuiltList.lean ====
section
/-! SUPPORT. The condition list that a STATUS rebuilds: which entries it holds, and what stands in them (R125, R126). -/

namespace Sys2Proof.Machine.Conditions

section
variable {s : State} {codes : List (Fin 256)} {l : List CondItem} {it : CondItem}

/-- The entry that step 3 appends for a code (R126). -/
def newItem (s : State) (code : Fin 256) : CondItem :=
  ⟨code, (s.condition code).cls, (s.condition code).effect, (s.condition code).loss, s.mu.clock, false⟩

theorem appendCode_eq (s : State) (l : List CondItem) (code : Fin 256) :
    s.appendCode l code =
      if (∃ it ∈ l, it.code = code) ∨ (s.condition code).cls = .ignore then l else l ++ [newItem s code] := by
  simp [State.appendCode, newItem]

/-- Step 3 adds one new entry for each code that the list lacks and that is not IGNORE (R126). -/
theorem mem_foldl_appendCode :
    it ∈ codes.foldl s.appendCode l ↔
      it ∈ l ∨ (it.code ∈ codes ∧ it = newItem s it.code ∧ (s.condition it.code).cls ≠ .ignore ∧ ∀ x ∈ l, x.code ≠ it.code) := by
  induction codes generalizing l with
  | nil => simp
  | cons code rest ih =>
    rw [List.foldl_cons, ih, appendCode_eq]
    by_cases hskip : (∃ x ∈ l, x.code = code) ∨ (s.condition code).cls = .ignore
    · rw [if_pos hskip]
      by_cases hcode : it.code = code
      · have : ¬((s.condition it.code).cls ≠ .ignore ∧ ∀ x ∈ l, x.code ≠ it.code) := by
          rw [hcode]
          rintro ⟨hcls, hnone⟩
          exact hskip.elim (fun ⟨x, hx, e⟩ => hnone x hx e) hcls
        simp [this]
      · simp [hcode]
    · obtain ⟨hnone, hcls⟩ := not_or.1 hskip
      have hnone : ∀ x ∈ l, x.code ≠ code := fun x hx e => hnone ⟨x, hx, e⟩
      have hadd : it ∈ l ++ [newItem s code] ↔ it ∈ l ∨ it = newItem s code := by simp
      have hlacks : (∀ x ∈ l ++ [newItem s code], x.code ≠ it.code) ↔ (∀ x ∈ l, x.code ≠ it.code) ∧ code ≠ it.code := by
        simp [or_imp, forall_and, newItem]
      rw [if_neg hskip, hadd, hlacks]
      by_cases hcode : it.code = code
      · subst hcode
        simp [hcls, iff_true_intro hnone]
      · have hne : it ≠ newItem s code := fun e => hcode (congrArg CondItem.code e)
        simp [hcode, hne, Ne.symm hcode]

/-- An entry is kept when its code is in the frame and is not IGNORE, with the class, effect and loss set of the table (R126). -/
theorem mem_keptList :
    it ∈ s.keptList codes l ↔ ∃ old ∈ l, old.code ∈ codes ∧ (s.condition old.code).cls ≠ .ignore ∧ s.refreshed old = it := by
  simp [State.keptList, State.staysIn, and_assoc]

/-- An entry of the rebuilt list is an entry that was kept, or a new one whose code the old list lacks (R126). -/
theorem mem_rebuiltList :
    it ∈ s.rebuiltList codes l ↔ it.code ∈ codes ∧ (s.condition it.code).cls ≠ .ignore ∧
      ((∃ old ∈ l, s.refreshed old = it) ∨ (it = newItem s it.code ∧ ∀ old ∈ l, old.code ≠ it.code)) := by
  rw [State.rebuiltList, mem_foldl_appendCode]
  constructor
  · rintro (h | ⟨hin, hnew, hcls, hnone⟩)
    · obtain ⟨old, hold, hin, hcls, rfl⟩ := mem_keptList.1 h
      exact ⟨hin, hcls, .inl ⟨old, hold, rfl⟩⟩
    · refine ⟨hin, hcls, .inr ⟨hnew, fun old hold e => ?_⟩⟩
      exact hnone (s.refreshed old) (mem_keptList.2 ⟨old, hold, e ▸ hin, e ▸ hcls, rfl⟩) e
  · rintro ⟨hin, hcls, ⟨old, hold, rfl⟩ | ⟨hnew, hnone⟩⟩
    · exact .inl (mem_keptList.2 ⟨old, hold, hin, hcls, rfl⟩)
    · refine .inr ⟨hin, hnew, hcls, fun x hx => ?_⟩
      obtain ⟨old, hold, -, -, rfl⟩ := mem_keptList.1 hx
      exact hnone old hold

/-- What an entry of the rebuilt list takes from the table (R125, R126). -/
theorem rebuiltList_from_table (h : it ∈ s.rebuiltList codes l) :
    it.cls = (s.condition it.code).cls ∧ it.effect = (s.condition it.code).effect ∧ it.loss = (s.condition it.code).loss := by
  obtain ⟨-, -, ⟨old, -, rfl⟩ | ⟨hnew, -⟩⟩ := mem_rebuiltList.1 h
  · exact ⟨rfl, rfl, rfl⟩
  · rw [hnew]
    exact ⟨rfl, rfl, rfl⟩

/-- No code stands in the list twice (R126). -/
theorem foldl_appendCode_nodup (h : (l.map (fun it => it.code)).Nodup) :
    ((codes.foldl s.appendCode l).map (fun it => it.code)).Nodup := by
  induction codes generalizing l with
  | nil => exact h
  | cons code rest ih =>
    refine ih ?_
    rw [appendCode_eq]
    split
    · exact h
    · rename_i hnew
      have hnone : ∀ x ∈ l, x.code ≠ code := fun x hx e => hnew (.inl ⟨x, hx, e⟩)
      simpa [newItem, List.nodup_append, h] using hnone

theorem rebuiltList_nodup (h : (l.map (fun it => it.code)).Nodup) : ((s.rebuiltList codes l).map (fun it => it.code)).Nodup := by
  refine foldl_appendCode_nodup ?_
  have hkept : (s.keptList codes l).map (fun it => it.code) = (l.filter (s.staysIn codes)).map (fun it => it.code) := by
    simp [State.keptList, State.refreshed]
  rw [hkept]
  exact h.sublist (List.filter_sublist.map _)

/-- Every code that is not IGNORE stands in the list (R126). -/
theorem rebuiltList_complete {code : Fin 256} (hin : code ∈ codes) (hcls : (s.condition code).cls ≠ .ignore) :
    ∃ it ∈ s.rebuiltList codes l, it.code = code := by
  by_cases h : ∃ old ∈ l, old.code = code
  · obtain ⟨old, hold, rfl⟩ := h
    exact ⟨s.refreshed old, mem_rebuiltList.2 ⟨hin, hcls, .inl ⟨old, hold, rfl⟩⟩, rfl⟩
  · exact ⟨newItem s code, mem_rebuiltList.2 ⟨hin, hcls, .inr ⟨rfl, fun old hold e => h ⟨old, hold, e⟩⟩⟩, rfl⟩

end

/-- Settles O42: the codes of the list are distinct and all in the frame, so there are no more than the frame's. -/
theorem rebuiltListIsSound : Obligations.RebuiltListIsSound := by
  intro s codes l hlength hnodup
  have hrebuilt := rebuiltList_nodup (s := s) (codes := codes) hnodup
  refine ⟨?_, hrebuilt, fun code => rebuiltList_complete, fun it hit => ?_⟩
  · have hsubset : (s.rebuiltList codes l).map (fun it => it.code) ⊆ codes := by
      intro code hcode
      obtain ⟨it, hit, rfl⟩ := List.mem_map.1 hcode
      exact (mem_rebuiltList.1 hit).1
    calc (s.rebuiltList codes l).length = ((s.rebuiltList codes l).map (fun it => it.code)).length := (List.length_map _).symm
      _ ≤ codes.length := (List.subperm_of_subset hrebuilt hsubset).length_le
      _ ≤ 6 := hlength
  · obtain ⟨hin, hcls, hfrom⟩ := mem_rebuiltList.1 hit
    obtain ⟨ecls, eeffect, eloss⟩ := rebuiltList_from_table hit
    refine ⟨hin, hcls, ecls, eeffect, eloss, fun old hold hcode => ?_, fun hnone => ?_⟩
    · obtain ⟨kept, hkept, rfl⟩ | ⟨-, hnone⟩ := hfrom
      · obtain rfl : old = kept := List.inj_on_of_nodup_map hnodup hold hkept hcode
        exact ⟨rfl, rfl⟩
      · exact absurd hcode (hnone old hold)
    · obtain ⟨kept, hkept, rfl⟩ | ⟨hnew, -⟩ := hfrom
      · exact absurd rfl (hnone kept hkept)
      · rw [hnew]
        exact ⟨rfl, rfl⟩

end Sys2Proof.Machine.Conditions
end

