-- ==== Sys2Proof/Proofs/Conditions/Callouts.lean ====
section
/-! SUPPORT. The notices that the CM hands the CO: the callout that a condition takes as it enters, where it is held and where it is sent,
and what the CO leaves as it was (R131, R138 to R141, R145, R146). -/

namespace Sys2Proof.Machine.Conditions

open Streams

section
variable {s t u : State} {i : Fin 48} {p : Fin 64} {code : Fin 256} {seen : Stamp}

/-! ### A callout is created (R138, R140) -/

theorem calloutEntered_free (hfree : (s.callout i).state = .free) (hlow : ∀ k, k < i → (s.callout k).state ≠ .free) :
    s.calloutEntered p code seen = s.createCallout i p code seen := by
  have hindex : s.freeCalloutIndex = some i := Release.firstIndex_eq_some (by simp [hfree]) fun k hk => by simp [hlow k hk]
  simp only [State.calloutEntered, hindex]

theorem calloutEntered_full (hfull : ∀ i, (s.callout i).state ≠ .free) :
    s.calloutEntered p code seen = s.setWanted p code true := by
  have hindex : s.freeCalloutIndex = none := Release.firstIndex_eq_none fun k => by simp [hfull k]
  simp only [State.calloutEntered, hindex]

theorem calloutEntered_cases (s : State) (p : Fin 64) (code : Fin 256) (seen : Stamp) :
    (∃ i, s.calloutEntered p code seen = s.createCallout i p code seen) ∨
      s.calloutEntered p code seen = s.setWanted p code true := by
  unfold State.calloutEntered
  split
  · exact .inl ⟨_, rfl⟩
  · exact .inr rfl

theorem createCallout_graced (h : (s.condition code).grace ≠ 0) :
    s.createCallout i p code seen =
      s.setCallout i ⟨.grace, p, code, seen, (s.condition code).kind, 1, some ⟨(s.condition code).grace, false⟩, false, 0⟩ := by
  simp only [State.createCallout, if_neg h, Countdown.load]

/-- Without grace minutes the sending step follows at once (R138). -/
theorem createCallout_at_once (h : (s.condition code).grace = 0) :
    s.createCallout i p code seen =
      (s.setCallout i ⟨.grace, p, code, seen, (s.condition code).kind, 1, none, false, 0⟩).sendingStep i := by
  simp only [State.createCallout, if_pos h]

theorem calloutHeld_iff : s.calloutHeld p = true ↔ (s.zone (s.printer p).zone).mute.isSome = true ∨ 64 ≤ s.mu.reports.length := by
  simp [State.calloutHeld, State.zoneMuted, State.reportRoom]

theorem not_calloutHeld_iff : s.calloutHeld p = false ↔ (s.zone (s.printer p).zone).mute = none ∧ s.mu.reports.length < 64 := by
  simp [State.calloutHeld, State.zoneMuted, State.reportRoom]

theorem createCallout_owed (hgrace : (s.condition code).grace = 0) (hheld : s.calloutHeld p = true) :
    (s.createCallout i p code seen).callout i = ⟨.owed, p, code, seen, (s.condition code).kind, 1, none, false, 0⟩ ∧
      (s.createCallout i p code seen).mu = s.mu := by
  have hheld' : ∀ e, (s.setCallout i e).calloutHeld p = true := fun _ => hheld
  rw [createCallout_at_once hgrace]
  simp [State.sendingStep, hheld']

/-- The entry of a callout sent at level 1 (R140, R141). -/
def sentEntry (s : State) (p : Fin 64) (code : Fin 256) (seen : Stamp) : CalloutEntry :=
  ⟨.sent, p, code, seen, (s.condition code).kind, 1, s.escalationCountdown code, false, s.parkedInZone (s.printer p).zone⟩

theorem createCallout_sent (hgrace : (s.condition code).grace = 0) (hheld : s.calloutHeld p = false) :
    (s.createCallout i p code seen).callout i = sentEntry s p code seen ∧
      (s.createCallout i p code seen).mu =
        { s.mu with reports := s.mu.reports ++ [⟨s.mu.clock, .callout (s.calloutNotice (sentEntry s p code seen))⟩] } := by
  have hheld' : ∀ e, (s.setCallout i e).calloutHeld p = false := fun _ => hheld
  rw [createCallout_at_once hgrace]
  simp only [State.sendingStep, State.setCallout_callout, hheld', Bool.false_eq_true, if_false]
  exact ⟨State.setCallout_callout _ _ _, rfl⟩

/-- Creating a callout changes the callout table and the report queue, and nothing else (R138). -/
theorem createCallout_frame (s : State) (i : Fin 48) (p : Fin 64) (code : Fin 256) (seen : Stamp) :
    { s.createCallout i p code seen with co := s.co, mu := s.mu } = s ∧
    { (s.createCallout i p code seen).co with entries := s.co.entries } = s.co ∧
    { (s.createCallout i p code seen).mu with reports := s.mu.reports } = s.mu := by
  by_cases h : (s.condition code).grace = 0
  · rw [createCallout_at_once h]
    rcases State.sendingStep_cases (s.setCallout i ⟨.grace, p, code, seen, (s.condition code).kind, 1, none, false, 0⟩) i with
      ⟨-, e⟩ | ⟨-, e⟩ <;> rw [e] <;> exact ⟨rfl, rfl, rfl⟩
  · rw [createCallout_graced h]
    exact ⟨rfl, rfl, rfl⟩

theorem createCallout_cond (s : State) (i : Fin 48) (p p' : Fin 64) (code : Fin 256) (seen : Stamp) :
    (s.createCallout i p code seen).cond p' = s.cond p' :=
  (congrArg (fun x : State => x.cond p') (createCallout_frame s i p code seen).1 :)

theorem createCallout_callout_other {k : Fin 48} (h : k ≠ i) (s : State) (p : Fin 64) (code : Fin 256) (seen : Stamp) :
    (s.createCallout i p code seen).callout k = s.callout k :=
  (createCallout_written (p := p) s i p code seen).others k h

end

end Sys2Proof.Machine.Conditions
end

