-- ==== Sys2Proof/Proofs/Conditions/Timeout.lean ====
section
/-! SUPPORT. STATUS_TIMEOUT: the record of a silent printer, NO CONTACT in its list, and what the SE, the RU and the CO are told (R127 to
R131). -/

namespace Sys2Proof.Machine.Conditions

section
variable {s : State} {p : Fin 64} {items : List CondItem}

/-- The loss set, option by option: an option is lost where an entry of effect DEGRADE loses it (R129). -/
theorem deriveLoss_eq (l : List CondItem) :
    let lost (option : LossSet → Bool) := l.any (fun it => decide (it.effect = .degrade) && option it.loss)
    deriveLoss l = ⟨lost (fun x => x.colour), lost (fun x => x.duplex), lost (fun x => x.large), lost (fun x => x.staple)⟩ := by
  induction l with
  | nil => rfl
  | cons it rest ih =>
    change (if it.effect = .degrade then it.loss.union (deriveLoss rest) else deriveLoss rest) = _
    rw [ih]
    by_cases h : it.effect = .degrade <;> simp [h, LossSet.union]

/-- The record of a printer that falls silent as these entries join its list (R128, R129). -/
def silentRecord (s : State) (p : Fin 64) (items : List CondItem) : ConditionRecord :=
  { s.cond p with
    list := (s.cond p).list ++ items, state := some .silent, countdown := none, loss := deriveLoss ((s.cond p).list ++ items) }

/-- The change of view that a printer's silence is (R130). -/
def silenceView (s : State) (p : Fin 64) : List ViewNotice :=
  if (s.cond p).state = some .silent then [] else [⟨p, .silent, LossSet.none⟩]

/-- The state in which the CO is told of a printer's silence. -/
def silenced (s : State) (p : Fin 64) (items : List CondItem) : State :=
  { s.setCond p (silentRecord s p items) with
    se := { s.se with notices := s.se.notices ++ silenceView s p }
    ru := { s.ru with notices := s.ru.notices ++ silenceView s p } }

theorem setView_silentRecord (s : State) (p : Fin 64) (items : List CondItem) :
    s.setView p (silentRecord s p items) = silenced s p items := by
  rcases s.setView_cases p (silentRecord s p items) with ⟨e, hsame | hstate⟩ | ⟨st, hstate, hchanged, e⟩ <;> rw [e]
  · have hsilent : (s.cond p).state = some .silent := by
      simp only [viewChanged, Bool.or_eq_false_iff, decide_eq_false_iff_not, not_not] at hsame
      exact hsame.1
    simp [silenced, silenceView, hsilent, State.setCond]
  · cases hstate
  · cases hstate
    have hother : (s.cond p).state ≠ some .silent := fun h => by
      simp [viewChanged, silentRecord, h] at hchanged
    simp [silenced, silenceView, hother]

theorem silenced_cond (s : State) (p : Fin 64) (items : List CondItem) : (silenced s p items).cond p = silentRecord s p items :=
  State.setCond_cond s p _

theorem silenced_cond_other {p' : Fin 64} (h : p' ≠ p) : (silenced s p items).cond p' = s.cond p' :=
  State.setCond_cond_other s p _ h

/-! ### NO CONTACT (R128) -/

theorem timeoutItem_eq (s : State) (p : Fin 64) :
    s.timeoutItem p =
      if (s.condition 255).cls = .ignore ∨ ∃ it ∈ (s.cond p).list, it.code = 255 then none else some (newItem s 255) := by
  simp only [State.timeoutItem, List.any_eq_true, decide_eq_true_eq]
  rfl

/-- NO CONTACT stays out of the list: it is IGNORE, or there already. -/
theorem timeOut_stays (h : (s.condition 255).cls = .ignore ∨ ∃ it ∈ (s.cond p).list, it.code = 255) :
    s.timeOut p = silenced s p [] := by
  simp only [State.timeOut, timeoutItem_eq, if_pos h, Option.toList, ← setView_silentRecord]
  rfl

theorem timeoutItem_joins (hcls : (s.condition 255).cls ≠ .ignore) (hnone : ∀ it ∈ (s.cond p).list, it.code ≠ 255) :
    s.timeoutItem p = some (newItem s 255) := by
  rw [timeoutItem_eq, if_neg (not_or.2 ⟨hcls, fun ⟨it, hit, e⟩ => hnone it hit e⟩)]

theorem timeOut_notice (hcls : (s.condition 255).cls = .notice) (hnone : ∀ it ∈ (s.cond p).list, it.code ≠ 255) :
    s.timeOut p = silenced s p [newItem s 255] := by
  have hnotice : (newItem s 255).cls ≠ .fault := by simp [newItem, hcls]
  simp only [State.timeOut, timeoutItem_joins (by simp [hcls]) hnone, Option.toList, if_neg hnotice, ← setView_silentRecord]
  rfl

theorem timeOut_fault (hcls : (s.condition 255).cls = .fault) (hnone : ∀ it ∈ (s.cond p).list, it.code ≠ 255) :
    s.timeOut p = (silenced s p [newItem s 255]).calloutEntered p 255 s.mu.clock := by
  have hfault : (newItem s 255).cls = .fault := hcls
  simp only [State.timeOut, timeoutItem_joins (by simp [hcls]) hnone, Option.toList, if_pos hfault, ← setView_silentRecord]
  rfl

/-- The CO is told of NO CONTACT, or nothing more is done. -/
theorem timeOut_cases (s : State) (p : Fin 64) :
    (∃ items, s.timeOut p = silenced s p items) ∨ s.timeOut p = (silenced s p [newItem s 255]).calloutEntered p 255 s.mu.clock := by
  by_cases h : (s.condition 255).cls = .ignore ∨ ∃ it ∈ (s.cond p).list, it.code = 255
  · exact .inl ⟨_, timeOut_stays h⟩
  · obtain ⟨hignore, hin⟩ := not_or.1 h
    have hnone : ∀ it ∈ (s.cond p).list, it.code ≠ 255 := fun it hit e => hin ⟨it, hit, e⟩
    cases hcls : (s.condition 255).cls with
    | ignore => exact absurd hcls hignore
    | notice => exact .inl ⟨_, timeOut_notice hcls hnone⟩
    | fault => exact .inr (timeOut_fault hcls hnone)

/-- What a timeout leaves as it was, and the views it tells (R128, R130). -/
theorem timeOut_frame (s : State) (p : Fin 64) :
    { s.timeOut p with cm := s.cm, co := s.co, mu := s.mu } =
      { s with
        se := { s.se with notices := s.se.notices ++ silenceView s p }
        ru := { s.ru with notices := s.ru.notices ++ silenceView s p } } ∧
    (∀ p', p' ≠ p → (s.timeOut p).cond p' = s.cond p') ∧ { (s.timeOut p).mu with reports := s.mu.reports } = s.mu ∧
    { (s.timeOut p).co with entries := s.co.entries } = s.co := by
  rcases timeOut_cases s p with ⟨items, e⟩ | e
  · rw [e]
    exact ⟨rfl, fun _ h => silenced_cond_other h, rfl, rfl⟩
  · rcases calloutEntered_cases (silenced s p [newItem s 255]) p 255 s.mu.clock with ⟨i, e'⟩ | e' <;> rw [e, e']
    · obtain ⟨hrest, hco, hmu⟩ := createCallout_frame (silenced s p [newItem s 255]) i p 255 s.mu.clock
      refine ⟨?_, fun p' h => ?_, hmu, hco⟩
      · exact congrArg (fun x : State => { x with cm := s.cm, co := s.co, mu := s.mu }) hrest
      · rw [createCallout_cond, silenced_cond_other h]
    · exact ⟨rfl, fun _ h => (State.setCond_cond_other _ _ _ h).trans (silenced_cond_other h), rfl, rfl⟩

/-- The new entry is marked callout-wanted, and no other (R138). -/
theorem setWanted_silenced (hnone : ∀ it ∈ (s.cond p).list, it.code ≠ 255) :
    ((silenced s p [newItem s 255]).setWanted p 255 true).cond p =
      silentRecord s p [{ newItem s 255 with calloutWanted := true }] := by
  have hold : (s.cond p).list.map (fun it => if it.code = 255 then { it with calloutWanted := true } else it) = (s.cond p).list :=
    (List.map_congr_left fun it hit => if_neg (hnone it hit)).trans (List.map_id _)
  rw [State.setWanted, State.setCond_cond, silenced_cond]
  simp [silentRecord, hold, deriveLoss_eq, newItem]

end

/-- Settles O43: each class of NO CONTACT by its equation, the CO by what it does at an entry (`createCallout_graced`, `createCallout_owed`,
`createCallout_sent`). -/
theorem timeoutSilencesPrinter : Obligations.TimeoutSilencesPrinter := by
  intro s p hdefined hdue r c e item silent view enters callout report
  have hsilent : ∀ items, silent items = silentRecord s p items := fun items => by
    simp only [silentRecord, deriveLoss_eq]
    rfl
  have hexec : exec (.statusTimeout p) s = .next (s.timeOut p) := by
    simp [exec, execStatusTimeout, State.printerDefined, hdefined, hdue]
  obtain ⟨hrest, hcond, hmu, hco⟩ := timeOut_frame s p
  refine ⟨_, hexec, hrest, hcond, hmu, hco, fun h => ?_, fun ⟨hcls, hnone⟩ => ?_, fun ⟨hcls, hnone⟩ hfull => ?_,
    fun ⟨hcls, hnone⟩ i hfree hlow => ?_⟩
  · rw [timeOut_stays h, hsilent]
    exact ⟨silenced_cond s p _, rfl, rfl⟩
  · rw [timeOut_notice hcls hnone, hsilent]
    exact ⟨silenced_cond s p _, rfl, rfl⟩
  · rw [timeOut_fault hcls hnone, calloutEntered_full (s := silenced s p _) hfull, hsilent]
    refine ⟨(setWanted_silenced hnone).trans ?_, rfl, rfl⟩
    simp [newItem, item, c, hcls]
  · rw [timeOut_fault hcls hnone, calloutEntered_free (s := silenced s p _) hfree hlow, hsilent]
    refine ⟨(createCallout_cond _ _ _ _ _ _).trans (silenced_cond s p _), fun k hk => createCallout_callout_other hk _ _ _ _,
      fun hgrace => ?_, fun hgrace hheld => ?_, fun hgrace hmute hroom => ?_⟩
    · rw [createCallout_graced (s := silenced s p _) hgrace]
      exact ⟨State.setCallout_callout _ _ _, rfl⟩
    · exact createCallout_owed (s := silenced s p _) hgrace (calloutHeld_iff.2 hheld)
    · have hheld : (silenced s p [newItem s 255]).calloutHeld p = false := not_calloutHeld_iff.2 ⟨hmute, hroom⟩
      obtain ⟨hentry, hreports⟩ := createCallout_sent (s := silenced s p _) (i := i) (seen := s.mu.clock) hgrace hheld
      refine ⟨hentry, (congrArg ManagementUnit.reports hreports).trans ?_⟩
      have hpresent : ((silenced s p [newItem s 255]).cond p).list.length = r.list.length + 1 := by
        simp [silenced_cond, silentRecord, r]
      have hstate : ((silenced s p [newItem s 255]).cond p).state = some .silent := by rw [silenced_cond]; rfl
      simp only [State.calloutNotice, sentEntry, hpresent, hstate]
      rfl

end Sys2Proof.Machine.Conditions
end

