-- ==== Sys2Proof/Proofs/Conditions/SlotReports.lean ====
section
/-! SUPPORT. The slot reports of a STATUS: the record and the notices that each report gives, slot by slot, and what all six leave as it was
(R155 to R159). -/

namespace Sys2Proof.Machine.Conditions

section
variable {s t u : State} {p : Fin 64} {q : Consumable} {v v' r : SlotRecord} {n n' : List Report} {rep : SlotReport}

/-! ### Slot work: records and reports at most -/

/-- The state `s` with these slot records, and with more reports in the queue. -/
def worked (s : State) (records : Table 64 (PerSlot SlotRecord)) (more : List Report) : State :=
  { s with slotRecords := records, mu := { s.mu with reports := s.mu.reports ++ more } }

theorem worked_nil (s : State) (records : Table 64 (PerSlot SlotRecord)) : worked s records [] = { s with slotRecords := records } := by
  simp [worked]

theorem worked_worked (s : State) (records records' : Table 64 (PerSlot SlotRecord)) (more more' : List Report) :
    worked (worked s records more) records' more' = worked s records' (more ++ more') := by
  simp [worked]

/-- From `s` to `t` the SU has worked: slot records have been written, and reports have been added to the queue. -/
def SlotWork (s t : State) : Prop := ∃ records more, t = worked s records more

theorem SlotWork.refl (s : State) : SlotWork s s := ⟨s.slotRecords, [], (worked_nil s _).symm⟩

theorem SlotWork.trans (h : SlotWork s t) (h' : SlotWork t u) : SlotWork s u := by
  obtain ⟨records, more, rfl⟩ := h
  obtain ⟨records', more', rfl⟩ := h'
  exact ⟨records', more ++ more', worked_worked s _ _ _ _⟩

/-- What slot work leaves, and the reports it adds to. -/
theorem SlotWork.frame (h : SlotWork s t) :
    t.cm = s.cm ∧ t.co = s.co ∧ t.se = s.se ∧ t.ru = s.ru ∧ ∃ more, t.mu.reports = s.mu.reports ++ more := by
  obtain ⟨records, more, rfl⟩ := h
  exact ⟨rfl, rfl, rfl, rfl, more, rfl⟩

theorem setSlotRecord_work (s : State) (p : Fin 64) (q : Consumable) (r : SlotRecord) : SlotWork s (s.setSlotRecord p q r) :=
  ⟨_, [], (worked_nil s _).symm⟩

theorem pushReport_work (s : State) (b : ReportBody) : SlotWork s (s.pushReport b) := ⟨_, _, rfl⟩

theorem reorderDue_work (s : State) (p : Fin 64) (q : Consumable) (d : DueTrigger) : SlotWork s (s.reorderDue p q d) := by
  unfold State.reorderDue
  dsimp only
  split
  · split
    · exact (setSlotRecord_work s p q _).trans (pushReport_work _ _)
    · exact setSlotRecord_work s p q _
  · exact .refl s

theorem fitting_work (s : State) (p : Fin 64) (q : Consumable) (x : Fin 64) (d : Detection) : SlotWork s (s.fitting p q x d) := by
  unfold State.fitting
  dsimp only
  split
  · exact setSlotRecord_work s p q _
  · split
    · exact (setSlotRecord_work s p q _).trans (pushReport_work _ _)
    · exact setSlotRecord_work s p q _

theorem reportFitting_work (s : State) (p : Fin 64) (q : Consumable) (rep : SlotReport) : SlotWork s (s.reportFitting p q rep) := by
  unfold State.reportFitting
  dsimp only
  split
  · exact setSlotRecord_work s p q _
  · split
    · exact fitting_work s p q _ _
    · exact .refl s

theorem lowLevelTest_work (s : State) (p : Fin 64) (q : Consumable) (rep : SlotReport) : SlotWork s (s.lowLevelTest p q rep) := by
  unfold State.lowLevelTest
  split
  · split
    · exact reorderDue_work s p q _
    · exact .refl s
  · exact .refl s

theorem takeSlotReport_work (s : State) (p : Fin 64) (q : Consumable) (rep : SlotReport) : SlotWork s (s.takeSlotReport p q rep) := by
  unfold State.takeSlotReport
  split
  · exact ((reportFitting_work s p q rep).trans (setSlotRecord_work _ p q _)).trans (lowLevelTest_work _ p q rep)
  · exact .refl s

theorem takeSlotReports_work (s : State) (p : Fin 64) (reps : PerSlot SlotReport) : SlotWork s (s.takeSlotReports p reps) := by
  unfold State.takeSlotReports
  induction consumables generalizing s with
  | nil => exact .refl s
  | cons q rest ih => exact (takeSlotReport_work s p q _).trans (ih _)

/-! ### One slot written -/

/-- From `s` to `t` the record of slot `q` of printer `p` has become `v`, the reports `n` have been queued, and nothing else has changed. -/
structure SlotWritten (p : Fin 64) (q : Consumable) (v : SlotRecord) (n : List Report) (s t : State) : Prop where
  record : t.slotRecord p q = v
  others : ∀ p' q', p' ≠ p ∨ q' ≠ q → t.slotRecord p' q' = s.slotRecord p' q'
  rest   : worked s t.slotRecords n = t

theorem SlotWritten.trans (h : SlotWritten p q v n s t) (h' : SlotWritten p q v' n' t u) : SlotWritten p q v' (n ++ n') s u where
  record := h'.record
  others p' q' hother := (h'.others p' q' hother).trans (h.others p' q' hother)
  rest := by rw [← worked_worked s t.slotRecords, h.rest, h'.rest]

theorem SlotWritten.reports (h : SlotWritten p q v n s t) : t.mu.reports = s.mu.reports ++ n := by rw [← h.rest]; rfl

theorem SlotWritten.refl (s : State) (p : Fin 64) (q : Consumable) : SlotWritten p q (s.slotRecord p q) [] s s :=
  ⟨rfl, fun _ _ _ => rfl, worked_nil s _⟩

theorem setSlotRecord_written (s : State) (p : Fin 64) (q : Consumable) (r : SlotRecord) :
    SlotWritten p q r [] s (s.setSlotRecord p q r) where
  record := s.setSlotRecord_slotRecord p q r
  others _ _ hother := s.setSlotRecord_slotRecord_other r hother
  rest := worked_nil s _

theorem pushReport_written (s : State) (p : Fin 64) (q : Consumable) (b : ReportBody) :
    SlotWritten p q (s.slotRecord p q) [⟨s.mu.clock, b⟩] s (s.pushReport b) := ⟨rfl, fun _ _ _ => rfl, rfl⟩

/-- A record written and a notice built of it. -/
theorem setSlotRecord_pushReport_written (s : State) (p : Fin 64) (q : Consumable) (r : SlotRecord) (b : ReportBody) :
    SlotWritten p q r [⟨s.mu.clock, b⟩] s ((s.setSlotRecord p q r).pushReport b) := by
  have h := (setSlotRecord_written s p q r).trans (pushReport_written (s.setSlotRecord p q r) p q b)
  rwa [State.setSlotRecord_slotRecord] at h

/-! ### The fitting (R155 steps 1 and 2) -/

/-- The fitting that a report shows: none under the command-fit mark (R155, R156). -/
def foundBy (r : SlotRecord) (rep : SlotReport) : Option Detection := if r.commandFit = true then none else detectFitting r rep

/-- The record `r` after steps 1 and 2 of R155. -/
def fittedRecord (s : State) (p : Fin 64) (q : Consumable) (r : SlotRecord) (rep : SlotReport) : SlotRecord :=
  match foundBy r rep with
  | none => { r with commandFit := false }
  | some _ => r.fit (s.fittedType p q rep) (s.supply (s.fittedType p q rep)).ratedYield

/-- The FITTED notice of a fitting of the record `r` (R158). -/
def fittedNoticeOf (s : State) (p : Fin 64) (q : Consumable) (r : SlotRecord) (rep : SlotReport) (d : Detection) : FittedNotice :=
  ⟨p, (s.printer p).station, (s.printer p).zone, q, ⟨r.reorder, r.orderRef, d, s.mu.clock⟩, s.fittedType p q rep,
    (s.supply (s.fittedType p q rep)).ratedYield, r.lastSerial, r.lastLevel⟩

/-- The FITTED notice, where a reorder was told (R158). -/
def fittedReports (s : State) (p : Fin 64) (q : Consumable) (r : SlotRecord) (rep : SlotReport) : List Report :=
  match foundBy r rep with
  | none => []
  | some d => if r.reorder = .quiet ∨ r.owedReorder = true then [] else [⟨s.mu.clock, .fitted (fittedNoticeOf s p q r rep d)⟩]

theorem fittedReports_length (s : State) (p : Fin 64) (q : Consumable) (r : SlotRecord) (rep : SlotReport) :
    (fittedReports s p q r rep).length ≤ 1 := by
  unfold fittedReports
  split
  · simp
  · split <;> simp

/-- A fitting, where the report queue has room (R158). -/
theorem fitting_written (hr : s.slotRecord p q = r) (hroom : s.mu.reports.length < 64) {d : Detection} (hfound : foundBy r rep = some d) :
    SlotWritten p q (fittedRecord s p q r rep) (fittedReports s p q r rep) s (s.fitting p q (s.fittedType p q rep) d) := by
  subst hr
  have hrecord : fittedRecord s p q (s.slotRecord p q) rep =
      (s.slotRecord p q).fit (s.fittedType p q rep) (s.supply (s.fittedType p q rep)).ratedYield := by
    simp only [fittedRecord, hfound]
  have hnotice : (s.setSlotRecord p q (fittedRecord s p q (s.slotRecord p q) rep)).fittedNotice p q
      ⟨(s.slotRecord p q).reorder, (s.slotRecord p q).orderRef, d, s.mu.clock⟩ = fittedNoticeOf s p q (s.slotRecord p q) rep d := by
    simp only [State.fittedNotice, State.setSlotRecord_slotRecord, hrecord]
    rfl
  simp only [State.fitting, fittedReports, hfound, ← hrecord]
  split
  · exact setSlotRecord_written s p q _
  · have hreport : s.reportRoom = true := by simpa [State.reportRoom] using hroom
    rw [if_pos hreport, ← hnotice]
    exact setSlotRecord_pushReport_written s p q _ _

theorem clearMark_eq (h : ¬r.commandFit = true) : { r with commandFit := false } = r := by
  cases r
  simpa using h

theorem reportFitting_written (hr : s.slotRecord p q = r) (hroom : s.mu.reports.length < 64) :
    SlotWritten p q (fittedRecord s p q r rep) (fittedReports s p q r rep) s (s.reportFitting p q rep) := by
  by_cases hmark : r.commandFit = true
  · have hfound : foundBy r rep = none := if_pos hmark
    simp only [State.reportFitting, hr, hmark, if_true, fittedRecord, fittedReports, hfound]
    exact setSlotRecord_written s p q _
  · have hfound : foundBy r rep = detectFitting r rep := if_neg hmark
    simp only [State.reportFitting, hr, if_neg hmark]
    cases hd : detectFitting r rep with
    | none =>
      simp only [fittedRecord, fittedReports, hfound, hd, clearMark_eq hmark]
      rw [← hr]
      exact .refl s p q
    | some d => exact fitting_written hr hroom (hfound.trans hd)

/-! ### The low-level test (R155 steps 3 and 4, R159) -/

/-- The record `r` after step 3 of R155. -/
def updatedRecord (r : SlotRecord) (rep : SlotReport) : SlotRecord :=
  { r with
    lastLevel := if rep.level = none then r.lastLevel else rep.level
    lastSerial := if rep.serial = 0 then r.lastSerial else some rep.serial }

theorem reportUpdate_written (hr : s.slotRecord p q = r) : SlotWritten p q (updatedRecord r rep) [] s (s.reportUpdate p q rep) := by
  have hrecord : updatedRecord r rep =
      { r with
        lastLevel := match rep.level with | some l => some l | none => r.lastLevel
        lastSerial := if rep.serial = 0 then r.lastSerial else some rep.serial } := by
    cases h : rep.level <;> simp [updatedRecord, h]
  rw [hrecord, ← hr]
  exact setSlotRecord_written s p q _

/-- A reported level makes a reorder of the record `r` due (R155, R159). -/
def LowAt (s : State) (r : SlotRecord) (rep : SlotReport) : Prop :=
  r.reorder = .quiet ∧ ∃ l ∈ rep.level, l ≤ (s.supply r.supply).lowLevel

/-- A record whose reorder has become due at a low level (R159). -/
def lowRecord (r : SlotRecord) : SlotRecord := { r with reorder := .due, trigger := some .lowLevel }

/-- The REORDER notice of the record `r` (R159). -/
def reorderNoticeOf (s : State) (p : Fin 64) (q : Consumable) (r : SlotRecord) : ReorderNotice :=
  { printer := p, station := (s.printer p).station, zone := (s.printer p).zone, slot := q, supply := r.supply,
    trigger := r.trigger, remaining := r.remaining, overrun := r.overrun, average := r.average, daysLeft := r.daysLeft,
    lastLevel := r.lastLevel, lastSerial := r.lastSerial, leadDays := (s.supply r.supply).leadDays
    floorCount := (s.supply r.supply).floorCount }

theorem lowLevelTest_low (hr : s.slotRecord p q = r) (hroom : s.mu.reports.length < 64) (hlow : LowAt s r rep) :
    SlotWritten p q (lowRecord r) [⟨s.mu.clock, .reorder (reorderNoticeOf s p q (lowRecord r))⟩] s (s.lowLevelTest p q rep) := by
  obtain ⟨hquiet, l, hlevel, hl⟩ := hlow
  have hreport : s.reportRoom = true := by simpa [State.reportRoom] using hroom
  have hlevel : rep.level = some l := hlevel
  subst hr
  simp only [State.lowLevelTest, hlevel, if_pos hl, State.reorderDue, if_pos hquiet, if_pos hreport]
  have hnotice : (s.setSlotRecord p q (lowRecord (s.slotRecord p q))).reorderNotice p q =
      reorderNoticeOf s p q (lowRecord (s.slotRecord p q)) := by
    simp only [State.reorderNotice, State.setSlotRecord_slotRecord]
    rfl
  rw [← hnotice]
  exact setSlotRecord_pushReport_written s p q _ _

theorem lowLevelTest_not_low (hr : s.slotRecord p q = r) (hlow : ¬LowAt s r rep) : s.lowLevelTest p q rep = s := by
  subst hr
  unfold State.lowLevelTest
  split
  · rename_i l hlevel
    split
    · rename_i hl
      exact if_neg fun hquiet => hlow ⟨hquiet, l, hlevel, hl⟩
    · rfl
  · rfl

/-! ### One report (R155) -/

/-- What a report makes of the record `r` of a live slot, and the notices it brings (R155). -/
structure SlotTaken (p : Fin 64) (q : Consumable) (rep : SlotReport) (s : State) (r v : SlotRecord) (n : List Report) : Prop where
  record : v = { updatedRecord (fittedRecord s p q r rep) rep with reorder := v.reorder, trigger := v.trigger }
  low    : LowAt s (fittedRecord s p q r rep) rep → v.reorder = .due ∧ v.trigger = some .lowLevel
  high   : ¬LowAt s (fittedRecord s p q r rep) rep →
    v.reorder = (fittedRecord s p q r rep).reorder ∧ v.trigger = (fittedRecord s p q r rep).trigger
  notices : ∃ second, n = fittedReports s p q r rep ++ second ∧
    (LowAt s (fittedRecord s p q r rep) rep → second = [⟨s.mu.clock, .reorder (reorderNoticeOf s p q v)⟩]) ∧
    (¬LowAt s (fittedRecord s p q r rep) rep → second = [])

theorem SlotTaken.length (h : SlotTaken p q rep s r v n) : n.length ≤ 2 := by
  obtain ⟨second, rfl, hlow, hhigh⟩ := h.notices
  have hfirst := fittedReports_length s p q r rep
  have hsecond : second.length ≤ 1 := by
    by_cases hl : LowAt s (fittedRecord s p q r rep) rep
    · simp [hlow hl]
    · simp [hhigh hl]
  rw [List.length_append]
  omega

/-- What a report makes of a record depends on the tables and the clock. -/
theorem SlotTaken.congr (h : SlotTaken p q rep t r v n) (htables : t.tables = s.tables) (hclock : t.mu.clock = s.mu.clock) :
    SlotTaken p q rep s r v n := by
  have hprinter : t.printer p = s.printer p := by simp only [State.printer, htables]
  have hsupply : ∀ x, t.supply x = s.supply x := fun x => by simp only [State.supply, htables]
  have hfits : ∀ x, t.supplyFits x q = s.supplyFits x q := fun x => by rw [State.supplyFits, hsupply, State.supplyFits]
  have htype : t.fittedType p q rep = s.fittedType p q rep := by simp only [State.fittedType, hprinter, hfits]
  have hrecord : fittedRecord t p q r rep = fittedRecord s p q r rep := by simp only [fittedRecord, htype, hsupply]
  have hfitted : fittedReports t p q r rep = fittedReports s p q r rep := by
    simp only [fittedReports, fittedNoticeOf, htype, hprinter, hsupply, hclock]
  have hlow : LowAt t (fittedRecord s p q r rep) rep ↔ LowAt s (fittedRecord s p q r rep) rep := by simp only [LowAt, hsupply]
  have hreorder : reorderNoticeOf t p q v = reorderNoticeOf s p q v := by simp only [reorderNoticeOf, hprinter, hsupply]
  obtain ⟨record, low, high, notices⟩ := h
  rw [hrecord, hlow] at low high
  rw [hrecord] at record
  simp only [hrecord, hlow, hfitted, hreorder, hclock] at notices
  exact ⟨record, low, high, notices⟩

theorem takeSlotReport_live (hlive : s.slotLive p q = true) (hr : s.slotRecord p q = r) (hroom : s.mu.reports.length ≤ 62) :
    ∃ v n, SlotTaken p q rep s r v n ∧ SlotWritten p q v n s (s.takeSlotReport p q rep) := by
  have hfitted := reportFitting_written (rep := rep) hr (by omega)
  have hupdated := hfitted.trans (reportUpdate_written (rep := rep) hfitted.record)
  rw [List.append_nil] at hupdated
  have hroom' : ((s.reportFitting p q rep).reportUpdate p q rep).mu.reports.length < 64 := by
    have := fittedReports_length s p q r rep
    rw [hupdated.reports, List.length_append]
    omega
  have hsame : ∀ x, ((s.reportFitting p q rep).reportUpdate p q rep).supply x = s.supply x := fun x => by
    rw [← hupdated.rest]
    rfl
  have hiff : LowAt ((s.reportFitting p q rep).reportUpdate p q rep) (updatedRecord (fittedRecord s p q r rep) rep) rep ↔
      LowAt s (fittedRecord s p q r rep) rep := by
    simp only [LowAt, hsame]
    rfl
  rw [State.takeSlotReport, if_pos hlive]
  by_cases hlow : LowAt s (fittedRecord s p q r rep) rep
  · have hdue := lowLevelTest_low hupdated.record hroom' (hiff.2 hlow)
    refine ⟨_, _, ⟨rfl, fun _ => ⟨rfl, rfl⟩, fun h => absurd hlow h, _, rfl, fun _ => ?_, fun h => absurd hlow h⟩,
      hupdated.trans hdue⟩
    rw [← hupdated.rest]
    rfl
  · rw [lowLevelTest_not_low hupdated.record (hiff.not.2 hlow)]
    exact ⟨updatedRecord _ rep, _, ⟨rfl, fun h => absurd h hlow, fun _ => ⟨rfl, rfl⟩, [], (List.append_nil _).symm, fun h => absurd h hlow, fun _ => rfl⟩,
      hupdated⟩

/-! ### All the reports of a STATUS (R155) -/

/-- The reports of the slots in `l` are taken from `s` to `t`, slot by slot, with the notices that `notices` gives of each. -/
structure SlotsTaken (p : Fin 64) (reps : PerSlot SlotReport) (l : List Consumable) (notices : Consumable → List Report) (s t : State) :
    Prop where
  live   : ∀ q ∈ l, s.slotLive p q = true → SlotTaken p q (reps.get q) s (s.slotRecord p q) (t.slotRecord p q) (notices q)
  dead   : ∀ q, s.slotLive p q = false → t.slotRecord p q = s.slotRecord p q ∧ notices q = []
  others : ∀ p' q, p' ≠ p ∨ q ∉ l → t.slotRecord p' q = s.slotRecord p' q
  rest   : worked s t.slotRecords (l.flatMap notices) = t

theorem SlotsTaken.frame {reps : PerSlot SlotReport} {l : List Consumable} {notices : Consumable → List Report}
    (h : SlotsTaken p reps l notices s t) :
    t.tables = s.tables ∧ t.co = s.co ∧ t.mu = { s.mu with reports := s.mu.reports ++ l.flatMap notices } := by
  rw [← h.rest]
  exact ⟨rfl, rfl, rfl⟩

theorem slotsTaken (reps : PerSlot SlotReport) {l : List Consumable} (hnodup : l.Nodup) {s : State}
    (hroom : s.mu.reports.length + 2 * l.length ≤ 64) :
    ∃ notices, SlotsTaken p reps l notices s (l.foldl (fun t q => t.takeSlotReport p q (reps.get q)) s) := by
  induction l generalizing s with
  | nil => exact ⟨fun _ => [], by simp, fun _ _ => ⟨rfl, rfl⟩, fun _ _ _ => rfl, worked_nil s _⟩
  | cons q rest ih =>
    obtain ⟨hq, hrest⟩ := List.nodup_cons.1 hnodup
    rw [List.length_cons] at hroom
    by_cases hlive : s.slotLive p q = true
    · obtain ⟨v, n, htaken, hwritten⟩ := takeSlotReport_live (rep := reps.get q) hlive rfl (by omega)
      have hroom' : (s.takeSlotReport p q (reps.get q)).mu.reports.length + 2 * rest.length ≤ 64 := by
        have := htaken.length
        rw [hwritten.reports, List.length_append]
        omega
      obtain ⟨notices, live, dead, others, hframe⟩ := ih hrest hroom'
      have htables : (s.takeSlotReport p q (reps.get q)).tables = s.tables := by rw [← hwritten.rest]; rfl
      have hclock : (s.takeSlotReport p q (reps.get q)).mu.clock = s.mu.clock := by rw [← hwritten.rest]; rfl
      have hslot : ∀ x, (s.takeSlotReport p q (reps.get q)).slotLive p x = s.slotLive p x := fun x => by rw [← hwritten.rest]; rfl
      have hother : ∀ {x}, x ≠ q → (s.takeSlotReport p q (reps.get q)).slotRecord p x = s.slotRecord p x := fun hx =>
        hwritten.others p _ (.inr hx)
      refine ⟨fun x => if x = q then n else notices x, fun x hx hxlive => ?_, fun x hxdead => ?_, fun p' x hx => ?_, ?_⟩
      · rw [List.foldl_cons]
        by_cases hxq : x = q
        · subst hxq
          rw [if_pos rfl, others p x (.inr hq), hwritten.record]
          exact htaken
        · have hin : x ∈ rest := (List.mem_cons.1 hx).resolve_left hxq
          rw [if_neg hxq, ← hother hxq]
          exact (live x hin ((hslot x).trans hxlive)).congr htables hclock
      · have hxq : x ≠ q := by
          rintro rfl
          rw [hlive] at hxdead
          cases hxdead
        obtain ⟨hrecord, hnone⟩ := dead x ((hslot x).trans hxdead)
        exact ⟨hrecord.trans (hother hxq), (if_neg hxq).trans hnone⟩
      · have hx' : p' ≠ p ∨ x ≠ q := hx.imp_right fun h e => h (e ▸ List.mem_cons_self)
        exact (others p' x (hx.imp_right fun h hin => h (List.mem_cons_of_mem q hin))).trans (hwritten.others p' x hx')
      · have hflat : rest.flatMap (fun x => if x = q then n else notices x) = rest.flatMap notices :=
          List.flatMap_congr fun x hx => if_neg fun e : x = q => hq (e ▸ hx)
        rw [List.foldl_cons, List.flatMap_cons, if_pos rfl, hflat,
          ← worked_worked s (s.takeSlotReport p q (reps.get q)).slotRecords, hwritten.rest, hframe]
    · have hskip : s.takeSlotReport p q (reps.get q) = s := if_neg hlive
      obtain ⟨notices, live, dead, others, hframe⟩ := ih hrest (s := s) (by omega)
      refine ⟨notices, fun x hx hxlive => ?_, fun x hxdead => ?_, fun p' x hx => ?_, ?_⟩ <;> rw [List.foldl_cons, hskip]
      · refine live x ((List.mem_cons.1 hx).resolve_left ?_) hxlive
        rintro rfl
        exact hlive hxlive
      · exact dead x hxdead
      · exact others p' x (hx.imp_right fun h hin => h (List.mem_cons_of_mem q hin))
      · rw [List.flatMap_cons, (dead q (by simpa using hlive)).2, List.nil_append]
        exact hframe

end

end Sys2Proof.Machine.Conditions
end

