-- ==== Sys2Proof/Proofs/Conditions/StatusTaken.lean ====
section
/-! SUPPORT. STATUS in its three parts: the new record and the views it tells, the notices handed to the CO, and the slot reports (R126 to
R133, R155). -/

namespace Sys2Proof.Machine.Conditions

open Streams

section
variable {s t u : State} {p : Fin 64} {f : StatusFrame}

/-! ### The new record (R126 to R130) -/

/-- The state after the new record has been written and the view told. -/
def statusViewed (s : State) (p : Fin 64) (f : StatusFrame) : State := s.setView p (s.recordAfterStatus p f)

/-- The state after the CO has taken its notices. -/
def statusHanded (s : State) (p : Fin 64) (f : StatusFrame) : State :=
  (statusViewed s p f).handCallouts p ((s.cond p).list.filter (s.givesRemoval f.codes)) (s.enteredItems f.codes (s.cond p).list)

theorem takeStatus_eq (s : State) (p : Fin 64) (f : StatusFrame) :
    s.takeStatus p f = (statusHanded s p f).takeSlotReports p f.slots := rfl

theorem execStatus_eq {b : List Byte} (h : FromPrinter s .status p b) (hb : parseStatus b = some f) :
    exec .status s = .next (s.tookFp.takeStatus p f) := by
  simp only [exec, execStatus, h.onPrinterFrame, hb]

theorem deriveState_eq (l : List CondItem) :
    deriveState l =
      if ∃ it ∈ l, it.effect = .block then .blocked else if ∃ it ∈ l, it.effect = .degrade then .degraded else .ready := by
  simp only [deriveState, List.any_eq_true, decide_eq_true_eq]

/-- A new record leaves everything but the records and the notices of views (R130). -/
theorem setView_frame (s : State) (p : Fin 64) (r : ConditionRecord) :
    { s.setView p r with cm := s.cm, se := s.se, ru := s.ru } = s ∧
    (s.setView p r).se.contexts = s.se.contexts ∧ { (s.setView p r).ru with notices := s.ru.notices } = s.ru := by
  rcases s.setView_cases p r with ⟨e, -⟩ | ⟨_, -, -, e⟩ <;> rw [e] <;> exact ⟨rfl, rfl, rfl⟩

theorem setView_cond (s : State) (p : Fin 64) (r : ConditionRecord) : (s.setView p r).cond p = r := by
  rcases s.setView_cases p r with ⟨e, -⟩ | ⟨_, -, -, e⟩ <;> rw [e] <;> exact State.setCond_cond s p r

theorem setView_cond_other {p' : Fin 64} (h : p' ≠ p) (s : State) (r : ConditionRecord) : (s.setView p r).cond p' = s.cond p' := by
  rcases s.setView_cases p r with ⟨e, -⟩ | ⟨_, -, -, e⟩ <;> rw [e] <;> exact State.setCond_cond_other s p r h

/-- Another printer state is told to the SE and the RU (R130). -/
theorem setView_notice {r : ConditionRecord} {st : PrinterState} (hst : r.state = some st) (h : (s.cond p).state ≠ r.state) :
    ∃ n : ViewNotice, n.printer = p ∧ some n.state = r.state ∧ (s.setView p r).ru.notices = s.ru.notices ++ [n] ∧
      (s.setView p r).se.notices = s.se.notices ++ [n] := by
  rcases s.setView_cases p r with ⟨-, hsame | hnone⟩ | ⟨st', hst', -, e⟩
  · exact absurd hsame (by simp [viewChanged, h])
  · rw [hst] at hnone
    cases hnone
  · rw [e]
    exact ⟨_, rfl, hst'.symm, rfl, rfl⟩

theorem statusViewed_frame (s : State) (p : Fin 64) (f : StatusFrame) :
    { statusViewed s p f with cm := s.cm, se := s.se, ru := s.ru } = s := (setView_frame s p _).1

theorem statusViewed_tables (s : State) (p : Fin 64) (f : StatusFrame) : (statusViewed s p f).tables = s.tables :=
  (congrArg State.tables (statusViewed_frame s p f) :)

theorem statusViewed_mu (s : State) (p : Fin 64) (f : StatusFrame) : (statusViewed s p f).mu = s.mu :=
  (congrArg State.mu (statusViewed_frame s p f) :)

theorem statusViewed_co (s : State) (p : Fin 64) (f : StatusFrame) : (statusViewed s p f).co = s.co :=
  (congrArg State.co (statusViewed_frame s p f) :)

theorem statusViewed_slotRecords (s : State) (p : Fin 64) (f : StatusFrame) : (statusViewed s p f).slotRecords = s.slotRecords :=
  (congrArg State.slotRecords (statusViewed_frame s p f) :)

/-! ### The CO's notices (R131, R138, R139, R145) -/

/-- An entry without its callout-wanted flag. -/
def unflagged (it : CondItem) : CondItem := { it with calloutWanted := false }

/-- The record has become another in callout-wanted flags at most. -/
def Reflagged (r r' : ConditionRecord) : Prop := { r' with list := r.list } = r ∧ r'.list.map unflagged = r.list.map unflagged

theorem Reflagged.trans {a b c : ConditionRecord} (h : Reflagged a b) (h' : Reflagged b c) : Reflagged a c :=
  ⟨(congrArg (fun x : ConditionRecord => { x with list := a.list }) h'.1 :).trans h.1, h'.2.trans h.2⟩

theorem Reflagged.fields {r r' : ConditionRecord} (h : Reflagged r r') :
    r'.state = r.state ∧ r'.loss = r.loss ∧ r'.countdown = r.countdown ∧ r'.panel = r.panel ∧ r'.history = r.history := by
  rw [← h.1]
  exact ⟨rfl, rfl, rfl, rfl, rfl⟩

/-- What the entries show besides the flags is what it was. -/
theorem Reflagged.map {β : Type} {r r' : ConditionRecord} (h : Reflagged r r') (g : CondItem → β) (hg : ∀ it, g (unflagged it) = g it) :
    r'.list.map g = r.list.map g := by
  have hcomp : g ∘ unflagged = g := funext hg
  rw [← hcomp, ← List.map_map, h.2, List.map_map]

/-- From `s` to `t` the CO has taken notices: it has changed callouts, reports and callout-wanted flags at most. -/
structure Handed (s t : State) : Prop where
  rest  : { t with cm := s.cm, co := s.co, mu := s.mu } = s
  mu    : { t.mu with reports := s.mu.reports } = s.mu
  conds : ∀ p, Reflagged (s.cond p) (t.cond p)

theorem Handed.trans (h : Handed s t) (h' : Handed t u) : Handed s u where
  rest := (congrArg (fun x : State => { x with cm := s.cm, co := s.co, mu := s.mu }) h'.rest :).trans h.rest
  mu := (congrArg (fun x : ManagementUnit => { x with reports := s.mu.reports }) h'.mu :).trans h.mu
  conds p := (h.conds p).trans (h'.conds p)

theorem Handed.engines (h : Handed s t) : t.se = s.se ∧ t.ru = s.ru := ⟨(congrArg State.se h.rest :), (congrArg State.ru h.rest :)⟩

/-- CO work that leaves every condition record. -/
theorem Handed.of_work (h : ∀ p, CalloutWork p s t) : Handed s t := by
  obtain ⟨cm, co, reports, rfl, -⟩ := h 0
  refine ⟨rfl, rfl, fun p => ?_⟩
  obtain ⟨_, _, _, -, hcond⟩ := h p
  rw [hcond]
  exact ⟨rfl, rfl⟩

theorem Handed.refl (s : State) : Handed s s := .of_work fun p => .refl p s

theorem setWanted_handed (s : State) (q : Fin 64) (code : Fin 256) (wanted : Bool) : Handed s (s.setWanted q code wanted) := by
  refine ⟨rfl, rfl, fun p => ?_⟩
  by_cases hp : p = q
  · subst hp
    rw [State.setWanted, State.setCond_cond]
    refine ⟨rfl, ?_⟩
    rw [List.map_map]
    refine List.map_congr_left fun it _ => ?_
    by_cases hcode : it.code = code <;> simp [unflagged, hcode]
  · rw [State.setWanted, State.setCond_cond_other _ _ _ hp]
    exact ⟨rfl, rfl⟩

theorem createCallout_handed (s : State) (i : Fin 48) (q : Fin 64) (code : Fin 256) (seen : Stamp) :
    Handed s (s.createCallout i q code seen) := .of_work fun _ => (createCallout_written s i q code seen).work

theorem calloutEntered_handed (s : State) (q : Fin 64) (code : Fin 256) (seen : Stamp) : Handed s (s.calloutEntered q code seen) := by
  rcases calloutEntered_cases s q code seen with ⟨i, e⟩ | e <;> rw [e]
  · exact createCallout_handed s i q code seen
  · exact setWanted_handed s q code true

theorem serveWaiting_handed (s : State) (i : Fin 48) : Handed s (s.serveWaiting i) := by
  unfold State.serveWaiting
  split
  · exact .refl s
  · split
    · exact .refl s
    · exact (setWanted_handed s _ _ _).trans (createCallout_handed _ i _ _ _)

theorem calloutRemoved_handed (s : State) (q : Fin 64) (code : Fin 256) : Handed s (s.calloutRemoved q code) := by
  unfold State.calloutRemoved
  split
  · exact (Handed.of_work fun _ => freeCallout_work s _ _).trans (serveWaiting_handed _ _)
  · exact setWanted_handed s q code false

theorem foldl_handed {β : Type} {g : State → β → State} (h : ∀ t x, Handed t (g t x)) (l : List β) (s : State) :
    Handed s (l.foldl g s) := by
  induction l generalizing s with
  | nil => exact .refl s
  | cons x rest ih => exact (h s x).trans (ih _)

theorem statusHanded_handed (s : State) (p : Fin 64) (f : StatusFrame) : Handed (statusViewed s p f) (statusHanded s p f) :=
  (foldl_handed (fun t (it : CondItem) => calloutRemoved_handed t p it.code) _ _).trans
    (foldl_handed (fun t (it : CondItem) => calloutEntered_handed t p it.code it.firstSeen) _ _)

/-! ### The slot reports -/

theorem takeStatus_work (s : State) (p : Fin 64) (f : StatusFrame) : SlotWork (statusHanded s p f) (s.takeStatus p f) :=
  takeSlotReports_work _ p f.slots

theorem takeStatus_cond (s : State) (p : Fin 64) (f : StatusFrame) (p' : Fin 64) :
    (s.takeStatus p f).cond p' = (statusHanded s p f).cond p' := by
  obtain ⟨hcm, -⟩ := (takeStatus_work s p f).frame
  rw [State.cond, hcm, State.cond]

theorem takeStatus_co (s : State) (p : Fin 64) (f : StatusFrame) : (s.takeStatus p f).co = (statusHanded s p f).co := by
  obtain ⟨-, hco, -⟩ := (takeStatus_work s p f).frame
  exact hco

theorem takeStatus_callout (s : State) (p : Fin 64) (f : StatusFrame) (i : Fin 48) :
    (s.takeStatus p f).callout i = (statusHanded s p f).callout i := by
  rw [State.callout, takeStatus_co, State.callout]

/-! ### STATUS as a whole -/

/-- The printer's record after a STATUS, but for callout-wanted flags (R126). -/
theorem takeStatus_record (s : State) (p : Fin 64) (f : StatusFrame) :
    Reflagged (s.recordAfterStatus p f) ((s.takeStatus p f).cond p) := by
  have h := (statusHanded_handed s p f).conds p
  rwa [statusViewed, setView_cond, ← takeStatus_cond] at h

/-- The record of another printer, but for callout-wanted flags. -/
theorem takeStatus_record_other {p' : Fin 64} (hp : p' ≠ p) (s : State) (f : StatusFrame) :
    Reflagged (s.cond p') ((s.takeStatus p f).cond p') := by
  have h := (statusHanded_handed s p f).conds p'
  rwa [statusViewed, setView_cond_other hp, ← takeStatus_cond] at h

/-- The SE and the RU after a STATUS are as the view left them. -/
theorem takeStatus_engines (s : State) (p : Fin 64) (f : StatusFrame) :
    (s.takeStatus p f).se = (statusViewed s p f).se ∧ (s.takeStatus p f).ru = (statusViewed s p f).ru := by
  obtain ⟨-, -, hse, hru, -⟩ := (takeStatus_work s p f).frame
  obtain ⟨hse', hru'⟩ := (statusHanded_handed s p f).engines
  exact ⟨hse.trans hse', hru.trans hru'⟩

/-- A view told, then CO work, then slot work: the rest of the state is as it was. -/
theorem frame_of_parts {v c : State} (hview : { v with cm := s.cm, se := s.se, ru := s.ru } = s) (hhanded : Handed v c)
    (hwork : SlotWork c t) :
    { t with cm := s.cm, se := s.se, ru := s.ru, co := s.co, slotRecords := s.slotRecords, mu := s.mu } = s ∧
      { t.mu with reports := s.mu.reports } = s.mu := by
  obtain ⟨records, more, rfl⟩ := hwork
  have hmu : v.mu = s.mu := (congrArg State.mu hview :)
  refine ⟨?_, ?_⟩
  · calc
      _ = { v with cm := s.cm, se := s.se, ru := s.ru, co := s.co, slotRecords := s.slotRecords, mu := s.mu } :=
        (congrArg (fun x : State => { x with
          cm := s.cm, se := s.se, ru := s.ru, co := s.co, slotRecords := s.slotRecords, mu := s.mu }) hhanded.rest :)
      _ = s := (congrArg (fun x : State => { x with co := s.co, slotRecords := s.slotRecords, mu := s.mu }) hview :)
  · have h := hhanded.mu
    rwa [hmu] at h

/-- What a STATUS leaves as it was. -/
theorem takeStatus_frame (s : State) (p : Fin 64) (f : StatusFrame) :
    { s.takeStatus p f with cm := s.cm, se := s.se, ru := s.ru, co := s.co, slotRecords := s.slotRecords, mu := s.mu } = s ∧
      { (s.takeStatus p f).mu with reports := s.mu.reports } = s.mu :=
  frame_of_parts (statusViewed_frame s p f) (statusHanded_handed s p f) (takeStatus_work s p f)

end

end Sys2Proof.Machine.Conditions
end

