-- ==== Sys2Proof/Proofs/Conditions/StatusSlots.lean ====
section
/-! SUPPORT. STATUS at the printer's slots, where the conditions give the CO nothing (R155 to R159). -/

namespace Sys2Proof.Machine.Conditions

section
variable {s : State} {p : Fin 64} {q : Consumable} {f : StatusFrame} {r : SlotRecord} {rep : SlotReport}

/-- Without a FAULT code, before and after the refresh, the CO is given nothing (R131). -/
theorem statusHanded_no_fault (hlist : ∀ it ∈ (s.cond p).list, it.cls ≠ .fault)
    (hcodes : ∀ code ∈ f.codes, (s.condition code).cls ≠ .fault) : statusHanded s p f = statusViewed s p f := by
  have hremovals : (s.cond p).list.filter (s.givesRemoval f.codes) = [] :=
    List.filter_eq_nil_iff.2 fun it hit => by simp [State.givesRemoval, hlist it hit]
  have hchanged : (s.cond p).list.filter (s.givesEntry f.codes) = [] := by
    refine List.filter_eq_nil_iff.2 fun it _ h => ?_
    simp only [State.givesEntry, State.staysIn, Bool.and_eq_true, List.contains_iff_mem, decide_eq_true_eq] at h
    exact hcodes it.code h.1.2.1 h.2
  have hnew : ((s.rebuiltList f.codes (s.cond p).list).drop (s.keptList f.codes (s.cond p).list).length).filter
      (fun it => decide (it.cls = .fault)) = [] := by
    refine List.filter_eq_nil_iff.2 fun it hit h => ?_
    have hin := List.mem_of_mem_drop hit
    refine hcodes it.code (mem_rebuiltList.1 hin).1 ?_
    rw [← (rebuiltList_from_table hin).1]
    exact of_decide_eq_true h
  simp only [statusHanded, State.enteredItems, hremovals, hchanged, hnew, State.handCallouts, List.nil_append, List.foldl_nil]

/-! ### The model's tests in the words of the statement -/

theorem foundBy_eq (r : SlotRecord) (rep : SlotReport) :
    foundBy r rep =
      if r.commandFit = true then none
      else if r.lastLevel = none ∧ r.lastSerial = none then
        if rep.level ≠ none ∨ rep.serial ≠ 0 then some .firstSighting else none
      else if rep.serial ≠ 0 ∧ r.lastSerial ≠ none then
        if r.lastSerial = some rep.serial then none else some .serial
      else if ∃ new ∈ rep.level, ∃ old ∈ r.lastLevel, old + 40 ≤ new then some .levelRise
      else none := by
  cases hnew : rep.level <;> cases hold : r.lastLevel <;>
    simp [foundBy, detectFitting, hnew, hold, Option.isSome_iff_ne_none]

theorem fittedType_eq (s : State) (p : Fin 64) (q : Consumable) (rep : SlotReport) :
    s.fittedType p q rep =
      match rep.supply with
      | some x => if (s.supply x).state = .defined ∧ (s.supply x).kind = q then x else ((s.printer p).slotMap.get q).defaultType
      | none => ((s.printer p).slotMap.get q).defaultType := by
  cases h : rep.supply <;> simp [State.fittedType, State.supplyFits, h]

theorem fittedRecord_eq (s : State) (p : Fin 64) (q : Consumable) (r : SlotRecord) (rep : SlotReport) :
    fittedRecord s p q r rep =
      if foundBy r rep = none then { r with commandFit := false }
      else r.fit (s.fittedType p q rep) (s.supply (s.fittedType p q rep)).ratedYield := by
  cases h : foundBy r rep <;> simp [fittedRecord, h]

/-- The last level and serial do not change with a fitting (R158). -/
theorem fittedRecord_last (s : State) (p : Fin 64) (q : Consumable) (r : SlotRecord) (rep : SlotReport) :
    (fittedRecord s p q r rep).lastLevel = r.lastLevel ∧ (fittedRecord s p q r rep).lastSerial = r.lastSerial := by
  rw [fittedRecord_eq]
  split <;> exact ⟨rfl, rfl⟩

theorem fittedReports_told {d : Detection} (hfound : foundBy r rep = some d) (hquiet : r.reorder ≠ .quiet) (howed : r.owedReorder = false) :
    fittedReports s p q r rep = [⟨s.mu.clock, .fitted (fittedNoticeOf s p q r rep d)⟩] := by
  simp [fittedReports, hfound, hquiet, howed]

theorem fittedReports_silent (h : foundBy r rep = none ∨ r.reorder = .quiet ∨ r.owedReorder = true) : fittedReports s p q r rep = [] := by
  unfold fittedReports
  split
  · rfl
  · rename_i d hfound
    exact if_pos (h.resolve_left (by simp [hfound]))

/-- The slots after a STATUS in which the conditions give the CO nothing. -/
theorem takeStatus_slots (hlist : ∀ it ∈ (s.cond p).list, it.cls ≠ .fault)
    (hcodes : ∀ code ∈ f.codes, (s.condition code).cls ≠ .fault) (hroom : s.mu.reports.length ≤ 52) :
    ∃ notices, SlotsTaken p f.slots consumables notices (statusViewed s p f) (s.takeStatus p f) := by
  rw [takeStatus_eq, statusHanded_no_fault hlist hcodes]
  refine slotsTaken f.slots (by decide) ?_
  rw [statusViewed_mu]
  simpa [consumables] using hroom

end

/-- Settles O41: `takeStatus_slots` gives each slot's record and notices, and the model's tests are those of the statement. -/
theorem statusReportsSlots : Obligations.StatusReportsSlots := by
  intro s p b f hframe hb hlist hcodes hroom r found fitted base low
  have hfound : ∀ q, found q = foundBy (r q) (f.slots.get q) := fun q => (foundBy_eq _ _).symm
  have hfitted : ∀ q, fitted q = s.fittedType p q (f.slots.get q) := fun q => (fittedType_eq s p q _).symm
  have hbase : ∀ q, base q = fittedRecord s p q (r q) (f.slots.get q) := fun q => by
    rw [fittedRecord_eq, ← hfound, ← hfitted]
    rfl
  have hlow : ∀ q, low q ↔ LowAt s (fittedRecord s p q (r q) (f.slots.get q)) (f.slots.get q) := fun q => by
    rw [← hbase]
    rfl
  obtain ⟨notices, htaken⟩ := takeStatus_slots (s := s.tookFp) hlist hcodes hroom
  obtain ⟨htables, hco, hreports⟩ := htaken.frame
  obtain ⟨live, dead, others, -⟩ := htaken
  have hviewed : ∀ p' q, (statusViewed s.tookFp p f).slotRecord p' q = s.slotRecord p' q := fun p' q => by
    rw [State.slotRecord, statusViewed_slotRecords]
    rfl
  have hslot : ∀ q, (statusViewed s.tookFp p f).slotLive p q = s.slotLive p q := fun q => by
    rw [State.slotLive, State.printerDefined, State.printer, statusViewed_tables]
    rfl
  have hmu : (statusViewed s.tookFp p f).mu = s.mu := statusViewed_mu s.tookFp p f
  have htables : (s.tookFp.takeStatus p f).tables = s.tables := htables.trans (statusViewed_tables s.tookFp p f)
  have hnotice : ∀ q, (s.tookFp.takeStatus p f).reorderNotice p q =
      reorderNoticeOf s p q ((s.tookFp.takeStatus p f).slotRecord p q) := fun q => by
    change reorderNoticeOf (s.tookFp.takeStatus p f) p q _ = _
    simp only [reorderNoticeOf, State.printer, State.supply, htables]
  have htaken : ∀ q, s.slotLive p q = true →
      SlotTaken p q (f.slots.get q) s (r q) ((s.tookFp.takeStatus p f).slotRecord p q) (notices q) := fun q hlive => by
    have h := live q (by cases q <;> decide) ((hslot q).trans hlive)
    rw [hviewed] at h
    exact h.congr (statusViewed_tables s.tookFp p f) (congrArg ManagementUnit.clock hmu)
  refine ⟨_, execStatus_eq hframe hb, fun q hdead => ?_, fun q hlive => ?_, fun p' q hp => ?_, ?_, notices, ?_, fun q =>
    ⟨fun hdead => (dead q ((hslot q).trans hdead)).2, fun hlive => ?_⟩⟩
  · exact (dead q ((hslot q).trans hdead)).1.trans (hviewed p q)
  · obtain ⟨record, due, kept, -⟩ := htaken q hlive
    obtain ⟨hlevel, hserial⟩ := fittedRecord_last s p q (r q) (f.slots.get q)
    rw [hlow, hbase]
    refine ⟨record.trans ?_, due, kept⟩
    simp only [updatedRecord, hlevel, hserial]
  · exact (others p' q (.inl hp)).trans (hviewed p' q)
  · exact hco.trans (statusViewed_co s.tookFp p f)
  · rw [hreports, hmu]
    rfl
  · obtain ⟨second, hsecond, hdue, hkept⟩ := (htaken q hlive).notices
    refine ⟨_, second, hsecond, fun h => ?_, fun h => hkept ((hlow q).not.1 h), fun d hd hquiet howed => ?_, fun h => ?_⟩
    · rw [hnotice]
      exact hdue ((hlow q).1 h)
    · rw [fittedReports_told ((hfound q).symm.trans hd) hquiet howed, fittedNoticeOf, ← hfitted]
    · exact fittedReports_silent (by rwa [hfound] at h)

end Sys2Proof.Machine.Conditions
end

