-- ==== Sys2Proof/Proofs/Conditions/StatusConditions.lean ====
section
/-! SUPPORT. What a STATUS makes of the conditions and of the callout that one FAULT code takes or leaves (R126 to R133, R138, R145, R146). -/

namespace Sys2Proof.Machine.Conditions

open Streams

section
variable {s t : State} {p : Fin 64} {f : StatusFrame} {code : Fin 256} {i : Fin 48}

theorem statusViewed_cond (s : State) (p : Fin 64) (f : StatusFrame) : (statusViewed s p f).cond p = s.recordAfterStatus p f :=
  setView_cond s p _

theorem statusViewed_callout (s : State) (p : Fin 64) (f : StatusFrame) (i : Fin 48) :
    (statusViewed s p f).callout i = s.callout i := by
  rw [State.callout, statusViewed_co, State.callout]

theorem statusViewed_condition (s : State) (p : Fin 64) (f : StatusFrame) (code : Fin 256) :
    (statusViewed s p f).condition code = s.condition code := by
  rw [State.condition, statusViewed_tables, State.condition]

theorem statusViewed_printer (s : State) (p : Fin 64) (f : StatusFrame) (q : Fin 64) :
    (statusViewed s p f).printer q = s.printer q := by
  rw [State.printer, statusViewed_tables, State.printer]

/-! ### A FAULT code enters an empty list (R131, R138) -/

theorem rebuiltList_one (hcls : (s.condition code).cls ≠ .ignore) : s.rebuiltList [code] [] = [newItem s code] := by
  simp [State.rebuiltList, State.keptList, appendCode_eq, hcls]

theorem statusHanded_enters (hlist : (s.cond p).list = []) (hcodes : f.codes = [code]) (hcls : (s.condition code).cls = .fault) :
    statusHanded s p f = (statusViewed s p f).calloutEntered p code s.mu.clock := by
  have hrebuilt : s.rebuiltList [code] [] = [newItem s code] := rebuiltList_one (by simp [hcls])
  have hentered : s.enteredItems [code] [] = [newItem s code] := by
    simp [State.enteredItems, hrebuilt, State.keptList, newItem, hcls]
  rw [statusHanded, hlist, hcodes, hentered]
  rfl

theorem recordAfterStatus_one (hlist : (s.cond p).list = []) (hcodes : f.codes = [code]) (hcls : (s.condition code).cls = .fault) :
    (s.recordAfterStatus p f).list = [newItem s code] := by
  change s.rebuiltList f.codes (s.cond p).list = _
  rw [hlist, hcodes, rebuiltList_one (by simp [hcls])]

/-- The lowest FREE entry takes the condition, in GRACE, or OWED where no grace is given and the zone is MUTED (R138, R140). -/
theorem takeStatus_creates (hlist : (s.cond p).list = []) (hcodes : f.codes = [code]) (hcls : (s.condition code).cls = .fault)
    (hfree : (s.callout i).state = .free) (hlow : ∀ k, k < i → (s.callout k).state ≠ .free) :
    ((s.condition code).grace ≠ 0 →
      (s.takeStatus p f).callout i =
        ⟨.grace, p, code, s.mu.clock, (s.condition code).kind, 1, some ⟨(s.condition code).grace, false⟩, false, 0⟩) ∧
    ((s.condition code).grace = 0 → (s.zone (s.printer p).zone).mute.isSome = true →
      (s.takeStatus p f).callout i = ⟨.owed, p, code, s.mu.clock, (s.condition code).kind, 1, none, false, 0⟩) ∧
    (∀ k, k ≠ i → (s.takeStatus p f).callout k = s.callout k) ∧
    ∀ it ∈ ((s.takeStatus p f).cond p).list, it.calloutWanted = false := by
  have hcreated : statusHanded s p f = (statusViewed s p f).createCallout i p code s.mu.clock := by
    rw [statusHanded_enters hlist hcodes hcls, calloutEntered_free]
    · rw [statusViewed_callout, hfree]
    · intro k hk
      rw [statusViewed_callout]
      exact hlow k hk
  have hcondition := statusViewed_condition s p f code
  refine ⟨fun hgrace => ?_, fun hgrace hmute => ?_, fun k hk => ?_, fun it hit => ?_⟩
  · rw [takeStatus_callout, hcreated, createCallout_graced (by rwa [hcondition]), State.setCallout_callout, hcondition]
  · have hheld : (statusViewed s p f).calloutHeld p = true := by
      rw [calloutHeld_iff, State.zone, statusViewed_printer, statusViewed_tables]
      exact .inl hmute
    rw [takeStatus_callout, hcreated, (createCallout_owed (by rwa [hcondition]) hheld).1, hcondition]
  · rw [takeStatus_callout, hcreated, createCallout_callout_other hk, statusViewed_callout]
  · rw [takeStatus_cond, hcreated, createCallout_cond, statusViewed_cond, recordAfterStatus_one hlist hcodes hcls,
      List.mem_singleton] at hit
    rw [hit]
    rfl

/-- With no entry FREE the condition waits (R138). -/
theorem takeStatus_waits (hlist : (s.cond p).list = []) (hcodes : f.codes = [code]) (hcls : (s.condition code).cls = .fault)
    (hfull : ∀ i, (s.callout i).state ≠ .free) :
    (s.takeStatus p f).co = s.co ∧
    ((s.takeStatus p f).cond p).list =
      [⟨code, .fault, (s.condition code).effect, (s.condition code).loss, s.mu.clock, true⟩] := by
  have hwanted : statusHanded s p f = (statusViewed s p f).setWanted p code true := by
    rw [statusHanded_enters hlist hcodes hcls, calloutEntered_full]
    intro k
    rw [statusViewed_callout]
    exact hfull k
  refine ⟨?_, ?_⟩
  · rw [takeStatus_co, hwanted]
    exact statusViewed_co s p f
  · rw [takeStatus_cond, hwanted, State.setWanted, State.setCond_cond, statusViewed_cond, recordAfterStatus_one hlist hcodes hcls]
    simp [newItem, hcls]

/-! ### The one FAULT entry of a list is removed (R139, R145, R146) -/

theorem told_iff (st : CalloutState) : st.told = true ↔ st = .sent ∨ st = .escalated ∨ st = .acked := by
  cases st <;> simp [CalloutState.told]

/-- With no condition waiting a freed entry serves none (R139). -/
theorem serveWaiting_none (h : ∀ q, ∀ it ∈ (s.cond q).list, it.calloutWanted = false) (i : Fin 48) : s.serveWaiting i = s := by
  have hwaiting : s.waitingPrinter = none :=
    Release.firstIndex_eq_none fun q => by
      simp only [Bool.and_eq_false_iff, List.any_eq_false]
      exact .inr fun it hit => by simp [h q it hit]
  simp only [State.serveWaiting, hwaiting]

/-- A desk that was told gets a RESOLVED notice: enqueued with room, and else owed while the owed list has room (R146). -/
theorem freeCallout_told (htold : (s.callout i).state.told = true) (cause : ResolvedCause) :
    let n := s.resolvedNotice (s.callout i) cause
    (s.mu.reports.length < 64 → (s.freeCallout i cause).co.owedResolved = s.co.owedResolved ∧
      (s.freeCallout i cause).mu.reports = s.mu.reports ++ [⟨s.mu.clock, .resolved n⟩]) ∧
    (64 ≤ s.mu.reports.length → s.co.owedResolved.length < 48 →
      (s.freeCallout i cause).co.owedResolved = s.co.owedResolved ++ [n]) := by
  intro n
  have hfreed : s.freeCallout i cause = (s.offerResolved n).setCallout i CalloutEntry.free := by
    simp only [State.freeCallout, if_pos htold, n]
  rw [hfreed]
  rcases s.offerResolved_cases n with ⟨hroom, e⟩ | ⟨hfull, howed, e⟩ | ⟨hfull, howed, e⟩ <;> rw [e]
  · exact ⟨fun _ => ⟨rfl, rfl⟩, fun h => absurd hroom (not_lt.2 h)⟩
  · exact ⟨fun h => absurd h (not_lt.2 hfull), fun _ _ => rfl⟩
  · exact ⟨fun h => absurd h (not_lt.2 hfull), fun _ h => absurd h (not_lt.2 howed)⟩

theorem freeCallout_not_told (htold : ¬(s.callout i).state.told = true) (cause : ResolvedCause) :
    (s.freeCallout i cause).co.owedResolved = s.co.owedResolved := by
  simp only [State.freeCallout, if_neg htold]
  rfl

variable {it : CondItem}

/-- The list is empty, and the callout of the entry removed is freed, where no other condition waits (R139, R145). -/
theorem statusHanded_clears (hlist : (s.cond p).list = [it]) (hcls : it.cls = .fault) (hcodes : f.codes = [])
    (hfound : s.findCallout p it.code = some i)
    (hothers : ∀ p', p' ≠ p → ∀ other ∈ (s.cond p').list, other.calloutWanted = false) :
    statusHanded s p f = (statusViewed s p f).freeCallout i .cleared := by
  have hremovals : [it].filter (s.givesRemoval []) = [it] := by simp [State.givesRemoval, State.staysIn, hcls]
  have hentered : s.enteredItems [] [it] = [] := by
    simp [State.enteredItems, State.givesEntry, State.staysIn, State.rebuiltList]
  have hempty : (s.recordAfterStatus p f).list = [] := by
    change s.rebuiltList f.codes (s.cond p).list = _
    rw [hcodes, hlist]
    simp [State.rebuiltList, State.keptList, State.staysIn]
  have hfound' : (statusViewed s p f).findCallout p it.code = some i := by
    simp only [State.findCallout, statusViewed_callout]
    exact hfound
  have hremoved : statusHanded s p f = ((statusViewed s p f).freeCallout i .cleared).serveWaiting i := by
    rw [statusHanded, hlist, hcodes, hremovals, hentered]
    simp only [State.handCallouts, List.foldl_cons, List.foldl_nil, State.calloutRemoved, hfound']
  rw [hremoved]
  refine serveWaiting_none (fun q other hother => ?_) i
  obtain ⟨_, _, _, -, hcond⟩ := freeCallout_work (p := q) (statusViewed s p f) i .cleared
  rw [hcond] at hother
  by_cases hq : q = p
  · rw [hq, statusViewed_cond, hempty] at hother
    cases hother
  · rw [statusViewed, setView_cond_other hq] at hother
    exact hothers q hq other hother

/-- The notice that tells a desk of the callout in entry `i`, which is for a printer and a code, resolved (R146). -/
theorem resolvedNotice_viewed (hfound : s.findCallout p code = some i) :
    (statusViewed s p f).resolvedNotice ((statusViewed s p f).callout i) .cleared =
      ⟨p, (s.printer p).station, (s.printer p).zone, code, (s.callout i).kind, (s.callout i).firstSeen, (s.callout i).level,
        (s.callout i).state, .cleared, s.mu.clock⟩ := by
  obtain ⟨⟨-, hprinter⟩, hcode⟩ : ((s.callout i).state ≠ .free ∧ (s.callout i).printer = p) ∧ (s.callout i).code = code := by
    simpa using (firstIndex_some hfound).1
  simp only [State.resolvedNotice, statusViewed_callout, statusViewed_printer, statusViewed_mu, hprinter, hcode]

/-- A removed FAULT entry frees its callout, and a desk that was told gets the RESOLVED notice before the slot reports' (R145, R146). -/
theorem takeStatus_clears (hlist : (s.cond p).list = [it]) (hcls : it.cls = .fault) (hcodes : f.codes = [])
    (hfound : s.findCallout p it.code = some i)
    (hothers : ∀ p', p' ≠ p → ∀ other ∈ (s.cond p').list, other.calloutWanted = false) :
    let e := s.callout i
    let told : Prop := e.state = .sent ∨ e.state = .escalated ∨ e.state = .acked
    let n : ResolvedNotice :=
      ⟨p, (s.printer p).station, (s.printer p).zone, it.code, e.kind, e.firstSeen, e.level, e.state, .cleared, s.mu.clock⟩
    (s.takeStatus p f).callout i = CalloutEntry.free ∧ (∀ k, k ≠ i → (s.takeStatus p f).callout k = s.callout k) ∧
    (told → s.mu.reports.length < 64 → (s.takeStatus p f).co.owedResolved = s.co.owedResolved ∧
      ∃ more, (s.takeStatus p f).mu.reports = s.mu.reports ++ ⟨s.mu.clock, .resolved n⟩ :: more) ∧
    (told → 64 ≤ s.mu.reports.length → s.co.owedResolved.length < 48 →
      (s.takeStatus p f).co.owedResolved = s.co.owedResolved ++ [n]) ∧
    (¬told → (s.takeStatus p f).co.owedResolved = s.co.owedResolved) := by
  intro e told n
  have hfreed := statusHanded_clears hlist hcls hcodes hfound hothers
  have hstate : ((statusViewed s p f).callout i).state.told = true ↔ told := by
    rw [statusViewed_callout, told_iff]
  have hgiven := fun h : told => freeCallout_told (hstate.2 h) .cleared
  simp only [resolvedNotice_viewed hfound, statusViewed_mu, statusViewed_co, ← hfreed, ← takeStatus_co] at hgiven
  refine ⟨?_, fun k hk => ?_, fun h hroom => ⟨((hgiven h).1 hroom).1, ?_⟩, fun h => (hgiven h).2, fun h => ?_⟩
  · rw [takeStatus_callout, hfreed, freeCallout_callout, if_pos rfl]
  · rw [takeStatus_callout, hfreed, freeCallout_callout, if_neg hk, statusViewed_callout]
  · obtain ⟨-, -, -, -, more, hmore⟩ := (takeStatus_work s p f).frame
    rw [hmore, ((hgiven h).1 hroom).2]
    exact ⟨more, by simp [n, e]⟩
  · rw [takeStatus_co, hfreed, freeCallout_not_told (hstate.not.2 h), statusViewed_co]

/-- The frame of a STATUS, told of the state before its frame was taken out of the buffer. -/
theorem frame_of_tookFp
    (h : { t with
      cm := s.tookFp.cm, se := s.tookFp.se, ru := s.tookFp.ru, co := s.tookFp.co, slotRecords := s.tookFp.slotRecords
      mu := s.tookFp.mu } = s.tookFp) :
    t.fp = s.tookFp.fp ∧
    { t with fp := s.fp, cm := s.cm, se := s.se, ru := s.ru, co := s.co, slotRecords := s.slotRecords, mu := s.mu } = s :=
  ⟨(congrArg State.fp h :), (congrArg (fun x : State => { x with fp := s.fp }) h :)⟩

end

/-- Settles O40: the record by `takeStatus_record`, the view by `setView_notice`, the CO by `takeStatus_creates`, `takeStatus_waits` and
`takeStatus_clears`. -/
theorem statusRebuildsConditions : Obligations.StatusRebuildsConditions := by
  intro s p b f hframe hb l
  have hrecord := takeStatus_record s.tookFp p f
  obtain ⟨hstate, hloss, hcountdown, hpanel, hhistory⟩ := hrecord.fields
  obtain ⟨hframe', hmu⟩ := takeStatus_frame s.tookFp p f
  obtain ⟨hfp, hrest⟩ := frame_of_tookFp hframe'
  obtain ⟨hse, hru⟩ := takeStatus_engines s.tookFp p f
  obtain ⟨-, hcontexts, hqueues⟩ := setView_frame s.tookFp p (s.tookFp.recordAfterStatus p f)
  refine ⟨_, execStatus_eq hframe hb, hrecord.map _ fun _ => rfl, ?_, hloss, hcountdown, hpanel, hhistory,
    fun hchanged => ?_, fun p' hp => ?_, fun code hlist hcodes hcls => ⟨?_, ?_⟩,
    fun it i hlist hcls hcodes hfound hothers => ?_, hfp, ?_, ?_, ?_, hmu, hrest⟩
  · rw [hstate, ← deriveState_eq]
    rfl
  · rw [hstate] at hchanged ⊢
    obtain ⟨n, hn, hview, hnru, hnse⟩ := setView_notice (s := s.tookFp) (p := p) (r := s.tookFp.recordAfterStatus p f) rfl hchanged
    refine ⟨n, hn, hview, ?_, ?_⟩
    · rw [hru]
      exact hnru
    · rw [hse]
      exact hnse
  · have hother := takeStatus_record_other hp s.tookFp f
    exact ⟨hother.1, hother.map _ fun _ => rfl⟩
  · exact fun i hfree hlow => takeStatus_creates (s := s.tookFp) hlist hcodes hcls hfree hlow
  · exact fun hfull => takeStatus_waits (s := s.tookFp) hlist hcodes hcls hfull
  · exact takeStatus_clears (s := s.tookFp) hlist hcls hcodes hfound hothers
  · rw [hse]
    exact hcontexts
  · rw [hru]
    exact (congrArg ReleaseUnit.queue hqueues :)
  · rw [hru]
    exact (congrArg ReleaseUnit.saved hqueues :)

end Sys2Proof.Machine.Conditions
end

