-- ==== Sys2Proof/Proofs/Callouts/Expiry.lean ====
section
/-! SUPPORT. GRACE_EXPIRY and ESCALATION_EXPIRY: the callout whose countdown has run out is enqueued at its level, or owed while its
zone holds notices (R140 to R142). -/

namespace Sys2Proof.Machine.Callouts

open Conditions

section
variable {s : State} {i : Fin 48} {k : Nat}

/-! ### The expiries taken -/

theorem execGraceExpiry_due (hstate : (s.callout i).state = .grace) (hdue : (s.callout i).countdown = some ⟨k, true⟩) :
    exec (.graceExpiry i) s = .next (s.sendingStep i) := by
  rw [exec, execGraceExpiry, if_pos ⟨hstate, by rw [hdue, expiryDue]⟩]

theorem execEscalationExpiry_due (hstate : (s.callout i).state = .sent ∨ (s.callout i).state = .escalated)
    (hdue : (s.callout i).countdown = some ⟨k, true⟩) : exec (.escalationExpiry i) s = .next (s.escalate i) := by
  rw [exec, execEscalationExpiry, if_pos ⟨hstate, by rw [hdue, expiryDue]⟩]

/-! ### Sent or held (R140 to R142) -/

/-- Below level 3 the escalation countdown is loaded (R140, R142). -/
theorem sendCallout_below_three {e : CalloutEntry} (h : e.level < 3) :
    s.sendCallout i e =
      (s.pushReport (.callout (s.calloutNotice e))).setCallout i
        { e with
          countdown := s.escalationCountdown e.code, escalationOwed := false
          parkedJobs := s.parkedInZone (s.printer e.printer).zone } := by
  simp only [State.sendCallout, if_pos h]
  rfl

theorem sendingStep_held (h : s.calloutHeld (s.callout i).printer = true) :
    s.sendingStep i = s.setCallout i { s.callout i with state := .owed, countdown := none } :=
  ((s.sendingStep_cases i).resolve_right fun hopen => Bool.false_ne_true (hopen.1.symm.trans h)).2

theorem sendingStep_open (h : s.calloutHeld (s.callout i).printer = false) :
    s.sendingStep i = s.sendCallout i { s.callout i with state := .sent } :=
  ((s.sendingStep_cases i).resolve_left fun hheld => Bool.false_ne_true (h.symm.trans hheld.1)).2

theorem escalate_held (h : s.calloutHeld (s.callout i).printer = true) :
    s.escalate i =
      s.setCallout i
        { s.callout i with level := (s.callout i).level + 1, state := .escalated, escalationOwed := true, countdown := none } := by
  simp only [State.escalate, h, if_true]

theorem escalate_open (h : s.calloutHeld (s.callout i).printer = false) :
    s.escalate i = s.sendCallout i { s.callout i with level := (s.callout i).level + 1, state := .escalated } := by
  simp only [State.escalate, h, Bool.false_eq_true, if_false]

end

/-- Settles O44: each expiry is a sending step or an escalation, which the zone and the report queue hold or let out. -/
theorem calloutIsSentOrOwed : Obligations.CalloutIsSentOrOwed := by
  intro s i k hdue e z n timer
  refine ⟨fun hstate hlevel hopen hroom => ?_, fun hstate hmuted => ?_, fun hstate hlevel hopen hroom => ?_,
    fun hstate hlevel hmuted => ?_⟩
  · have hbelow : ({ s.callout i with state := .sent } : CalloutEntry).level < 3 := hlevel.trans_lt (by decide)
    have hnotice : n 1 = s.calloutNotice { e with state := .sent } := by
      rw [← hlevel]
      rfl
    rw [execGraceExpiry_due hstate hdue, sendingStep_open (not_calloutHeld_iff.2 ⟨hopen, hroom⟩), sendCallout_below_three hbelow,
      hnotice]
    rfl
  · rw [execGraceExpiry_due hstate hdue, sendingStep_held (calloutHeld_iff.2 (.inl hmuted))]
  · have hlevel' : (s.callout i).level = 1 := hlevel
    rw [execEscalationExpiry_due (.inl hstate) hdue, escalate_open (not_calloutHeld_iff.2 ⟨hopen, hroom⟩), hlevel',
      sendCallout_below_three (Nat.lt_succ_self 2)]
    rfl
  · have hlevel' : (s.callout i).level = 2 := hlevel
    have hstate' : (s.callout i).state = .escalated := hstate
    rw [execEscalationExpiry_due (.inr hstate) hdue, escalate_held (calloutHeld_iff.2 (.inl hmuted)), hlevel', ← hstate']

end Sys2Proof.Machine.Callouts
end

