-- ==== Sys2Proof/Proofs/Callouts/Desk.lean ====
section
/-! SUPPORT. The desk's commands at callouts, zones and orders: their bodies read, what each makes of its entry, and its answer (R143,
R144, R147, R161). -/

namespace Sys2Proof.Machine.Callouts

/-! ### Bodies (R178, R182) -/

theorem fin?_val {n : Nat} (i : Fin n) : fin? n i = some i := dif_pos i.isLt

theorem consumableOf_number (q : Consumable) : consumableOf q.number = some q := by
  cases q <;> rfl

theorem parseTwoBytes_body {m n : Nat} (hm : m ≤ 255) (hn : n ≤ 255) : parseTwoBytes (u8 m ++ u8 n) = some (m, n) := by
  have hfirst : byteAt (u8 m ++ u8 n) 0 = m := byteAt_u8 m hm
  have hsecond : byteAt (u8 m ++ u8 n) 1 = n := byteAt_u8 n hn
  simp [parseTwoBytes, length_u8, hfirst, hsecond]

theorem parseMute_body (z : Fin 16) {n : Nat} (hn : n ≤ 65535) : parseMute (u8 z ++ u16 n) = some (z.val, n) := by
  have hzone : byteAt (u8 z ++ u16 n) 0 = z := byteAt_u8 z (by omega)
  have hminutes : be16 (u8 z ++ u16 n) 1 = n := be16_u16 n hn []
  simp [parseMute, length_u8, length_u16, hzone, hminutes]

theorem parseOrderAck_body (p : Fin 64) (q : Consumable) (ref : Code32) :
    parseOrderAck (u8 p ++ u8 q.number ++ u32 ref.toNat) = some (p, q, ref) := by
  have hprinter : byteAt (u8 p ++ u8 q.number ++ u32 ref.toNat) 0 = p := byteAt_u8 p (by omega)
  have hslot : byteAt (u8 p ++ u8 q.number ++ u32 ref.toNat) 1 = q.number := byteAt_u8 _ (by cases q <;> decide)
  have href : be32 (u8 p ++ u8 q.number ++ u32 ref.toNat) 2 = ref.toNat :=
    Release.be32_u16_u32 0 _ ref.isLt []
  have hlength : (u8 p ++ u8 q.number ++ u32 ref.toNat).length = 6 := rfl
  rw [parseOrderAck, if_pos hlength, hprinter, hslot, href, fin?_val, consumableOf_number, BitVec.ofNat_toNat, BitVec.setWidth_eq]

/-! ### Acknowledgments and closures (R143, R144) -/

section
variable {s : State} {f : CommandFrame} {p : Fin 64} {code : Fin 256} {i : Fin 48}

theorem ackCallout_told (h : (s.callout i).state = .sent ∨ (s.callout i).state = .escalated) :
    s.ackCallout i = (s.setCallout i { s.callout i with state := .acked, countdown := none, escalationOwed := false }, .done) := by
  rcases h with h | h <;> simp only [State.ackCallout, h]

theorem ackCallout_acked (h : (s.callout i).state = .acked) : s.ackCallout i = (s, .done) := by
  simp only [State.ackCallout, h]

theorem ackCallout_untold (h : (s.callout i).state = .grace ∨ (s.callout i).state = .owed ∨ (s.callout i).state = .suppressed) :
    s.ackCallout i = (s, .state) := by
  rcases h with h | h | h <;> simp only [State.ackCallout, h]

theorem closeCallout_acked (h : (s.callout i).state = .acked) :
    s.closeCallout i = (s.setCallout i { s.callout i with state := .suppressed }, .done) := by
  simp only [State.closeCallout, h]

theorem closeCallout_suppressed (h : (s.callout i).state = .suppressed) : s.closeCallout i = (s, .done) := by
  simp only [State.closeCallout, h]

theorem closeCallout_unacked
    (h : (s.callout i).state = .grace ∨ (s.callout i).state = .owed ∨ (s.callout i).state = .sent ∨
      (s.callout i).state = .escalated) :
    s.closeCallout i = (s, .state) := by
  rcases h with h | h | h | h <;> simp only [State.closeCallout, h]

/-- A condition of the printer's list waits for an entry (R139). -/
theorem waitsForCallout_iff :
    s.waitsForCallout p code = true ↔ ∃ it ∈ (s.cond p).list, it.code = code ∧ it.calloutWanted = true := by
  simp [State.waitsForCallout]

theorem parseTwoBytes_callout (hbody : f.body = u8 p ++ u8 code) : parseTwoBytes f.body = some (p.val, code.val) := by
  rw [hbody, parseTwoBytes_body (by omega) (by omega)]

theorem execCalloutAck_found (h : Commanded s 7 f) (hbody : f.body = u8 p ++ u8 code) (hfound : s.findCallout p code = some i) :
    exec .calloutAck s = .next ((s.tookUp.ackCallout i).1.replied f (s.tookUp.ackCallout i).2 .none) := by
  have hfound' : s.tookUp.findCallout p code = some i := hfound
  rw [exec, execCalloutAck, h.onCommand (parseTwoBytes_callout hbody)]
  simp only [fin?_val, Fin.ofNat_val_eq_self, hfound', State.reply_eq]

theorem execCalloutAck_missing (h : Commanded s 7 f) (hbody : f.body = u8 p ++ u8 code) (hnone : s.findCallout p code = none) :
    exec .calloutAck s = .next (s.tookUp.replied f (if s.waitsForCallout p code then .state else .tooLate) .none) := by
  have hnone' : s.tookUp.findCallout p code = none := hnone
  rw [exec, execCalloutAck, h.onCommand (parseTwoBytes_callout hbody)]
  simp only [fin?_val, Fin.ofNat_val_eq_self, hnone', State.reply_eq]
  rfl

theorem execCalloutClose_found (h : Commanded s 8 f) (hbody : f.body = u8 p ++ u8 code) (hfound : s.findCallout p code = some i) :
    exec .calloutClose s = .next ((s.tookUp.closeCallout i).1.replied f (s.tookUp.closeCallout i).2 .none) := by
  have hfound' : s.tookUp.findCallout p code = some i := hfound
  rw [exec, execCalloutClose, h.onCommand (parseTwoBytes_callout hbody)]
  simp only [fin?_val, Fin.ofNat_val_eq_self, hfound', State.reply_eq]

theorem execCalloutClose_missing (h : Commanded s 8 f) (hbody : f.body = u8 p ++ u8 code) (hnone : s.findCallout p code = none) :
    exec .calloutClose s = .next (s.tookUp.replied f .tooLate .none) := by
  have hnone' : s.tookUp.findCallout p code = none := hnone
  rw [exec, execCalloutClose, h.onCommand (parseTwoBytes_callout hbody)]
  simp only [fin?_val, Fin.ofNat_val_eq_self, hnone', State.reply_eq]

end

/-! ### Zones (R147) -/

section
variable {s : State} {f : CommandFrame} {z : Fin 16} {n : Nat}

/-- With no callout waiting, a zone that opens sends none. -/
theorem openZone_none_waiting (h : ∀ i, (s.callout i).waits = false) :
    s.openZone z = s.setZone z { s.zone z with mute := none } := by
  have hnone : (s.setZone z { s.zone z with mute := none }).waitingCallouts (fun y => decide (y = z)) = [] := by
    rw [State.waitingCallouts, List.filter_eq_nil_iff.2 fun i _ => ?_, sortBy]
    have hi : ((s.setZone z { s.zone z with mute := none }).callout i).waits = false := h i
    simp [hi]
  simp only [State.openZone, hnone, List.foldl_nil]

theorem execZoneMute_eq (h : Commanded s 10 f) (hn : n ≤ 65535) (hbody : f.body = u8 z ++ u16 n) :
    exec .zoneMute s = .next
      (if 1 ≤ n ∧ n ≤ 720 then (s.tookUp.setZone z { s.zone z with mute := some ⟨n, false⟩ }).replied f .done .none
       else s.tookUp.replied f .range .none) := by
  rw [exec, execZoneMute, h.onCommand (hbody ▸ parseMute_body z hn)]
  simp only [fin?_val, State.reply_eq]
  rfl

theorem execZoneUnmute_eq (h : Commanded s 11 f) (hbody : f.body = u8 z) :
    exec .zoneUnmute s = .next
      (if (s.zone z).mute.isSome = true then (s.tookUp.openZone z).replied f .done .none
       else s.tookUp.replied f .state .none) := by
  have hparse : parseByte f.body = some z.val := hbody ▸ Streams.parseByte_u8 (z.castLE (by omega))
  rw [exec, execZoneUnmute, h.onCommand hparse]
  simp only [fin?_val, State.reply_eq]
  rfl

theorem execMuteExpiry_due (h : expiryDue (s.zone z).mute = true) : exec (.muteExpiry z) s = .next (s.openZone z) := by
  rw [exec, execMuteExpiry, if_pos h]

end

/-! ### Orders (R161) -/

section
variable {s : State} {f : CommandFrame} {p : Fin 64} {q : Consumable} {ref : Code32}

theorem execOrderAck_fitted (h : Commanded s 12 f) (hbody : f.body = u8 p ++ u8 q.number ++ u32 ref.toNat)
    (hdefined : (s.printer p).state = .defined) (hfitted : ((s.printer p).slotMap.get q).fitted = true) :
    exec .orderAck s = .next
      (if (s.slotRecord p q).reorder = .quiet then s.tookUp.replied f .tooLate .none
       else (s.tookUp.setSlotRecord p q ((s.slotRecord p q).order ref)).replied f .done .none) := by
  have hdefined' : s.tookUp.printerDefined p = true := decide_eq_true hdefined
  have hfitted' : ((s.tookUp.printer p).slotMap.get q).fitted = true := hfitted
  rw [exec, execOrderAck, h.onCommand (hbody ▸ parseOrderAck_body p q ref)]
  simp only [hdefined', hfitted', Bool.true_eq_false, if_false, State.reply_eq]
  rfl

end

/-! ### The desk's commands -/

/-- Settles O45: the callouts by `ackCallout` and `closeCallout` at each state, the zones by the minutes and by `openZone_none_waiting`,
the orders by the record's state. -/
theorem deskCommandsAreTaken : Obligations.DeskCommandsAreTaken := by
  refine ⟨fun s f p code hbody => ⟨fun i hfound => ?_, fun hnone => ?_⟩, fun s f z n hn => ?_,
    fun s f p q ref hcommand hbody hdefined hfitted => ?_⟩
  · refine ⟨fun hack hstate => ?_, fun hack hstate => ?_, fun hack hstate => ?_,
      fun hclose hstate => ?_, fun hclose hstate => ?_, fun hclose hstate => ?_⟩
    · rw [execCalloutAck_found hack hbody hfound, ackCallout_told (s := s.tookUp) hstate]
      rfl
    · rw [execCalloutAck_found hack hbody hfound, ackCallout_acked (s := s.tookUp) hstate]
    · rw [execCalloutAck_found hack hbody hfound, ackCallout_untold (s := s.tookUp) hstate]
    · rw [execCalloutClose_found hclose hbody hfound, closeCallout_acked (s := s.tookUp) hstate]
      rfl
    · rw [execCalloutClose_found hclose hbody hfound, closeCallout_suppressed (s := s.tookUp) hstate]
    · rw [execCalloutClose_found hclose hbody hfound, closeCallout_unacked (s := s.tookUp) hstate]
  · refine ⟨fun hack hwaits => ?_, fun hack hidle => ?_, fun hclose => execCalloutClose_missing hclose hbody hnone⟩
    · rw [execCalloutAck_missing hack hbody hnone, if_pos (waitsForCallout_iff.2 hwaits)]
    · have hwaits : ¬ s.waitsForCallout p code = true := by
        rw [waitsForCallout_iff]
        rintro ⟨it, hit, hcode, hwanted⟩
        exact Bool.false_ne_true ((hidle it hit hcode).symm.trans hwanted)
      rw [execCalloutAck_missing hack hbody hnone, if_neg hwaits]
  · refine ⟨fun hmute hbody hlow hhigh => ?_, fun hmute hbody hout => ?_, fun hunmute hbody hmuted hquiet => ?_,
      fun hunmute hbody hopen => ?_, fun hdue hquiet => ?_⟩
    · rw [execZoneMute_eq hmute hn hbody, if_pos ⟨hlow, hhigh⟩]
    · rw [execZoneMute_eq hmute hn hbody, if_neg (by omega)]
    · rw [execZoneUnmute_eq hunmute hbody, if_pos hmuted, openZone_none_waiting (s := s.tookUp) hquiet]
      rfl
    · rw [execZoneUnmute_eq hunmute hbody, if_neg (by simp [hopen])]
    · rw [execMuteExpiry_due hdue, openZone_none_waiting hquiet]
  · rw [execOrderAck_fitted hcommand hbody hdefined hfitted]
    exact ⟨fun hreorder => by rw [if_neg hreorder, SlotRecord.order], fun hquiet => by rw [if_pos hquiet]⟩

end Sys2Proof.Machine.Callouts
end

