-- ==== Sys2Proof/Proofs/Supplies/Reorders.lean ====
section
/-! SUPPORT. A visit of a slot that may make a reorder due, and a run of such visits: the first REORDER notices fill the report queue and
the others are owed (R159, R160). -/

namespace Sys2Proof.Machine.Supplies

open Conditions

section
variable {s t u : State} {p : Fin 64} {q : Consumable} {r v b : SlotRecord} {due : Bool}

/-! ### The report queue -/

/-- The free places of the report queue (R168). -/
def room (s : State) : Nat := 64 - s.mu.reports.length

theorem reportRoom_eq (s : State) : s.reportRoom = decide (0 < room s) := by
  rw [State.reportRoom, room]
  exact decide_eq_decide.2 (by omega)

/-! ### One visit (R159) -/

/-- The record `b`, with a REORDER notice owed where `owed` says so. -/
def owing (b : SlotRecord) (owed : Bool) : SlotRecord := { b with owedReorder := b.owedReorder || owed }

theorem owing_false (b : SlotRecord) : owing b false = b := by simp [owing]

/-- The REORDER notice of a slot whose record is `b`, as it is queued (R159). -/
def reorderReport (s : State) (p : Fin 64) (q : Consumable) (b : SlotRecord) : Report :=
  ⟨s.mu.clock, .reorder (reorderNoticeOf s p q b)⟩

theorem reorderReport_congr (htables : t.tables = s.tables) (hclock : t.mu.clock = s.mu.clock) (p : Fin 64) (q : Consumable)
    (b : SlotRecord) : reorderReport t p q b = reorderReport s p q b := by
  simp only [reorderReport, reorderNoticeOf, State.printer, State.supply, htables, hclock]

theorem tables_clock_of_written {n : List Report} (h : SlotWritten p q v n s t) : t.tables = s.tables ∧ t.mu.clock = s.mu.clock := by
  rw [← h.rest]
  exact ⟨rfl, rfl⟩

/-- From `s` to `t` the slot's record becomes `b`, and its REORDER notice, where one is due, is queued with room and else owed. -/
def SlotVisited (p : Fin 64) (q : Consumable) (b : SlotRecord) (due : Bool) (s t : State) : Prop :=
  SlotWritten p q (owing b (due && !s.reportRoom)) (if due && s.reportRoom then [reorderReport s p q b] else []) s t

/-- A visit that only writes the record. -/
theorem SlotVisited.of_written (h : SlotWritten p q b [] s t) : SlotVisited p q b false s t := by
  simpa [SlotVisited, owing_false] using h

/-- The record may be written before the visit's reorder is considered. -/
theorem SlotVisited.after_write (h : SlotWritten p q v [] s t) (h' : SlotVisited p q b due t u) : SlotVisited p q b due s u := by
  obtain ⟨htables, hclock⟩ := tables_clock_of_written h
  have hroom : t.reportRoom = s.reportRoom := by rw [State.reportRoom, h.reports, List.append_nil, State.reportRoom]
  have hwritten := h.trans h'
  rwa [hroom, reorderReport_congr htables hclock, List.nil_append] at hwritten

/-- A QUIET record becomes DUE (R159). -/
theorem reorderDue_quiet (hr : s.slotRecord p q = r) (hquiet : r.reorder = .quiet) (d : DueTrigger) :
    SlotVisited p q { r with reorder := .due, trigger := some d } true s (s.reorderDue p q d) := by
  subst hr
  rw [SlotVisited, State.reorderDue, if_pos hquiet]
  cases hroom : s.reportRoom with
  | true =>
    have hnotice : (s.setSlotRecord p q { s.slotRecord p q with reorder := .due, trigger := some d }).reorderNotice p q =
        reorderNoticeOf s p q { s.slotRecord p q with reorder := .due, trigger := some d } := by
      simp only [State.reorderNotice, State.setSlotRecord_slotRecord]
      rfl
    simp only [Bool.not_true, Bool.and_false, owing_false, Bool.and_self, if_true, hnotice]
    exact setSlotRecord_pushReport_written s p q _ _
  | false =>
    simp only [Bool.not_false, Bool.and_self, Bool.and_false, Bool.false_eq_true, if_false, owing, Bool.or_true]
    exact setSlotRecord_written s p q _

/-- A record that is not QUIET makes no reorder due (R159). -/
theorem reorderDue_not_quiet (h : (s.slotRecord p q).reorder ≠ .quiet) (d : DueTrigger) : s.reorderDue p q d = s := if_neg h

/-! ### The first notices are queued, the others owed -/

section
variable {α : Type}

theorem take_filter_cons (f : α → Bool) (x : α) (l : List α) (k : Nat) :
    ((x :: l).filter f).take k =
      (if f x && decide (0 < k) then [x] else []) ++ (l.filter f).take (k - (if f x && decide (0 < k) then [x] else []).length) := by
  cases hf : f x <;> cases k <;> simp [hf]

theorem drop_filter_cons (f : α → Bool) (x : α) (l : List α) (k : Nat) :
    ((x :: l).filter f).drop k =
      (if f x && !decide (0 < k) then [x] else []) ++ (l.filter f).drop (k - (if f x && decide (0 < k) then [x] else []).length) := by
  cases hf : f x <;> cases k <;> simp [hf]

end

/-! ### A run of visits -/

theorem slotLive_of_tables (h : t.tables = s.tables) (p : Fin 64) (q : Consumable) : t.slotLive p q = s.slotLive p q := by
  rw [State.slotLive, State.printerDefined, State.printer, h]
  rfl

theorem supply_of_tables (h : t.tables = s.tables) (i : Fin 64) : t.supply i = s.supply i := by
  rw [State.supply, h, State.supply]

/-- From `s` to `t` the slots in `l` have been visited: each record becomes that of `after`, the first notices of the slots that are `due`
fill the report queue, and the others are owed. -/
structure SlotsVisited (l : List (Fin 64 × Consumable)) (after : Fin 64 × Consumable → SlotRecord) (due : Fin 64 × Consumable → Bool)
    (s t : State) : Prop where
  record : ∀ x ∈ l, t.slotRecord x.1 x.2 = owing (after x) (decide (x ∈ (l.filter due).drop (room s)))
  others : ∀ x, x ∉ l → t.slotRecord x.1 x.2 = s.slotRecord x.1 x.2
  rest   : worked s t.slotRecords (((l.filter due).take (room s)).map fun x => reorderReport s x.1 x.2 (after x)) = t

variable {l : List (Fin 64 × Consumable)} {after : Fin 64 × Consumable → SlotRecord} {dues : Fin 64 × Consumable → Bool}

/-- Visits whose outcome depends on the tables and the slot's own record follow each other without interfering. -/
theorem slotsVisited {step : State → Fin 64 × Consumable → State} (hnodup : l.Nodup)
    (hstep : ∀ x ∈ l, ∀ t : State, t.tables = s.tables → t.slotRecord x.1 x.2 = s.slotRecord x.1 x.2 →
      SlotVisited x.1 x.2 (after x) (dues x) t (step t x)) :
    SlotsVisited l after dues s (l.foldl step s) := by
  induction l generalizing s with
  | nil => exact ⟨by simp, fun _ _ => rfl, by simp [worked_nil]⟩
  | cons x rest ih =>
    obtain ⟨hx, hrest⟩ := List.nodup_cons.1 hnodup
    have hvisit := hstep x List.mem_cons_self s rfl rfl
    rw [SlotVisited, reportRoom_eq] at hvisit
    obtain ⟨htables, hclock⟩ := tables_clock_of_written hvisit
    have hother : ∀ y, y ≠ x → (step s x).slotRecord y.1 y.2 = s.slotRecord y.1 y.2 := fun y hy =>
      hvisit.others y.1 y.2 (not_and_or.1 fun h => hy (Prod.ext h.1 h.2))
    have hqueued : (if dues x && decide (0 < room s) then [reorderReport s x.1 x.2 (after x)] else []) =
        (if dues x && decide (0 < room s) then [x] else []).map fun x => reorderReport s x.1 x.2 (after x) := by
      split <;> rfl
    have hroom : room (step s x) = room s - (if dues x && decide (0 < room s) then [x] else []).length := by
      rw [room, hvisit.reports, hqueued, List.length_append, List.length_map, room]
      omega
    obtain ⟨hrecord, hothers, hframe⟩ := ih hrest fun y hy t ht hty =>
      hstep y (List.mem_cons_of_mem x hy) t (ht.trans htables) (hty.trans (hother y (ne_of_mem_of_not_mem hy hx)))
    rw [List.foldl_cons]
    refine ⟨fun y hy => ?_, fun y hy => ?_, ?_⟩
    · rw [drop_filter_cons, ← hroom]
      by_cases hyx : y = x
      · subst hyx
        have hout : y ∉ (rest.filter dues).drop (room (step s y)) := fun h => hx (List.mem_filter.1 (List.mem_of_mem_drop h)).1
        rw [hothers y hx, hvisit.record]
        cases dues y && !decide (0 < room s) <;> simp [hout]
      · rw [hrecord y ((List.mem_cons.1 hy).resolve_left hyx)]
        split <;> simp [hyx]
    · rw [List.mem_cons, not_or] at hy
      exact (hothers y hy.2).trans (hother y hy.1)
    · simp only [reorderReport_congr htables hclock] at hframe
      rw [take_filter_cons, ← hroom, List.map_append, ← hqueued, ← worked_worked s (step s x).slotRecords, hvisit.rest]
      exact hframe

/-- A slot visited without a reorder is owed no notice by the visit. -/
theorem SlotsVisited.record_not_due (h : SlotsVisited l after dues s t) {x : Fin 64 × Consumable} (hx : x ∈ l) (hdue : dues x = false) :
    t.slotRecord x.1 x.2 = after x := by
  have hout : x ∉ (l.filter dues).drop (room s) := fun hin => by
    have hdue' := (List.mem_filter.1 (List.mem_of_mem_drop hin)).2
    exact Bool.false_ne_true (hdue.symm.trans hdue')
  rw [h.record x hx, decide_eq_false hout, owing_false]

/-- The notices that a run of visits queues are those of the records it leaves. -/
theorem SlotsVisited.reports (h : SlotsVisited l after dues s t) :
    t.mu = { s.mu with
      reports := s.mu.reports ++
        ((l.filter dues).take (room s)).map fun x => ⟨s.mu.clock, .reorder (t.reorderNotice x.1 x.2)⟩ } := by
  have htables : t.tables = s.tables := by rw [← h.rest]; rfl
  have hnotice : ∀ x ∈ (l.filter dues).take (room s),
      reorderReport s x.1 x.2 (after x) = ⟨s.mu.clock, .reorder (t.reorderNotice x.1 x.2)⟩ := fun x hx => by
    have hrecord := h.record x (List.mem_filter.1 (List.mem_of_mem_take hx)).1
    simp only [reorderReport, reorderNoticeOf, State.reorderNotice, State.printer, State.supply, htables, hrecord]
    rfl
  rw [← List.map_congr_left hnotice, ← h.rest]
  rfl

/-- A run of visits changes the slot records and the report queue. -/
theorem SlotsVisited.frame (h : SlotsVisited l after dues s t) : { t with slotRecords := s.slotRecords, mu := s.mu } = s := by
  rw [← h.rest]
  rfl

end

end Sys2Proof.Machine.Supplies
end

