-- ==== Sys2Proof/Proofs/Supplies/Counting.lean ====
section
/-! SUPPORT. A sheet at one slot of its printer, and at all six in order (R153). -/

namespace Sys2Proof.Machine.Supplies

open Conditions

section
variable {s t : State} {p : Fin 64} {q : Consumable} {r : SlotRecord} {u : Nat}

/-! ### The tests after the counts (R153 steps 3 and 4) -/

/-- A sheet of `u` units makes a reorder of the record `r` due (R153, R159). -/
def sheetDue (s : State) (r : SlotRecord) (u : Nat) : Bool :=
  decide (r.reorder = .quiet) && decide (r.remaining - u ≤ (s.supply r.supply).floorCount)

/-- The record `r` after a sheet of `u` units that makes a reorder due or not (R153, R159). -/
def sheetRecord (r : SlotRecord) (u : Nat) (due : Bool) : SlotRecord :=
  { r with
    remaining := r.remaining - u, overrun := min (r.overrun + (u - r.remaining)) 65535
    today := min (r.today + u) 65535, exhausted := r.exhausted || decide (r.remaining ≤ u)
    reorder := if due then .due else r.reorder
    trigger := if due then some (if r.remaining ≤ u ∧ r.exhausted = false then .exhausted else .floor) else r.trigger }

theorem exhaustedTest_new (hr : s.slotRecord p q = r) (h : r.remaining = 0 ∧ r.exhausted = false) :
    s.exhaustedTest p q = (s.setSlotRecord p q { r with exhausted := true }).reorderDue p q .exhausted := by
  subst hr
  exact if_pos h

theorem exhaustedTest_old (hr : s.slotRecord p q = r) (h : ¬(r.remaining = 0 ∧ r.exhausted = false)) : s.exhaustedTest p q = s := by
  subst hr
  exact if_neg h

theorem floorTest_below (hr : s.slotRecord p q = r) (h : r.remaining ≤ (s.supply r.supply).floorCount) :
    s.floorTest p q = s.reorderDue p q .floor := by
  subst hr
  exact if_pos h

theorem floorTest_above (hr : s.slotRecord p q = r) (h : ¬r.remaining ≤ (s.supply r.supply).floorCount) : s.floorTest p q = s := by
  subst hr
  exact if_neg h

/-- A record that is not QUIET passes the floor test unchanged (R159). -/
theorem floorTest_not_quiet (h : (s.slotRecord p q).reorder ≠ .quiet) : s.floorTest p q = s := by
  rw [State.floorTest, reorderDue_not_quiet h, ite_self]

/-- A sheet that exhausts the record: the flag and, if QUIET, the reorder of the exhausted test; the floor test finds no QUIET record. -/
theorem counted_tests_exhausted (h : r.remaining ≤ u ∧ r.exhausted = false) :
    SlotVisited p q (sheetRecord r u (sheetDue s r u)) (sheetDue s r u) s
      (((s.setSlotRecord p q (r.count u)).exhaustedTest p q).floorTest p q) := by
  have hspent : r.remaining - u = 0 := Nat.sub_eq_zero_of_le h.1
  have hflagged := (setSlotRecord_written s p q (r.count u)).trans
    (setSlotRecord_written (s.setSlotRecord p q (r.count u)) p q { r.count u with exhausted := true })
  rw [exhaustedTest_new (s.setSlotRecord_slotRecord p q (r.count u)) ⟨hspent, h.2⟩]
  by_cases hquiet : r.reorder = .quiet
  · have hdue : sheetDue s r u = true := by simp [sheetDue, hquiet, hspent]
    have hrecord : sheetRecord r u true =
        { r.count u with exhausted := true, reorder := .due, trigger := some .exhausted } := by
      simp [sheetRecord, h, SlotRecord.count, satAdd]
    have hvisit := reorderDue_quiet hflagged.record hquiet .exhausted
    rw [floorTest_not_quiet (by rw [hvisit.record]; simp [owing]), hdue, hrecord]
    exact hvisit.after_write hflagged
  · have hdue : sheetDue s r u = false := by simp [sheetDue, hquiet]
    have hrecord : sheetRecord r u false = { r.count u with exhausted := true } := by
      simp [sheetRecord, h, SlotRecord.count, satAdd]
    have hkept := ne_of_eq_of_ne (congrArg SlotRecord.reorder hflagged.record) hquiet
    rw [reorderDue_not_quiet hkept, floorTest_not_quiet hkept, hdue, hrecord]
    exact .of_written hflagged

/-- Any other sheet: the reorder is left to the floor test. -/
theorem counted_tests_not_exhausted (h : ¬(r.remaining ≤ u ∧ r.exhausted = false)) :
    SlotVisited p q (sheetRecord r u (sheetDue s r u)) (sheetDue s r u) s
      (((s.setSlotRecord p q (r.count u)).exhaustedTest p q).floorTest p q) := by
  have hflag : (r.exhausted || decide (r.remaining ≤ u)) = r.exhausted := by
    cases hexhausted : r.exhausted <;> simp_all
  have hcounted := s.setSlotRecord_slotRecord p q (r.count u)
  have hwritten := setSlotRecord_written s p q (r.count u)
  have hrecord : sheetRecord r u false = r.count u := by simp [sheetRecord, hflag, SlotRecord.count, satAdd]
  rw [exhaustedTest_old hcounted fun h' => h ⟨Nat.sub_eq_zero_iff_le.1 h'.1, h'.2⟩]
  by_cases hquiet : r.reorder = .quiet
  · by_cases hbelow : r.remaining - u ≤ (s.supply r.supply).floorCount
    · have hdue : sheetDue s r u = true := by simp [sheetDue, hquiet, hbelow]
      have hrecord : sheetRecord r u true = { r.count u with reorder := .due, trigger := some .floor } := by
        simp [sheetRecord, hflag, h, SlotRecord.count, satAdd]
      rw [floorTest_below hcounted hbelow, hdue, hrecord]
      exact (reorderDue_quiet hcounted hquiet .floor).after_write hwritten
    · have hdue : sheetDue s r u = false := by simp [sheetDue, hbelow]
      rw [floorTest_above hcounted hbelow, hdue, hrecord]
      exact .of_written hwritten
  · have hdue : sheetDue s r u = false := by simp [sheetDue, hquiet]
    rw [floorTest_not_quiet (ne_of_eq_of_ne (congrArg SlotRecord.reorder hcounted) hquiet), hdue, hrecord]
    exact .of_written hwritten

/-! ### A sheet at a slot, and at the printer (R153) -/

/-- A sheet of `units` makes a reorder of the slot `x` due. -/
def sheetDueAt (s : State) (units : Consumable → Nat) (x : Fin 64 × Consumable) : Bool :=
  s.slotLive x.1 x.2 && decide (1 ≤ units x.2) && sheetDue s (s.slotRecord x.1 x.2) (units x.2)

/-- The record of the slot `x` after a sheet of `units`, its owed flag apart. -/
def sheetAfter (s : State) (units : Consumable → Nat) (x : Fin 64 × Consumable) : SlotRecord :=
  if s.slotLive x.1 x.2 = true ∧ 1 ≤ units x.2 then sheetRecord (s.slotRecord x.1 x.2) (units x.2) (sheetDueAt s units x)
  else s.slotRecord x.1 x.2

theorem sheet_not_counted {units : Consumable → Nat} {x : Fin 64 × Consumable} (h : ¬(s.slotLive x.1 x.2 = true ∧ 1 ≤ units x.2)) :
    sheetAfter s units x = s.slotRecord x.1 x.2 ∧ sheetDueAt s units x = false := by
  refine ⟨if_neg h, ?_⟩
  rw [sheetDueAt, Bool.and_eq_false_iff]
  exact .inl (by simpa using h)

theorem countSlot_visited (s : State) (units : Consumable → Nat) (x : Fin 64 × Consumable) :
    SlotVisited x.1 x.2 (sheetAfter s units x) (sheetDueAt s units x) s (s.countSlot x.1 x.2 (units x.2)) := by
  by_cases h : s.slotLive x.1 x.2 = true ∧ 1 ≤ units x.2
  · have hdue : sheetDueAt s units x = sheetDue s (s.slotRecord x.1 x.2) (units x.2) := by simp [sheetDueAt, h]
    rw [sheetAfter, if_pos h, hdue, State.countSlot, if_pos h]
    by_cases hnew : (s.slotRecord x.1 x.2).remaining ≤ units x.2 ∧ (s.slotRecord x.1 x.2).exhausted = false
    · exact counted_tests_exhausted hnew
    · exact counted_tests_not_exhausted hnew
  · obtain ⟨hafter, hdue⟩ := sheet_not_counted h
    rw [hafter, hdue, State.countSlot, if_neg h]
    exact .of_written (.refl s _ _)

/-- What a sheet does at a slot depends on the tables and the slot's own record. -/
theorem sheet_congr {units : Consumable → Nat} {x : Fin 64 × Consumable} (htables : t.tables = s.tables)
    (hrecord : t.slotRecord x.1 x.2 = s.slotRecord x.1 x.2) :
    sheetAfter t units x = sheetAfter s units x ∧ sheetDueAt t units x = sheetDueAt s units x := by
  simp only [sheetAfter, sheetDueAt, sheetDue, slotLive_of_tables htables, supply_of_tables htables, hrecord, and_self]

theorem countSheet_visited (s : State) (p : Fin 64) (faces colour : Nat) (large : Bool) :
    SlotsVisited (consumables.map (Prod.mk p)) (sheetAfter s fun q => sheetUnits q faces colour large)
      (sheetDueAt s fun q => sheetUnits q faces colour large) s (s.countSheet p faces colour large) := by
  have hfold : s.countSheet p faces colour large =
      (consumables.map (Prod.mk p)).foldl (fun t x => t.countSlot x.1 x.2 (sheetUnits x.2 faces colour large)) s := by
    rw [List.foldl_map, State.countSheet]
  rw [hfold]
  refine slotsVisited ((List.nodup_map_iff (Prod.mk_right_injective p)).2 (by decide)) fun x _ t htables hrecord => ?_
  obtain ⟨hafter, hdue⟩ := sheet_congr (units := fun q => sheetUnits q faces colour large) htables hrecord
  rw [← hafter, ← hdue]
  exact countSlot_visited t (fun q => sheetUnits q faces colour large) x

end

/-- Settles O36: `countSheet_visited`, its due slots and units being those of the statement. -/
theorem sheetCountsAgainstSlots : Obligations.SheetCountsAgainstSlots := by
  intro s p faces colour large w u due all room' t
  have hu : (fun q => sheetUnits q faces colour large) = u := funext fun q => by cases q <;> rfl
  have hvisited := countSheet_visited s p faces colour large
  rw [hu] at hvisited
  have hdue : ∀ q, due q = sheetDueAt s u (p, q) := fun q => by simp only [due, sheetDueAt, sheetDue, Bool.and_assoc]
  have hall : (consumables.map (Prod.mk p)).filter (sheetDueAt s u) = all.map (Prod.mk p) := by
    rw [List.filter_map]
    exact congrArg (List.map (Prod.mk p)) (List.filter_congr fun q _ => (hdue q).symm)
  have howed : ∀ q, (p, q) ∈ (all.map (Prod.mk p)).drop (room s) ↔ q ∈ all.drop room' := fun q => by
    rw [← List.map_drop, List.mem_map_of_injective (Prod.mk_right_injective p)]
    rfl
  have hin : ∀ q, (p, q) ∈ consumables.map (Prod.mk p) := fun q => List.mem_map_of_mem (by cases q <;> decide)
  refine ⟨fun q hlive hunits => ?_, fun q h => ?_, fun p' q hp => ?_, ?_, hvisited.frame⟩
  · have hrecord := hvisited.record (p, q) (hin q)
    rw [hall, decide_eq_decide.2 (howed q), sheetAfter, if_pos ⟨hlive, hunits⟩, ← hdue] at hrecord
    exact hrecord
  · have hcounts : ¬(s.slotLive p q = true ∧ 1 ≤ u q) := fun ⟨hlive, hunits⟩ =>
      h.elim (fun hdead => Bool.false_ne_true (hdead.symm.trans hlive)) (by omega)
    obtain ⟨hafter, hnot⟩ := sheet_not_counted (units := u) (x := (p, q)) hcounts
    exact (hvisited.record_not_due (hin q) hnot).trans hafter
  · refine hvisited.others (p', q) fun hmem => ?_
    obtain ⟨_, _, hpair⟩ := List.mem_map.1 hmem
    exact hp (congrArg Prod.fst hpair).symm
  · have hreports := hvisited.reports
    rw [hall, ← List.map_take, List.map_map] at hreports
    exact hreports

end Sys2Proof.Machine.Supplies
end

