-- ==== Sys2Proof/Proofs/Supplies/Rollover.lean ====
section
/-! SUPPORT. A day rollover at one slot, and at all slots of all printers in order (R154). -/

namespace Sys2Proof.Machine.Supplies

open Conditions

section
variable {s t : State} {x : Fin 64 × Consumable} {r : SlotRecord}

/-! ### One slot (R154) -/

/-- The record `r` with its new daily average and an empty day (R154 steps 1 and 2). -/
def averaged (r : SlotRecord) : SlotRecord := { r with average := newAverage r, seeded := true, today := 0 }

/-- A rollover makes a reorder of the slot `x` due (R154, R159). -/
def rolloverDueAt (s : State) (x : Fin 64 × Consumable) : Bool :=
  s.slotLive x.1 x.2 && decide ((s.slotRecord x.1 x.2).reorder = .quiet) &&
    decide ((averaged (s.slotRecord x.1 x.2)).daysLeft ≤ (s.supply (s.slotRecord x.1 x.2).supply).leadDays)

/-- The record of the slot `x` after a rollover, its owed flag apart. -/
def rolloverAfter (s : State) (x : Fin 64 × Consumable) : SlotRecord :=
  if s.slotLive x.1 x.2 = true then
    { averaged (s.slotRecord x.1 x.2) with
      reorder := if rolloverDueAt s x then .due else (s.slotRecord x.1 x.2).reorder
      trigger := if rolloverDueAt s x then some .daysLeft else (s.slotRecord x.1 x.2).trigger }
  else s.slotRecord x.1 x.2

theorem rollover_not_live (h : s.slotLive x.1 x.2 = false) :
    rolloverAfter s x = s.slotRecord x.1 x.2 ∧ rolloverDueAt s x = false := by
  simp [rolloverAfter, rolloverDueAt, h]

theorem rolloverAfter_live (h : s.slotLive x.1 x.2 = true) :
    rolloverAfter s x =
      { averaged (s.slotRecord x.1 x.2) with
        reorder := if rolloverDueAt s x then .due else (s.slotRecord x.1 x.2).reorder
        trigger := if rolloverDueAt s x then some .daysLeft else (s.slotRecord x.1 x.2).trigger } := if_pos h

theorem rollover_live_not_due (hlive : s.slotLive x.1 x.2 = true) (hdue : rolloverDueAt s x = false) :
    rolloverAfter s x = averaged (s.slotRecord x.1 x.2) := by
  rw [rolloverAfter_live hlive, hdue]
  rfl

theorem rolloverSlot_live (h : s.slotLive x.1 x.2 = true) :
    s.rolloverSlot x.1 x.2 =
      if (averaged (s.slotRecord x.1 x.2)).daysLeft ≤ (s.supply (s.slotRecord x.1 x.2).supply).leadDays then
        (s.setSlotRecord x.1 x.2 (averaged (s.slotRecord x.1 x.2))).reorderDue x.1 x.2 .daysLeft
      else s.setSlotRecord x.1 x.2 (averaged (s.slotRecord x.1 x.2)) := if_pos h

theorem rolloverSlot_visited (s : State) (x : Fin 64 × Consumable) :
    SlotVisited x.1 x.2 (rolloverAfter s x) (rolloverDueAt s x) s (s.rolloverSlot x.1 x.2) := by
  cases hlive : s.slotLive x.1 x.2 with
  | false =>
    obtain ⟨hafter, hdue⟩ := rollover_not_live hlive
    rw [hafter, hdue, State.rolloverSlot, if_neg (by simp [hlive])]
    exact .of_written (.refl s _ _)
  | true =>
    have hwritten := setSlotRecord_written s x.1 x.2 (averaged (s.slotRecord x.1 x.2))
    rw [rolloverSlot_live hlive]
    split
    next hdays =>
      by_cases hquiet : (s.slotRecord x.1 x.2).reorder = .quiet
      · have hdue : rolloverDueAt s x = true := by simp [rolloverDueAt, hlive, hquiet, hdays]
        have hafter : rolloverAfter s x = { averaged (s.slotRecord x.1 x.2) with reorder := .due, trigger := some .daysLeft } := by
          simp [rolloverAfter_live hlive, hdue]
        rw [hafter, hdue]
        exact (reorderDue_quiet hwritten.record hquiet .daysLeft).after_write hwritten
      · have hdue : rolloverDueAt s x = false := by simp [rolloverDueAt, hquiet]
        rw [rollover_live_not_due hlive hdue, hdue,
          reorderDue_not_quiet (ne_of_eq_of_ne (congrArg SlotRecord.reorder hwritten.record) hquiet)]
        exact .of_written hwritten
    next hdays =>
      have hdue : rolloverDueAt s x = false := by simp [rolloverDueAt, hdays]
      rw [rollover_live_not_due hlive hdue, hdue]
      exact .of_written hwritten

/-- What a rollover does at a slot depends on the tables and the slot's own record. -/
theorem rollover_congr (htables : t.tables = s.tables) (hrecord : t.slotRecord x.1 x.2 = s.slotRecord x.1 x.2) :
    rolloverAfter t x = rolloverAfter s x ∧ rolloverDueAt t x = rolloverDueAt s x := by
  have hdue : rolloverDueAt t x = rolloverDueAt s x := by
    simp only [rolloverDueAt, slotLive_of_tables htables, supply_of_tables htables, hrecord]
  simp only [rolloverAfter, slotLive_of_tables htables, hrecord, hdue, and_self]

/-! ### All slots (R154) -/

/-- All slots, by printer slot and then K to FUSER (R154). -/
def allSlots : List (Fin 64 × Consumable) := (List.finRange 64).product consumables

theorem mem_allSlots (x : Fin 64 × Consumable) : x ∈ allSlots :=
  List.mem_product.2 ⟨List.mem_finRange x.1, by cases x.2 <;> decide⟩

theorem allSlots_nodup : allSlots.Nodup := (List.nodup_finRange 64).product (by decide)

theorem filter_allSlots (f : Fin 64 × Consumable → Bool) :
    allSlots.filter f = (List.finRange 64).flatMap fun p => (consumables.filter fun q => f (p, q)).map fun q => (p, q) := by
  rw [allSlots, List.product, List.filter_flatMap]
  exact List.flatMap_congr fun p _ => List.filter_map

theorem rollover_visited (s : State) : SlotsVisited allSlots (rolloverAfter s) (rolloverDueAt s) s s.rollover := by
  have hfold : s.rollover = allSlots.foldl (fun t x => t.rolloverSlot x.1 x.2) s := by
    simp only [State.rollover, allSlots, List.product, List.foldl_flatMap, List.foldl_map]
  rw [hfold]
  refine slotsVisited allSlots_nodup fun x _ t htables hrecord => ?_
  obtain ⟨hafter, hdue⟩ := rollover_congr htables hrecord
  rw [← hafter, ← hdue]
  exact rolloverSlot_visited t x

end

/-- The state in which one of the rollovers due has been taken (log entry 4). -/
def rolloverTaken (s : State) : State := { s with mu := { s.mu with rolloversDue := s.mu.rolloversDue - 1 } }

theorem execDayRollover_due {s : State} (h : 1 ≤ s.mu.rolloversDue) : exec .dayRollover s = .next (rolloverTaken s).rollover := by
  rw [exec, execDayRollover, if_neg (by omega)]
  rfl

/-- The frame of a rollover, told of the state before it was taken. -/
theorem frame_of_rolloverTaken {s t : State}
    (h : { t with slotRecords := (rolloverTaken s).slotRecords, mu := (rolloverTaken s).mu } = rolloverTaken s) :
    { t with mu := s.mu, slotRecords := s.slotRecords } = s :=
  congrArg (fun x : State => { x with mu := s.mu }) h

/-- Settles O14: `rollover_visited` from the state in which the rollover has been taken. -/
theorem rolloverAveragesUsage : Obligations.RolloverAveragesUsage := by
  intro s hcount
  have hvisited := rollover_visited (rolloverTaken s)
  refine ⟨_, execDayRollover_due hcount, ?_⟩
  generalize (rolloverTaken s).rollover = t at hvisited ⊢
  intro average left due all room'
  have hdue : ∀ p q, rolloverDueAt (rolloverTaken s) (p, q) = due p q := fun _ _ => rfl
  have hall : allSlots.filter (rolloverDueAt (rolloverTaken s)) = all := by
    simp only [filter_allSlots, hdue]
    rfl
  have hmu := hvisited.reports
  rw [hall] at hmu
  refine ⟨?_, ?_, ?_, ?_, fun p q hdead => ?_, fun p q hlive => ?_⟩
  · rw [hmu]
    rfl
  · exact frame_of_rolloverTaken hvisited.frame
  · rw [hmu]
    rfl
  · rw [hmu]
    rfl
  · obtain ⟨hafter, hnot⟩ := rollover_not_live (s := rolloverTaken s) (x := (p, q)) hdead
    exact (hvisited.record_not_due (mem_allSlots (p, q)) hnot).trans hafter
  · have hrecord := hvisited.record (p, q) (mem_allSlots (p, q))
    rw [hall, rolloverAfter_live (s := rolloverTaken s) (x := (p, q)) hlive, hdue] at hrecord
    exact hrecord

end Sys2Proof.Machine.Supplies
end

