-- ==== Sys2Proof/Proofs/Supplies/Rewrites.lean ====
section
/-! SUPPORT. In a canonical table a second write of an entry replaces the first, and so for a slot record. -/

namespace Sys2Proof.Machine.Supplies

section
variable {n : Nat} {α : Type} {i : Fin n} {v w : α} {l : List (Fin n × α)}

theorem insertCell_below (h : ∀ c ∈ l, i < c.1) : insertCell i v l = (i, v) :: l := by
  cases l with
  | nil => rfl
  | cons c rest => exact if_pos (h c List.mem_cons_self)

theorem filter_index_below (h : ∀ c ∈ l, i < c.1) : l.filter (fun c => c.1 != i) = l :=
  List.filter_eq_self.2 fun c hc => by simpa using ne_of_gt (h c hc)

theorem insertCell_insertCell (i : Fin n) (v w : α) (l : List (Fin n × α)) : insertCell i w (insertCell i v l) = insertCell i w l := by
  induction l with
  | nil => simp [insertCell]
  | cons c rest ih =>
    obtain ⟨k, x⟩ := c
    rcases lt_trichotomy i k with h | rfl | h
    · simp [insertCell, h]
    · simp [insertCell]
    · simp [insertCell, h.not_gt, h.ne', ih]

theorem filter_insertCell (i : Fin n) (v : α) (l : List (Fin n × α)) :
    (insertCell i v l).filter (fun c => c.1 != i) = l.filter (fun c => c.1 != i) := by
  induction l with
  | nil => simp [insertCell]
  | cons c rest ih =>
    obtain ⟨k, x⟩ := c
    rcases lt_trichotomy i k with h | rfl | h
    · simp [insertCell, h]
    · simp [insertCell]
    · simp [insertCell, h.not_gt, h.ne', h.ne, ih]

theorem insertCell_filter (h : l.Pairwise fun a b => a.1 < b.1) : insertCell i v (l.filter fun c => c.1 != i) = insertCell i v l := by
  induction l with
  | nil => rfl
  | cons c rest ih =>
    obtain ⟨hlow, hrest⟩ := List.pairwise_cons.1 h
    obtain ⟨k, x⟩ := c
    rcases lt_trichotomy i k with hik | rfl | hik
    · rw [filter_index_below]
      exact List.forall_mem_cons.2 ⟨hik, fun c hc => hik.trans (hlow c hc)⟩
    · simp [insertCell, filter_index_below hlow, insertCell_below hlow]
    · simp [insertCell, hik.not_gt, hik.ne, hik.ne', ih hrest]

/-- The last write of an entry decides. -/
theorem set_set [DecidableEq α] {d : Fin n → α} {t : Table n α} (h : t.wf d = true) (i : Fin n) (v w : α) :
    (t.set d i v).set d i w = t.set d i w := by
  have hsorted := ((Table.wf_iff d t).1 h).1
  by_cases hv : v = d i
  · by_cases hw : w = d i
    · simp [Table.set, hv, hw]
    · simp [Table.set, hv, hw, insertCell_filter hsorted]
  · by_cases hw : w = d i
    · simp [Table.set, hv, hw, filter_insertCell]
    · simp [Table.set, hv, hw, insertCell_insertCell]

end

theorem perSlot_set_set {α : Type} (x : PerSlot α) (q : Consumable) (v w : α) : (x.set q v).set q w = x.set q w := by
  cases q <;> rfl

theorem setSlotRecord_setSlotRecord {s : State} (h : s.slotRecords.wf (fun _ => slotRecordsPowerOn) = true) (p : Fin 64)
    (q : Consumable) (v w : SlotRecord) : (s.setSlotRecord p q v).setSlotRecord p q w = s.setSlotRecord p q w := by
  simp only [State.setSlotRecord, Table.get_set_same, perSlot_set_set, set_set h]

end Sys2Proof.Machine.Supplies
end

