-- ==== Sys2Proof/Proofs/Supplies/Fitting.lean ====
section
/-! SUPPORT. SLOT_FITTED: its body read, its tests in order, and the fitting that it declares (R158, R162). -/

namespace Sys2Proof.Machine.Supplies

open Callouts

section
variable {s : State} {f : CommandFrame} {p : Fin 64} {q : Consumable} {n : Nat} {x : Fin 64} {y : Option (Fin 64)}

/-! ### The body (R162, R182) -/

theorem supplyType?_val (x : Fin 64) : supplyType? x = some (some x) := by
  rw [supplyType?, if_neg (by omega), fin?_val, Option.map_some]

theorem supplyType?_none (h : 63 < n ∧ n ≠ 255) : supplyType? n = none := by
  rw [supplyType?, if_neg h.2, fin?, dif_neg (by omega), Option.map_none]

theorem parseSlotFitted_body (p : Fin 64) (q : Consumable) (hn : n ≤ 255) :
    parseSlotFitted (u8 p ++ u8 q.number ++ u8 n) = (supplyType? n).map fun y => (p, q, y) := by
  have hprinter : byteAt (u8 p ++ u8 q.number ++ u8 n) 0 = p := byteAt_u8 p (by omega)
  have hslot : byteAt (u8 p ++ u8 q.number ++ u8 n) 1 = q.number := byteAt_u8 _ (by cases q <;> decide)
  have htype : byteAt (u8 p ++ u8 q.number ++ u8 n) 2 = n := byteAt_u8 n hn
  have hlength : (u8 p ++ u8 q.number ++ u8 n).length = 3 := rfl
  rw [parseSlotFitted, if_pos hlength, hprinter, hslot, htype, fin?_val, consumableOf_number]
  cases supplyType? n <;> rfl

/-! ### The tests (R162) -/

theorem execSlotFitted_no_type (h : Commanded s 13 f) (hbody : f.body = u8 p ++ u8 q.number ++ u8 n) (hn : n ≤ 255)
    (htype : supplyType? n = none) : exec .slotFitted s = .next (s.tookUp.replied f .range .none) := by
  have hparse : parseSlotFitted f.body = none := by rw [hbody, parseSlotFitted_body p q hn, htype, Option.map_none]
  rw [exec, execSlotFitted, h.onCommand_range hparse]

theorem execSlotFitted_typed (h : Commanded s 13 f) (hbody : f.body = u8 p ++ u8 q.number ++ u8 n) (hn : n ≤ 255)
    (htype : supplyType? n = some y) :
    exec .slotFitted s = .next
      (if s.typeAccepted q y = false then s.tookUp.replied f .range .none
       else if s.printerDefined p = false then s.tookUp.replied f .absent .none
       else if ((s.printer p).slotMap.get q).fitted = false then s.tookUp.replied f .state .none
       else (s.tookUp.declareFitting p q y).replied f .done .none) := by
  have hparse : parseSlotFitted f.body = some (p, q, y) := by rw [hbody, parseSlotFitted_body p q hn, htype, Option.map_some]
  rw [exec, execSlotFitted, h.onCommand hparse]
  simp only [State.reply_eq]
  cases y <;> rfl

/-- The statement's two ways to name the type `x`: by its number, and as the slot's default. -/
theorem typeAccepted_of_named
    (h : (n = x ∧ (s.supply x).state = .defined ∧ (s.supply x).kind = q) ∨
      (n = 255 ∧ x = ((s.printer p).slotMap.get q).defaultType)) :
    ∃ y, supplyType? n = some y ∧ s.typeAccepted q y = true ∧ y.getD ((s.printer p).slotMap.get q).defaultType = x := by
  rcases h with ⟨rfl, hdefined, hkind⟩ | ⟨rfl, rfl⟩
  · exact ⟨some x, supplyType?_val x, by simp [State.typeAccepted, State.supplyFits, hdefined, hkind], rfl⟩
  · exact ⟨none, rfl, rfl, rfl⟩

/-! ### The fitting (R158) -/

/-- The record after a declared fitting of type `x` (R158, R162). -/
def declaredRecord (s : State) (p : Fin 64) (q : Consumable) (x : Fin 64) : SlotRecord :=
  { (s.slotRecord p q).fit x (s.supply x).ratedYield with commandFit := true }

/-- What is kept of a declared fitting (R158). -/
def declaredFitting (s : State) (p : Fin 64) (q : Consumable) : OwedFitted :=
  ⟨(s.slotRecord p q).reorder, (s.slotRecord p q).orderRef, .command, s.mu.clock⟩

/-- The desk had been told of a reorder (R158). -/
def ReorderTold (r : SlotRecord) : Prop := r.reorder ≠ .quiet ∧ r.owedReorder = false

theorem not_reorderTold {r : SlotRecord} (h : ¬ReorderTold r) : r.reorder = .quiet ∨ r.owedReorder = true := by
  rwa [ReorderTold, not_and_or, not_not, Bool.not_eq_false] at h

theorem declareFitting_untold (hwf : s.slotRecords.wf (fun _ => slotRecordsPowerOn) = true)
    (htype : y.getD ((s.printer p).slotMap.get q).defaultType = x) (h : ¬ReorderTold (s.slotRecord p q)) :
    s.declareFitting p q y = s.setSlotRecord p q (declaredRecord s p q x) := by
  simp only [State.declareFitting, htype, State.fitting, if_pos (not_reorderTold h), State.setSlotRecord_slotRecord,
    setSlotRecord_setSlotRecord hwf]
  rfl

/-- With room the FITTED notice is queued (R158). -/
theorem declareFitting_queued (hwf : s.slotRecords.wf (fun _ => slotRecordsPowerOn) = true)
    (htype : y.getD ((s.printer p).slotMap.get q).defaultType = x) (h : ReorderTold (s.slotRecord p q))
    (hroom : s.mu.reports.length < 64) :
    s.declareFitting p q y =
      (s.pushReport (.fitted
        ⟨p, (s.printer p).station, (s.printer p).zone, q, declaredFitting s p q, x, (s.supply x).ratedYield,
          (s.slotRecord p q).lastSerial, (s.slotRecord p q).lastLevel⟩)).setSlotRecord p q (declaredRecord s p q x) := by
  have htold : ¬((s.slotRecord p q).reorder = .quiet ∨ (s.slotRecord p q).owedReorder = true) := by simp [h.1, h.2]
  have hreport : s.reportRoom = true := decide_eq_true hroom
  have hfitting : s.fitting p q x .command =
      (s.setSlotRecord p q ((s.slotRecord p q).fit x (s.supply x).ratedYield)).pushReport (.fitted
        ⟨p, (s.printer p).station, (s.printer p).zone, q, declaredFitting s p q, x, (s.supply x).ratedYield,
          (s.slotRecord p q).lastSerial, (s.slotRecord p q).lastLevel⟩) := by
    simp only [State.fitting, if_neg htold, if_pos hreport, State.fittedNotice, State.setSlotRecord_slotRecord]
    rfl
  have hrecord : ∀ b v, ((s.setSlotRecord p q v).pushReport b).slotRecord p q = v := fun b v => s.setSlotRecord_slotRecord p q v
  have hwrite : ∀ b v w, ((s.setSlotRecord p q v).pushReport b).setSlotRecord p q w = (s.pushReport b).setSlotRecord p q w :=
    fun b v w => congrArg (State.pushReport · b) (setSlotRecord_setSlotRecord hwf p q v w)
  simp only [State.declareFitting, htype, hfitting, hrecord, hwrite]
  rfl

/-- Without room the FITTED notice is owed (R158). -/
theorem declareFitting_owed (hwf : s.slotRecords.wf (fun _ => slotRecordsPowerOn) = true)
    (htype : y.getD ((s.printer p).slotMap.get q).defaultType = x) (h : ReorderTold (s.slotRecord p q))
    (hfull : 64 ≤ s.mu.reports.length) :
    s.declareFitting p q y =
      s.setSlotRecord p q { declaredRecord s p q x with owedFitted := some (declaredFitting s p q) } := by
  have htold : ¬((s.slotRecord p q).reorder = .quiet ∨ (s.slotRecord p q).owedReorder = true) := by simp [h.1, h.2]
  have hreport : ¬s.reportRoom = true := by simpa [State.reportRoom] using hfull
  simp only [State.declareFitting, htype, State.fitting, if_neg htold, if_neg hreport, State.setSlotRecord_slotRecord,
    setSlotRecord_setSlotRecord hwf]
  rfl

end

/-- Settles O46: the tests by `execSlotFitted_typed`, the three forms of the fitting by the `declareFitting` lemmas. -/
theorem fittingIsDeclared : Obligations.FittingIsDeclared := by
  intro s f p q n hcommand hbody hn
  refine ⟨fun hout => execSlotFitted_no_type hcommand hbody hn (supplyType?_none hout), fun x hx hunfit => ?_, fun x hnamed => ?_⟩
  · subst hx
    have hrefused : s.typeAccepted q (some x) = false := by
      rcases hunfit with hempty | hkind
      · simp [State.typeAccepted, State.supplyFits, hempty]
      · simp [State.typeAccepted, State.supplyFits, hkind]
    rw [execSlotFitted_typed hcommand hbody hn (supplyType?_val x), if_pos hrefused]
  · obtain ⟨y, hy, haccepted, htype⟩ := typeAccepted_of_named hnamed
    have hexec := execSlotFitted_typed hcommand hbody hn hy
    rw [if_neg (by simp [haccepted])] at hexec
    refine ⟨fun hempty => ?_, fun hdefined hunfitted => ?_, fun hdefined hfitted hwf => ?_⟩
    · rw [hexec, if_pos (by simp [State.printerDefined, hempty])]
    · rw [hexec, if_neg (by simp [State.printerDefined, hdefined]), if_pos hunfitted]
    · rw [if_neg (by simp [State.printerDefined, hdefined]), if_neg (by simp [hfitted])] at hexec
      refine ⟨fun huntold => ?_, fun htold hroom => ?_, fun htold hfull => ?_⟩
      · rw [hexec, declareFitting_untold (s := s.tookUp) hwf htype huntold]
        rfl
      · rw [hexec, declareFitting_queued (s := s.tookUp) hwf htype htold hroom]
        rfl
      · rw [hexec, declareFitting_owed (s := s.tookUp) hwf htype htold hfull]
        rfl

end Sys2Proof.Machine.Supplies
end
